-- ==== Sys2Proof/Word.lean ====
section
/-! DEFINITION. The word types of the Opulo: bytes, lane words, engine words, register numbers (R6, R39, R55). -/

namespace Sys2Proof

/-- One byte of memory. -/
abbrev Byte := BitVec 8

/-- A 64-bit word: an integer register, a CSR, a lane word. -/
abbrev Word := BitVec 64

/-- One instruction of the control core (R52). -/
abbrev Inst := BitVec 32

/-- One 96-bit engine word (R55). -/
abbrev EngineWord := BitVec 96

/-- The number of an integer register (R13). -/
abbrev Reg := BitVec 5

end Sys2Proof
end

