-- ==== Sys2Proof/Syntax.lean ====
section
/-! DEFINITION. The instruction set: one constructor of `Instr` for each row of spec/opcode_table.json.
Three kinds of rows: instructions of the control core (R52-R54), engine commands (R55-R59), and steps of the hardware,
the firmware and the host (95_what_each_step_holds.md). Fields hold the stored bits of their encoding; a count that the
manual stores minus one is stored minus one here. Who acts (the tile, the context, the engine) is in the state. -/

namespace Sys2Proof

/-- The engine ids of R4. -/
inductive Engine | se | me | ae | ce | sa | ne | tk
deriving DecidableEq, Repr

/-- An extent word (R57): length = (len + 1) * 2^gran. -/
structure Ext where
  gran : BitVec 5
  len : BitVec 14
  base : Word
deriving DecidableEq, Repr

/-- The loads of RV64I (R85). -/
inductive LoadOp | b | h | w | d | bu | hu | wu
deriving DecidableEq, Repr

/-- The stores of RV64I (R85). -/
inductive StoreOp | b | h | w | d
deriving DecidableEq, Repr

/-- The conditions of the branches of RV64I. -/
inductive BranchOp | eq | ne | lt | ge | ltu | geu
deriving DecidableEq, Repr

/-- Jumps and branches of RV64I, with their immediates as the encoding gives them (in units of 2 bytes where the
encoding drops bit 0). -/
inductive Jump
  | jal (rd : Reg) (imm : BitVec 20)
  | jalr (rd rs1 : Reg) (imm : BitVec 12)
  | branch (op : BranchOp) (rs1 rs2 : Reg) (imm : BitVec 12)
deriving DecidableEq, Repr

/-- Register-immediate operations of RV64I with a 12-bit immediate. -/
inductive AluImm | addi | slti | sltiu | xori | ori | andi | addiw
deriving DecidableEq, Repr

/-- Shifts by an immediate. -/
inductive ShiftImm | slli | srli | srai
deriving DecidableEq, Repr

/-- Register-register operations of RV64I and M. -/
inductive AluReg
  | add | sub | sll | slt | sltu | xor | srl | sra | or | and
  | addw | subw | sllw | srlw | sraw
  | mul | mulh | mulhsu | mulhu | div | divu | rem | remu
  | mulw | divw | divuw | remw | remuw
deriving DecidableEq, Repr

/-- The integer operations of RV64IM (R85). -/
inductive IntOp
  | imm (op : AluImm) (rd rs1 : Reg) (imm : BitVec 12)
  | shift (op : ShiftImm) (rd rs1 : Reg) (sh : BitVec 6)
  | shiftw (op : ShiftImm) (rd rs1 : Reg) (sh : BitVec 5)
  | reg (op : AluReg) (rd rs1 rs2 : Reg)
  | lui (rd : Reg) (imm : BitVec 20)
  | auipc (rd : Reg) (imm : BitVec 20)
deriving DecidableEq, Repr

/-- The six forms of the CSR instructions; `src` of a form is rs1 or uimm. -/
inductive CsrForm | rw | rs | rc | rwi | rsi | rci
deriving DecidableEq, Repr

/-- A dimension word of a pattern stream (R125). -/
structure Dim where
  n : BitVec 16
  s : BitVec 40
deriving DecidableEq, Repr

/-- `se.aff` (R124-R126). -/
structure AffCmd where
  dir : Bool
  port : BitVec 5
  esize : BitVec 2
  pkt : BitVec 3
  start : Bool
  fin : Bool
  pois : Bool
  sid : BitVec 9
  n0 : BitVec 16
  s0 : BitVec 19
  off : BitVec 20
  ext : Ext
  dims : List Dim
deriving DecidableEq, Repr

/-- `se.ind` (R124, R127): `tail` holds RSTRIDE (word 2) and IBIAS (word 3). -/
structure IndCmd where
  dir : Bool
  port : BitVec 5
  esize : BitVec 2
  pkt : BitVec 3
  start : Bool
  fin : Bool
  pois : Bool
  iw : BitVec 2
  sid : BitVec 9
  isrc : BitVec 9
  iport : Bool
  rowlen : BitVec 13
  nidx : BitVec 32
  ext : Ext
  tail : Option (BitVec 40 × Option (BitVec 32))
deriving DecidableEq, Repr

/-- `se.rec` (R129). -/
structure RecCmd where
  dst : BitVec 5
  src : BitVec 5
  start : Bool
  sid : BitVec 9
  ninit : BitVec 16
  nfwd : BitVec 32
  init : Option Word
deriving DecidableEq, Repr

/-- `se.mcast` (R124, R130): `tail` holds TMASK (word 2) and dimension 1 (word 3). -/
structure McastCmd where
  port : BitVec 5
  esize : BitVec 2
  pkt : BitVec 3
  start : Bool
  fin : Bool
  pois : Bool
  sid : BitVec 9
  n0 : BitVec 16
  s0 : BitVec 19
  off : BitVec 20
  ext : Ext
  tail : Option (BitVec 24 × Option Dim)
deriving DecidableEq, Repr

/-- `se.bar` (R138). -/
structure BarCmd where
  arr : Bool
  wait : Bool
  scope : BitVec 4
  gen : BitVec 16
  count : BitVec 8
  bar : BitVec 7
deriving DecidableEq, Repr

/-- Word 3 of a strided `ce.copy` (R142). -/
structure Strided where
  dstr : Bool
  n1 : BitVec 12
  n2 : BitVec 12
  s1 : BitVec 20
  s2 : BitVec 20
deriving DecidableEq, Repr

/-- `ce.copy` (R142). -/
structure CopyCmd where
  sywen : Bool
  sywl2 : Bool
  pois : Bool
  sywoff : BitVec 20
  row : BitVec 40
  src : Ext
  dst : Ext
  strided : Option Strided
deriving DecidableEq, Repr

/-- `ce.fill` (R144). -/
structure FillCmd where
  sywen : Bool
  sywl2 : Bool
  pois : Bool
  psize : BitVec 2
  sywoff : BitVec 20
  bytes : BitVec 40
  dst : Ext
  pat : Option Word
deriving DecidableEq, Repr

/-- `ae.stat` (R160, R165). -/
structure StatCmd where
  wait : Bool
  clr : Bool
  ext : Option Ext
deriving DecidableEq, Repr

/-- `me.wld` (R203). -/
structure WldCmd where
  fmt : BitVec 4
  swap : Bool
  pois : Bool
  ip : Bool
  hist : Bool
  srcp : Bool
  ext : Ext
  cstride : Option (BitVec 40)
deriving DecidableEq, Repr

/-- `me.spw` (R203). -/
structure SpwCmd where
  fmt : BitVec 4
  swap : Bool
  pois : Bool
  ip : Bool
  hist : Bool
  srcp : Bool
  ext : Ext
  mext : Option Ext
  cstride : Option (BitVec 40)
deriving DecidableEq, Repr

/-- `me.scl` (R206). -/
structure SclCmd where
  mode : BitVec 2
  scale : BitVec 32
  ext : Option Ext
deriving DecidableEq, Repr

/-- `me.acc` (R208). -/
structure AccCmd where
  bank : Bool
  init : BitVec 2
  int : Bool
  sat : Bool
  nrows : BitVec 8
  initv : Option (BitVec 32)
deriving DecidableEq, Repr

/-- `me.row` (R210). -/
structure RowCmd where
  bank : Bool
  afmt : BitVec 4
  count : BitVec 32
  base : BitVec 8
  rstep : Option (BitVec 8)
deriving DecidableEq, Repr

/-- `me.gath` (R210). -/
structure GathCmd where
  bank : Bool
  afmt : BitVec 4
  iw : Bool
  count : BitVec 32
  base : BitVec 8
  ibias : Option (BitVec 32)
deriving DecidableEq, Repr

/-- `me.end` (R213). -/
structure EndCmd where
  bank : Bool
  ofmt : BitVec 3
  rnd : BitVec 3
  sat : Bool
  noscl : Bool
  drop : Bool
deriving DecidableEq, Repr

/-- `me.rec.rec` and `me.rec.scan` (R216). -/
structure MeRecCmd where
  cin : BitVec 2
  chain : Bool
  afmt : BitVec 4
  t : BitVec 32
  initv : Option (BitVec 32)
deriving DecidableEq, Repr

/-- `me.pat` (R218). -/
structure PatCmd where
  bank : Bool
  afmt : BitVec 4
  ip : Bool
  tid : BitVec 24
  trow : BitVec 8
  tcol : BitVec 8
  count : BitVec 16
  base : BitVec 8
  ext : Ext
deriving DecidableEq, Repr

/-- `me.pcomp` (R271). -/
structure PcompCmd where
  fmt : BitVec 4
  wait : Bool
  tid : BitVec 24
  trow : BitVec 8
  tcol : BitVec 8
  ext : Ext
deriving DecidableEq, Repr

/-- `me.dg` (R221). -/
structure DgCmd where
  fmt : BitVec 4
  pois : Bool
  kcnt : BitVec 15
  ext : Ext
  gmin : Option (BitVec 32)
deriving DecidableEq, Repr

/-- Word 2 of `sa.op` (R230). -/
structure SaResp where
  csrc : BitVec 10
  rsid : BitVec 9
  rport : BitVec 5
deriving DecidableEq, Repr

/-- `sa.op` (R230), less its operation. -/
structure SaOpCmd where
  type : BitVec 4
  iw : BitVec 2
  sat : Bool
  nomrg : Bool
  isrc : BitVec 10
  vsrc : BitVec 10
  n : BitVec 32
  ext : Ext
  resp : Option SaResp
deriving DecidableEq, Repr

/-- `sa.hash` (R235). -/
structure HashCmd where
  ksrc : BitVec 10
  vsrc : BitVec 10
  rbase : BitVec 32
  estart : BitVec 32
  ext : Ext
  rcd : Option Ext
  hmul : Option (BitVec 32)
deriving DecidableEq, Repr

/-- `sa.rehash` (R238). -/
structure RehashCmd where
  hmul : BitVec 32
  old : Ext
  new : Ext
deriving DecidableEq, Repr

/-- `ne.gath` and `ne.scat` (R239). `mid` is O[53:44]; `b30` is START or ACC; `b29` is END of a gather. -/
structure NeMoveCmd where
  iw : BitVec 2
  shard : Bool
  dmem : Bool
  port : BitVec 5
  scope : BitVec 4
  pois : Bool
  sh : BitVec 6
  isrc : BitVec 10
  mid : BitVec 10
  rowlw : BitVec 13
  b30 : Bool
  b29 : Bool
  atype : BitVec 4
  nidx : BitVec 12
  ext : Ext
  ext1 : Option Ext
  rstride : Option (BitVec 40)
deriving DecidableEq, Repr

/-- `ne.red` (R244), less its operation. -/
structure RedCmd where
  type : BitVec 4
  sat : Bool
  rooted : Bool
  scope : BitVec 4
  gid : BitVec 16
  part : BitVec 12
  ext : Ext
  root : Option (BitVec 32)
deriving DecidableEq, Repr

/-- `ne.smrg` (R246). -/
structure SmrgCmd where
  type : BitVec 4
  sat : Bool
  scope : BitVec 4
  thr : BitVec 4
  gid : BitVec 16
  part : BitVec 12
  nwin : BitVec 16
  ext : Ext
  nin : Option (BitVec 32)
deriving DecidableEq, Repr

/-- `ne.xrd` (R252), less its kind. `tail` is word 3: SYWOFF and ID. -/
structure XrdCmd where
  grant : BitVec 5
  scope : BitVec 4
  sywen : Bool
  addr : Word
  dst : Ext
  rcd : Ext
  tail : Option (BitVec 20 × BitVec 32)
deriving DecidableEq, Repr

/-- `tk.match` (R277). -/
structure MatchCmd where
  kfmt : BitVec 4
  map : BitVec 4
  parent : BitVec 5
  n : BitVec 12
  rcnt : BitVec 12
  d : BitVec 10
  ext : Ext
  rstride : Option (BitVec 40)
deriving DecidableEq, Repr

/-- `tk.merge` and `tk.untack` (R277); `chain` is CHAIN of an untack. -/
structure TkRowsCmd where
  fmt : BitVec 4
  map : BitVec 4
  pmode : Bool
  port : BitVec 5
  chain : Bool
  f : BitVec 14
  sid : BitVec 9
  ext : Ext
  rstride : Option (BitVec 40)
deriving DecidableEq, Repr

/-- `tk.bias` (R277): the two-word form has an extent. -/
structure BiasCmd where
  fmt : BitVec 4
  map : BitVec 4
  port : BitVec 5
  sid : BitVec 9
  ext : Option Ext
deriving DecidableEq, Repr

/-- A PCIe port: false is port 0, true is port 1 (R378). -/
abbrev HostPort := Bool

/-- A power or service unit that holds a state of R394. -/
inductive PowerUnit
  | tile (t : Nat)
  | island (i : Nat)
  | cluster (c : Nat)
  | hbm
  | deepIdle
deriving DecidableEq, Repr

/-- A partition of R323. -/
inductive Partition
  | tile (t : Nat)
  | cluster (c : Nat)
  | router (c : Nat)
  | hbm (s : Nat)
  | ualink (p : Nat)
deriving DecidableEq, Repr

/-- Where a correctable error is met (R321). -/
inductive ErrorSite
  | secded (key : Nat)
  | icache (tile : Nat)
  | hbmSymbol (key : Nat)
deriving DecidableEq, Repr

/-- The links of R321 and R377 that retry a flit. -/
inductive LinkId
  | mesh (router : Nat) (dir : BitVec 2)
  | chain (tile : Nat)
  | stream (tile : Nat)
  | ualink (port : Nat)
deriving DecidableEq, Repr

/-- A link between two UALink ports of two modules, as the pod descriptor or discovery gives it (R375). -/
structure PodLink where
  modA : Nat
  portA : Nat
  modB : Nat
  portB : Nat
deriving DecidableEq, Repr

/-- The pod descriptor (R375): the logical numbers of the physical modules, the port links and HOPW. -/
structure PodDesc where
  modules : List (Nat × Nat)
  links : List PodLink
  hopw : Nat
deriving DecidableEq, Repr

/-- A checkpoint (R325, R384): the bytes of the request that name the safe tier, and whether the UALink links hold to its end. -/
structure CheckpointOrder where
  tier : List Byte
  complete : Bool
deriving DecidableEq, Repr

/-- The instruction set: one constructor for each row of spec/opcode_table.json. -/
inductive Instr
  -- the control extension (R54)
  | enq (e : Engine) (rd rs1 rs2 : Reg)
  | enqL (e : Engine) (rd rs1 rs2 : Reg)
  | sect (e : Engine) (rd rs1 : Reg)
  | qcancel (e : Engine) (rd rs1 : Reg)
  | qstat (e : Engine) (rd : Reg) (sel : Bool)
  | fork (rd rs1 rs2 : Reg)
  | rdv (rd rs1 : Reg)
  | yield
  | trigger
  | waitdep (rd : Reg)
  | cwait (rd rs1 : Reg)
  | contract (rd rs1 : Reg)
  | flgGather (rd rs1 rs2 : Reg)
  | lxTret
  | barArr (rd rs1 : Reg) (bar : BitVec 7) (scope : BitVec 4)
  | barWait (rd rs1 : Reg) (bar : BitVec 7)
  | sywArm (rs1 rs2 : Reg)
  | sywWait (rd rs1 rs2 : Reg) (scope : BitVec 4)
  | ldAcqB (rd rs1 : Reg) (off : BitVec 8) (scope : BitVec 4)
  | ldAcqH (rd rs1 : Reg) (off : BitVec 8) (scope : BitVec 4)
  | ldAcqW (rd rs1 : Reg) (off : BitVec 8) (scope : BitVec 4)
  | ldAcqD (rd rs1 : Reg) (off : BitVec 8) (scope : BitVec 4)
  | ldAcqBu (rd rs1 : Reg) (off : BitVec 8) (scope : BitVec 4)
  | ldAcqHu (rd rs1 : Reg) (off : BitVec 8) (scope : BitVec 4)
  | ldAcqWu (rd rs1 : Reg) (off : BitVec 8) (scope : BitVec 4)
  | stRelB (rs2 rs1 : Reg) (off : BitVec 8) (scope : BitVec 4)
  | stRelH (rs2 rs1 : Reg) (off : BitVec 8) (scope : BitVec 4)
  | stRelW (rs2 rs1 : Reg) (off : BitVec 8) (scope : BitVec 4)
  | stRelD (rs2 rs1 : Reg) (off : BitVec 8) (scope : BitVec 4)
  | fenceSc (scope : BitVec 4)
  | fenceAcq (scope : BitVec 4)
  | fenceRel (scope : BitVec 4)
  | launch (rd rs1 rs2 rs3 : Reg)
  -- the base instruction set (R52, R85)
  | fence (fm pred succ : BitVec 4) (rd rs1 : Reg)
  | ecallExit
  | ecallAbort
  | ecallReserved
  | ebreak
  | load (op : LoadOp) (rd rs1 : Reg) (imm : BitVec 12)
  | store (op : StoreOp) (rs1 rs2 : Reg) (imm : BitVec 12)
  | jumpBranch (j : Jump)
  | integerOperation (op : IntOp)
  | illegalInstruction (bits : Inst)
  | lxFlagsWrite (form : CsrForm) (rd src : Reg)
  | lxFwshareWrite (form : CsrForm) (rd src : Reg)
  | csrWrite (form : CsrForm) (csr : BitVec 12) (rd src : Reg)
  -- waits that end, and events at a context (95_what_each_step_holds.md)
  | enqStallEnd
  | rdvReturn
  | barWaitPass
  | sywWaitPass
  | waitdepPass
  | cwaitReturn
  | flgGatherReturn
  | exitComplete
  | parkThresholdExpiry
  | engineFaultDelivery
  -- engine queues and forked programs
  | sectionHeader (e : Engine)
  | engineNop (e : Engine)
  | programCall (e : Engine) (count : BitVec 16) (addr : Word)
  | programFetch (e : Engine)
  | sectionStart (e : Engine)
  | sectionRetire (e : Engine)
  -- stream engine
  | seAff (c : AffCmd)
  | seInd (c : IndCmd)
  | seRec (c : RecCmd)
  | seMcast (c : McastCmd)
  | seBar (c : BarCmd)
  | seGatePause (sid : BitVec 9)
  | seGateResume (sid : BitVec 9)
  | seGateFinish (sid : BitVec 9)
  | seBarDrained
  | streamRequestIssue (slot : Nat)
  | memoryReadReturn (e : Engine) (slot : Nat) (req : Nat)
  | streamDelivery (slot : Nat)
  | writeStreamUnpack (slot : Nat)
  | recurrenceForward (slot : Nat)
  | streamComplete (slot : Nat)
  -- copy engine
  | ceCopy (c : CopyCmd)
  | ceFill (c : FillCmd)
  | copyChunkWrite (slot : Nat)
  -- array engine and dataflow array
  | aeCfg (skip : Bool) (ext : Ext)
  | aeCfgLoad
  | aeInv (omask : BitVec 8) (n : BitVec 16)
  | endClaim
  | aeEnd (imask : BitVec 8)
  | aeEndFlush (imask : BitVec 8)
  | aeEndStart (imask : BitVec 8)
  | aeGateOpen (pmask : BitVec 16)
  | aeGateClose (pmask : BitVec 16)
  | aeStat (c : StatCmd)
  | groupFiring (g : BitVec 3)
  | drainingFiring (g : BitVec 3)
  | markerHead (g : BitVec 3)
  | linkPacketArrival (link : Nat)
  | controlTransferArrival (link : Nat)
  | snapshot (g : BitVec 3)
  -- matrix engine and pattern compiler
  | meWld (c : WldCmd)
  | meSpw (c : SpwCmd)
  | meScl (c : SclCmd)
  | swapTokenPass
  | meAcc (c : AccCmd)
  | meRow (c : RowCmd)
  | meGath (c : GathCmd)
  | accumulatorWrite
  | meEnd (c : EndCmd)
  | meRecRec (c : MeRecCmd)
  | meRecScan (c : MeRecCmd)
  | mePat (c : PatCmd)
  | mePcomp (c : PcompCmd)
  | meDg (c : DgCmd)
  | patternCompile
  | patternCompileComplete
  -- scatter-accumulate engine
  | saOpAdd (c : SaOpCmd)
  | saOpMin (c : SaOpCmd)
  | saOpMax (c : SaOpCmd)
  | saOpOr (c : SaOpCmd)
  | saOpAnd (c : SaOpCmd)
  | saOpXor (c : SaOpCmd)
  | saOpXchg (c : SaOpCmd)
  | saOpCas (c : SaOpCmd)
  | saHash (c : HashCmd)
  | saRehash (c : RehashCmd)
  -- network engine
  | neGath (c : NeMoveCmd)
  | neScat (c : NeMoveCmd)
  | gatherReply (slot : Nat) (row : Nat)
  | neRedSum (c : RedCmd)
  | neRedMin (c : RedCmd)
  | neRedMax (c : RedCmd)
  | neSmrg (c : SmrgCmd)
  | routerCombine (round : Nat) (router : Nat)
  | collectiveResult (round : Nat)
  | neFlag (contribution : Word) (ext : Ext)
  | neTok (scope : BitVec 4) (count : BitVec 16) (addr : Word)
  | neXrdNvme (c : XrdCmd)
  | neXrdRdma (c : XrdCmd)
  | xrdCompletion (pair : Nat) (cqe : List Byte)
  | xrdTimeout (id : Nat)
  | bar4PeerWrite (addr : BitVec 32) (data : List Byte)
  -- tacking unit
  | tkMatch (c : MatchCmd)
  | tkMerge (c : TkRowsCmd)
  | tkBias (c : BiasCmd)
  | tkUntack (c : TkRowsCmd)
  | tkKeep (map : BitVec 4)
  | tkFree (map : BitVec 4)
  -- scheduling, save and restore
  | schedulingPass
  | launchLoadAck (tile : Nat)
  | doorbellRing (space : Nat) (addr : Word)
  | tileSave (tile : Nat)
  | whistleTimeout (region : Nat)
  | fmcFailover
  | shootdown (tile : Nat) (space : Nat) (va : Word)
  | frameRetire (frame : Nat)
  -- hardware errors
  | uncorrectableError (key : Nat)
  | correctableError (site : ErrorSite)
  | partitionFreeze (p : Partition)
  | partitionClockGate (p : Partition)
  | partitionRecovery (p : Partition) (differs : Bool)
  | tileSparing (cluster : Nat) (tile : Nat)
  | linkParityError (l : LinkId)
  | meshLaneFailure (router : Nat) (dir : BitVec 2)
  | ualinkLaneFailure (port : Nat)
  -- UALink
  | landingRecord (port : Nat) (srcPort : Nat) (write : List Word)
  | creditReturn (port : Nat)
  | ualinkAtomicReceived (port : Nat) (addr : Word)
  | topologyDiscovery (trained : List Nat) (found : List PodLink)
  -- reset, host attachment, ownership
  | powerOnReset
  | pcieLinkReset (p : HostPort)
  | claimOffer (p : HostPort) (v : Word)
  | claimConfirm (p : HostPort) (v : Word)
  | lease (p : HostPort) (v : Word)
  | leaseExpired
  | handover (p : HostPort) (v : Word)
  | handoverCancel (p : HostPort) (v : Word)
  | bar0RegisterWrite (p : HostPort) (offset : Nat) (v : Word)
  | hostBar2Access (p : HostPort) (offset : Nat) (write : Bool) (data : List Byte)
  | boot (p : HostPort) (offset len : Nat)
  | attest (p : HostPort) (nonce : BitVec 256)
  | release (p : HostPort) (msg : List Byte) (sig : List Byte)
  | recover (p : HostPort) (msg : List Byte) (sig : List Byte)
  | enrol (p : HostPort) (key : List Byte) (paramSet : BitVec 8) (ownerId : Word)
  | update (p : HostPort) (image : List Byte)
  | lqCreate (p : HostPort) (space : Nat) (ring : Word) (log2 : Nat) (doorbell : Word)
  | lqDestroy (p : HostPort) (queue : Nat)
  | map (p : HostPort) (root : Word) (va : Word) (len : Nat) (page : BitVec 2) (w : Bool) (source : Option Nat)
  | unmap (p : HostPort) (root : Word) (va : Word) (len : Nat)
  | hostwin (p : HostPort) (space : Nat) (va : Word) (len : Nat) (offset : Nat)
  | grant (p : HostPort) (payload : List Byte)
  | revoke (p : HostPort) (payload : List Byte)
  | pod (p : HostPort) (d : PodDesc)
  | checkpoint (p : HostPort) (order : CheckpointOrder)
  | policy (p : HostPort) (quantum : Nat)
  | root (p : HostPort) (addr : Word)
  | power (p : HostPort) (payload : List Byte)
  | drain (p : HostPort) (payload : List Byte)
  | undrain (p : HostPort) (payload : List Byte)
  | spare (p : HostPort) (payload : List Byte)
  | portdown (p : HostPort) (payload : List Byte)
  | portup (p : HostPort) (payload : List Byte)
  | retire (p : HostPort) (payload : List Byte)
  | reset (p : HostPort) (payload : List Byte)
  | powerStateEntry (u : PowerUnit)
  | powerStateExit (u : PowerUnit)
  | droopDetect (island : Nat)
  | translationWalkEnd
  | safeTierAccess (port : Nat) (module : Nat) (addr : Word) (write : Bool) (data : List Byte)
  | powerLoss
  | pcieLinkTraining (p : HostPort)
deriving DecidableEq, Repr

end Sys2Proof
end

