-- ==== Sys2Proof/Decode.lean ====
section
/-! DEFINITION. From bits to instructions and back: the control core's 32-bit instructions (R52-R54) and the engines'
commands of one to four 96-bit words (R55-R60). The decoders refuse what is no instruction, by name. -/

namespace Sys2Proof

/-- Why the control core's decoder refuses a word (R52, R54, R65). -/
inductive Reject
  | compressed
  | longEncoding
  | unassignedMajor
  | unassignedFunct
  | mustBeZero
  | reservedEngine
  | qstatSelector
  | fenceKind
  | system
  | csrNumber
deriving DecidableEq, Repr

/-- Bits [lo + n - 1 : lo] of an instruction. -/
def bits (w : Inst) (lo n : Nat) : BitVec n := w.extractLsb' lo n

/-- The engine of an id of R4. -/
def Engine.ofId : Nat → Option Engine
  | 0 => some .se | 1 => some .me | 2 => some .ae | 3 => some .ce | 4 => some .sa | 5 => some .ne | 6 => some .tk
  | _ => none

/-- The id of R4. -/
def Engine.id : Engine → Nat
  | .se => 0 | .me => 1 | .ae => 2 | .ce => 3 | .sa => 4 | .ne => 5 | .tk => 6

/-- The CSR numbers that R15 and R52 list. -/
def csrListed (n : BitVec 12) : Bool :=
  n = 0xC00 || n = 0xC02 || n = 0x800 || n = 0x801 || n = 0x802 || n = 0x803 || n = 0x804 || n = 0x805 || n = 0x8F0 ||
  n = 0xCC0 || n = 0xCC1 || n = 0xCC2 || (0xCC8 ≤ n && n ≤ 0xCCE)

/-- Whether a CSR form with this source field writes (R91). -/
def CsrForm.writes (f : CsrForm) (src : Reg) : Bool :=
  match f with
  | .rw => true
  | .rwi => true
  | _ => src ≠ 0

/-- Custom-0 (R54): the queue instructions. -/
def decodeCustom0 (w : Inst) : Except Reject Instr :=
  let rd := bits w 7 5
  let rs1 := bits w 15 5
  let rs2 := bits w 20 5
  match Engine.ofId (bits w 12 3).toNat with
  | none => .error .reservedEngine
  | some e =>
    match (bits w 25 7).toNat with
    | 0 => .ok (.enq e rd rs1 rs2)
    | 1 => .ok (.enqL e rd rs1 rs2)
    | 2 => if rs2 = 0 then .ok (.sect e rd rs1) else .error .mustBeZero
    | 3 => if rs2 = 0 then .ok (.qcancel e rd rs1) else .error .mustBeZero
    | 4 =>
      if rs1 ≠ 0 then .error .mustBeZero
      else if rs2 = 0 then .ok (.qstat e rd false)
      else if rs2 = 1 then .ok (.qstat e rd true)
      else .error .qstatSelector
    | _ => .error .unassignedFunct

/-- Custom-1 (R54): forks, waits, services, barriers and synchronisation words. -/
def decodeCustom1 (w : Inst) : Except Reject Instr :=
  let rd := bits w 7 5
  let rs1 := bits w 15 5
  let rs2 := bits w 20 5
  match (bits w 12 3).toNat with
  | 0 =>
    match (bits w 25 7).toNat with
    | 0 => .ok (.fork rd rs1 rs2)
    | 1 => if rs2 = 0 then .ok (.rdv rd rs1) else .error .mustBeZero
    | 2 => if rd = 0 ∧ rs1 = 0 ∧ rs2 = 0 then .ok .yield else .error .mustBeZero
    | 3 => if rd = 0 ∧ rs1 = 0 ∧ rs2 = 0 then .ok .trigger else .error .mustBeZero
    | 4 => if rs1 = 0 ∧ rs2 = 0 then .ok (.waitdep rd) else .error .mustBeZero
    | 5 => if rs2 = 0 then .ok (.cwait rd rs1) else .error .mustBeZero
    | 6 => if rs2 = 0 then .ok (.contract rd rs1) else .error .mustBeZero
    | 7 => .ok (.flgGather rd rs1 rs2)
    | 8 => if rd = 0 ∧ rs1 = 0 ∧ rs2 = 0 then .ok .lxTret else .error .mustBeZero
    | _ => .error .unassignedFunct
  | 1 => if bits w 31 1 = 0 then .ok (.barArr rd rs1 (bits w 20 7) (bits w 27 4)) else .error .mustBeZero
  | 2 => if bits w 27 5 = 0 then .ok (.barWait rd rs1 (bits w 20 7)) else .error .mustBeZero
  | 3 =>
    if bits w 25 7 ≠ 0 then .error .unassignedFunct
    else if rd = 0 then .ok (.sywArm rs1 rs2) else .error .mustBeZero
  | 4 => if bits w 29 3 = 0 then .ok (.sywWait rd rs1 rs2 (bits w 25 4)) else .error .mustBeZero
  | _ => .error .unassignedFunct

/-- Custom-2 (R54): acquire loads and `launch`. -/
def decodeCustom2 (w : Inst) : Except Reject Instr :=
  let rd := bits w 7 5
  let rs1 := bits w 15 5
  let off := bits w 20 8
  let s := bits w 28 4
  match (bits w 12 3).toNat with
  | 0 => .ok (.ldAcqB rd rs1 off s)
  | 1 => .ok (.ldAcqH rd rs1 off s)
  | 2 => .ok (.ldAcqW rd rs1 off s)
  | 3 => .ok (.ldAcqD rd rs1 off s)
  | 4 => .ok (.ldAcqBu rd rs1 off s)
  | 5 => .ok (.ldAcqHu rd rs1 off s)
  | 6 => .ok (.ldAcqWu rd rs1 off s)
  | _ => if bits w 25 2 = 0 then .ok (.launch rd rs1 (bits w 20 5) (bits w 27 5)) else .error .unassignedFunct

/-- Custom-3 (R54): release stores and fences. -/
def decodeCustom3 (w : Inst) : Except Reject Instr :=
  let rs1 := bits w 15 5
  let rs2 := bits w 20 5
  let off : BitVec 8 := bits w 25 3 ++ bits w 7 5
  let s := bits w 28 4
  match (bits w 12 3).toNat with
  | 0 => .ok (.stRelB rs2 rs1 off s)
  | 1 => .ok (.stRelH rs2 rs1 off s)
  | 2 => .ok (.stRelW rs2 rs1 off s)
  | 3 => .ok (.stRelD rs2 rs1 off s)
  | 4 =>
    if rs1 ≠ 0 ∨ rs2 ≠ 0 ∨ bits w 7 5 ≠ 0 then .error .mustBeZero
    else
      match (bits w 25 3).toNat with
      | 0 => .ok (.fenceSc s)
      | 1 => .ok (.fenceAcq s)
      | 2 => .ok (.fenceRel s)
      | _ => .error .fenceKind
  | _ => .error .unassignedFunct

/-- OP-IMM and OP-IMM-32 of RV64I. -/
def decodeOpImm (w : Inst) (word : Bool) : Except Reject Instr :=
  let rd := bits w 7 5
  let rs1 := bits w 15 5
  let imm := bits w 20 12
  let alu (op : AluImm) : Except Reject Instr := .ok (.integerOperation (.imm op rd rs1 imm))
  if word then
    match (bits w 12 3).toNat with
    | 0 => alu .addiw
    | 1 => if bits w 25 7 = 0 then .ok (.integerOperation (.shiftw .slli rd rs1 (bits w 20 5))) else .error .unassignedFunct
    | 5 =>
      if bits w 25 7 = 0 then .ok (.integerOperation (.shiftw .srli rd rs1 (bits w 20 5)))
      else if bits w 25 7 = 0x20 then .ok (.integerOperation (.shiftw .srai rd rs1 (bits w 20 5)))
      else .error .unassignedFunct
    | _ => .error .unassignedFunct
  else
    match (bits w 12 3).toNat with
    | 0 => alu .addi
    | 1 => if bits w 26 6 = 0 then .ok (.integerOperation (.shift .slli rd rs1 (bits w 20 6))) else .error .unassignedFunct
    | 2 => alu .slti
    | 3 => alu .sltiu
    | 4 => alu .xori
    | 5 =>
      if bits w 26 6 = 0 then .ok (.integerOperation (.shift .srli rd rs1 (bits w 20 6)))
      else if bits w 26 6 = 0x10 then .ok (.integerOperation (.shift .srai rd rs1 (bits w 20 6)))
      else .error .unassignedFunct
    | 6 => alu .ori
    | _ => alu .andi

/-- The register-register operation of a funct7 and funct3 in OP. -/
def aluReg (f7 f3 : Nat) : Option AluReg :=
  match f7, f3 with
  | 0, 0 => some .add | 0, 1 => some .sll | 0, 2 => some .slt | 0, 3 => some .sltu
  | 0, 4 => some .xor | 0, 5 => some .srl | 0, 6 => some .or | 0, 7 => some .and
  | 0x20, 0 => some .sub | 0x20, 5 => some .sra
  | 1, 0 => some .mul | 1, 1 => some .mulh | 1, 2 => some .mulhsu | 1, 3 => some .mulhu
  | 1, 4 => some .div | 1, 5 => some .divu | 1, 6 => some .rem | 1, 7 => some .remu
  | _, _ => none

/-- The register-register operation of a funct7 and funct3 in OP-32. -/
def aluRegW (f7 f3 : Nat) : Option AluReg :=
  match f7, f3 with
  | 0, 0 => some .addw | 0, 1 => some .sllw | 0, 5 => some .srlw
  | 0x20, 0 => some .subw | 0x20, 5 => some .sraw
  | 1, 0 => some .mulw | 1, 4 => some .divw | 1, 5 => some .divuw | 1, 6 => some .remw | 1, 7 => some .remuw
  | _, _ => none

/-- SYSTEM (R52): `ecall`, `ebreak` and Zicsr. The decoder names `ecall` by its reserved service; `step` picks the
service by `a7`. -/
def decodeSystem (w : Inst) : Except Reject Instr :=
  let rd := bits w 7 5
  let src := bits w 15 5
  let csr := bits w 20 12
  let mk (f : CsrForm) : Except Reject Instr :=
    if csrListed csr = false then .error .csrNumber
    else if csr = 0x800 ∧ f.writes src then .ok (.lxFlagsWrite f rd src)
    else if csr = 0x8F0 ∧ f.writes src then .ok (.lxFwshareWrite f rd src)
    else .ok (.csrWrite f csr rd src)
  match (bits w 12 3).toNat with
  | 0 => if w = 0x73 then .ok .ecallReserved else if w = 0x100073 then .ok .ebreak else .error .system
  | 1 => mk .rw
  | 2 => mk .rs
  | 3 => mk .rc
  | 5 => mk .rwi
  | 6 => mk .rsi
  | 7 => mk .rci
  | _ => .error .system

/-- The load of a funct3. -/
def loadOp : Nat → Option LoadOp
  | 0 => some .b | 1 => some .h | 2 => some .w | 3 => some .d | 4 => some .bu | 5 => some .hu | 6 => some .wu | _ => none

/-- The store of a funct3. -/
def storeOp : Nat → Option StoreOp
  | 0 => some .b | 1 => some .h | 2 => some .w | 3 => some .d | _ => none

/-- The branch of a funct3. -/
def branchOp : Nat → Option BranchOp
  | 0 => some .eq | 1 => some .ne | 4 => some .lt | 5 => some .ge | 6 => some .ltu | 7 => some .geu | _ => none

/-- The control core's decoder (R52-R54). -/
def decode (w : Inst) : Except Reject Instr :=
  let rd := bits w 7 5
  let rs1 := bits w 15 5
  let rs2 := bits w 20 5
  let f3 := (bits w 12 3).toNat
  if bits w 0 2 ≠ 3 then .error .compressed
  else if bits w 2 3 = 7 then .error .longEncoding
  else
    match (bits w 2 5).toNat with
    | 0x00 =>
      match loadOp f3 with
      | some op => .ok (.load op rd rs1 (bits w 20 12))
      | none => .error .unassignedFunct
    | 0x02 => decodeCustom0 w
    | 0x03 => if f3 = 0 then .ok (.fence (bits w 28 4) (bits w 24 4) (bits w 20 4) rd rs1) else .error .unassignedFunct
    | 0x04 => decodeOpImm w false
    | 0x05 => .ok (.integerOperation (.auipc rd (bits w 12 20)))
    | 0x06 => decodeOpImm w true
    | 0x08 =>
      match storeOp f3 with
      | some op => .ok (.store op rs1 rs2 (bits w 25 7 ++ bits w 7 5))
      | none => .error .unassignedFunct
    | 0x0A => decodeCustom1 w
    | 0x0C =>
      match aluReg (bits w 25 7).toNat f3 with
      | some op => .ok (.integerOperation (.reg op rd rs1 rs2))
      | none => .error .unassignedFunct
    | 0x0D => .ok (.integerOperation (.lui rd (bits w 12 20)))
    | 0x0E =>
      match aluRegW (bits w 25 7).toNat f3 with
      | some op => .ok (.integerOperation (.reg op rd rs1 rs2))
      | none => .error .unassignedFunct
    | 0x16 => decodeCustom2 w
    | 0x18 =>
      match branchOp f3 with
      | some op =>
        .ok (.jumpBranch (.branch op rs1 rs2 (bits w 31 1 ++ bits w 7 1 ++ bits w 25 6 ++ bits w 8 4)))
      | none => .error .unassignedFunct
    | 0x19 => if f3 = 0 then .ok (.jumpBranch (.jalr rd rs1 (bits w 20 12))) else .error .unassignedFunct
    | 0x1B => .ok (.jumpBranch (.jal rd (bits w 31 1 ++ bits w 12 8 ++ bits w 20 1 ++ bits w 21 10)))
    | 0x1C => decodeSystem w
    | 0x1E => decodeCustom3 w
    | _ => .error .unassignedMajor

/-- The instruction that the decoder reads from an instruction of 32 bits numbered as the opcode table numbers them. -/
def decodeTableWord (nbits w : Nat) : Option Instr :=
  if nbits = 32 then
    match decode (BitVec.ofNat 32 w) with
    | .ok i => some i
    | .error _ => none
  else none

/-! ### The encoder of the control core -/

/-- R format (R53). -/
def encR (f7 : BitVec 7) (rs2 rs1 : Reg) (f3 : BitVec 3) (rd : Reg) (op : BitVec 7) : Inst :=
  f7 ++ rs2 ++ rs1 ++ f3 ++ rd ++ op

/-- I format (R53). -/
def encI (imm : BitVec 12) (rs1 : Reg) (f3 : BitVec 3) (rd : Reg) (op : BitVec 7) : Inst := imm ++ rs1 ++ f3 ++ rd ++ op

/-- S format (R53). -/
def encS (imm : BitVec 12) (rs2 rs1 : Reg) (f3 : BitVec 3) (op : BitVec 7) : Inst :=
  imm.extractLsb' 5 7 ++ rs2 ++ rs1 ++ f3 ++ imm.extractLsb' 0 5 ++ op

/-- The 3-bit engine field of custom-0. -/
def Engine.field (e : Engine) : BitVec 3 := BitVec.ofNat 3 e.id

/-- An acquire load. -/
def encAcq (f3 : BitVec 3) (rd rs1 : Reg) (off : BitVec 8) (s : BitVec 4) : Inst := encI (s ++ off) rs1 f3 rd 0x5B

/-- A release store. -/
def encRel (f3 : BitVec 3) (rs2 rs1 : Reg) (off : BitVec 8) (s : BitVec 4) : Inst := encS (s ++ off) rs2 rs1 f3 0x7B

/-- The funct3 of a CSR form. -/
def CsrForm.funct3 : CsrForm → BitVec 3
  | .rw => 1 | .rs => 2 | .rc => 3 | .rwi => 5 | .rsi => 6 | .rci => 7

/-- funct7, funct3 and major opcode of a register-register operation. -/
def AluReg.code : AluReg → BitVec 7 × BitVec 3 × BitVec 7
  | .add => (0, 0, 0x33) | .sub => (0x20, 0, 0x33) | .sll => (0, 1, 0x33) | .slt => (0, 2, 0x33)
  | .sltu => (0, 3, 0x33) | .xor => (0, 4, 0x33) | .srl => (0, 5, 0x33) | .sra => (0x20, 5, 0x33)
  | .or => (0, 6, 0x33) | .and => (0, 7, 0x33)
  | .addw => (0, 0, 0x3B) | .subw => (0x20, 0, 0x3B) | .sllw => (0, 1, 0x3B) | .srlw => (0, 5, 0x3B)
  | .sraw => (0x20, 5, 0x3B)
  | .mul => (1, 0, 0x33) | .mulh => (1, 1, 0x33) | .mulhsu => (1, 2, 0x33) | .mulhu => (1, 3, 0x33)
  | .div => (1, 4, 0x33) | .divu => (1, 5, 0x33) | .rem => (1, 6, 0x33) | .remu => (1, 7, 0x33)
  | .mulw => (1, 0, 0x3B) | .divw => (1, 4, 0x3B) | .divuw => (1, 5, 0x3B) | .remw => (1, 6, 0x3B)
  | .remuw => (1, 7, 0x3B)

/-- The word of an integer operation. -/
def encodeInt : IntOp → Inst
  | .imm op rd rs1 imm =>
    match op with
    | .addi => encI imm rs1 0 rd 0x13
    | .slti => encI imm rs1 2 rd 0x13
    | .sltiu => encI imm rs1 3 rd 0x13
    | .xori => encI imm rs1 4 rd 0x13
    | .ori => encI imm rs1 6 rd 0x13
    | .andi => encI imm rs1 7 rd 0x13
    | .addiw => encI imm rs1 0 rd 0x1B
  | .shift op rd rs1 sh =>
    match op with
    | .slli => encI ((0 : BitVec 6) ++ sh) rs1 1 rd 0x13
    | .srli => encI ((0 : BitVec 6) ++ sh) rs1 5 rd 0x13
    | .srai => encI ((0x10 : BitVec 6) ++ sh) rs1 5 rd 0x13
  | .shiftw op rd rs1 sh =>
    match op with
    | .slli => encI ((0 : BitVec 7) ++ sh) rs1 1 rd 0x1B
    | .srli => encI ((0 : BitVec 7) ++ sh) rs1 5 rd 0x1B
    | .srai => encI ((0x20 : BitVec 7) ++ sh) rs1 5 rd 0x1B
  | .reg op rd rs1 rs2 => encR op.code.1 rs2 rs1 op.code.2.1 rd op.code.2.2
  | .lui rd imm => imm ++ rd ++ (0x37 : BitVec 7)
  | .auipc rd imm => imm ++ rd ++ (0x17 : BitVec 7)

/-- The funct3 of a load. -/
def LoadOp.funct3 : LoadOp → BitVec 3
  | .b => 0 | .h => 1 | .w => 2 | .d => 3 | .bu => 4 | .hu => 5 | .wu => 6

/-- The funct3 of a store. -/
def StoreOp.funct3 : StoreOp → BitVec 3
  | .b => 0 | .h => 1 | .w => 2 | .d => 3

/-- The funct3 of a branch. -/
def BranchOp.funct3 : BranchOp → BitVec 3
  | .eq => 0 | .ne => 1 | .lt => 4 | .ge => 5 | .ltu => 6 | .geu => 7

/-- The word of a jump or branch. -/
def encodeJump : Jump → Inst
  | .jal rd imm =>
    imm.extractLsb' 19 1 ++ imm.extractLsb' 0 10 ++ imm.extractLsb' 10 1 ++ imm.extractLsb' 11 8 ++ rd ++ (0x6F : BitVec 7)
  | .jalr rd rs1 imm => encI imm rs1 0 rd 0x67
  | .branch op rs1 rs2 imm =>
    imm.extractLsb' 11 1 ++ imm.extractLsb' 4 6 ++ rs2 ++ rs1 ++ op.funct3 ++ imm.extractLsb' 0 4 ++
      imm.extractLsb' 10 1 ++ (0x63 : BitVec 7)

/-- The word of a control-core instruction, written from R52-R54 and RV64IM; `none` for an instruction that has no word
of its own (an engine command, a step of the hardware, a rejected word). -/
def encode : Instr → Option Inst
  | .enq e rd rs1 rs2 => some (encR 0 rs2 rs1 e.field rd 0x0B)
  | .enqL e rd rs1 rs2 => some (encR 1 rs2 rs1 e.field rd 0x0B)
  | .sect e rd rs1 => some (encR 2 0 rs1 e.field rd 0x0B)
  | .qcancel e rd rs1 => some (encR 3 0 rs1 e.field rd 0x0B)
  | .qstat e rd sel => some (encR 4 (if sel then 1 else 0) 0 e.field rd 0x0B)
  | .fork rd rs1 rs2 => some (encR 0 rs2 rs1 0 rd 0x2B)
  | .rdv rd rs1 => some (encR 1 0 rs1 0 rd 0x2B)
  | .yield => some (encR 2 0 0 0 0 0x2B)
  | .trigger => some (encR 3 0 0 0 0 0x2B)
  | .waitdep rd => some (encR 4 0 0 0 rd 0x2B)
  | .cwait rd rs1 => some (encR 5 0 rs1 0 rd 0x2B)
  | .contract rd rs1 => some (encR 6 0 rs1 0 rd 0x2B)
  | .flgGather rd rs1 rs2 => some (encR 7 rs2 rs1 0 rd 0x2B)
  | .lxTret => some (encR 8 0 0 0 0 0x2B)
  | .barArr rd rs1 bar scope => some (encI ((0 : BitVec 1) ++ scope ++ bar) rs1 1 rd 0x2B)
  | .barWait rd rs1 bar => some (encI ((0 : BitVec 5) ++ bar) rs1 2 rd 0x2B)
  | .sywArm rs1 rs2 => some (encR 0 rs2 rs1 3 0 0x2B)
  | .sywWait rd rs1 rs2 scope => some (encR ((0 : BitVec 3) ++ scope) rs2 rs1 4 rd 0x2B)
  | .ldAcqB rd rs1 off s => some (encAcq 0 rd rs1 off s)
  | .ldAcqH rd rs1 off s => some (encAcq 1 rd rs1 off s)
  | .ldAcqW rd rs1 off s => some (encAcq 2 rd rs1 off s)
  | .ldAcqD rd rs1 off s => some (encAcq 3 rd rs1 off s)
  | .ldAcqBu rd rs1 off s => some (encAcq 4 rd rs1 off s)
  | .ldAcqHu rd rs1 off s => some (encAcq 5 rd rs1 off s)
  | .ldAcqWu rd rs1 off s => some (encAcq 6 rd rs1 off s)
  | .stRelB rs2 rs1 off s => some (encRel 0 rs2 rs1 off s)
  | .stRelH rs2 rs1 off s => some (encRel 1 rs2 rs1 off s)
  | .stRelW rs2 rs1 off s => some (encRel 2 rs2 rs1 off s)
  | .stRelD rs2 rs1 off s => some (encRel 3 rs2 rs1 off s)
  | .fenceSc s => some (encR (s ++ (0 : BitVec 3)) 0 0 4 0 0x7B)
  | .fenceAcq s => some (encR (s ++ (1 : BitVec 3)) 0 0 4 0 0x7B)
  | .fenceRel s => some (encR (s ++ (2 : BitVec 3)) 0 0 4 0 0x7B)
  | .launch rd rs1 rs2 rs3 => some (encR (rs3 ++ (0 : BitVec 2)) rs2 rs1 7 rd 0x5B)
  | .fence fm pred succ rd rs1 => some (encI (fm ++ pred ++ succ) rs1 0 rd 0x0F)
  | .ecallReserved => some 0x73
  | .ebreak => some 0x100073
  | .load op rd rs1 imm => some (encI imm rs1 op.funct3 rd 0x03)
  | .store op rs1 rs2 imm => some (encS imm rs2 rs1 op.funct3 0x23)
  | .jumpBranch j => some (encodeJump j)
  | .integerOperation op => some (encodeInt op)
  | .lxFlagsWrite f rd src => some (encI 0x800 src f.funct3 rd 0x73)
  | .lxFwshareWrite f rd src => some (encI 0x8F0 src f.funct3 rd 0x73)
  | .csrWrite f csr rd src => some (encI csr src f.funct3 rd 0x73)
  | _ => none

/-! ### Engine words (R55-R60) -/

/-- The fields of an engine word. -/
def EngineWord.op (w : EngineWord) : BitVec 8 := w.extractLsb' 88 8
/-- L: the last word of its command. -/
def EngineWord.last (w : EngineWord) : Bool := w.getLsbD 87
/-- WIDX. -/
def EngineWord.widx (w : EngineWord) : BitVec 3 := w.extractLsb' 84 3
/-- F, bits [83:64]. -/
def EngineWord.f (w : EngineWord) : BitVec 20 := w.extractLsb' 64 20
/-- O, bits [63:0]. -/
def EngineWord.o (w : EngineWord) : Word := w.extractLsb' 0 64
/-- X of a word with WIDX ≥ 1 (R57). -/
def EngineWord.isExt (w : EngineWord) : Bool := w.widx ≠ 0 && w.getLsbD 83

/-- Bits [lo + n - 1 : lo] of F, numbered as in the engine word (64 to 83). -/
def fF (w : EngineWord) (lo n : Nat) : BitVec n := w.extractLsb' lo n
/-- Bits [lo + n - 1 : lo] of O. -/
def fO (w : EngineWord) (lo n : Nat) : BitVec n := w.extractLsb' lo n
/-- One bit of an engine word. -/
def fB (w : EngineWord) (i : Nat) : Bool := w.getLsbD i

/-- The extent that an extent word carries (R57). -/
def extOf (w : EngineWord) : Ext := { gran := fF w 78 5, len := fF w 64 14, base := w.o }

/-- The length of an extent in bytes (R57). -/
def Ext.bytes (x : Ext) : Nat := (x.len.toNat + 1) * 2 ^ x.gran.toNat

/-- The words of a command that are extent words, in order. -/
def extsOf (ws : List EngineWord) : List Ext := (ws.filter (·.isExt)).map extOf
/-- The words of a command behind the lead word that are not extent words, in order. -/
def tailOf (ws : List EngineWord) : List EngineWord := (ws.drop 1).filter (fun w => !w.isExt)

/-- A dimension word (R125). -/
def dimOf (w : EngineWord) : Dim := { n := fO w 48 16, s := fO w 0 40 }

/-- SE commands (R124-R138). A word of zeros ahead of the extent is the first of the words that follow it (R125 names no such form; log
entry 70). -/
def decodeSe (op : Nat) (w : EngineWord) (xs : List Ext) (ts : List EngineWord) : Option Instr :=
  match op, xs, ts with
  | 1, [x], ts =>
    if ts.length ≤ 2 then
      some (.seAff { dir := fB w 83, port := fF w 78 5, esize := fF w 76 2, pkt := fF w 73 3, start := fB w 72,
                     fin := fB w 71, pois := fB w 70, sid := fO w 55 9, n0 := fO w 39 16, s0 := fO w 20 19,
                     off := fO w 0 20, ext := x, dims := ts.map dimOf })
    else none
  | 2, [x], ts =>
    let mk (tail : Option (BitVec 40 × Option (BitVec 32))) : Option Instr :=
      some (.seInd { dir := fB w 83, port := fF w 78 5, esize := fF w 76 2, pkt := fF w 73 3, start := fB w 72,
                     fin := fB w 71, pois := fB w 70, iw := fF w 68 2, sid := fO w 55 9, isrc := fO w 46 9,
                     iport := fB w 45, rowlen := fO w 32 13, nidx := fO w 0 32, ext := x, tail := tail })
    match ts with
    | [] => mk none
    | [a] => mk (some (fO a 0 40, none))
    | [a, b] => mk (some (fO a 0 40, some (fO b 0 32)))
    | _ => none
  | 3, [], ts =>
    let mk (init : Option Word) : Option Instr :=
      some (.seRec { dst := fF w 78 5, src := fF w 73 5, start := fB w 72, sid := fO w 55 9, ninit := fO w 32 16,
                     nfwd := fO w 0 32, init := init })
    match ts with
    | [] => mk none
    | [a] => mk (some a.o)
    | _ => none
  | 4, [x], ts =>
    let mk (tail : Option (BitVec 24 × Option Dim)) : Option Instr :=
      some (.seMcast { port := fF w 78 5, esize := fF w 76 2, pkt := fF w 73 3, start := fB w 72, fin := fB w 71,
                       pois := fB w 70, sid := fO w 55 9, n0 := fO w 39 16, s0 := fO w 20 19, off := fO w 0 20,
                       ext := x, tail := tail })
    match ts with
    | [] => mk none
    | [a] => mk (some (fO a 0 24, none))
    | [a, b] => mk (some (fO a 0 24, some (dimOf b)))
    | _ => none
  | 5, [], [] =>
    some (.seBar { arr := fB w 82, wait := fB w 81, scope := fF w 77 4, gen := fO w 48 16, count := fO w 8 8,
                   bar := fO w 0 7 })
  | 6, [], [] =>
    match (fF w 64 2).toNat with
    | 0 => some (.seGatePause (fO w 0 9))
    | 1 => some (.seGateResume (fO w 0 9))
    | 2 => some (.seGateFinish (fO w 0 9))
    | _ => none
  | _, _, _ => none

/-- CE commands (R142, R144). -/
def decodeCe (op : Nat) (w : EngineWord) (xs : List Ext) (ts : List EngineWord) : Option Instr :=
  match op, xs, ts with
  | 1, [x, y], ts =>
    let mk (st : Option Strided) : Option Instr :=
      some (.ceCopy { sywen := fB w 82, sywl2 := fB w 81, pois := fB w 80, sywoff := fO w 44 20, row := fO w 0 40,
                      src := x, dst := y, strided := st })
    match ts with
    | [] => mk none
    | [a] => mk (some { dstr := fB a 82, n1 := fO a 52 12, n2 := fO a 40 12, s1 := fO a 20 20, s2 := fO a 0 20 })
    | _ => none
  | 2, [x], ts =>
    let mk (p : Option Word) : Option Instr :=
      some (.ceFill { sywen := fB w 82, sywl2 := fB w 81, pois := fB w 80, psize := fF w 78 2, sywoff := fO w 44 20,
                      bytes := fO w 0 40, dst := x, pat := p })
    match ts with
    | [] => mk none
    | [a] => mk (some a.o)
    | _ => none
  | _, _, _ => none

/-- At most one further word, with every bit zero: it says nothing, and the command is the one without it (log entry 70). -/
def blankWord (ts : List EngineWord) : Bool :=
  match ts with
  | [] => true
  | [a] => fF a 64 20 = 0 && a.o = 0
  | _ => false

/-- AE commands (R160). -/
def decodeAe (op : Nat) (w : EngineWord) (xs : List Ext) (ts : List EngineWord) : Option Instr :=
  match op, xs, ts with
  | 1, [x], [] => some (.aeCfg (fB w 64) x)
  | 2, [], [] => some (.aeInv (fF w 64 8) (fO w 0 16))
  | 3, [], [] =>
    match (fF w 64 2).toNat with
    | 0 => some (.aeEnd (fF w 72 8))
    | 1 => some (.aeEndFlush (fF w 72 8))
    | 2 => some (.aeEndStart (fF w 72 8))
    | _ => none
  | 4, [], [] => if fB w 64 then some (.aeGateOpen (fO w 0 16)) else some (.aeGateClose (fO w 0 16))
  | 5, [], ts => if blankWord ts then some (.aeStat { wait := fB w 65, clr := fB w 64, ext := none }) else none
  | 5, [x], [] => some (.aeStat { wait := fB w 65, clr := fB w 64, ext := some x })
  | _, _, _ => none

/-- The one optional last word of a command, through a reader of it. -/
def optTail {α : Type} (ts : List EngineWord) (f : EngineWord → α) : Option (Option α) :=
  match ts with
  | [] => some none
  | [a] => some (some (f a))
  | _ => none

/-- ME commands (R203-R221, R271). -/
def decodeMe (op : Nat) (w : EngineWord) (xs : List Ext) (ts : List EngineWord) : Option Instr :=
  match op, xs with
  | 1, [x] =>
    (optTail ts (fO · 0 40)).map fun cs =>
      .meWld { fmt := fF w 80 4, swap := fB w 79, pois := fB w 78, ip := fB w 77, hist := fB w 76, srcp := fB w 75,
               ext := x, cstride := cs }
  | 2, xs =>
    match xs, ts with
    | [], ts => if blankWord ts then some (.meScl { mode := fF w 82 2, scale := fO w 0 32, ext := none }) else none
    | [x], [] => some (.meScl { mode := fF w 82 2, scale := fO w 0 32, ext := some x })
    | _, _ => none
  | 3, [] =>
    (optTail ts (fO · 0 8)).map fun rs =>
      .meRow { bank := fB w 83, afmt := fF w 79 4, count := fO w 32 32, base := fO w 0 8, rstep := rs }
  | 4, [] =>
    (optTail ts (fO · 0 32)).map fun ib =>
      .meGath { bank := fB w 83, afmt := fF w 79 4, iw := fB w 78, count := fO w 32 32, base := fO w 0 8, ibias := ib }
  | 5, [] =>
    (optTail ts (fO · 0 32)).map fun iv =>
      .meAcc { bank := fB w 83, init := fF w 81 2, int := fB w 80, sat := fB w 79, nrows := fO w 0 8, initv := iv }
  | 6, [] =>
    if ts = [] then
      some (.meEnd { bank := fB w 83, ofmt := fF w 80 3, rnd := fF w 77 3, sat := fB w 76, noscl := fB w 75, drop := fB w 74 })
    else none
  | 7, [] =>
    (optTail ts (fO · 0 32)).map fun iv =>
      let c : MeRecCmd := { cin := fF w 81 2, chain := fB w 80, afmt := fF w 76 4, t := fO w 0 32, initv := iv }
      if fB w 83 then .meRecScan c else .meRecRec c
  | 8, xs =>
    match xs with
    | [x] =>
      (optTail ts (fO · 0 40)).map fun cs =>
        .meSpw { fmt := fF w 80 4, swap := fB w 79, pois := fB w 78, ip := fB w 77, hist := fB w 76, srcp := fB w 75,
                 ext := x, mext := none, cstride := cs }
    | [x, y] =>
      (optTail ts (fO · 0 40)).map fun cs =>
        .meSpw { fmt := fF w 80 4, swap := fB w 79, pois := fB w 78, ip := fB w 77, hist := fB w 76, srcp := fB w 75,
                 ext := x, mext := some y, cstride := cs }
    | _ => none
  | 9, [x] =>
    if ts = [] then
      some (.mePat { bank := fB w 83, afmt := fF w 79 4, ip := fB w 78, tid := fO w 40 24, trow := fO w 32 8,
                     tcol := fO w 24 8, count := fO w 8 16, base := fO w 0 8, ext := x })
    else none
  | 10, [x] =>
    if ts = [] then
      some (.mePcomp { fmt := fF w 80 4, wait := fB w 79, tid := fO w 40 24, trow := fO w 32 8, tcol := fO w 24 8, ext := x })
    else none
  | 11, [x] =>
    (optTail ts (fO · 0 32)).map fun gm =>
      .meDg { fmt := fF w 80 4, pois := fB w 79, kcnt := fO w 0 15, ext := x, gmin := gm }
  | _, _ => none

/-- SA commands (R230, R235, R238). -/
def decodeSa (op : Nat) (w : EngineWord) (xs : List Ext) (ts : List EngineWord) : Option Instr :=
  match op, xs with
  | 1, [x] =>
    (optTail ts fun a => ({ csrc := fO a 54 10, rsid := fO a 45 9, rport := fO a 40 5 } : SaResp)).bind fun r =>
      let c : SaOpCmd := { type := fF w 76 4, iw := fF w 74 2, sat := fB w 73, nomrg := fB w 72, isrc := fO w 54 10,
                           vsrc := fO w 44 10, n := fO w 0 32, ext := x, resp := r }
      match (fF w 80 4).toNat with
      | 0 => some (.saOpAdd c) | 1 => some (.saOpMin c) | 2 => some (.saOpMax c) | 3 => some (.saOpOr c)
      | 4 => some (.saOpAnd c) | 5 => some (.saOpXor c) | 6 => some (.saOpXchg c) | 7 => some (.saOpCas c)
      | _ => none
  | 2, x :: rest =>
    if rest.length ≤ 1 then
      (optTail ts (fO · 0 32)).map fun h =>
        .saHash { ksrc := fF w 74 10, vsrc := fF w 64 10, rbase := fO w 32 32, estart := fO w 0 32, ext := x,
                  rcd := rest.head?, hmul := h }
    else none
  | 3, [x, y] => if ts = [] then some (.saRehash { hmul := fO w 0 32, old := x, new := y }) else none
  | _, _ => none

/-- NE commands (R239-R252). -/
def decodeNe (op : Nat) (w : EngineWord) (xs : List Ext) (ts : List EngineWord) : Option Instr :=
  let move (x : Ext) (y : Option Ext) (rs : Option (BitVec 40)) : NeMoveCmd :=
    { iw := fF w 82 2, shard := fB w 81, dmem := fB w 80, port := fF w 75 5, scope := fF w 71 4, pois := fB w 70,
      sh := fF w 64 6, isrc := fO w 54 10, mid := fO w 44 10, rowlw := fO w 31 13, b30 := fB w 30, b29 := fB w 29,
      atype := fO w 25 4, nidx := fO w 0 12, ext := x, ext1 := y, rstride := rs }
  match op, xs with
  | 1, x :: rest =>
    if rest.length ≤ 1 then (optTail ts (fO · 0 40)).map fun rs => .neGath (move x rest.head? rs) else none
  | 2, x :: rest =>
    if rest.length ≤ 1 then (optTail ts (fO · 0 40)).map fun rs => .neScat (move x rest.head? rs) else none
  | 3, [x] =>
    (optTail ts (fO · 0 32)).bind fun r =>
      let c : RedCmd := { type := fF w 80 4, sat := fB w 77, rooted := fB w 76, scope := fF w 72 4, gid := fO w 48 16,
                          part := fO w 36 12, ext := x, root := r }
      match (fF w 78 2).toNat with
      | 0 => some (.neRedSum c) | 1 => some (.neRedMin c) | 2 => some (.neRedMax c) | _ => none
  | 4, [x] =>
    (optTail ts (fO · 0 32)).map fun n =>
      .neSmrg { type := fF w 80 4, sat := fB w 79, scope := fF w 75 4, thr := fF w 71 4, gid := fO w 48 16,
                part := fO w 36 12, nwin := fO w 20 16, ext := x, nin := n }
  | 5, [x] => if ts = [] then some (.neFlag w.o x) else none
  | 6, [] => if ts = [] then some (.neTok (fF w 80 4) (fF w 64 16) w.o) else none
  | 7, [x, y] =>
    (optTail ts fun a => ((fO a 44 20, fO a 0 32) : BitVec 20 × BitVec 32)).map fun t =>
      let c : XrdCmd := { grant := fF w 78 5, scope := fF w 74 4, sywen := fB w 73, addr := w.o, dst := x, rcd := y, tail := t }
      if fB w 83 then .neXrdRdma c else .neXrdNvme c
  | _, _ => none

/-- TK commands (R277). -/
def decodeTk (op : Nat) (w : EngineWord) (xs : List Ext) (ts : List EngineWord) : Option Instr :=
  let rows (x : Ext) (chain : Bool) (rs : Option (BitVec 40)) : TkRowsCmd :=
    { fmt := fF w 80 4, map := fF w 76 4, pmode := fB w 75, port := fF w 70 5, chain := chain, f := fO w 50 14,
      sid := fO w 41 9, ext := x, rstride := rs }
  match op, xs with
  | 1, [x] =>
    (optTail ts (fO · 0 40)).map fun rs =>
      .tkMatch { kfmt := fF w 80 4, map := fF w 76 4, parent := fF w 71 5, n := fO w 52 12, rcnt := fO w 40 12,
                 d := fO w 30 10, ext := x, rstride := rs }
  | 2, [x] => (optTail ts (fO · 0 40)).map fun rs => .tkMerge (rows x false rs)
  | 3, xs =>
    if (ts = [] ∧ xs.length ≤ 1) ∨ (blankWord ts ∧ xs = []) then
      some (.tkBias { fmt := fF w 80 4, map := fF w 76 4, port := fF w 71 5, sid := fO w 0 9, ext := xs.head? })
    else none
  | 4, [x] => (optTail ts (fO · 0 40)).map fun rs => .tkUntack (rows x (fB w 69) rs)
  | 5, [] => if ts = [] then some (.tkKeep (fF w 76 4)) else none
  | 6, [] => if ts = [] then some (.tkFree (fF w 76 4)) else none
  | _, _ => none

/-- The command of a lead word, its extents and its other words, in the map of engine `e` (R59). -/
def decodeWords (e : Engine) (w : EngineWord) (xs : List Ext) (ts : List EngineWord) : Option Instr :=
  let op := w.op.toNat
  if op = 0 then if xs = [] ∧ ts = [] then some (.engineNop e) else none
  else if op = 0xFE then if xs = [] ∧ ts = [] then some (.programCall e (fF w 64 16) w.o) else none
  else
    match e with
    | .se => decodeSe op w xs ts
    | .me => decodeMe op w xs ts
    | .ae => decodeAe op w xs ts
    | .ce => decodeCe op w xs ts
    | .sa => decodeSa op w xs ts
    | .ne => decodeNe op w xs ts
    | .tk => decodeTk op w xs ts

/-- The command that the words of one command are, in the map of engine `e` (R59); the header 0xFF is no command. Where its form has no
place for a word of zeros that is no extent, it is the command without that word; where the form has one, wherever the word stands, the
word is that field: the spec gives neither case a meaning (DESIGN CHOICE, log entry 70). -/
def decodeCmd (e : Engine) (ws : List EngineWord) : Option Instr :=
  match ws with
  | [] => none
  | w :: _ =>
    match decodeWords e w (extsOf ws) (tailOf ws) with
    | some i => some i
    | none => decodeWords e w (extsOf ws) ((tailOf ws).filter fun t => !blankWord [t])

/-! ### The encoder of engine commands -/

/-- One engine word from its fields (R55). -/
def mkWord (op : BitVec 8) (last : Bool) (widx : BitVec 3) (f : BitVec 20) (o : Word) : EngineWord :=
  op ++ BitVec.ofBool last ++ widx ++ f ++ o

/-- F of an extent word (R57). -/
def Ext.f (x : Ext) : BitVec 20 := (1 : BitVec 1) ++ x.gran ++ x.len

/-- Numbers the words of a command and marks the last (R56). -/
def numberWords (op : BitVec 8) : Nat → List (BitVec 20 × Word) → List EngineWord
  | _, [] => []
  | k, [(f, o)] => [mkWord op true (BitVec.ofNat 3 k) f o]
  | k, (f, o) :: t => mkWord op false (BitVec.ofNat 3 k) f o :: numberWords op (k + 1) t

/-- An extent as the F and O of its word. -/
def Ext.fo (x : Ext) : BitVec 20 × Word := (x.f, x.base)
/-- A dimension as the F and O of its word. -/
def Dim.fo (d : Dim) : BitVec 20 × Word := (0, d.n ++ (0 : BitVec 8) ++ d.s)
/-- A word that holds one field at bit 0. -/
def low {n : Nat} (v : BitVec n) : BitVec 20 × Word := (0, v.setWidth 64)
/-- The words of an optional part. -/
def optFo {α : Type} (v : Option α) (f : α → BitVec 20 × Word) : List (BitVec 20 × Word) :=
  match v with
  | none => []
  | some a => [f a]

/-- One bit of F or O. -/
abbrev b1 (b : Bool) : BitVec 1 := BitVec.ofBool b

/-- Lead F and O of an SA update with its operation. -/
def saOpFo (aop : BitVec 4) (c : SaOpCmd) : List (BitVec 20 × Word) :=
  (aop ++ c.type ++ c.iw ++ b1 c.sat ++ b1 c.nomrg ++ (0 : BitVec 8), c.isrc ++ c.vsrc ++ (0 : BitVec 12) ++ c.n) ::
    c.ext.fo :: optFo c.resp fun r => ((0 : BitVec 20), r.csrc ++ r.rsid ++ r.rport ++ (0 : BitVec 40))

/-- Lead F and O of a gather or scatter. -/
def neMoveFo (c : NeMoveCmd) : List (BitVec 20 × Word) :=
  (c.iw ++ b1 c.shard ++ b1 c.dmem ++ c.port ++ c.scope ++ b1 c.pois ++ c.sh,
   c.isrc ++ c.mid ++ c.rowlw ++ b1 c.b30 ++ b1 c.b29 ++ c.atype ++ (0 : BitVec 13) ++ c.nidx) ::
    c.ext.fo :: (optFo c.ext1 Ext.fo ++ optFo c.rstride low)

/-- Lead F and O of a dense reduction with its operation. -/
def redFo (rop : BitVec 2) (c : RedCmd) : List (BitVec 20 × Word) :=
  (c.type ++ rop ++ b1 c.sat ++ b1 c.rooted ++ c.scope ++ (0 : BitVec 8), c.gid ++ c.part ++ (0 : BitVec 36)) ::
    c.ext.fo :: optFo c.root low

/-- Lead F and O of an external read with its kind. -/
def xrdFo (kind : Bool) (c : XrdCmd) : List (BitVec 20 × Word) :=
  (b1 kind ++ c.grant ++ c.scope ++ b1 c.sywen ++ (0 : BitVec 9), c.addr) :: c.dst.fo :: c.rcd.fo ::
    optFo c.tail fun t => ((0 : BitVec 20), t.1 ++ (0 : BitVec 12) ++ t.2)

/-- Lead F and O of a matrix recurrence or scan. -/
def meRecFo (mode : Bool) (c : MeRecCmd) : List (BitVec 20 × Word) :=
  (b1 mode ++ c.cin ++ b1 c.chain ++ c.afmt ++ (0 : BitVec 12), (0 : BitVec 32) ++ c.t) :: optFo c.initv low

/-- Lead F and O of `tk.merge` and `tk.untack`. -/
def tkRowsFo (c : TkRowsCmd) : List (BitVec 20 × Word) :=
  (c.fmt ++ c.map ++ b1 c.pmode ++ c.port ++ b1 c.chain ++ (0 : BitVec 5), c.f ++ c.sid ++ (0 : BitVec 41)) ::
    c.ext.fo :: optFo c.rstride low

/-- The words of an engine command, with its engine: written from R124-R144, R160, R203-R221, R230-R252, R271, R277.
`none` for an instruction that is no engine command. -/
def encodeCmd : Instr → Option (Engine × List EngineWord)
  | .engineNop e => some (e, numberWords 0x00 0 [(0, 0)])
  | .programCall e count addr => some (e, numberWords 0xFE 0 [((0 : BitVec 4) ++ count, addr)])
  | .seAff c => some (.se, numberWords 0x01 0
      ((b1 c.dir ++ c.port ++ c.esize ++ c.pkt ++ b1 c.start ++ b1 c.fin ++ b1 c.pois ++ (0 : BitVec 6),
        c.sid ++ c.n0 ++ c.s0 ++ c.off) :: c.ext.fo :: c.dims.map Dim.fo))
  | .seInd c => some (.se, numberWords 0x02 0
      ((b1 c.dir ++ c.port ++ c.esize ++ c.pkt ++ b1 c.start ++ b1 c.fin ++ b1 c.pois ++ c.iw ++ (0 : BitVec 4),
        c.sid ++ c.isrc ++ b1 c.iport ++ c.rowlen ++ c.nidx) :: c.ext.fo ::
        (optFo (c.tail.map Prod.fst) low ++ optFo (c.tail.bind Prod.snd) low)))
  | .seRec c => some (.se, numberWords 0x03 0
      (((0 : BitVec 1) ++ c.dst ++ c.src ++ b1 c.start ++ (0 : BitVec 8),
        c.sid ++ (0 : BitVec 7) ++ c.ninit ++ c.nfwd) :: optFo c.init fun v => ((0 : BitVec 20), v)))
  | .seMcast c => some (.se, numberWords 0x04 0
      (((0 : BitVec 1) ++ c.port ++ c.esize ++ c.pkt ++ b1 c.start ++ b1 c.fin ++ b1 c.pois ++ (0 : BitVec 6),
        c.sid ++ c.n0 ++ c.s0 ++ c.off) :: c.ext.fo ::
        (optFo (c.tail.map Prod.fst) low ++ optFo (c.tail.bind Prod.snd) Dim.fo)))
  | .seBar c => some (.se, numberWords 0x05 0
      [((0 : BitVec 1) ++ b1 c.arr ++ b1 c.wait ++ c.scope ++ (0 : BitVec 13),
        c.gen ++ (0 : BitVec 32) ++ c.count ++ (0 : BitVec 1) ++ c.bar)])
  | .seGatePause sid => some (.se, numberWords 0x06 0 [(0, sid.setWidth 64)])
  | .seGateResume sid => some (.se, numberWords 0x06 0 [(1, sid.setWidth 64)])
  | .seGateFinish sid => some (.se, numberWords 0x06 0 [(2, sid.setWidth 64)])
  | .ceCopy c => some (.ce, numberWords 0x01 0
      (((0 : BitVec 1) ++ b1 c.sywen ++ b1 c.sywl2 ++ b1 c.pois ++ (0 : BitVec 16),
        c.sywoff ++ (0 : BitVec 4) ++ c.row) :: c.src.fo :: c.dst.fo ::
        optFo c.strided fun s => ((0 : BitVec 1) ++ b1 s.dstr ++ (0 : BitVec 18), s.n1 ++ s.n2 ++ s.s1 ++ s.s2)))
  | .ceFill c => some (.ce, numberWords 0x02 0
      (((0 : BitVec 1) ++ b1 c.sywen ++ b1 c.sywl2 ++ b1 c.pois ++ c.psize ++ (0 : BitVec 14),
        c.sywoff ++ (0 : BitVec 4) ++ c.bytes) :: c.dst.fo :: optFo c.pat fun v => ((0 : BitVec 20), v)))
  | .aeCfg skip x => some (.ae, numberWords 0x01 0 [((b1 skip).setWidth 20, 0), x.fo])
  | .aeInv om n => some (.ae, numberWords 0x02 0 [(om.setWidth 20, n.setWidth 64)])
  | .aeEnd im => some (.ae, numberWords 0x03 0 [((0 : BitVec 4) ++ im ++ (0 : BitVec 8), 0)])
  | .aeEndFlush im => some (.ae, numberWords 0x03 0 [((0 : BitVec 4) ++ im ++ (1 : BitVec 8), 0)])
  | .aeEndStart im => some (.ae, numberWords 0x03 0 [((0 : BitVec 4) ++ im ++ (2 : BitVec 8), 0)])
  | .aeGateOpen pm => some (.ae, numberWords 0x04 0 [(1, pm.setWidth 64)])
  | .aeGateClose pm => some (.ae, numberWords 0x04 0 [(0, pm.setWidth 64)])
  | .aeStat c => some (.ae, numberWords 0x05 0
      (((0 : BitVec 18) ++ b1 c.wait ++ b1 c.clr, 0) :: optFo c.ext Ext.fo))
  | .meWld c => some (.me, numberWords 0x01 0
      ((c.fmt ++ b1 c.swap ++ b1 c.pois ++ b1 c.ip ++ b1 c.hist ++ b1 c.srcp ++ (0 : BitVec 11), 0) ::
        c.ext.fo :: optFo c.cstride low))
  | .meScl c => some (.me, numberWords 0x02 0
      ((c.mode ++ (0 : BitVec 18), (0 : BitVec 32) ++ c.scale) :: optFo c.ext Ext.fo))
  | .meRow c => some (.me, numberWords 0x03 0
      ((b1 c.bank ++ c.afmt ++ (0 : BitVec 15), c.count ++ (0 : BitVec 24) ++ c.base) :: optFo c.rstep low))
  | .meGath c => some (.me, numberWords 0x04 0
      ((b1 c.bank ++ c.afmt ++ b1 c.iw ++ (0 : BitVec 14), c.count ++ (0 : BitVec 24) ++ c.base) :: optFo c.ibias low))
  | .meAcc c => some (.me, numberWords 0x05 0
      ((b1 c.bank ++ c.init ++ b1 c.int ++ b1 c.sat ++ (0 : BitVec 15), (0 : BitVec 56) ++ c.nrows) :: optFo c.initv low))
  | .meEnd c => some (.me, numberWords 0x06 0
      [(b1 c.bank ++ c.ofmt ++ c.rnd ++ b1 c.sat ++ b1 c.noscl ++ b1 c.drop ++ (0 : BitVec 10), 0)])
  | .meRecRec c => some (.me, numberWords 0x07 0 (meRecFo false c))
  | .meRecScan c => some (.me, numberWords 0x07 0 (meRecFo true c))
  | .meSpw c => some (.me, numberWords 0x08 0
      ((c.fmt ++ b1 c.swap ++ b1 c.pois ++ b1 c.ip ++ b1 c.hist ++ b1 c.srcp ++ (0 : BitVec 11), 0) ::
        c.ext.fo :: (optFo c.mext Ext.fo ++ optFo c.cstride low)))
  | .mePat c => some (.me, numberWords 0x09 0
      [(b1 c.bank ++ c.afmt ++ b1 c.ip ++ (0 : BitVec 14), c.tid ++ c.trow ++ c.tcol ++ c.count ++ c.base), c.ext.fo])
  | .mePcomp c => some (.me, numberWords 0x0A 0
      [(c.fmt ++ b1 c.wait ++ (0 : BitVec 15), c.tid ++ c.trow ++ c.tcol ++ (0 : BitVec 24)), c.ext.fo])
  | .meDg c => some (.me, numberWords 0x0B 0
      ((c.fmt ++ b1 c.pois ++ (0 : BitVec 15), (0 : BitVec 49) ++ c.kcnt) :: c.ext.fo :: optFo c.gmin low))
  | .saOpAdd c => some (.sa, numberWords 0x01 0 (saOpFo 0 c))
  | .saOpMin c => some (.sa, numberWords 0x01 0 (saOpFo 1 c))
  | .saOpMax c => some (.sa, numberWords 0x01 0 (saOpFo 2 c))
  | .saOpOr c => some (.sa, numberWords 0x01 0 (saOpFo 3 c))
  | .saOpAnd c => some (.sa, numberWords 0x01 0 (saOpFo 4 c))
  | .saOpXor c => some (.sa, numberWords 0x01 0 (saOpFo 5 c))
  | .saOpXchg c => some (.sa, numberWords 0x01 0 (saOpFo 6 c))
  | .saOpCas c => some (.sa, numberWords 0x01 0 (saOpFo 7 c))
  | .saHash c => some (.sa, numberWords 0x02 0
      ((c.ksrc ++ c.vsrc, c.rbase ++ c.estart) :: c.ext.fo :: (optFo c.rcd Ext.fo ++ optFo c.hmul low)))
  | .saRehash c => some (.sa, numberWords 0x03 0 [(0, (0 : BitVec 32) ++ c.hmul), c.old.fo, c.new.fo])
  | .neGath c => some (.ne, numberWords 0x01 0 (neMoveFo c))
  | .neScat c => some (.ne, numberWords 0x02 0 (neMoveFo c))
  | .neRedSum c => some (.ne, numberWords 0x03 0 (redFo 0 c))
  | .neRedMin c => some (.ne, numberWords 0x03 0 (redFo 1 c))
  | .neRedMax c => some (.ne, numberWords 0x03 0 (redFo 2 c))
  | .neSmrg c => some (.ne, numberWords 0x04 0
      ((c.type ++ b1 c.sat ++ c.scope ++ c.thr ++ (0 : BitVec 7), c.gid ++ c.part ++ c.nwin ++ (0 : BitVec 20)) ::
        c.ext.fo :: optFo c.nin low))
  | .neFlag v x => some (.ne, numberWords 0x05 0 [(0, v), x.fo])
  | .neTok scope count addr => some (.ne, numberWords 0x06 0 [(scope ++ count, addr)])
  | .neXrdNvme c => some (.ne, numberWords 0x07 0 (xrdFo false c))
  | .neXrdRdma c => some (.ne, numberWords 0x07 0 (xrdFo true c))
  | .tkMatch c => some (.tk, numberWords 0x01 0
      ((c.kfmt ++ c.map ++ c.parent ++ (0 : BitVec 7), c.n ++ c.rcnt ++ c.d ++ (0 : BitVec 30)) ::
        c.ext.fo :: optFo c.rstride low))
  | .tkMerge c => some (.tk, numberWords 0x02 0 (tkRowsFo c))
  | .tkBias c => some (.tk, numberWords 0x03 0
      ((c.fmt ++ c.map ++ c.port ++ (0 : BitVec 7), (0 : BitVec 55) ++ c.sid) :: optFo c.ext Ext.fo))
  | .tkUntack c => some (.tk, numberWords 0x04 0 (tkRowsFo c))
  | .tkKeep map => some (.tk, numberWords 0x05 0 [((0 : BitVec 4) ++ map ++ (0 : BitVec 12), 0)])
  | .tkFree map => some (.tk, numberWords 0x06 0 [((0 : BitVec 4) ++ map ++ (0 : BitVec 12), 0)])
  | _ => none

/-! ### The opcode map and the reserved bits of R56-R59 -/

/-- What the map of R59 gives an opcode: the fewest and most words, the fewest and most extents. -/
structure OpInfo where
  minWords : Nat
  maxWords : Nat
  minExts : Nat
  maxExts : Nat
deriving DecidableEq, Repr

/-- The opcode maps of R59, less 0xFE and 0xFF, which no `enq` may push. -/
def opInfo (e : Engine) (op : Nat) : Option OpInfo :=
  if op = 0 then some ⟨1, 1, 0, 0⟩
  else
    match e, op with
    | .se, 1 => some ⟨2, 4, 1, 1⟩ | .se, 2 => some ⟨2, 4, 1, 1⟩ | .se, 3 => some ⟨1, 2, 0, 0⟩
    | .se, 4 => some ⟨2, 4, 1, 1⟩ | .se, 5 => some ⟨1, 1, 0, 0⟩ | .se, 6 => some ⟨1, 1, 0, 0⟩
    | .me, 1 => some ⟨2, 3, 1, 1⟩ | .me, 2 => some ⟨1, 2, 0, 1⟩ | .me, 3 => some ⟨1, 2, 0, 0⟩
    | .me, 4 => some ⟨1, 2, 0, 0⟩ | .me, 5 => some ⟨1, 2, 0, 0⟩ | .me, 6 => some ⟨1, 1, 0, 0⟩
    | .me, 7 => some ⟨1, 2, 0, 0⟩ | .me, 8 => some ⟨2, 4, 1, 2⟩ | .me, 9 => some ⟨2, 2, 1, 1⟩
    | .me, 10 => some ⟨2, 2, 1, 1⟩ | .me, 11 => some ⟨2, 3, 1, 1⟩
    | .ae, 1 => some ⟨2, 2, 1, 1⟩ | .ae, 2 => some ⟨1, 1, 0, 0⟩ | .ae, 3 => some ⟨1, 1, 0, 0⟩
    | .ae, 4 => some ⟨1, 1, 0, 0⟩ | .ae, 5 => some ⟨1, 2, 0, 1⟩
    | .ce, 1 => some ⟨3, 4, 2, 2⟩ | .ce, 2 => some ⟨2, 3, 1, 1⟩
    | .sa, 1 => some ⟨2, 3, 1, 1⟩ | .sa, 2 => some ⟨2, 4, 1, 2⟩ | .sa, 3 => some ⟨3, 3, 2, 2⟩
    | .ne, 1 => some ⟨2, 4, 1, 2⟩ | .ne, 2 => some ⟨2, 4, 1, 2⟩ | .ne, 3 => some ⟨2, 3, 1, 1⟩
    | .ne, 4 => some ⟨2, 3, 1, 1⟩ | .ne, 5 => some ⟨1, 2, 0, 1⟩ | .ne, 6 => some ⟨1, 1, 0, 0⟩
    | .ne, 7 => some ⟨3, 4, 2, 2⟩
    | .tk, 1 => some ⟨2, 3, 1, 1⟩ | .tk, 2 => some ⟨2, 3, 1, 1⟩ | .tk, 3 => some ⟨1, 2, 0, 1⟩
    | .tk, 4 => some ⟨2, 3, 1, 1⟩ | .tk, 5 => some ⟨1, 1, 0, 0⟩ | .tk, 6 => some ⟨1, 1, 0, 0⟩
    | _, _ => none

/-- A mask of the bits [hi:lo] of an engine word. -/
def maskBits (hi lo : Nat) : EngineWord := (BitVec.allOnes 96 >>> (95 - (hi - lo))) <<< lo

/-- The assigned bits of F and O in a lead word (R56). -/
def leadMask (e : Engine) (op : Nat) : EngineWord :=
  match e, op with
  | .se, 1 => maskBits 83 70 ||| maskBits 63 0
  | .se, 2 => maskBits 83 68 ||| maskBits 63 0
  | .se, 3 => maskBits 82 72 ||| maskBits 63 55 ||| maskBits 47 0
  | .se, 4 => maskBits 82 70 ||| maskBits 63 0
  | .se, 5 => maskBits 82 77 ||| maskBits 63 48 ||| maskBits 15 8 ||| maskBits 6 0
  | .se, 6 => maskBits 65 64 ||| maskBits 8 0
  | .ce, 1 => maskBits 82 80 ||| maskBits 63 44 ||| maskBits 39 0
  | .ce, 2 => maskBits 82 78 ||| maskBits 63 44 ||| maskBits 39 0
  | .ae, 1 => maskBits 64 64
  | .ae, 2 => maskBits 71 64 ||| maskBits 15 0
  | .ae, 3 => maskBits 79 72 ||| maskBits 65 64
  | .ae, 4 => maskBits 64 64 ||| maskBits 15 0
  | .ae, 5 => maskBits 65 64
  | .me, 1 => maskBits 83 75
  | .me, 2 => maskBits 83 82 ||| maskBits 31 0
  | .me, 3 => maskBits 83 79 ||| maskBits 63 32 ||| maskBits 7 0
  | .me, 4 => maskBits 83 78 ||| maskBits 63 32 ||| maskBits 7 0
  | .me, 5 => maskBits 83 79 ||| maskBits 7 0
  | .me, 6 => maskBits 83 74
  | .me, 7 => maskBits 83 76 ||| maskBits 31 0
  | .me, 8 => maskBits 83 75
  | .me, 9 => maskBits 83 78 ||| maskBits 63 0
  | .me, 10 => maskBits 83 79 ||| maskBits 63 24
  | .me, 11 => maskBits 83 79 ||| maskBits 14 0
  | .sa, 1 => maskBits 83 72 ||| maskBits 63 44 ||| maskBits 31 0
  | .sa, 2 => maskBits 83 64 ||| maskBits 63 0
  | .sa, 3 => maskBits 31 0
  | .ne, 1 => maskBits 83 64 ||| maskBits 63 45 ||| maskBits 43 29 ||| maskBits 11 0
  | .ne, 2 => maskBits 83 64 ||| maskBits 63 25 ||| maskBits 11 0
  | .ne, 3 => maskBits 83 72 ||| maskBits 63 36
  | .ne, 4 => maskBits 83 71 ||| maskBits 63 20
  | .ne, 5 => maskBits 63 0
  | .ne, 6 => maskBits 83 64 ||| maskBits 63 0
  | .ne, 7 => maskBits 83 73 ||| maskBits 63 0
  | .tk, 1 => maskBits 83 71 ||| maskBits 63 30
  | .tk, 2 => maskBits 83 70 ||| maskBits 63 41
  | .tk, 3 => maskBits 83 71 ||| maskBits 8 0
  | .tk, 4 => maskBits 83 69 ||| maskBits 63 41
  | .tk, 5 => maskBits 79 76
  | .tk, 6 => maskBits 79 76
  | _, _ => 0

/-- The assigned bits of a later word that is no extent word, at its WIDX, and for a field that a command's last word carries, in
that word alone (R56). -/
def tailMask (e : Engine) (op k : Nat) (last : Bool) : EngineWord :=
  let at_ (j : Nat) (m : EngineWord) : EngineWord := if k = j then m else 0
  let ending (m : EngineWord) : EngineWord := if k ≥ 2 && last then m else 0
  match e, op with
  | .se, 1 => if k ≥ 2 then maskBits 63 48 ||| maskBits 39 0 else 0
  | .se, 2 => at_ 2 (maskBits 39 0) ||| at_ 3 (maskBits 31 0)
  | .se, 3 => at_ 1 (maskBits 63 0)
  | .se, 4 => at_ 2 (maskBits 23 0) ||| at_ 3 (maskBits 63 48 ||| maskBits 39 0)
  | .ce, 1 => at_ 3 (maskBits 82 82 ||| maskBits 63 0)
  | .ce, 2 => at_ 2 (maskBits 63 0)
  | .me, 1 => ending (maskBits 39 0)
  | .me, 3 => at_ 1 (maskBits 7 0)
  | .me, 4 => at_ 1 (maskBits 31 0)
  | .me, 5 => at_ 1 (maskBits 31 0)
  | .me, 7 => at_ 1 (maskBits 31 0)
  | .me, 8 => ending (maskBits 39 0)
  | .me, 11 => at_ 2 (maskBits 31 0)
  | .sa, 1 => at_ 2 (maskBits 63 40)
  | .sa, 2 => ending (maskBits 31 0)
  | .ne, 1 => ending (maskBits 39 0)
  | .ne, 2 => ending (maskBits 39 0)
  | .ne, 3 => at_ 2 (maskBits 31 0)
  | .ne, 4 => at_ 2 (maskBits 31 0)
  | .ne, 7 => at_ 3 (maskBits 63 44 ||| maskBits 31 0)
  | .tk, 1 => ending (maskBits 39 0)
  | .tk, 2 => ending (maskBits 39 0)
  | .tk, 4 => ending (maskBits 39 0)
  | _, _ => 0

/-- Whether every reserved bit of a word is zero (R56, R63). -/
def reservedZero (e : Engine) (w : EngineWord) : Bool :=
  let op := w.op.toNat
  let k := w.widx.toNat
  if w.isExt then true
  else
    let m := if k = 0 then leadMask e op else tailMask e op k w.last
    (w &&& maskBits 83 0) &&& ~~~m = 0

end Sys2Proof
end

