-- ==== Sys2Proof/Config.lean ====
section
/-! DEFINITION. What an implementation fixes and the values the manual leaves free. An opaque constant has no body that
a proof could see: a claim about it holds whatever it is. -/

namespace Sys2Proof.Config

/-- The count of `lx.cycle` at a step of the model (R15, R52): timing is not modelled, so the count is free.
Mark: UNVERIFIED, safe (log entry 3). -/
opaque cycleCount : Nat → Word

/-- A word that the manual leaves open, read at the model's tick counter; each use names its log entry. Safe. -/
opaque freeWord : Nat → Word

/-- Whether an access to a sector of HBM, made at a step, was queued at the stack controller together with an unordered one, so
that the two are not checked against each other (R305): timing, so free. Log entry 41, safe. -/
opaque queuedTogether : Nat → Nat → Bool

/-- Which of the values that its bound allows a special function delivers outside its exact and special cases: a fixed function
of the operation, TYPE, RND, the FTZ bits and the argument (R195). Log entry 5, safe. -/
opaque special : Nat → BitVec 4 → BitVec 3 → Bool → Bool → Word → Word

/-- The four check symbols that the stack controller keeps with a sector (R321, R337), from its bytes and its other metadata: the manual
names no code. Log entry 73, safe. -/
opaque checkSymbols : List Byte → BitVec 32 → BitVec 32

/-- The bus address of BAR4, which a host assigns (R378, R386). Log entry 85, safe. -/
opaque bar4Base : Word

/-- Where the NE puts the list of data pages of an NVMe Read of more than two, by its aperture (R386). Log entry 85, safe. -/
opaque prpList : Nat → Word

/-- The ownership bit of a fresh completion entry in the first pass of an RDMA completion ring (R387). Log entry 85, safe. -/
opaque firstOwnership : Bool

/-- The address at which context F starts in the bytes of the firmware-context image (R14, R388), whose form the manual does not give. Log
entry 34, safe. -/
opaque firmwareEntry : List Byte → Word

/-- Stogal's verification key (R388). Log entry 7. -/
opaque stogalKey : List Byte

/-- The signature Usmond makes over a report with the device identity key (R390). Log entry 7. -/
opaque attestSignature : List Byte → List Byte

/-- Stogal's certificate of the device identity key (R390). Log entry 7. -/
opaque certificate : List Byte

/-- The digest of the Usmond ROM that extends MR0 (R390). Log entry 7. -/
opaque romDigest : BitVec 256

/-- The byte form of a pod descriptor that MR6 is extended with (R390); R375 gives its content, not its bytes. -/
opaque podBytes : PodDesc → List Byte

/-- The pushes that the contraction microcode makes for a parameter block (32 words) (R116, R263): each an
engine id, whether it is a section header, and the word (a header's payload in its low bits). The manual leaves tiling and
grouping to the microcode: a fixed function of the block, uninterpreted. Log entry 22, safe. -/
opaque expansion : List Word → List (Nat × Bool × BitVec 96)

/-- In which group of the array's accumulation the contraction microcode takes a reduction position of a parameter block (R263: the grouping
belongs to the microcode; R51). Log entry 22, safe. -/
opaque contractGroup : List Word → Nat → Nat

/-- The byte of memory that nothing has written reads as (R12 gives none): log entry 1, DESIGN CHOICE, unsafe. -/
def unwrittenByte : Byte := 0

end Sys2Proof.Config
end

