-- ==== Sys2Proof/Machine/State.lean ====
section
/-! DEFINITION. The state of the machine: all that the manual gives the module, as plain data, and the state after
module reset. Maps are association lists with strictly rising keys; a key that a map does not list holds the value its
reader's default names (Machine/Maps.lean). -/

namespace Sys2Proof.Machine

open Sys2Proof

/-- A map from numbers, as plain data. -/
abbrev NMap (α : Type) := List (Nat × α)

/-- The epochs of other agents that an agent has seen (R303, R337): a vector clock. -/
abbrev Clock := NMap Nat

/-- Why the machine stops. No program's ordinary step ends in one. -/
inductive Fault
  /-- Raised by `step` when the running context's text holds no byte at its pc; the manual does not say what a fetch
  outside the region image does. Safe: the machine stops where the manual is silent. -/
  | fetchOutsideText (pc : Word)
deriving DecidableEq, Repr

/-- Why an instruction is refused. -/
inductive Refusal
  /-- Raised by a refused arm of `exec` for an instruction that has no meaning yet. Safe: nothing is claimed of it. -/
  | notModelled (mnemonic : String)
deriving DecidableEq, Repr

/-! ### Memory order (12_memory_model.md) -/

/-- The kinds of releases at a location (R296, R299): a marked store, a release fence that a marked write carries, an arming, an
arrival at a generation, an exchange, a response row written, the record of an external read. -/
inductive RelKind | store | fence | arm | arrival (gen : BitVec 32) | exchange | response | record
deriving DecidableEq, Repr

/-- How a read of a location meets a release there (R296): it returns the releasing write itself, another synchronisation write that
left the release sequence standing, or an atomic update in that sequence. -/
inductive Via | written | covered | updated
deriving DecidableEq, Repr

/-- A release that an acquire may meet: who released (its physical tile), at which scope, and what it had seen (R292, R296). -/
structure Rel where
  tile : Nat
  scope : Nat
  clock : Clock
  kind : RelKind := .store
  via : Via := .written
deriving DecidableEq, Repr

/-- One access as a sector's stamp records it (R303): agent, epoch, whether it writes and whether it is marked (R287). -/
structure Stamp where
  agent : Nat
  epoch : Nat
  write : Bool
  marked : Bool
deriving DecidableEq, Repr

/-- A performed `st.rel` that an agent outside its scope need not have seen yet (R290, R298): who wrote and released, the bytes
it replaced and the releases that stood at them. -/
structure Late where
  agent : Nat
  rel : Rel
  old : List (Nat × Byte)
  oldRels : List (Nat × List Rel)
deriving DecidableEq, Repr

/-- The metadata of a 32-byte sector (R303, R337): poison, and the accesses since the last plain write, which is kept; in HBM the number
and the epoch of the last writer; beside them the `st.rel`s performed since any other write, the latest first (log entry 66). -/
structure Sector where
  poison : Bool := false
  accs : List Stamp := []
  late : List Late := []
  writer : BitVec 14 := 0
  epoch : BitVec 16 := 0
deriving DecidableEq, Repr

/-- A `st.rel` not yet performed (R298): the memory key, the bytes, the releases it carries. -/
structure PendStore where
  key : Nat
  bytes : List Byte
  rels : List Rel
deriving DecidableEq, Repr

/-! ### Control-core contexts (R13-R20, R88-R90, R109, R110, R118) -/

/-- An engine fault posted to a context (R19, R310); `rank` is the logical tile on which the engine stands. -/
structure EngFault where
  engine : Engine
  code : BitVec 12
  sect : BitVec 9
  widx : BitVec 2
  upc : Word
  tval : Word
  rank : Nat := 0
deriving DecidableEq, Repr

/-- The life of a context (R14, R89). -/
inductive Life | absent | live | ended
deriving DecidableEq, Repr

/-- The pushes of a `contract` that have been made (R116): its pc, how many, the tag so far, the words of its block, the sections. -/
structure Expansion where
  pc : Word
  pushed : Nat
  tag : Word
  block : List Word
  made : List (Engine × BitVec 9) := []
deriving DecidableEq, Repr

/-- One context: what R13-R20 give it, with the hidden fields of R90, R110, R118 and R310. `gatherNow` is the
section that the `flg.gather` waiting at the pc has pushed; `expanding` stands for a `contract` whose pushes context F has begun (R116), the pushes made and the tag so far. A context keeps its record when it
is parked or saved (R353, R317), so its registers return as saved; `left` is the slot in which it parked (R355), as 2 * rank + letter;
`resolving` names the engine with the logical tile on which it stands (R310). -/
structure Context where
  x : NMap Word := []
  pc : Word := 0
  flags : Word := 0
  tvec : Word := 0
  epc : Word := 0
  trap : Word := 0
  tval : Word := 0
  empc : Word := 0
  instret : Word := 0
  trapactive : Bool := false
  resolving : Option (Engine × Nat) := none
  pending : List EngFault := []
  parkNow : Bool := false
  gather : Option (Word × BitVec 9) := none
  gatherNow : Option (BitVec 9) := none
  expanding : Option Expansion := none
  life : Life := .absent
  frozen : Bool := false
  exitVal : BitVec 32 := 0
  triggered : Bool := false
  waiting : Option Instr := none
  parked : Bool := false
  walk : Option Word := none
  left : Nat := 0
  clock : Clock := []
  relFences : List Rel := []
  acquired : List Rel := []
  stores : List PendStore := []
deriving DecidableEq, Repr

/-! ### Engines (R22-R24, R55-R64, R94-R102) -/

/-- One entry of an engine's command queue: the word, its section, its command (an agent of its own, R288). -/
structure QWord where
  word : EngineWord
  sect : BitVec 9
  cmd : Nat
  begun : Clock := []
deriving DecidableEq, Repr

/-- How a section came to be (R100, R118). -/
inductive SectKind | pushed | fork | fetched | gather
deriving DecidableEq, Repr

/-- A section that has been pushed and has neither retired nor been cancelled away (R60-R62, R97); `discard` marks one whose
remaining words a full hash table discards (R236). -/
structure Sect where
  num : BitVec 9
  owner : Nat
  len : Nat
  left : Nat
  deps : BitVec 54
  kind : SectKind := .pushed
  started : Bool := false
  cancelled : Bool := false
  discard : Bool := false
  flags : BitVec 10 := 0
  begun : Clock := []
  seen : Clock := []
  prog : Option Nat := none
deriving DecidableEq, Repr

/-- A retired section in the window of R62: whether it retired CANCELLED, and what its accesses had seen (R295). -/
structure Retired where
  num : BitVec 9
  cancelled : Bool
  seen : Clock
deriving DecidableEq, Repr

/-- The command a context is pushing (R63): its opcode, last WIDX, extents so far, its number. -/
structure OpenCmd where
  op : BitVec 8
  last : Nat
  exts : Nat
  words : List EngineWord
  cmd : Nat
deriving DecidableEq, Repr

/-- The claim on a queue (R22): the context, and the slot that CLAIM of R98 reports. -/
structure Claim where
  owner : Nat
  slot : BitVec 2
deriving DecidableEq, Repr

/-- A translated page frame: first virtual byte, physical frame, log2 of the page size (R24, R331). -/
structure Frame where
  va : Nat
  pa : Nat
  log2 : Nat
deriving DecidableEq, Repr

/-- An entry of an extent table (R24). -/
structure ExtEntry where
  base : Word
  len : Nat
  frames : List Frame
  tag : Nat
  space : Nat
deriving DecidableEq, Repr

/-- A forked program in fetch (R58, R64, R100). -/
structure Program where
  addr : Word
  count : Nat
  next : Nat
  fork : BitVec 9
  owner : Nat
  cmd : Nat
  sect : BitVec 9 := 0
  opened : List EngineWord := []
  begun : Clock := []
deriving DecidableEq, Repr

/-- A memory request of an engine that has been issued (R135, R363): the elements it covers; whether its data have returned, or met a fault
that waits for one in delivery (R134). -/
structure Req where
  id : Nat
  first : Nat
  count : Nat
  returned : Bool := false
  stuck : Bool := false
deriving DecidableEq, Repr

/-- The progress of a command: counters, requests outstanding, data held; its use is fixed by the command (R121-R146,
R159-R165, R202-R217, R254, R256, R286). -/
structure Work where
  i : Nat := 0
  j : Nat := 0
  k : Nat := 0
  reqs : List Req := []
  got : NMap Word := []
  held : List Word := []
  points : List Nat := []
  owns : List Nat := []
  counts : NMap Nat := []
  resp : Clock := []
  paused : Bool := false
  stopping : Bool := false
  finishing : Bool := false
  startSent : Bool := false
  endSent : Bool := false
  checked : Bool := false
  complete : Bool := false
  halted : Bool := false
deriving DecidableEq, Repr

/-- A command in progress: an agent of the memory order (R288). `base` is its epoch when its parts were last published whole, by a save
or a fault's resolution (R300, R301): the epochs of its parts count on from it. -/
structure Run where
  id : Nat
  instr : Instr
  sect : BitVec 9
  owner : Nat
  upc : Word := 0
  flags : BitVec 10 := 0
  work : Work := {}
  clock : Clock := []
  base : Nat := 0
  prog : Option Nat := none
deriving DecidableEq, Repr

/-- One engine of a tile (R12, R22-R24). `forks` names the last section that a fork section's program has fetched (R102),
`pusher` the context that pushed the latest section (R167),
`results` the OR that an `ne.flag` of a `flg.gather` holds with its section (R118). Its status, its micro-PC and RUN are read from the commands in progress, the
fault and the sections (`EngineSt.status`, `EngineSt.upc`, `EngineSt.running`). `done` is what the retired sections of each context have
seen (R301). -/
structure EngineSt where
  queue : List QWord := []
  opened : Option OpenCmd := none
  claim : Option Claim := none
  ret : BitVec 9 := 0
  enq : BitVec 9 := 0
  sects : List Sect := []
  retired : List Retired := []
  forks : NMap (BitVec 9) := []
  done : NMap Clock := []
  results : NMap (Word × Clock) := []
  extents : NMap ExtEntry := []
  runs : List Run := []
  program : Option Program := none
  fault : Option EngFault := none
  faultRun : Option Nat := none
  last : Clock := []
  fence : Clock := []
  seen : Clock := []
  pusher : Option Nat := none
deriving DecidableEq, Repr

/-! ### Packets, ports and the dataflow array (R25, R71, R120-R122, R147-R165) -/

/-- The marker kinds of R71. -/
inductive Marker | start | fin | whistle | scale | flush
deriving DecidableEq, Repr

/-- A packet (R71): its lane words, the predicate mask, the stream id, at most one marker. A marker-only packet has no
lane word. -/
structure Packet where
  lanes : List Word
  pred : BitVec 8
  sid : BitVec 9
  marker : Option Marker := none
  resp : Clock := []
deriving DecidableEq, Repr

/-- A delivery point or take point (R121): its packets, the stream that delivers to it and the one that takes from it,
whether its head has begun to be read, and the bits of its head lane word already consumed (R229). -/
structure Point where
  buf : List Packet := []
  holder : Option Nat := none
  taker : Option Nat := none
  begun : Bool := false
  bits : Nat := 0
deriving DecidableEq, Repr

/-- A DFA port's binding (R25, R67): the PORT word's fields, the gate, the uncounted ENDs of R162. -/
structure PortSt where
  bound : Bool := false
  sid : BitVec 9 := 0
  fmt : BitVec 4 := 0
  initGate : Bool := false
  gate : Bool := false
  ends : BitVec 32 := 0
deriving DecidableEq, Repr

/-- A data link (R67, R152) with its delay buffer (R153): packets in transit and arrived. -/
structure Link where
  src : BitVec 6
  dst : BitVec 6
  side : BitVec 2
  slots : Nat
  routed : Bool
  hops : BitVec 16
  delay : Nat := 0
  transit : List Packet := []
  arrived : List Packet := []
  begun : Bool := false
deriving DecidableEq, Repr

/-- A control link (R67, R155): transfers in transit and arrived, and what comes before each of them, the arrived ones first
(R299). -/
structure Ctrl where
  src : BitVec 5
  chan : BitVec 3
  dst : BitVec 6
  dchan : BitVec 3
  slots : Nat
  transit : List (BitVec 8) := []
  arrived : List (BitVec 8) := []
  resps : List Clock := []
deriving DecidableEq, Repr

/-- A processing element (R12, R25): rotating and static registers, stage gates, the rounding generator; what comes before the
values of the rotating registers (R299). -/
structure Pe where
  v : NMap (BitVec 256) := []
  resps : NMap Clock := []
  c : NMap (BitVec 256) := []
  sg : BitVec 8 := 0
  gen : BitVec 32 := 1
deriving DecidableEq, Repr

/-- Where a group stands in an invocation (R156, R157): outside, inside, or draining with firings left. -/
inductive Phase | outside | inside | draining (left : Nat) (restart : Bool)
deriving DecidableEq, Repr

/-- An operator group (R147, R150, R156). -/
structure Group where
  mask : BitVec 32
  ii : Nat
  s : Nat
  strict : Bool
  rb : BitVec 4 := 0
  phase : Phase := .outside
  cut : Bool := false
  stopped : Bool := false
deriving DecidableEq, Repr

/-- The configuration status of R25. -/
inductive CfgStatus | unconfigured | loading | loaded
deriving DecidableEq, Repr

/-- The dataflow array of a tile (R25). -/
structure Dfa where
  status : CfgStatus := .unconfigured
  image : BitVec 32 := 0
  pes : NMap Pe := []
  ops : NMap (List Word) := []
  groups : NMap Group := []
  links : NMap Link := []
  ctrls : NMap Ctrl := []
  ports : NMap PortSt := []
  pending : BitVec 10 := 0
  invoc : BitVec 32 := 0
  disc : BitVec 32 := 0
deriving DecidableEq, Repr

/-! ### The matrix array (R27, R197-R222) -/

/-- One element of a weight plane or a row: its bits (for a PL format its sign and magnitude), the tuck of its quarter
and the exponent of its block. -/
structure MCell where
  bits : BitVec 16
  tuck : BitVec 2 := 0
  exp : Byte := 0
deriving DecidableEq, Repr

/-- A weight plane (R27): per column the elements in position order with their block exponents, the mask (all ones where
none is listed, as R27 has it for a plane without sparse weights, at reset too, where R12's table gives 0: log entry 84), the scale. -/
structure Plane where
  latch : BitVec 4 := 0
  sparse : Bool := false
  cells : NMap (List MCell) := []
  masks : NMap (BitVec 512) := []
  scales : NMap (BitVec 32) := []
  scale : BitVec 32 := 0
  resp : Clock := []
  scaleResp : Clock := []
deriving DecidableEq, Repr

/-- Bank states of R209. -/
inductive BankState | free | opened | retiring
deriving DecidableEq, Repr

/-- An accumulator bank (R27, R208, R209, R215). -/
structure Bank where
  state : BankState := .free
  tag : BitVec 9 := 0
  nrows : Nat := 0
  int : Bool := false
  sat : Bool := false
  depth : Nat := 0
  rows : NMap (List (BitVec 32)) := []
  resps : NMap Clock := []
deriving DecidableEq, Repr

/-- What a row of A is multiplied with (R218): the active plane, or a tile in masked-dense form. -/
inductive PipeSrc
  | plane
  | tile (fmt : BitVec 4) (cols : NMap (List MCell)) (masks : NMap (BitVec 512))
deriving DecidableEq, Repr

/-- The row pipeline (R198, R207): rows fired and not yet accumulated, and tokens that have not passed, with the response elements they
are computed from (R299). -/
inductive PipeItem
  | row (bank : Bool) (r : Nat) (afmt : BitVec 4) (a : List MCell) (src : PipeSrc) (cmd : Nat)
    (resp : Clock)
  | token (scales : NMap (BitVec 32)) (scale : BitVec 32) (resp : Clock)
deriving DecidableEq, Repr

/-- The identity of a pattern (R265). -/
structure PatId where
  tid : BitVec 24
  trow : BitVec 8
  tcol : BitVec 8
deriving DecidableEq, Repr

/-- The matrix array of a tile (R27). -/
structure Matrix where
  active : Plane := {}
  shadow : Plane := {}
  banks : NMap Bank := []
  carry : NMap (BitVec 32) := []
  hist : NMap (BitVec 32) := []
  pipe : List PipeItem := []
  pat : Option (PatId × BitVec 32) := none
  carryResp : Clock := []
  ipReads : Clock := []
deriving DecidableEq, Repr

/-! ### Barriers, tack maps, tiles -/

/-- A named barrier (R28), with the arrivals' releases by generation (R296). -/
structure Barrier where
  part : BitVec 8 := 0
  arr : BitVec 8 := 0
  gen : BitVec 16 := 0
  scope : BitVec 4 := 0
  rels : List (BitVec 16 × Rel) := []
deriving DecidableEq, Repr

/-- Map states of R276. -/
inductive MapState | free | live | kept | lost
deriving DecidableEq, Repr

/-- A tack map (R30, R276); `sz` holds the sizes of the input tokens (R278), which `tk.merge` weights with (R279). -/
structure TackMap where
  state : MapState := .free
  sz : List Nat := []
  nin : Nat := 0
  r : Nat := 0
  d : List Nat := []
  size : List Nat := []
  parent : Option Nat := none
deriving DecidableEq, Repr

/-- A leaf of the translation cache (R332). -/
structure TlbEntry where
  space : Nat
  frame : Frame
  w : Bool
  d : Bool
  pte : Nat
deriving DecidableEq, Repr

/-- A pointer of the walk cache (R332): the level-2 or level-3 table that a walk of an address passes, by the first address the
table covers. -/
structure WalkPtr where
  space : Nat
  level : Nat
  va : Nat
  table : Nat
deriving DecidableEq, Repr

/-- An entry of the pin table (R333). -/
structure Pin where
  space : Nat
  va : Nat
  count : Nat
deriving DecidableEq, Repr

/-- How far a tile is in a whistle cut (R314). -/
inductive Cut | none | blown | saved
deriving DecidableEq, Repr

/-- The clock of a partition (R323). -/
inductive PartSt | runs | freezing | gated
deriving DecidableEq, Repr

/-- A `contract` whose sections are pushed (R116, R263): the words of its block, its context, the tag of its sections, the command
under which C is written, and what comes before it. -/
structure Contraction where
  block : List Word
  owner : Nat
  tag : Word
  cmd : Nat
  clock : Clock
deriving DecidableEq, Repr

/-- A physical exposed tile (R12). -/
structure Tile where
  engines : NMap EngineSt := []
  barriers : NMap Barrier := []
  dfa : Dfa := {}
  points : NMap Point := []
  me : Matrix := {}
  maps : NMap TackMap := []
  tlb : List TlbEntry := []
  walkCache : List WalkPtr := []
  pins : List Pin := []
  fwshare : BitVec 7 := 0
  rob : NMap (List Word) := []
  cut : Cut := .none
  part : PartSt := .runs
  clockGated : Bool := false
  contractions : List Contraction := []
deriving DecidableEq, Repr

/-! ### Clusters (R31, R264-R274, R338, R369) -/

/-- The key of a pattern (R265); `range` is the extent's bytes as pieces of memory keys, which stand for its place (R266, R273). -/
structure PatKey where
  id : PatId
  gen : BitVec 32
  base : Word
  len : Nat
  fmt : BitVec 4
  range : List (Nat × Nat)
deriving DecidableEq, Repr

/-- A pattern-cache entry (R267, R268): dense entries hold no words. `since` is when its range was registered (R338); `resp` the
response elements that its weights are (R299). -/
structure PatEntry where
  key : PatKey
  dense : Bool
  words : Nat
  cols : NMap (List MCell) := []
  masks : NMap (BitVec 512) := []
  users : List Nat := []
  since : Nat := 0
  resp : Clock := []
deriving DecidableEq, Repr

/-- A compile request (R269): the tile and command that made it, whether the command waits for it, what it had seen, its
generation once it has left the queue, when its range was registered (R338), its result. -/
structure Compile where
  key : PatKey
  tile : Nat
  cmd : Nat
  waits : Bool
  thresh : Nat
  clock : Clock
  since : Option Nat := none
  g0 : Option (BitVec 32) := none
  built : Option PatEntry := none
deriving DecidableEq, Repr

/-- A cluster (R31). `phys` names the physical tile at an exposed tile's place where it is not the one of the same number, `bad` the physical
tiles retired, `missing` the exposed tiles that no spare replaces (R324, R396, R397). -/
structure Cluster where
  hops : NMap (BitVec 4) := []
  cache : List PatEntry := []
  compiles : List Compile := []
  gens : List (PatId × BitVec 32) := []
  fenced : Bool := false
  phys : NMap Nat := []
  bad : List Nat := []
  missing : List Nat := []
  part : PartSt := .runs
  routerPart : PartSt := .runs
  spareLanes : NMap Nat := []
  halfWidth : List Nat := []
  retention : Bool := false
deriving DecidableEq, Repr

/-! ### Regions, roster, wake unit (15_regions_and_scheduling.md) -/

/-- Slot states of R347. -/
inductive SlotState | free | loading | running | parked | draining | saved
deriving DecidableEq, Repr

/-- A roster entry (R347); `before` is the state a DRAINING slot held (R348). -/
structure Slot where
  region : Nat := 0
  prio : Nat := 0
  state : SlotState := .free
  lcoord : BitVec 21 := 0
  hctx : Bool := false
  hrank : Nat := 0
  savea : Word := 0
  before : SlotState := .free
deriving DecidableEq, Repr

/-- A wait descriptor (R353); a barrier's tile is named by its logical rank. -/
inductive WaitDesc
  | bar (rank : Nat) (bar : BitVec 7) (gen : BitVec 16)
  | syw (addr : Word) (gen : BitVec 32)
  | dep
  | child (handle : BitVec 32)
deriving DecidableEq, Repr

/-- RCB states of R346. -/
inductive RcbState | new | queued | loading | running | draining | saved | ended | active
deriving DecidableEq, Repr

/-- The kinds of relocations (R83): a code address, the address of one of the image's extents, a scratchpad address of the tile's
own. -/
inductive RelocKind | code | extent (i : Nat) | spa
deriving DecidableEq, Repr

/-- A field that takes bits of a relocated value: `width` bits from bit `lo` of the word at a byte offset, of the value plus `add` shifted
right (log entry 52). -/
structure RelocPart where
  offset : Nat
  lo : Nat := 0
  width : Nat := 64
  add : Nat := 0
  shift : Nat := 0
deriving DecidableEq, Repr

/-- A relocation of a tile's text or data (R82, R83): what it adds to the address it names, and the fields that take the result. -/
structure Reloc where
  text : Bool
  kind : RelocKind
  value : Nat
  parts : List RelocPart
deriving DecidableEq, Repr

/-- The text, data and launch configuration of one logical tile of a region image (R83). -/
structure ImageTile where
  rank : Nat
  text : List Host.Cell := []
  data : List Host.Cell := []
  relocs : List Reloc := []
  cfg : Option (Nat × Nat) := none
  startA : Bool := true
  startB : Bool := false
  spA : Word := 0
  spB : Word := 0
deriving DecidableEq, Repr

/-- A placed-and-routed region image (R83): its shape, its entry as an offset in the text, its tiles, the size and alignment of each of
its extents. -/
structure Image where
  nclus : Nat
  ntile : Nat
  entry : Word
  tiles : List ImageTile
  extents : List (Nat × Nat) := []
deriving DecidableEq, Repr

/-- Words 0-10 of an RCB (R339), as the FMC copies them at validation. -/
structure RcbWords where
  version : BitVec 8 := 1
  level : BitVec 3 := 0
  run : Bool := true
  pset : Bool := false
  prio : BitVec 3 := 0
  dcap : BitVec 10 := 0
  thresh : BitVec 7 := 0
  cslots : BitVec 8 := 0
  uals : BitVec 8 := 0
  weight : BitVec 8 := 0
  parent : Word := 0
  tileus : Word := 0
  hbmb : BitVec 48 := 0
  fqbase : Word := 0
  fqsize : BitVec 4 := 0
  hreg : BitVec 32 := 0
  nsyw : Word := 0
  image : Word := 0
  nclus : BitVec 16 := 0
  ntile : BitVec 5 := 0
  nprod : BitVec 8 := 0
  parkt : BitVec 16 := 0
  wto : BitVec 16 := 0
  prodl : Word := 0
  doorb : Word := 0
  reservedZero : Bool := true
deriving DecidableEq, Repr

/-- The units of one logical tile as the save area holds them (R317), as data; its memory lies in the area's bytes. `resolves` lists
the engines whose faults have been resolved since the save (R313). -/
structure SavedTile where
  rank : Nat
  tile : Tile
  resolves : List Nat := []
deriving DecidableEq, Repr

/-- A contribution to a collective round, or the combination of several, at the router where it stands (R368): how many it
holds, its values (R245), or its pairs by index and the windows that are dense (R248). -/
structure Contribution where
  router : Nat
  count : Nat := 1
  values : List (BitVec 64) := []
  pairs : List (Nat × BitVec 64) := []
  dense : List Nat := []
deriving DecidableEq, Repr

/-- A collective round in the routers (R243, R368): the command that fixed its parameters, the participants as physical tile
and command, what they released (R296), the contributions on their way; `done` once the root router holds the result,
`written` the commands whose destination holds it. -/
structure Round where
  id : Nat
  region : Nat
  gid : BitVec 16
  number : Nat
  instr : Instr
  members : List (Nat × Nat) := []
  rels : List Rel := []
  parts : List Contribution := []
  flags : BitVec 10 := 0
  done : Bool := false
  written : List Nat := []
deriving DecidableEq, Repr

/-- A region or a group node (R339-R362). `trigSeen`, `seen` and `saveSeen` are what its triggers, its end and its last save have released
(R296, R301); `rewake` asks that its parked contexts run their waits again once it is restored (R320 step 6, R345); `reserved` says that the device launch
queue holds its CSLOTS (R341). `savedRounds` is the router state of its rounds while it is saved (R317), `leftTiles` the tiles
it gave back since the last pass, not yet charged (R342), `collArea` the address and size of its collective area (R317), `textBase` and `extents` the addresses that its launch gave its text and its
extents (R82). -/
structure Region where
  id : Nat
  addr : Word
  space : Nat
  words : RcbWords := {}
  parent : Option Nat := none
  state : RcbState := .new
  code : BitVec 12 := 0
  value : BitVec 32 := 0
  trig : Bool := false
  wakep : Bool := false
  cheld : Nat := 0
  used : Nat := 0
  fqhead : BitVec 32 := 0
  seq : Nat := 0
  savea : Word := 0
  arg : Word := 0
  credit : Nat := 0
  placedSince : Nat := 0
  overBudget : Bool := false
  holdIdle : Bool := false
  prods : List Nat := []
  place : NMap Nat := []
  text : NMap (List Host.Cell) := []
  textBase : Nat := 0
  extents : List Nat := []
  starts : List Nat := []
  launched : Bool := false
  started : Bool := false
  detach : Bool := false
  taken : Bool := false
  abort : Option (BitVec 12 × BitVec 32) := none
  loadCodes : NMap (BitVec 12) := []
  acks : List Nat := []
  frozenSave : Bool := false
  whistleHeld : Bool := false
  leftTiles : Nat := 0
  savedTiles : List SavedTile := []
  savedRounds : List Round := []
  savedSlots : NMap Slot := []
  saved : List Nat := []
  saveSeq : Nat := 0
  collArea : Nat × Nat := (0, 0)
  begun : Clock := []
  trigSeen : Clock := []
  seen : Clock := []
  saveSeen : Clock := []
  rewake : Bool := false
  reserved : Bool := false
deriving DecidableEq, Repr

/-- A fault record (R313): waiting in the FMC, or written at an index of the ring of a domain's region and not yet resolved; `eng` is
the engine whose fault it reports, with its logical tile. -/
structure FaultRec where
  region : Nat
  ctx : Option Nat
  loc : BitVec 32
  trap : Word
  tval : Word
  epc : Word
  empc : Word
  cycle : Word
  info : Bool
  seq : Nat
  written : Bool := false
  domain : Nat := 0
  index : Nat := 0
  eng : Option (Engine × Nat) := none
deriving DecidableEq, Repr

/-- A host launch queue (R344, R384). -/
structure LaunchQueue where
  space : Nat
  ring : Word
  log2 : Nat
  doorbell : Word
  produced : BitVec 32 := 0
  taken : BitVec 32 := 0
deriving DecidableEq, Repr

/-- An entry of the device launch queue (R112, R344, R356). -/
structure DevEntry where
  region : Nat
  parent : Nat
  rcb : Word
  arg : Word
  detach : Bool
deriving DecidableEq, Repr

/-- A BAR2 window (R384, R385). -/
structure HostWin where
  port : HostPort
  offset : Nat
  len : Nat
  space : Nat
  va : Word
deriving DecidableEq, Repr

/-- A mapping the FMC made (R331, R384), with the physical source that a clean page is reloaded from, zeros with none. -/
structure Mapping where
  space : Nat
  va : Nat
  log2 : Nat
  source : Option Nat
deriving DecidableEq, Repr

/-- A page being unmapped or losing W (R335), or moved off a frame (R336): the tiles that have not acknowledged its shootdown, the
port whose request waits; `keep` for a page that only loses W. -/
structure Unmapping where
  space : Nat
  va : Nat
  port : Option HostPort
  waitFor : List Nat
  move : Option Nat := none
  keep : Bool := false
deriving DecidableEq, Repr

/-- FMCSTAT and USSTAT (R384, R389). -/
structure ReqStat where
  busy : Bool := false
  code : BitVec 12 := 0
  result : BitVec 8 := 0
  index : BitVec 16 := 0
  returned : Word := 0
deriving DecidableEq, Repr

/-- A DRAIN in progress (R397, R398). -/
structure Draining where
  cluster : Nat
  port : Option HostPort
  retried : List Nat := []
  refused : Bool := false
deriving DecidableEq, Repr

/-- What a checkpoint has left in the safe tier (R325): the bytes of HBM, the sectors that are poisoned there, whether it came to its
end, the tier as the request names it. -/
structure Checkpoint where
  mem : List Host.Cell
  poison : List Nat
  complete : Bool
  tier : List Byte := []
deriving DecidableEq, Repr

/-- The queue pair of a grant, whose only user is the NE (R387): the grant's payload, where the next send entry goes and the next completion
entry is read, whether the pass of the completion ring is an odd one, the value last rung at the completion queue's doorbell, the reads whose
timeout came before their completion. -/
structure QueuePair where
  payload : List Byte := []
  tail : Nat := 0
  head : Nat := 0
  phase : Bool := true
  rung : Nat := 0
  late : List Nat := []
deriving DecidableEq, Repr

/-- The active and standby FMC, with what they hold (R349, R384-R387, R392-R399): `frames` are the ranges of HBM that its memory manager
has handed out, `pins` its own pins of save-area pages (R317, R333), `pairs` the queue pairs of the grants, `images` the management image of
each FMC and `kinds` the images of KIND 3 and 4 (R389, R399), `failed` the FMCs that do not run, `held` the service requests that wait for a
checkpoint's end (R398). -/
structure Fmc where
  active : Bool := false
  running : Bool := false
  discovered : Bool := false
  rings : List (Nat × Word) := []
  wakes : List Nat := []
  ends : List Nat := []
  firmware : NMap WaitDesc := []
  records : List FaultRec := []
  queues : NMap LaunchQueue := []
  device : List DevEntry := []
  nextRegion : Nat := 1
  quantum : Nat := 10
  grants : NMap (List Byte) := []
  wins : List HostWin := []
  mappings : List Mapping := []
  unmaps : List Unmapping := []
  frames : List (Nat × Nat) := []
  pins : List Pin := []
  retiredFrames : List Nat := []
  podDesc : Option PodDesc := none
  drains : List Draining := []
  ltol : BitVec 32 := 0
  pcap : BitVec 16 := 4500
  ckptRegions : Option (List Nat) := none
  ckptPort : Option HostPort := none
  ckptComplete : Bool := false
  ckptTier : List Byte := []
  held : List (HostPort × Nat × List Byte) := []
  pairs : NMap QueuePair := []
  images : NMap (List Byte) := []
  kinds : NMap (List Byte) := []
  failed : List Bool := []
  safeTier : Option (Nat × Nat × Nat) := none
  checkpoint : Option Checkpoint := none
  swap : Option (List Byte) := none
  micros : Nat := 0
deriving DecidableEq, Repr

/-- OWNSTAT.STATE (R380). -/
inductive OwnState | unowned | owned | handover
deriving DecidableEq, Repr

/-- The ownership logic, the Usmond registers and the owner key store (R379-R391). -/
structure Owner where
  state : OwnState := .unowned
  capt : HostPort := false
  leasems : BitVec 30 := 0
  token : BitVec 32 := 0
  left : BitVec 32 := 0
  named : HostPort := false
  offer0 : Option (BitVec 30 × BitVec 32) := none
  offer1 : Option (BitVec 30 × BitVec 32) := none
  expired : List HostPort := []
  booted : Bool := false
  key : Option (List Byte × BitVec 8 × Word) := none
  transfers : Word := 0
  serial : BitVec 128 := 0
  mrs : NMap (BitVec 256) := []
  usstat0 : ReqStat := {}
  usstat1 : ReqStat := {}
  fmcstat0 : ReqStat := {}
  fmcstat1 : ReqStat := {}
  usbuf0 : List Host.Cell := []
  usbuf1 : List Host.Cell := []
  fmcbuf0 : List Host.Cell := []
  fmcbuf1 : List Host.Cell := []
  bootWindow : Bool := false
  link0 : Bool := false
  link1 : Bool := false
  hostEpoch : Nat := 0
deriving DecidableEq, Repr

/-! ### Fabric (R243-R253, R365-R377) -/

/-- What the NE asks of a peer (R252, R253, R387): an RDMA READ or an NVMe Read; the starting LBA or the remote address; the
namespace or the remote key; blocks of LBA size, or bytes; the transfer limit and the timeout of the grant. -/
structure XrdRequest where
  rdma : Bool
  addr : Word
  key : BitVec 32
  units : Nat
  limit : Nat
  timeout : Nat
deriving DecidableEq, Repr

/-- A posted external read (R253): the NE's identifier, its command, what it asked, the BAR4 offset mapped onto its destination
(R386), its queue pair, the place and the bytes of its send entry there and the value rung at SQDB (R387), the ranges of the destination written, the peer's writes that
wait for a fault's resolution (R304), and the status its completion has brought. -/
structure XrdPost where
  id : Nat
  tile : Nat
  cmd : Nat
  request : XrdRequest
  aperture : Nat
  len : Nat
  pair : Nat := 0
  slot : Nat := 0
  entry : List Byte := []
  rung : Nat := 0
  ranges : List (Nat × Nat) := []
  waiting : List (Nat × List Byte) := []
  done : Option (BitVec 16) := none
deriving DecidableEq, Repr

/-- The bytes of the destination that have been written. -/
def XrdPost.written (p : XrdPost) : Nat := p.ranges.foldl (fun n r => n + (r.2 - r.1)) 0

/-- A UALink port engine (R371-R377): lanes in use, the sequence number awaited by (source port, CLASS), records that came early,
those placed into the mesh in order, the credits held, the writes sent whose credits have not returned and those that wait for one,
records discarded and counted; `found` are the peers, module and port, that discovery has found there (R375), `outSeq` the next SEQ by destination and CLASS, `returned` the
credits given back for writes unpacked (R373). -/
structure UaPort where
  lanes : Nat := 4
  up : Bool := false
  nextSeq : NMap (BitVec 16) := []
  early : List (Nat × BitVec 16 × List Word) := []
  credits : Nat := 4096
  outbox : List (List Word) := []
  sent : List (List Word) := []
  dropped : Nat := 0
  errors : Nat := 0
  mesh : List (Nat × List Word) := []
  part : PartSt := .runs
  found : List (Nat × Nat) := []
  outSeq : NMap (BitVec 16) := []
  returned : Nat := 0
  response : List Byte := []
deriving DecidableEq, Repr

/-! ### Who moves next -/

/-- What a step does: a context runs its next instruction, an engine takes its next command, or an event comes about. -/
inductive What
  | core
  | queue (e : Engine)
  | event (i : Instr)
deriving DecidableEq, Repr

/-- One move of the agenda: the physical tile and the slot (0 A, 1 B, 2 F) it concerns, and what happens. -/
structure Act where
  tile : Nat
  slot : Nat
  what : What
deriving DecidableEq, Repr

/-- The state of the module. `ticks`, `agenda` and `choices` are the model's own: a counter that free values are read
at, the order of moves that the manual leaves to timing, and the choices it leaves to the implementation. -/
structure State where
  ticks : Nat := 0
  agenda : List Act := []
  choices : List Nat := []
  tile : Nat := 0
  slot : Nat := 0
  mem : List Host.Cell := []
  sectors : NMap Sector := []
  rels : NMap (List Rel) := []
  scFence : List Rel := []
  nextAgent : Nat := 0
  ctxs : NMap Context := []
  tiles : NMap Tile := []
  clusters : NMap Cluster := []
  roster : NMap Slot := []
  wake : NMap WaitDesc := []
  regions : NMap Region := []
  spaces : NMap Nat := []
  images : NMap Image := []
  fuses : List Nat := []
  fwText : List Host.Cell := []
  module : Nat := 0
  fmc : Fmc := {}
  own : Owner := {}
  rounds : List Round := []
  joins : NMap Nat := []
  xrds : List XrdPost := []
  uaports : NMap UaPort := []
  hbmPart : NMap PartSt := []
  islands : NMap Nat := []
  gatedIslands : List Nat := []
  selfRefresh : Bool := false
  deepIdle : Bool := false
deriving DecidableEq, Repr

/-- The module right after reset (R8, R12, R14, R303, R380, R396): every queue empty, every map free, every register 0
(the generators 1), no program, memory with nothing listed. -/
def State.reset : State := {}

end Sys2Proof.Machine
end

