-- ==== Sys2Proof/Machine/Maps.lean ====
section
/-! DEFINITION. Maps from numbers as sorted lists: reading with a default, writing, erasing. -/

namespace Sys2Proof.Machine

variable {α : Type}

/-- The value at key `k`, or the default `d`. -/
def nget (d : α) : NMap α → Nat → α
  | [], _ => d
  | (j, v) :: t, k => if j = k then v else nget d t k

/-- The value at key `k`, if listed. -/
def nget? : NMap α → Nat → Option α
  | [], _ => none
  | (j, v) :: t, k => if j = k then some v else nget? t k

/-- Writes key `k`, keeping the keys in rising order. -/
def nset : NMap α → Nat → α → NMap α
  | [], k, v => [(k, v)]
  | (j, w) :: t, k, v =>
    if k < j then (k, v) :: (j, w) :: t
    else if j = k then (k, v) :: t
    else (j, w) :: nset t k v

/-- Removes key `k`. -/
def nerase : NMap α → Nat → NMap α
  | [], _ => []
  | (j, w) :: t, k => if j = k then nerase t k else (j, w) :: nerase t k

/-- Changes the value at key `k`. -/
def nmod (d : α) (m : NMap α) (k : Nat) (f : α → α) : NMap α := nset m k (f (nget d m k))

/-- The keys in rising order, none twice. -/
def nsorted : NMap α → Bool
  | [] => true
  | [_] => true
  | (j, _) :: (k, v) :: t => j < k && nsorted ((k, v) :: t)

/-- The numbers lo, lo+1, … below lo + n. -/
def rangeFrom (lo n : Nat) : List Nat := (List.range n).map (· + lo)

/-- The element at an index of a list, or a default. -/
def lget (d : α) : List α → Nat → α
  | [], _ => d
  | a :: _, 0 => a
  | _ :: t, n + 1 => lget d t n

/-- The first element that a test accepts, changed. -/
def lmod (p : α → Bool) (f : α → α) : List α → List α
  | [] => []
  | a :: t => if p a then f a :: t else a :: lmod p f t

/-- The list less the first element that a test accepts. -/
def ldrop (p : α → Bool) : List α → List α
  | [] => []
  | a :: t => if p a then t else a :: ldrop p t

/-- The first element whose test holds, with its position. -/
def lfind (p : α → Bool) : List α → Option α
  | [] => none
  | a :: t => if p a then some a else lfind p t

/-- The join of two clocks: the later epoch of each agent (R297). -/
def Clock.join (a b : Clock) : Clock := b.foldl (fun c p => nset c p.1 (max (nget 0 c p.1) p.2)) a

end Sys2Proof.Machine
end

