-- ==== Sys2Proof/Machine/Memory.lean ====
section
/-! DEFINITION. Bytes of memory in canonical form, keys of the three memories, sector metadata, and the race check
(12_memory_model.md, R322, R326, R337). A memory key numbers a byte: below 2^48 a physical byte of HBM; 2^48 upward the
tile scratchpads, 1 MiB each; 2^49 upward the cluster L2s, 16 MiB each. -/

namespace Sys2Proof.Machine

open Sys2Proof

/-! ### Bytes -/

/-- The byte at a key (R6, R12). -/
def memGet (m : List Host.Cell) (k : Nat) : Byte := nget Config.unwrittenByte m k

/-- Writes a byte, keeping the canonical form: keys rising, none that holds the unwritten byte. -/
def memSet (m : List Host.Cell) (k : Nat) (b : Byte) : List Host.Cell :=
  if b = Config.unwrittenByte then nerase m k else nset m k b

/-- The canonical form of memory. -/
def Memory.wf (m : List Host.Cell) : Bool := nsorted m && m.all (fun c => c.2 != Config.unwrittenByte)

/-- Writes bytes at their keys, in order. -/
def memPut (m : List Host.Cell) : List Host.Cell → List Host.Cell
  | [] => m
  | (k, b) :: t => memPut (memSet m k b) t

/-- `n` bytes from a key upward. -/
def memBytes (m : List Host.Cell) (k n : Nat) : List Byte := (List.range n).map (fun i => memGet m (k + i))

/-- The number that bytes hold, the first the least significant (R6). -/
def leNat : List Byte → Nat
  | [] => 0
  | b :: t => b.toNat + 256 * leNat t

/-- The `n` low bytes of a number, the least significant first (R6). -/
def leBytes : Nat → Nat → List Byte
  | 0, _ => []
  | n + 1, v => BitVec.ofNat 8 v :: leBytes n (v / 256)

/-- Bytes lo onward of a list, n of them, as a number. -/
def numAt (bs : List Byte) (lo n : Nat) : Nat := leNat ((bs.drop lo).take n)

/-- The bytes beside their keys, from a key upward. -/
def cellsFrom : Nat → List Byte → List Host.Cell
  | _, [] => []
  | k, b :: t => (k, b) :: cellsFrom (k + 1) t

/-- Little-endian read of `n` bytes. -/
def memNat (m : List Host.Cell) (k n : Nat) : Nat := leNat (memBytes m k n)

/-- Little-endian write of `n` bytes. -/
def memPutNat (m : List Host.Cell) (k n v : Nat) : List Host.Cell := memPut m (cellsFrom k (leBytes n v))

/-! ### Keys -/

/-- Key of a scratchpad byte of a physical tile (R12, R33). -/
def scratchKey (tile off : Nat) : Nat := 2 ^ 48 + tile * 2 ^ 20 + off

/-- Key of a byte of a physical cluster's L2. -/
def l2Key (cluster off : Nat) : Nat := 2 ^ 49 + cluster * 2 ^ 24 + off

/-- The first physical address beyond HBM (R328). -/
abbrev hbmEnd : Nat := 0xC000000000

/-- The HBM stack of a physical byte (R328). -/
def stackOf (k : Nat) : Nat := (k / 256 % 16 + k / 65536 % 16) % 16

/-- Whether a key lies in HBM (R328). -/
def isHbm (k : Nat) : Bool := k < hbmEnd

/-- The sectors of a list of keys, each once (R289). -/
def sectorsOf (keys : List Nat) : List Nat :=
  keys.foldl (fun acc k => if acc.contains (k / 32) then acc else acc ++ [k / 32]) []

/-! ### Agents and epochs (R288, R303) -/

/-- The agent number of a context, from the key of its home. -/
def ctxAgent (key : Nat) : Nat := 2 * key

/-- The agent number of a command. -/
def cmdAgent (cmd : Nat) : Nat := 2 * cmd + 1

/-- The agent number of the hosts (R301, R385). -/
def hostAgent : Nat := 2 ^ 100 + 2

/-- The agent number of what arrives over UALink at a port (R337, R372). -/
def ualinkAgent (port : Nat) : Nat := 2 ^ 100 + 4 + 2 * port

/-- The epoch that an agent's accesses carry: one more than its releases. -/
def epochOf (c : Clock) (a : Nat) : Nat := nget 0 c a + 1

/-- A release by an agent: its clock with its own epoch closed. What the release publishes is this clock. -/
def Clock.release (c : Clock) (a : Nat) : Clock := nset c a (epochOf c a)

/-- Whether an access happens-before what agent `a` with clock `c` does now (R297); accesses of one agent never race. -/
def Stamp.before (st : Stamp) (c : Clock) (a : Nat) : Bool := st.agent = a || st.epoch ≤ nget 0 c st.agent

/-- Whether a new access of a sector races with one that its metadata holds (R302, R304; in HBM only with a write, R305). -/
def Sector.races (sec : Sector) (hbm : Bool) (c : Clock) (a : Nat) (write marked : Bool) : Bool :=
  sec.accs.any fun st =>
    !st.before c a && (st.write || write) && !(st.marked && marked) && (!hbm || st.write)

/-- The stamp of an access added (R303). A plain write stands alone: every earlier access happens-before it, or raced. -/
def Sector.stamp (sec : Sector) (c : Clock) (a : Nat) (write marked : Bool) : Sector :=
  let new : Stamp := { agent := a, epoch := epochOf c a, write := write, marked := marked }
  if write && !marked then { sec with accs := [new], late := [] }
  else
    { sec with
      accs := sec.accs.filter (fun st => !(st.agent = a && st.write = write && st.marked = marked)) ++ [new]
      late := if write then [] else sec.late }

/-- The first of the keys whose sector the access would race in, if any (R304). In HBM an access that was queued at the
controller together with the other one is not checked against it (R305, log entry 41). -/
def firstRace (s : State) (c : Clock) (a : Nat) (keys : List Nat) (write marked : Bool) : Option Nat :=
  lfind (fun k => (nget {} s.sectors (k / 32)).races (isHbm k) c a write marked
    && !(isHbm k && Config.queuedTogether s.ticks (k / 32))) keys

/-- The first of the keys whose sector is poisoned, if any (R322). -/
def firstPoison (s : State) (keys : List Nat) : Option Nat :=
  lfind (fun k => (nget {} s.sectors (k / 32)).poison) keys

/-- The metadata of the sectors after an access. -/
def stampKeys (secs : NMap Sector) (c : Clock) (a : Nat) (keys : List Nat) (write marked : Bool) : NMap Sector :=
  (sectorsOf keys).foldl (fun m j => nset m j ((nget {} m j).stamp c a write marked)) secs

/-- Notes a read of the keys. -/
def noteRead (s : State) (c : Clock) (a : Nat) (keys : List Nat) (marked : Bool) : State :=
  { s with sectors := stampKeys s.sectors c a keys false marked }

/-- The sectors that a write covers whole, and whose poison it clears (R322). -/
def coveredSectors (keys : List Nat) : List Nat :=
  if keys.length < 32 then []
  else (sectorsOf keys).filter fun j => (List.range 32).all fun i => keys.contains (32 * j + i)

/-- Sector metadata after a write (R303, R322). -/
def stampWrite (secs : NMap Sector) (c : Clock) (a : Nat) (keys : List Nat) (marked : Bool) : NMap Sector :=
  (coveredSectors keys).foldl (fun m j => nset m j { nget {} m j with poison := false })
    (stampKeys secs c a keys true marked)

/-- The last writer of the sectors of HBM that a write touches (R337). -/
def noteWriter (secs : NMap Sector) (writer : BitVec 14) (epoch : BitVec 16) (keys : List Nat) : NMap Sector :=
  (sectorsOf (keys.filter isHbm)).foldl (fun m j => nset m j { nget {} m j with writer := writer, epoch := epoch }) secs

/-- Forgets the releases at the bytes that a write replaces: a later read returns the new write's value (R296). -/
def dropRels (rels : NMap (List Rel)) (keys : List Nat) : NMap (List Rel) := keys.foldl nerase rels

/-- The releases that a synchronisation write leaves at a byte: the release sequences of marked stores, which only a plain write
ends, and no read of the write itself meets them (R296). -/
def coverRels (rs : List Rel) : List Rel := (rs.filter (·.kind = .store)).map fun r => { r with via := .covered }

/-- The releases that an atomic update leaves at a byte: it stands in the release sequence of every marked store there; a fence
needs its own write to be read, and the other kinds stay (R296). -/
def updateRels (rs : List Rel) : List Rel :=
  (rs.filter (·.kind ≠ .fence)).map fun r => if r.kind = .store then { r with via := .updated } else r

/-- Changes the releases at bytes where some stand. -/
def mapRels (f : List Rel → List Rel) (rels : NMap (List Rel)) (keys : List Nat) : NMap (List Rel) :=
  keys.foldl (fun m k =>
    match f (nget [] m k) with
    | [] => nerase m k
    | rs => nset m k rs) rels

/-- The releases at bytes that a write replaces (R296): none after a plain write, what a synchronisation write or an atomic update
leaves of them after those. -/
def relsAfter (rels : NMap (List Rel)) (keys : List Nat) (marked atomic : Bool) : NMap (List Rel) :=
  if !marked then dropRels rels keys else mapRels (if atomic then updateRels else coverRels) rels keys

end Sys2Proof.Machine
end

