-- ==== Sys2Proof/Machine/Space.lean ====
section
/-! DEFINITION. Who acts and where: contexts, tiles, engines, regions; logical scratchpad addresses (R33), page tables
(R329-R331), doorbells (R345), watched ranges (R266), and the one write of memory that all of these see. -/

namespace Sys2Proof.Machine

open Sys2Proof

/-! ### Who acts -/

/-- The key of the context bound to a slot of a tile: the home of R347 for a user slot, the tile itself for slot F. -/
def State.keyAt (s : State) (tile slot : Nat) : Nat :=
  if slot = 2 then tile * 4 + 2
  else
    let r := nget {} s.roster (tile * 2 + slot)
    r.region * 2 ^ 32 + r.hrank * 4 + (if r.hctx then 1 else 0)

/-- The key of the context that acts. -/
def State.key (s : State) : Nat := s.keyAt s.tile s.slot

/-- The context of a key. -/
def State.ctxOf (s : State) (k : Nat) : Context := nget {} s.ctxs k

/-- The context that acts. -/
def State.ctx (s : State) : Context := s.ctxOf s.key

/-- Writes the context of a key. -/
def State.setCtxOf (s : State) (k : Nat) (c : Context) : State := { s with ctxs := nset s.ctxs k c }

/-- Writes the context that acts. -/
def State.setCtx (s : State) (c : Context) : State := s.setCtxOf s.key c

/-- Whether the key names a firmware context. -/
def isFirmware (key : Nat) : Bool := key % 4 = 2

/-- The region of a context's key. -/
def regionOfKey (key : Nat) : Nat := key / 2 ^ 32

/-- The home rank of a context's key. -/
def rankOfKey (key : Nat) : Nat := key % 2 ^ 32 / 4

/-- A physical tile. -/
def State.tileAt (s : State) (t : Nat) : Tile := nget {} s.tiles t

/-- The physical tile of its cluster at an exposed tile's place (R324). -/
def State.physTile (s : State) (t : Nat) : Nat := nget (t % 24) (nget {} s.clusters (t / 24)).phys (t % 24)

/-- The island of a tile (R392): a spare's is the L2 island. -/
def State.islandOf (s : State) (t : Nat) : Nat := t / 24 * 10 + min 8 (s.physTile t / 3)

/-- Whether a power state stops a tile's clock, or takes its supply (R394). -/
def State.powerGated (s : State) (t : Nat) : Bool :=
  (s.tileAt t).clockGated || s.gatedIslands.contains (s.islandOf t) || (nget {} s.clusters (t / 24)).retention

/-- Writes a physical tile. -/
def State.setTile (s : State) (t : Nat) (v : Tile) : State := { s with tiles := nset s.tiles t v }

/-- An engine of a tile. -/
def Tile.engine (t : Tile) (e : Engine) : EngineSt := nget {} t.engines e.id

/-- Writes an engine of a tile. -/
def Tile.setEngine (t : Tile) (e : Engine) (v : EngineSt) : Tile := { t with engines := nset t.engines e.id v }

/-- An engine of the acting tile. -/
def State.eng (s : State) (e : Engine) : EngineSt := (s.tileAt s.tile).engine e

/-- Writes an engine of the acting tile. -/
def State.setEng (s : State) (e : Engine) (v : EngineSt) : State :=
  s.setTile s.tile ((s.tileAt s.tile).setEngine e v)

/-- All engines in ascending id (R4). -/
def allEngines : List Engine := [.se, .me, .ae, .ce, .sa, .ne, .tk]

/-- Takes the next choice of the tape, 0 where it is empty. -/
def State.choose (s : State) : Nat × State :=
  match s.choices with
  | [] => (0, s)
  | n :: rest => (n, { s with choices := rest })

/-! ### Regions -/

/-- The roster entry that says which region owns a tile (R348): slot A's, or slot B's where A's names none. -/
def State.tileEntry (s : State) (t : Nat) : Slot :=
  let a := nget {} s.roster (2 * t)
  if a.region ≠ 0 then a else nget {} s.roster (2 * t + 1)

/-- The region that owns a tile. -/
def State.regionAt (s : State) (t : Nat) : Option Region := nget? s.regions (s.tileEntry t).region

/-- The region of a context. -/
def State.regionOf (s : State) (key : Nat) : Option Region := nget? s.regions (regionOfKey key)

/-- The logical rank that a roster entry's LCOORD names (R240, R347). -/
def rankOf (l : BitVec 21) : Nat :=
  let n := l.toNat
  (n / 2 ^ 11 * 48 + n / 32 % 64) * 24 + n % 32

/-- The logical rank of a tile in the region that owns it (R240). -/
def State.rankAt (s : State) (tile : Nat) : Nat := rankOf (s.tileEntry tile).lcoord

/-- The rank of the acting tile. -/
def State.ownRank (s : State) : Nat := s.rankAt s.tile

/-- The LCOORD of a logical rank. -/
def coordOf (rank : Nat) : BitVec 21 :=
  BitVec.ofNat 21 (rank / 24 / 48 * 2 ^ 11 + rank / 24 % 48 * 32 + rank % 24)

/-- Writes a region's record. -/
def State.setRegion (s : State) (r : Region) : State := { s with regions := nset s.regions r.id r }

/-- The tiles that a region holds: rank beside physical tile. With no region, a firmware context reaches its own tile
as rank 0 (log entry 12). -/
def State.places (s : State) (tile : Nat) : NMap Nat :=
  match s.regionAt tile with
  | some r => r.place
  | none => [(0, tile)]

/-- The tiles that a region's shape takes (R339). -/
def RcbWords.tiles (w : RcbWords) : Nat := if w.nclus ≠ 0 then w.nclus.toNat * 24 else w.ntile.toNat

/-- The bytes of a region's save area (R317, R341 check 7): header, L2 window, 3 MiB a tile. -/
def RcbWords.saveBytes (w : RcbWords) : Nat := 65536 + w.tiles * 655360 + w.tiles * 3145728

/-! ### Logical scratchpad addresses (R33) -/

/-- The memory key of a scratchpad address in a region that holds the tiles `place`; none where R33 calls a field
invalid. The slice of an L2 window that lies at logical tile j's share is kept at the share of its physical tile
(log entry 13). -/
def logicalKey (place : NMap Nat) (addr : Nat) : Option Nat :=
  let md := addr / 2 ^ 46 % 1024
  let cl := addr / 2 ^ 40 % 64
  let ti := addr / 2 ^ 35 % 32
  let rs := addr / 2 ^ 24 % 2048
  let off := addr % 2 ^ 24
  let base := (md * 48 + cl) * 24
  if addr / 2 ^ 56 ≠ 0x80 || rs ≠ 0 || cl ≥ 48 then none
  else if ti = 31 then
    if off ≥ 24 * 655360 then none
    else
      match nget? place (base + off / 655360) with
      | some t => some (l2Key (t / 24) (t % 24 * 655360 + off % 655360))
      | none => none
  else if ti ≥ 24 || off ≥ 2 ^ 20 then none
  else
    match nget? place (base + ti) with
    | some t => some (scratchKey t off)
    | none => none

/-- The logical cluster number MODULE * 48 + CLUSTER that an address names. -/
def clusterOfAddr (addr : Nat) : Nat := addr / 2 ^ 46 % 1024 * 48 + addr / 2 ^ 40 % 64

/-- The logical cluster number of the acting tile. -/
def State.ownCluster (s : State) : Nat := rankOf (s.tileEntry s.tile).lcoord / 24

/-- The key that a control-core access reaches: R33 within the own cluster (R34). -/
def State.scalarKey (s : State) (addr : Word) : Option Nat :=
  if addr.toNat / 2 ^ 56 = 0x80 && clusterOfAddr addr.toNat = s.ownCluster then
    logicalKey (s.places s.tile) addr.toNat
  else none

/-- The physical tile that a key's home is measured at (R291): its tile, or its cluster's first tile for an L2; none
for HBM, which lies within every scope. -/
def homeOfKey (k : Nat) : Option Nat :=
  if isHbm k then none
  else if k < 2 ^ 49 then some ((k - 2 ^ 48) / 2 ^ 20)
  else some ((k - 2 ^ 49) / 2 ^ 24 * 24)

/-! ### Scopes (R291, R370) -/

/-- The hop count between two physical clusters (R370). -/
def State.hops (s : State) (a b : Nat) : Nat :=
  if a = b then 0 else (nget 15 (nget {} s.clusters a).hops b).toNat

/-- Whether a tile lies in the scope set of an agent on another, by the entry of its cluster (R291, R369). -/
def State.inScope (s : State) (from_ dst scope : Nat) : Bool :=
  if from_ = dst then true
  else if scope = 0 then false
  else if scope = 1 then from_ / 24 = dst / 24
  else
    let h := s.hops (from_ / 24) (dst / 24)
    if scope = 15 then h ≠ 15 else h ≤ scope - 1

/-- Whether the home of a key lies in a scope set: an L2's home is every tile of its cluster (R291). -/
def State.keyInScope (s : State) (from_ k scope : Nat) : Bool :=
  match homeOfKey k with
  | none => true
  | some t => if k ≥ 2 ^ 49 && t / 24 = from_ / 24 then true else s.inScope from_ t scope

/-- Whether a release and an acquire meet (R292). A release "at every scope" carries scope 15. -/
def State.meets (s : State) (r : Rel) (tile scope : Nat) : Bool :=
  s.inScope r.tile tile r.scope && s.inScope tile r.tile scope

/-- A clock with the releases that meet an acquire joined (R296). -/
def State.acquire (s : State) (c : Clock) (rels : List Rel) (tile scope : Nat) : Clock :=
  rels.foldl (fun c r => if s.meets r tile scope then c.join r.clock else c) c

/-! ### Partitions that stand still (R323, R365, R366) -/

/-- The cluster at whose router an HBM stack attaches (R365). -/
def stackCluster (k : Nat) : Nat := 8 * (if k < 8 then 0 else 5) + 4 * (k / 4 % 2) + k % 4

/-- The numbers from one to another, both included, in the order of travel. -/
def travel (a b : Nat) : List Nat := if a ≤ b then rangeFrom a (b - a + 1) else (rangeFrom b (a - b + 1)).reverse

/-- The routers that a request passes within a module, first along x, then along y (R366). -/
def meshPath (a b : Nat) : List Nat :=
  (travel (a % 8) (b % 8)).map (fun x => a / 8 * 8 + x) ++ ((travel (a / 8) (b / 8)).drop 1).map fun y => y * 8 + b % 8

/-- Whether a request of a tile to a key waits, since its home or a router on its way is a frozen partition whose clock is gated
(R323). -/
def State.held (s : State) (tile k : Nat) : Bool :=
  let gated := fun (c : Nat) => (nget {} s.clusters c).routerPart = .gated
  if isHbm k then nget .runs s.hbmPart (stackOf k) = .gated || (meshPath (tile / 24) (stackCluster (stackOf k))).any gated
  else
    let home := (homeOfKey k).getD 0
    (if k < 2 ^ 49 then (s.tileAt home).part = .gated else (nget {} s.clusters (home / 24)).part = .gated)
      || (home / 24 ≠ tile / 24 && (meshPath (tile / 24) (home / 24)).any gated)

/-! ### Page tables (R329-R331) -/

/-- Shift and width of the index of a level, and log2 of the next table's alignment (R329). -/
def pageLevels : List (Nat × Nat × Nat × Nat) :=
  [(0, 43, 13, 16), (1, 30, 13, 12), (2, 21, 9, 8), (3, 16, 5, 0)]

/-- Whether an entry is a leaf (R330). -/
def pteLeaf (lvl : Nat) (e : Nat) : Bool := lvl = 3 || (e.testBit 1 && (lvl = 1 || lvl = 2))

/-- Whether an entry is defective (R330); `align` is log2 of the next table's alignment, `shift` the page size's. -/
def pteDefective (lvl shift align e : Nat) : Bool :=
  let addr := e / 256 % 2 ^ 40 * 256
  e / 2 ^ 48 ≠ 0 || e.testBit 7 || e.testBit 2
    || (lvl = 3 && !e.testBit 1) || (lvl = 0 && e.testBit 1)
    || addr ≥ hbmEnd
    || (if pteLeaf lvl e then addr % 2 ^ shift ≠ 0
        else addr % 2 ^ align ≠ 0 || e.testBit 6 || e.testBit 5 || e.testBit 4 || e.testBit 3)

/-- What a walk of one page finds; a page that is being unmapped or is moving keeps its frame until that is over (R335, R336). -/
inductive Walk
  | page (frame : Frame) (w d : Bool) (pte : Nat)
  | pending (frame : Frame)
  | moving (frame : Frame)
  | bad
deriving DecidableEq, Repr

/-- The walk of R331 from a table at `a` down the levels. -/
def walkFrom (m : List Host.Cell) (va : Nat) : Nat → List (Nat × Nat × Nat × Nat) → Walk
  | _, [] => .bad
  | a, (lvl, shift, width, align) :: rest =>
    let at_ := a + 8 * (va / 2 ^ shift % 2 ^ width)
    let e := memNat m at_ 8
    if !e.testBit 0 || pteDefective lvl shift align e then .bad
    else if pteLeaf lvl e then
      let f : Frame := { va := va / 2 ^ shift * 2 ^ shift, pa := e / 256 % 2 ^ 40 * 256, log2 := shift }
      if e.testBit 5 then .pending f
      else if e.testBit 6 then .moving f
      else .page f (e.testBit 3) (e.testBit 4) at_
    else walkFrom m va (e / 256 % 2 ^ 40 * 256) rest

/-- The pointers to level-2 and level-3 tables that a walk passes (R332). -/
def walkPtrs (m : List Host.Cell) (space va : Nat) : Nat → List (Nat × Nat × Nat × Nat) → List WalkPtr
  | _, [] => []
  | a, (lvl, shift, width, align) :: rest =>
    let e := memNat m (a + 8 * (va / 2 ^ shift % 2 ^ width)) 8
    let here : List WalkPtr :=
      if 2 ≤ lvl then [{ space := space, level := lvl, va := va / 2 ^ (shift + width) * 2 ^ (shift + width), table := a }] else []
    if !e.testBit 0 || pteDefective lvl shift align e || pteLeaf lvl e then here
    else here ++ walkPtrs m space va (e / 256 % 2 ^ 40 * 256) rest

/-- The deepest pointer of a walk cache on the way to an address (R332). -/
def deepest (ps : List WalkPtr) (space va : Nat) : Option WalkPtr :=
  let at_ := fun lvl bits => lfind (fun (p : WalkPtr) => p.space = space && p.level = lvl && p.va = va / 2 ^ bits * 2 ^ bits) ps
  match at_ 3 21 with
  | some p => some p
  | none => at_ 2 30

/-- The walk cache after a walk: 32 pointers, the latest kept (R332). -/
def walkFill (ps new : List WalkPtr) : List WalkPtr := (new.reverse ++ ps.filter (fun p => !new.contains p)).take 32

/-- The walk of a virtual address in an address space. -/
def State.walk (s : State) (space va : Nat) : Walk :=
  match nget? s.spaces space with
  | some root => if va ≥ 2 ^ 56 then .bad else walkFrom s.mem va root pageLevels
  | none => .bad

/-- The walk of a tile: from the deepest pointer that its walk cache holds (R332). -/
def State.walkVia (s : State) (ps : List WalkPtr) (space va : Nat) : Walk :=
  match deepest ps space va with
  | some p => walkFrom s.mem va p.table (pageLevels.drop p.level)
  | none => s.walk space va

/-- The physical byte of a virtual address, as the memory manager finds it (no permission checked): a page stays mapped while its PEND
or MV stands (R335, R336). -/
def State.vaKey (s : State) (space va : Nat) : Option Nat :=
  match s.walk space va with
  | .page f _ _ _ => some (f.pa + (va - f.va))
  | .pending f => some (f.pa + (va - f.va))
  | .moving f => some (f.pa + (va - f.va))
  | .bad => none

/-- The frame of an entry. -/
def pteFrame (e : Nat) : Nat := e / 256 % 2 ^ 40 * 256

/-- The address of the level-3, 2 or 1 entry that maps an address, whatever its PEND, MV and W. -/
def leafAt (m : List Host.Cell) (va : Nat) : Nat → List (Nat × Nat × Nat × Nat) → Option (Nat × Nat)
  | _, [] => none
  | a, (lvl, shift, width, _) :: rest =>
    let at_ := a + 8 * (va / 2 ^ shift % 2 ^ width)
    let e := memNat m at_ 8
    if !e.testBit 0 then none
    else if pteLeaf lvl e then some (at_, shift)
    else leafAt m va (pteFrame e) rest

/-- The leaf entry of an address of an address space, with log2 of its page. -/
def State.leafOf (s : State) (space va : Nat) : Option (Nat × Nat) :=
  match nget? s.spaces space with
  | some root => leafAt s.mem va root pageLevels
  | none => none

/-- The low bytes, with D set, of the leaf entries of the pages that `n` bytes at a virtual address touch (R331). -/
def State.dirtyCells (s : State) (space va n : Nat) : List Host.Cell :=
  (((List.range (n / 65536 + 1)).map fun i => va + i * 65536) ++ [va + n - 1]).filterMap fun a =>
    match s.leafOf space a with
    | some (pte, _) => if isHbm pte then some (pte, memGet s.mem pte ||| 0x10) else none
    | none => none

/-- What a page lookup finds (R332). -/
inductive Lookup
  | hit (e : TlbEntry)
  | bad
  | moving
  | miss
deriving DecidableEq, Repr

/-- The cached leaf that holds an address (R332). -/
def tlbFind (tlb : List TlbEntry) (space va : Nat) : Option TlbEntry :=
  lfind (fun e => e.space = space && e.frame.va ≤ va && va < e.frame.va + 2 ^ e.frame.log2) tlb

/-- Looks a page up: in the cache, and after the walk has ended in the tables (R332, R95). -/
def State.lookup (s : State) (t : Tile) (walked : Bool) (space va : Nat) : Lookup :=
  match tlbFind t.tlb space va with
  | some e => .hit e
  | none =>
    if !walked then .miss
    else
      match s.walkVia t.walkCache space va with
      | .bad | .pending _ => .bad
      | .moving _ => .moving
      | .page f w d pte => .hit { space := space, frame := f, w := w, d := d, pte := pte }

/-- What the translation of an extent gives (R331): its leaves, the first failing address, or a stall. -/
inductive Trans
  | ok (leaves : List TlbEntry)
  | unmapped (va : Nat)
  | moving
  | miss
deriving DecidableEq, Repr

/-- Translates the pages of [va, stop) in ascending order (R331); the fuel bounds the pages by the smallest size. -/
def State.translate (s : State) (t : Tile) (walked : Bool) (space : Nat) (wr : Bool) (base stop : Nat) :
    Nat → Nat → List TlbEntry → Trans
  | 0, _, es => .ok es
  | fuel + 1, va, es =>
    if va ≥ stop then .ok es
    else
      match s.lookup t walked space va with
      | .bad => .unmapped (max base (va / 65536 * 65536))
      | .moving => .moving
      | .miss => .miss
      | .hit e =>
        if wr && !e.w then .unmapped (max base e.frame.va)
        else s.translate t walked space wr base stop fuel (e.frame.va + 2 ^ e.frame.log2) (es ++ [e])

/-- Translates an extent of a device virtual address, as a tile does. -/
def State.translateExtent (s : State) (t : Tile) (walked : Bool) (space base len : Nat) (wr : Bool) : Trans :=
  s.translate t walked space wr base (base + len) (len / 65536 + 2) base []

/-- The cache after a leaf is used: 512 leaves, the latest kept (R332). -/
def tlbFill (tlb : List TlbEntry) (e : TlbEntry) : List TlbEntry :=
  (e :: tlb.filter (fun x => !(x.space = e.space && x.frame.va = e.frame.va))).take 512

/-- The byte that a list of frames gives a virtual address. -/
def frameKey (frames : List Frame) (va : Nat) : Option Nat :=
  match lfind (fun f => f.va ≤ va && va < f.va + 2 ^ f.log2) frames with
  | some f => some (f.pa + (va - f.va))
  | none => none

/-! ### Watched ranges (R266, R338) -/

/-- The generation that a cluster holds for an identity (R265). -/
def Cluster.genOf (c : Cluster) (i : PatId) : BitVec 32 :=
  match lfind (fun g => g.1 = i) c.gens with
  | some g => g.2
  | none => 0

/-- Raises an identity's generation by 1. -/
def Cluster.raise (c : Cluster) (i : PatId) : Cluster :=
  { c with gens := (i, c.genOf i + 1) :: c.gens.filter (fun g => g.1 ≠ i) }

/-- Whether a range, as pieces of first key and length, holds one of the keys. -/
def inRange (range : List (Nat × Nat)) (keys : List Nat) : Bool :=
  range.any fun p => keys.any fun k => p.1 ≤ k && k < p.1 + p.2

/-- Raises the generation of every identity that watches one of the keys (R266). -/
def Cluster.watched (c : Cluster) (keys : List Nat) : Cluster :=
  let ids := (c.cache.filter fun e => inRange e.key.range keys).map (·.key.id)
    ++ (c.compiles.filter fun q => q.since.isSome && inRange q.key.range keys).map (·.key.id)
  ids.eraseDups.foldl Cluster.raise c

/-- Raises watched generations in every cluster. -/
def State.raiseGens (s : State) (keys : List Nat) : State :=
  { s with clusters := s.clusters.map fun p => (p.1, p.2.watched keys) }

/-! ### Plain reads and writes that the FMC, the host and the save hardware make -/

/-- Reads a little-endian number at a virtual address, byte by byte; an unmapped byte reads as zero. -/
def State.vaNat (s : State) (space va n : Nat) : Nat :=
  leNat ((List.range n).map fun i =>
    match s.vaKey space (va + i) with | some k => memGet s.mem k | none => 0)

/-- Writes bytes at a virtual address, skipping unmapped ones: a write of the FMC, which rings no doorbell of its own. It raises
watched generations (R266), resets what a sector wholly covered holds, poison included (R322, R337), and ends the releases at
its bytes; it carries no stamp (log entry 73). The pages are then no longer clean: D is set (R322). -/
def State.vaPut (s : State) (space va : Nat) (bs : List Byte) : State :=
  let cells := (cellsFrom va bs).filterMap fun c =>
    match s.vaKey space c.1 with | some k => some (k, c.2) | none => none
  let keys := cells.map (·.1)
  let s := { s with
    mem := memPut (memPut s.mem cells) (s.dirtyCells space va bs.length), rels := dropRels s.rels keys
    sectors := (coveredSectors keys).foldl nerase s.sectors }
  s.raiseGens keys

/-- The state code of R346. -/
def RcbState.code : RcbState → Nat
  | .new => 0 | .queued => 1 | .loading => 2 | .running => 3 | .draining => 4 | .saved => 5 | .ended => 6 | .active => 7

/-- Words 11-16 of a region's RCB as the FMC writes them (R339); FQTAIL belongs to the handler. -/
def State.mirror (s : State) (r : Region) : State :=
  let b := fun (x : Bool) => if x then 1 else 0
  let w11 := r.id * 2 ^ 32 + b r.wakep * 2 ^ 31 + b r.trig * 2 ^ 30 + r.state.code * 2 ^ 24 + r.code.toNat
  let w12 := r.value.toNat * 2 ^ 32 + r.cheld * 2 ^ 24
  let root := nget 0 s.spaces r.space
  let s := s.vaPut r.space (r.addr.toNat + 88)
    (leBytes 8 w11 ++ leBytes 8 w12 ++ leBytes 8 r.savea.toNat ++ leBytes 8 root ++ leBytes 8 r.used)
  s.vaPut r.space (r.addr.toNat + 132) (leBytes 4 r.fqhead.toNat)

/-- Writes a region's record and the words of its RCB that the FMC keeps (R339); once STATE reads ENDED the RCB's memory belongs to its
writer again (R361). -/
def State.putRegion (s : State) (r : Region) : State :=
  if (nget? s.regions r.id).any (fun q => q.state = .ended) then s.setRegion r else (s.setRegion r).mirror r

/-! ### Doorbells (R345, R313, R359) -/

/-- The doorbell words registered: address space and virtual address. -/
def State.doorbells (s : State) : List (Nat × Word) :=
  (s.regions.flatMap fun p =>
      (if p.2.words.doorb ≠ 0 && p.2.state ≠ .ended then [(p.2.space, p.2.words.doorb)] else [])
        ++ (if p.2.words.fqbase ≠ 0 then [(p.2.space, p.2.addr + 128)] else []))
    ++ s.fmc.queues.map fun q => (q.2.space, q.2.doorbell)

/-- Records a ring for the FMC's next pass; a ring of a DRAINING or SAVED region's DOORB sets WAKEP (R345, R359). -/
def State.ring (s : State) (space : Nat) (addr : Word) : State :=
  let s := { s with
    fmc := { s.fmc with
      rings := if s.fmc.rings.contains (space, addr) then s.fmc.rings else s.fmc.rings ++ [(space, addr)] } }
  s.regions.foldl (fun s p =>
    if p.2.space = space && p.2.words.doorb = addr && addr ≠ 0 && (p.2.state = .draining || p.2.state = .saved)
    then s.putRegion { p.2 with wakep := true } else s) s

/-- Rings every registered word that a write of the keys touches. -/
def State.ringKeys (s : State) (keys : List Nat) : State :=
  let hbm := keys.filter isHbm
  if hbm.isEmpty then s
  else
    s.doorbells.foldl (fun s d =>
      match s.vaKey d.1 d.2.toNat with
      | some k => if hbm.any (fun j => k ≤ j && j < k + 8) then s.ring d.1 d.2 else s
      | none => s) s

/-! ### Synchronisation words (R29) -/

/-- The fields of a SYW. -/
structure Syw where
  target : Nat
  count : Nat
  gen : BitVec 32
  armed : Bool
  ovr : Bool
  rest : Nat
deriving DecidableEq, Repr

/-- The SYW that 16 bytes hold. -/
def Syw.ofNat (n : Nat) : Syw :=
  { target := n % 2 ^ 40, count := n / 2 ^ 40 % 2 ^ 40, gen := BitVec.ofNat 32 (n / 2 ^ 80), armed := n.testBit 112,
    ovr := n.testBit 113, rest := n / 2 ^ 114 % 2 ^ 14 }

/-- The 16 bytes of a SYW as a number. -/
def Syw.toNat (w : Syw) : Nat :=
  w.target % 2 ^ 40 + w.count % 2 ^ 40 * 2 ^ 40 + w.gen.toNat * 2 ^ 80 + (if w.armed then 2 ^ 112 else 0)
    + (if w.ovr then 2 ^ 113 else 0) + w.rest * 2 ^ 114

/-- The SYW at a key. -/
def State.sywAt (s : State) (k : Nat) : Syw := Syw.ofNat (memNat s.mem k 16)

/-- An arrival of bytes at a SYW (R29): the count grows; at an armed word that reaches TARGET, GEN advances once, OVR is
set past it, and the excess stays. -/
def Syw.arrive (w : Syw) (bytes : Nat) : Syw :=
  let c := w.count + bytes
  if w.armed && c ≥ w.target then
    { w with count := (c - w.target) % 2 ^ 40, gen := w.gen + 1, ovr := w.ovr || c > w.target }
  else { w with count := c % 2 ^ 40 }

/-- The keys of a SYW. -/
def sywKeys (k : Nat) : List Nat := rangeFrom k 16

/-! ### The wake unit (R354) -/

/-- Whether a generation of 32 bits has been reached (R106). -/
def genReached (gen awaited : BitVec 32) : Bool := (gen - awaited).toNat < 2 ^ 31

/-- Whether a barrier generation has been reached (R104). -/
def barReached (gen awaited : BitVec 16) : Bool := (gen - awaited).toNat < 2 ^ 15

/-- Whether every producer of a region has triggered or ended (R115, R358). -/
def State.depsHold (s : State) (rid : Nat) : Bool :=
  match nget? s.regions rid with
  | some r => r.prods.all fun p => match nget? s.regions p with | some q => q.trig | none => true
  | none => true

/-- The saved units of a logical tile of a region that no tile has taken back yet (R317, R320). -/
def Region.savedTile? (r : Region) (rank : Nat) : Option SavedTile :=
  if r.state = .loading && r.acks.contains rank then none else lfind (fun v => v.rank = rank) r.savedTiles

/-- The device virtual address of a region's L2 area for the share of a logical tile (R317). -/
def Region.l2Area (r : Region) (rank : Nat) : Nat := r.savea.toNat + 65536 + rank * 655360

/-- The device virtual address of a logical tile's area in the save area of its region (R317). -/
def Region.tileArea (r : Region) (rank : Nat) : Nat := r.savea.toNat + 65536 + r.words.tiles * 655360 + rank * 3145728

/-- Where a logical scratchpad address of a region lies in its save area (R12, R317): the L2 area in logical offset order, the
scratchpad image of the tile area. -/
def Region.savedVa (r : Region) (addr : Nat) : Nat :=
  let base := clusterOfAddr addr * 24
  let off := addr % 2 ^ 24
  if addr / 2 ^ 35 % 32 = 31 then r.l2Area (base + off / 655360) + off % 655360
  else r.tileArea (base + addr / 2 ^ 35 % 32) + 0x200000 + off

/-- The logical rank whose memory holds a logical scratchpad address (R33, R348). -/
def rankOfAddr (addr : Nat) : Nat :=
  clusterOfAddr addr * 24 + (if addr / 2 ^ 35 % 32 = 31 then addr % 2 ^ 24 / 655360 else addr / 2 ^ 35 % 32)

/-- The memory key of a logical scratchpad address of a region, wherever the region's memory stands: at its tiles, or in its save
area while it is saved (R12, R33). -/
def State.regionKey (s : State) (r : Region) (addr : Nat) : Option Nat :=
  match r.savedTile? (rankOfAddr addr) with
  | some _ => s.vaKey r.space (r.savedVa addr)
  | none => logicalKey r.place addr

/-- The named barriers of a logical tile of a region, placed or saved (R28, R317). -/
def State.regionBarrier (s : State) (r : Region) (rank n : Nat) : Barrier :=
  match r.savedTile? rank, nget? r.place rank with
  | some v, _ => nget {} v.tile.barriers n
  | none, some t => nget {} (s.tileAt t).barriers n
  | none, none => {}

/-- Whether a wait descriptor's condition holds (R353, R354), for a context of a region. -/
def State.condHolds (s : State) (rid : Nat) : WaitDesc → Bool
  | .bar rank b gen =>
    match nget? s.regions rid with
    | none => false
    | some r => barReached (s.regionBarrier r rank b.toNat).gen gen
  | .syw addr gen =>
    match nget? s.regions rid with
    | none => false
    | some r =>
      match s.regionKey r addr.toNat with
      | none => false
      | some k => let w := s.sywAt k; w.armed && genReached w.gen gen
  | .dep => s.depsHold rid
  | .child h =>
    match nget? s.regions h.toNat with
    | some c => c.state = .ended
    | none => true

/-- Posts a wake request for the FMC's next pass. -/
def State.postWake (s : State) (key : Nat) : State :=
  { s with fmc := { s.fmc with wakes := if s.fmc.wakes.contains key then s.fmc.wakes else s.fmc.wakes ++ [key] } }

/-- The wake unit's tests of the descriptors it holds (R354), unless its partition stands still (R323); for a DRAINING region WAKEP
instead of a request (R359). -/
def State.testWakes (s : State) : State :=
  s.wake.foldl (fun s p =>
    let e := nget {} s.roster p.1
    if (nget {} s.clusters (p.1 / 48)).part ≠ .gated && s.condHolds e.region p.2 then
      match nget? s.regions e.region with
      | some r =>
        if r.state = .draining then s.putRegion { r with wakep := true }
        else s.postWake (s.keyAt (p.1 / 2) (p.1 % 2))
      | none => s
    else s) s

/-! ### Fields that only the FMC writes (R8, R313, R339, R344) -/

/-- The offset of a key in a range of n bytes of an address space. -/
def State.offsetOf (s : State) (space base n k : Nat) : Option Nat :=
  lfind (fun o => o < n && s.vaKey space (base + o) = some k)
    ((List.range (n / 65536 + 1)).map fun j => (k + 65536 - base % 65536) % 65536 + 65536 * j)

/-- The bits of a byte of a live RCB that a write sets (R339). -/
def rcbMask (o : Nat) : Byte := if (88 ≤ o && o < 128) || (132 ≤ o && o < 136) then 0 else 0xFF

/-- The bits of a byte of a launch-queue entry that a write sets (R344). -/
def entryMask (o : Nat) : Byte := if o % 32 ≥ 16 then 0 else 0xFF

/-- The bits of a byte of a written fault record that a write sets: RESOLVE alone (R313). -/
def recordMask (o : Nat) : Byte := if o = 55 then 0xC0 else 0

/-- The bits of a byte of HBM that a write by a program or a host sets: those of no read-only field (R8). -/
def State.writeMask (s : State) (k : Nat) : Byte :=
  let rcb := fun (r : Region) =>
    if r.state = .new || r.state = .ended then 0xFF
    else match s.offsetOf r.space r.addr.toNat 256 k with | some o => rcbMask o | none => 0xFF
  let entry := fun (q : LaunchQueue) =>
    match s.offsetOf q.space q.ring.toNat (32 * 2 ^ q.log2) k with | some o => entryMask o | none => 0xFF
  let records := fun (d : Region) =>
    let n := min d.fqhead.toNat (2 ^ (d.words.fqsize.toNat + 4))
    if d.words.fqbase = 0 || n = 0 || d.state = .ended then 0xFF
    else match s.offsetOf d.space d.words.fqbase.toNat (64 * n) k with | some o => recordMask (o % 64) | none => 0xFF
  (s.regions.map fun p => rcb p.2 &&& records p.2).foldl (· &&& ·) 0xFF
    &&& (s.fmc.queues.map fun q => entry q.2).foldl (· &&& ·) 0xFF

/-- A byte as a write leaves it: read-only bits stay (R8). -/
def State.guard (s : State) (c : Host.Cell) : Host.Cell :=
  if isHbm c.1 then
    let m := s.writeMask c.1
    (c.1, (c.2 &&& m) ||| (memGet s.mem c.1 &&& ~~~m))
  else c

/-! ### The write of memory -/

/-- Bytes reach memory: watched ranges before the write completes (R266), then doorbells (R345) and the wake unit (R354). What the
write leaves of the releases at its bytes turns on its kind (R296). -/
def State.putBytes (s : State) (cells : List Host.Cell) (marked atomic : Bool) : State :=
  let keys := cells.map (·.1)
  let s := { s with mem := memPut s.mem (cells.map s.guard), rels := relsAfter s.rels keys marked atomic }
  ((s.raiseGens keys).ringKeys keys).testWakes

/-- AGENT of R337 for a writer: a slot or an engine of the acting tile, by its physical tile of the module, or a UALink port; a
contraction's write of C is context F's, which expands it (R263); for the hosts, to which R337 gives no number, all ones (log entry 73). -/
def State.writerOf (s : State) (a : Nat) : BitVec 14 :=
  let tile := s.tile / 24 * 26 + s.physTile s.tile
  if a ≥ ualinkAgent 0 then BitVec.ofNat 14 (12480 + (a - ualinkAgent 0) / 2)
  else if a = hostAgent then BitVec.allOnes 14
  else if a % 2 = 0 then BitVec.ofNat 14 (tile * 10 + s.slot)
  else
    match lfind (fun e => (s.eng e).runs.any fun r => cmdAgent r.id = a) allEngines with
    | some e => BitVec.ofNat 14 (tile * 10 + 3 + e.id)
    | none => BitVec.ofNat 14 (tile * 10 + 2)

/-- A write by an agent: stamps and poison (R303, R322), the last writer (R337), and the bytes. -/
def State.write (s : State) (c : Clock) (a : Nat) (cells : List Host.Cell) (marked atomic : Bool) : State :=
  let keys := cells.map Prod.fst
  ({ s with
    sectors := noteWriter (stampWrite s.sectors c a keys marked) (s.writerOf a) (BitVec.ofNat 16 (epochOf c a)) keys }).putBytes
      cells marked atomic

/-- The 64 metadata bits of a sector of HBM (R337): check symbols, POIS, WATCH, AGENT, EPOCH. -/
def State.sectorMeta (s : State) (sec : Nat) : Word :=
  let m := nget {} s.sectors sec
  let watch := s.clusters.any fun c =>
    (c.2.cache.any fun e => inRange e.key.range (rangeFrom (32 * sec) 32))
      || c.2.compiles.any fun q => q.since.isSome && inRange q.key.range (rangeFrom (32 * sec) 32)
  let low : BitVec 32 := BitVec.ofBool m.poison ++ BitVec.ofBool watch ++ m.writer ++ m.epoch
  Config.checkSymbols (memBytes s.mem (32 * sec) 32) low ++ low

end Sys2Proof.Machine
end

