-- ==== Sys2Proof/Machine/Sections.lean ====
section
/-! DEFINITION. Engine queues, sections, commands in progress, extent tables and pins (R22-R24, R60-R62, R97, R333). -/

namespace Sys2Proof.Machine

open Sys2Proof

/-- The distance of R62 between section numbers. -/
def dist (a b : BitVec 9) : Nat := (a.toNat + 511 - b.toNat) % 511

/-- Whether a section number has been reached by a counter (R62). -/
def reached (counter n : BitVec 9) : Bool := counter ≠ 0 && dist counter n ≤ 254

/-- The next section number (R61). -/
def nextSect (n : BitVec 9) : BitVec 9 := if n = 511 then 1 else n + 1

/-- The other engines of an engine in the order of its dependency fields (R60). -/
def othersOf (e : Engine) : List Engine := allEngines.filter (· ≠ e)

/-- Dependency field k of a header's payload. -/
def depField (deps : BitVec 54) (k : Nat) : BitVec 9 := deps.extractLsb' (9 * k) 9

/-- The dependencies of a header: engine and section, the zero fields left out. -/
def depsOf (e : Engine) (deps : BitVec 54) : List (Engine × BitVec 9) :=
  (((othersOf e).zip (List.range 6)).map fun p => (p.1, depField deps p.2)).filter (fun p => p.2 ≠ 0)

/-- A section of an engine. -/
def EngineSt.sect? (g : EngineSt) (n : BitVec 9) : Option Sect := lfind (fun q => q.num = n) g.sects

/-- Changes a section. -/
def EngineSt.modSect (g : EngineSt) (n : BitVec 9) (f : Sect → Sect) : EngineSt :=
  { g with sects := lmod (fun q => q.num = n) f g.sects }

/-- A command in progress. -/
def EngineSt.run? (g : EngineSt) (id : Nat) : Option Run := lfind (fun r => r.id = id) g.runs

/-- Changes a command in progress. -/
def EngineSt.modRun (g : EngineSt) (id : Nat) (f : Run → Run) : EngineSt :=
  { g with runs := lmod (fun r => r.id = id) f g.runs }

/-- Free entries of the queue (R12, R94). -/
def EngineSt.free (g : EngineSt) : Nat := 64 - g.queue.length

/-- The unfinished section that a context is pushing on an engine (R63). -/
def EngineSt.unfinished (g : EngineSt) (owner : Nat) : Option Sect :=
  lfind (fun q => q.owner = owner && q.left ≠ 0 && q.kind ≠ .fork && q.kind ≠ .fetched) g.sects

/-- Whether another context holds the queue's claim (R22). -/
def EngineSt.claimedByOther (g : EngineSt) (owner : Nat) : Bool :=
  match g.claim with
  | some c => c.owner ≠ owner
  | none => false

/-- The micro-PC layout of R19. -/
def microPc (lc2 lc1 lc0 uidx : Nat) : Word :=
  BitVec.ofNat 64 (lc2 % 2 ^ 16 * 2 ^ 48 + lc1 % 2 ^ 16 * 2 ^ 32 + lc0 % 2 ^ 16 * 2 ^ 16 + uidx % 2 ^ 16)

/-- The command in progress that `qstat` reports (R98), by its section, its opcode and its micro-PC: the oldest where there are
several (log entry 63). A program call is in progress until its last entry is fetched (R59, R100), at the entry it stands at (R58). -/
def EngineSt.current (g : EngineSt) : Option (BitVec 9 × Nat × Word) :=
  let call := fun (p : Program) => (p.fork, 0xFE, microPc 0 0 0 p.next)
  match g.runs, g.program with
  | [], none => none
  | [], some p => some (call p)
  | r :: _, p =>
    let cop := match encodeCmd r.instr with | some (_, w :: _) => w.op.toNat | _ => 0
    match p with
    | some p => some (if p.cmd < r.id then call p else (r.sect, cop, r.upc))
    | none => some (r.sect, cop, r.upc)

/-- The micro-PC (R19, R23): that of the faulted command, which need not be the oldest (log entry 63), else that of the command in
progress, else 0. -/
def EngineSt.upc (g : EngineSt) : Word :=
  match g.fault with
  | some f => f.upc
  | none => match g.current with | some c => c.2.2 | none => 0

/-- RUN of R21: the oldest started section, 0 when the engine is idle. -/
def EngineSt.running (g : EngineSt) : BitVec 9 :=
  match lfind (·.started) g.sects with
  | some q => q.num
  | none => 0

/-! ### Extents and pins (R24, R333) -/

/-- Raises the pin count of a page. -/
def raisePin (pins : List Pin) (space va : Nat) : List Pin :=
  if pins.any (fun p => p.space = space && p.va = va) then
    lmod (fun p => p.space = space && p.va = va) (fun p => { p with count := p.count + 1 }) pins
  else pins ++ [{ space := space, va := va, count := 1 }]

/-- Lowers the pin count of a page, freeing the entry at 0. -/
def lowerPin (pins : List Pin) (space va : Nat) : List Pin :=
  (lmod (fun p => p.space = space && p.va = va) (fun p => { p with count := p.count - 1 }) pins).filter
    (fun p => p.count ≠ 0)

/-- Releases the extent entries that a command owns, and lowers their pins (R24). -/
def Tile.releaseCmd (t : Tile) (e : Engine) (cmd : Nat) : Tile :=
  let g := t.engine e
  let mine := g.extents.filter (fun p => p.2.tag = cmd)
  let pins := mine.foldl (fun ps p => p.2.frames.foldl (fun ps f => lowerPin ps p.2.space f.va) ps) t.pins
  ({ t with pins := pins }).setEngine e { g with extents := g.extents.filter (fun p => p.2.tag ≠ cmd) }

/-- The lowest free entry of an extent table, if any of the 32 is free. -/
def EngineSt.freeExtent (g : EngineSt) : Option Nat :=
  lfind (fun i => (nget? g.extents i).isNone) (List.range 32)

/-! ### Ending commands -/

/-- A point that a command has let go. -/
def Point.letGo (p : Point) (run : Nat) : Point :=
  { p with
    holder := if p.holder = some run then none else p.holder
    taker := if p.taker = some run then none else p.taker }

/-- Clears the points that a command holds, on every tile (R121, R130). -/
def State.freePoints (s : State) (run : Nat) : State :=
  { s with
    tiles := s.tiles.map fun p => (p.1, { p.2 with points := p.2.points.map fun q => (q.1, q.2.letGo run) }) }

/-- The matrix array as a command leaves it: an `me.pat` no longer names its tile there (R27, R218). -/
def Matrix.unbind (m : Matrix) (i : Instr) : Matrix :=
  match i with
  | .mePat _ => { m with pat := none }
  | _ => m

/-- Ends a command in progress: its flags go to its section, what it has seen to the section and the engine (R295), its
points and extents are released, its pattern is bound no longer. Removing it is the last boundary it reaches. -/
def State.endRun (s : State) (tile : Nat) (e : Engine) (id : Nat) : State :=
  match ((s.tileAt tile).engine e).run? id with
  | none => s
  | some r =>
    let seen := r.clock.release (cmdAgent r.id)
    let t := s.tileAt tile
    let g := (t.engine e).modSect r.sect fun q => { q with flags := q.flags ||| r.flags, seen := q.seen.join seen }
    let g := { g with runs := ldrop (fun x => x.id = id) g.runs, last := g.last.join seen }
    let t := { t with me := t.me.unbind r.instr }
    (s.setTile tile ((t.setEngine e g).releaseCmd e id)).freePoints id

/-- Whether a started command that is cancelled runs to its end first (R97). `startSent` marks a contribution sent, a
read posted, a retirement begun. -/
def Run.runsOn (r : Run) : Bool :=
  match r.instr with
  | .aeCfg _ _ => true
  | .meEnd _ => r.work.startSent
  | .neRedSum _ | .neRedMin _ | .neRedMax _ | .neSmrg _ | .neFlag _ _ => r.work.startSent
  | .neXrdNvme _ | .neXrdRdma _ => r.work.startSent
  | _ => false

/-- Whether a command is a stream that a cancel stops at its next packet boundary (R137). -/
def Run.isStream (r : Run) : Bool :=
  match r.instr with
  | .seAff _ | .seInd _ | .seRec _ | .seMcast _ => true
  | _ => false

/-- Whether a copy has read chunks that are not yet written (R145). -/
def Run.holdsChunks (r : Run) : Bool :=
  match r.instr with
  | .ceCopy _ => !r.work.reqs.isEmpty
  | _ => false

/-- Stops a started command of a cancelled section at its next boundary: a stream finishes by R137, a copy once the chunks that it has read
are written (R145), a command that runs on is left, any other stops where it stands between two steps (R97). -/
def State.stopRun (s : State) (tile : Nat) (e : Engine) (r : Run) : State :=
  if r.runsOn then s
  else if r.isStream || r.holdsChunks then
    let t := s.tileAt tile
    s.setTile tile (t.setEngine e ((t.engine e).modRun r.id fun x =>
      { x with work := { x.work with finishing := true, paused := false } }))
  else s.endRun tile e r.id

/-- Stops the started commands of a cancelled section; a FAULTED one waits for its fault to be resolved (R311). -/
def State.stopRuns (s : State) (tile : Nat) (e : Engine) (n : BitVec 9) : State :=
  (((s.tileAt tile).engine e).runs.filter (fun r => r.sect = n
    && ((s.tileAt tile).engine e).faultRun ≠ some r.id)).foldl (fun s r => s.stopRun tile e r) s

/-- Cancels one section (R97): its unstarted words leave the queue and their extents are released, its claim ends if it
is still being pushed, a program of it stops and the fork's claim with it, the call still queued or in progress (R100), its
started commands stop. Answers the words discarded. -/
def State.cancelSect (s : State) (tile : Nat) (e : Engine) (n : BitVec 9) : State × Nat :=
  let t := s.tileAt tile
  let g := t.engine e
  let gone := g.queue.filter (fun w => w.sect = n && w.word.op ≠ 0xFF)
  let cmds := (gone.map (·.cmd)).eraseDups
  let pushing : Bool := match g.sect? n with | some q => q.left ≠ 0 && q.kind = .pushed | none => false
  let fork : Bool := gone.any (fun w => w.word.op = 0xFE)
    || (match g.program with | some p => p.fork = n || p.sect = n | none => false)
  let g := { g with
    queue := g.queue.filter (fun w => !(w.sect = n && w.word.op ≠ 0xFF))
    claim := if pushing || fork then none else g.claim
    opened := if pushing then none else g.opened
    program := if fork then none else g.program }
  let g := g.modSect n fun q => { q with cancelled := true, left := 0 }
  let t := cmds.foldl (fun t c => t.releaseCmd e c) (t.setEngine e g)
  ((s.setTile tile t).stopRuns tile e n, gone.length)

/-- Cancels a list of sections, adding up the words. -/
def State.cancelSects (s : State) (tile : Nat) (e : Engine) : List (BitVec 9) → Nat → State × Nat
  | [], n => (s, n)
  | q :: qs, n =>
    let (s', m) := s.cancelSect tile e q
    s'.cancelSects tile e qs (n + m)

/-- Whether a section of an engine has nothing left to do: pushed whole, started or cancelled, no word, no command in
progress, no program fetching for it. -/
def EngineSt.complete (g : EngineSt) (q : Sect) : Bool :=
  q.left = 0 && (q.started || q.cancelled)
    && !(g.queue.any fun w => w.sect = q.num && w.word.op ≠ 0xFF)
    && !(g.runs.any fun r => r.sect = q.num)
    && !(match g.program with | some p => p.fork = q.num || p.sect = q.num | none => false)

end Sys2Proof.Machine
end

