-- ==== Sys2Proof/Machine/Faults.lean ====
section
/-! DEFINITION. Synchronisation words (R29), the wake unit's tests (R354), the end of a region (R361 step 1), the fault
queue (R313) and the posting of engine faults (R310). -/

namespace Sys2Proof.Machine

open Sys2Proof

/-! ### Arrivals at synchronisation words (R29) -/

/-- Whether a release is one that waits on a SYW meet: an arming or an arrival (R296). -/
def isSywRel (r : Rel) : Bool := match r.kind with | .arm | .arrival _ => true | _ => false

/-- One arrival at a SYW by an agent (R29): an atomic marked access, a release (R296), tested by the wake unit. -/
def State.sywArrive (s : State) (c : Clock) (a tile k bytes : Nat) (scope : Nat := 15) : State :=
  let w := s.sywAt k
  let kept := (nget [] s.rels k).filter isSywRel
  let s := s.write c a (cellsFrom k (leBytes 16 (w.arrive bytes).toNat)) true false
  let rel : Rel := { tile := tile, scope := scope, clock := c.release a, kind := .arrival w.gen }
  { s with rels := nmod [] s.rels k fun rs => rs ++ kept ++ [rel] }

/-! ### The end of a region (R361) -/

/-- Whether every participant of a collective round has joined it (R243). -/
def Round.full (q : Round) : Bool :=
  match q.instr with
  | .neRedSum c | .neRedMin c | .neRedMax c => c.part.toNat < q.members.length
  | .neSmrg c => c.part.toNat < q.members.length
  | _ => false

/-- The ROUND of the gather cell at a key (R249). -/
def State.cellRound (s : State) (k : Nat) : Nat := memNat s.mem k 32 / 2 ^ 168 % 2 ^ 24

/-- Whether a collective in progress waits for participants that have not joined its round (R243, R250). -/
def State.roundOpen (s : State) (tile : Nat) (r : Run) : Bool :=
  match r.instr with
  | .neRedSum _ | .neRedMin _ | .neRedMax _ | .neSmrg _ =>
    !(s.rounds.any fun q => q.full && q.members.any fun m => m.2 = r.id)
  | .neFlag _ _ =>
    match logicalKey (s.places tile) (nget 0 r.work.counts 2) with
    | some k => s.cellRound k = r.work.k
    | none => true
  | _ => false

/-- Cancels every unretired section of an engine at a region's end (R361 step 1): the faulting command stops without retry, streams at
the packet boundary they stand at, and a collective whose round cannot complete because its other participants end too. -/
def State.cancelAll (s : State) (tile : Nat) (e : Engine) : State :=
  let g := (s.tileAt tile).engine e
  let s := s.setTile tile ((s.tileAt tile).setEngine e { g with fault := none, faultRun := none, claim := none })
  let s := (s.cancelSects tile e (g.sects.map (·.num)) 0).1
  ((((s.tileAt tile).engine e).runs.filter fun r =>
    g.faultRun = some r.id || r.isStream || s.roundOpen tile r).foldl (fun s r => s.endRun tile e r.id) s)

/-- Cancels every section of a region on its tiles (R361 step 1); a round that cannot complete is over. -/
def State.cancelRegion (s : State) (r : Region) : State :=
  let s := r.place.foldl (fun s p => allEngines.foldl (fun s e => s.cancelAll p.2 e) s) s
  { s with rounds := s.rounds.filter fun q => q.region ≠ r.id || q.full }

/-- Stops a region that must end (R361 step 1): its contexts stop, its sections are cancelled. -/
def State.stopRegion (s : State) (r : Region) : State :=
  ({ s with
    ctxs := s.ctxs.map fun (p : Nat × Context) =>
      if regionOfKey p.1 = r.id && !isFirmware p.1 then (p.1, { p.2 with life := .ended, waiting := none }) else p } :
    State).cancelRegion r

/-- Records that a region must end by ABORT or a fault, with its code and value: a pass of the FMC stops it and does the rest of R361, once
the region is in a state that R346 lets end (log entry 75). -/
def State.endRegion (s : State) (rid : Nat) (code : BitVec 12) (value : BitVec 32) : State :=
  match nget? s.regions rid with
  | none => s
  | some r =>
    if r.abort.isSome || r.state = .ended then s
    else
      let s := s.setRegion { r with abort := some (code, value) }
      { s with fmc := { s.fmc with ends := s.fmc.ends ++ [rid] } }

/-- ABORT (R89): the region must end, and its contexts and sections stop at once. -/
def State.abortRegion (s : State) (rid : Nat) (code : BitVec 12) (value : BitVec 32) : State :=
  let s := s.endRegion rid code value
  match nget? s.regions rid with
  | some r => if r.state = .ended then s else s.stopRegion r
  | none => s

/-! ### The fault queue (R313) -/

/-- The record of R19: ASYNC, WIDX, SECT, ENG and CODE. -/
def trapWord (async : Bool) (widx : BitVec 2) (sect : BitVec 9) (eng : BitVec 3) (code : BitVec 12) : Word :=
  BitVec.ofBool async ++ (0 : BitVec 31) ++ widx ++ sect ++ (0 : BitVec 3) ++ eng ++ (0 : BitVec 3) ++ code

/-- The region whose RCB names the fault domain (R340): the nearest with FQBASE nonzero on the way to the root. -/
def State.domain (s : State) : Nat → Nat → Option Region
  | 0, _ => none
  | fuel + 1, rid =>
    match nget? s.regions rid with
    | none => none
    | some r =>
      if r.words.fqbase ≠ 0 then some r
      else match r.parent with | some p => s.domain fuel p | none => none

/-- FQTAIL as the handler has written it (R339). -/
def State.fqTail (s : State) (d : Region) : Nat := s.vaNat d.space (d.addr.toNat + 128) 4

/-- Whether a domain's ring is full (R313). -/
def State.ringFull (s : State) (d : Region) : Bool :=
  (d.fqhead.toNat + 2 ^ 32 - s.fqTail d) % 2 ^ 32 = 2 ^ (d.words.fqsize.toNat + 4)

/-- The 64 bytes of a record (R313). -/
def FaultRec.bytes (r : FaultRec) : List Byte :=
  leBytes 8 (r.region * 2 ^ 32 + r.loc.toNat) ++ leBytes 8 r.trap.toNat ++ leBytes 8 r.tval.toNat
    ++ leBytes 8 r.epc.toNat ++ leBytes 8 r.empc.toNat ++ leBytes 8 r.cycle.toNat
    ++ leBytes 8 (if r.info then 2 ^ 61 else 0) ++ leBytes 8 r.seq

/-- The agent number of the FMC. -/
def fmcAgent : Nat := 2 ^ 100

/-- Writes one record at the head of a ring that has room, with one arrival of 1 at NSYW, wherever the handler's memory stands
(R313, R339): the arrival is the release at scope 15 that a waiting handler acquires. -/
def State.putRecord (s : State) (d : Region) (r : FaultRec) : State :=
  let slot := d.fqhead.toNat % 2 ^ (d.words.fqsize.toNat + 4)
  let s := s.vaPut d.space (d.words.fqbase.toNat + 64 * slot) r.bytes
  let s := s.putRegion { d with fqhead := d.fqhead + 1 }
  if d.words.nsyw = 0 then s
  else
    match nget? s.regions d.words.hreg.toNat with
    | none => s
    | some h =>
      match s.regionKey h d.words.nsyw.toNat with
      | none => s
      | some k => s.sywArrive [] fmcAgent ((homeOfKey k).getD 0) k 1

/-- Writes the records that can be written, in order (R313): a full ring holds back its records with INFO = 0 and drops
INFO records; a missing domain or handler ends the region at a record with INFO = 0. Answers the records kept. -/
def State.writeRecords (s : State) : List FaultRec → List Nat → State
  | [], _ => s
  | r :: rest, blocked =>
    let keep := fun (s : State) (r : FaultRec) =>
      { s with fmc := { s.fmc with records := s.fmc.records ++ [r] } }
    match s.domain 9 r.region with
    | none => (if r.info then s else s.endRegion r.region (r.trap.extractLsb' 0 12) 0).writeRecords rest blocked
    | some d =>
      if blocked.contains d.id || s.ringFull d then
        if r.info then s.writeRecords rest blocked
        else if d.words.hreg = 0 then
          (s.endRegion r.region (r.trap.extractLsb' 0 12) 0).writeRecords rest blocked
        else (keep s r).writeRecords rest (d.id :: blocked)
      else
        let n := match nget? s.regions r.region with | some q => q.seq + 1 | none => 1
        let s := match nget? s.regions r.region with | some q => s.setRegion { q with seq := n } | none => s
        let d := match s.domain 9 r.region with | some x => x | none => d
        let r := { r with seq := n, written := true, domain := d.id, index := d.fqhead.toNat % 2 ^ (d.words.fqsize.toNat + 4) }
        let s := s.putRecord d r
        if r.info then s.writeRecords rest blocked
        else if d.words.hreg = 0 then
          (s.endRegion r.region (r.trap.extractLsb' 0 12) 0).writeRecords rest blocked
        else (keep s r).writeRecords rest blocked

/-- Whether a record waits in the FMC for room in a domain's ring (R313). -/
def State.waitsFor (s : State) (d : Nat) (f : FaultRec) : Bool :=
  !f.written && (s.domain 9 f.region).any fun q => q.id = d

/-- Writes new records, behind those of their domain that wait (R313). -/
def State.flushRecords (s : State) (new : List FaultRec) : State :=
  s.writeRecords new ((s.fmc.records.filter fun f => !f.written).filterMap fun f => (s.domain 9 f.region).map (·.id))

/-- A ring of a domain's wake register: the records that wait for room in its ring are tried again (R313). -/
def State.retryRecords (s : State) (d : Nat) : State :=
  let late := s.fmc.records.filter (s.waitsFor d)
  ({ s with fmc := { s.fmc with records := s.fmc.records.filter fun f => !s.waitsFor d f } } : State).writeRecords late []

/-- A record of an event without a context (R313): TRAP with ENG 0b111, CTX 0b11 in WHERE. -/
def State.event (s : State) (rid : Nat) (code : BitVec 12) (loc : BitVec 32) (tval : Word) (info : Bool) : State :=
  s.flushRecords [{
    region := rid, ctx := none, loc := loc ||| 0xC0000000, trap := trapWord false 0 0 7 code, tval := tval, epc := 0,
    empc := 0, cycle := Config.cycleCount s.ticks, info := info, seq := 0 }]

/-! ### Engine faults (R23, R310) -/

/-- Inserts a posted fault in ascending engine id (R310). -/
def insertFault (f : EngFault) : List EngFault → List EngFault
  | [] => [f]
  | g :: t => if f.engine.id < g.engine.id then f :: g :: t else g :: insertFault f t

/-- An engine of a tile stops FAULTED at a command in progress, and the fault is posted to the context that claimed the
queue for its section (R22, R23, R310). -/
def State.engineFault (s : State) (tile : Nat) (e : Engine) (owner : Nat) (run : Option Nat) (f : EngFault) : State :=
  let t := s.tileAt tile
  let g := t.engine e
  let f := { f with rank := s.rankAt tile }
  let s := s.setTile tile (t.setEngine e { g with fault := some f, faultRun := run })
  let c := s.ctxOf owner
  s.setCtxOf owner { c with pending := insertFault f c.pending }

/-- In the place of a fault's code: the access waits for a frozen partition (R323) and is made again, and no fault is posted. -/
abbrev heldCode : BitVec 12 := 0

/-- A command in progress stops its engine with a fault: WIDX is 0, SECT its section (R310). -/
def State.postFault (s : State) (tile : Nat) (e : Engine) (r : Run) (code : BitVec 12) (tval : Word) : State :=
  s.engineFault tile e r.owner (some r.id)
    { engine := e, code := code, sect := r.sect, widx := 0, upc := r.upc, tval := tval }

/-- What a failing access of a command in progress comes to: its engine stops, or the access waits. -/
def State.runFault (s : State) (tile : Nat) (e : Engine) (r : Run) (code : BitVec 12) (tval : Word) : State :=
  if code = heldCode then s else s.postFault tile e r code tval

/-- A command whose accesses so far are published, and no later one with them: what it does from now on carries later epochs, whatever
its part (R300, R301). -/
def Run.close (r : Run) : Run :=
  { r with clock := r.clock.release (cmdAgent r.id), base := epochOf r.clock (cmdAgent r.id) }

/-- What every command in progress on an engine has done so far (R300). -/
def EngineSt.doneBefore (g : EngineSt) : Clock := g.runs.foldl (fun (c : Clock) r => c.join r.close.clock) g.last

/-- The commands in progress after a fault's resolution: what the engine performed before the fault comes before what it performs
from now on (R300). -/
def EngineSt.afterFault (g : EngineSt) : EngineSt :=
  let c := g.doneBefore
  { g with
    fault := none, faultRun := none, fence := g.fence.join c
    runs := g.runs.map fun r => { r.close with clock := r.close.clock.join c }
    program := g.program.map fun p => { p with begun := p.begun.join c } }

/-- A stream whose fault is resolved in a cancelled section stops as R137 says, and does not retry what faulted (R311). -/
def State.haltRun (s : State) (tile : Nat) (e : Engine) (r : Run) : State :=
  let t := s.tileAt tile
  s.setTile tile (t.setEngine e ((t.engine e).modRun r.id fun x =>
    { x with work := { x.work with finishing := true, paused := false, halted := true } }))

/-- A copy less the chunk whose write faulted, if one did: a cancelled copy does not retry it (R311). -/
def Run.dropChunk (r : Run) : Run :=
  { r with work := { r.work with reqs := r.work.reqs.filter fun q => q.id + 1 ≠ r.work.k } }

/-- Resolution of an engine's fault (R311): a command of a cancelled section stops without retrying; any other goes on
from where it stood, and meets every check again. -/
def State.resolveFault (s : State) (tile : Nat) (e : Engine) : State :=
  let t := s.tileAt tile
  let g := t.engine e
  let s := s.setTile tile (t.setEngine e g.afterFault)
  match g.faultRun with
  | none => s
  | some id =>
    match g.run? id with
    | none => s
    | some r =>
      match g.sect? r.sect with
      | some q =>
        if !q.cancelled then s
        else if r.isStream then s.haltRun tile e r
        else
          let r := r.dropChunk
          let t := s.tileAt tile
          if r.holdsChunks then (s.setTile tile (t.setEngine e ((t.engine e).modRun r.id fun _ => r))).haltRun tile e r
          else s.endRun tile e r.id
      | none => s

end Sys2Proof.Machine
end

