-- ==== Sys2Proof/Machine/Ops.lean ====
section
/-! DEFINITION. The shared operations of the control core: registers (R13), the end of an instruction (R88), taking a
trap and returning from it (R90, R310, R311), scalar accesses (R86), parking (R109, R353). -/

namespace Sys2Proof.Machine

open Sys2Proof

/-- What every meaning answers. -/
abbrev Out := Host.Outcome State Fault Refusal

/-! ### Registers and the end of an instruction -/

/-- Reads an integer register; x0 reads as zero (R13). -/
def Context.reg (c : Context) (r : Reg) : Word := if r = 0 then 0 else nget 0 c.x r.toNat

/-- Writes an integer register; a write to x0 is discarded (R13). -/
def Context.setReg (c : Context) (r : Reg) (v : Word) : Context :=
  if r = 0 then c else { c with x := nset c.x r.toNat v }

/-- Register `r` of the context that acts. -/
def State.reg (s : State) (r : Reg) : Word := s.ctx.reg r

/-- The context after its instruction has completed: pc at the next instruction, one more retired (R85 `instret`), no
wait. -/
def Context.done (c : Context) : Context := { c with pc := c.pc + 4, instret := c.instret + 1, waiting := none, walk := none }

/-- Completes the instruction of the acting context. -/
def State.done (s : State) : State := s.setCtx s.ctx.done

/-- Completes the instruction with a value for rd. -/
def State.finish (s : State) (rd : Reg) (v : Word) : State := s.setCtx ((s.ctx.setReg rd v).done)

/-- The instruction waits: the pc stays at it, nothing of its effect has happened (R88). -/
def State.wait (s : State) (i : Instr) : State := s.setCtx { s.ctx with waiting := some i }

/-- `lx.tile` of the context in a slot (R18); slot 3 stands for a tile's units in a fault record (R313). CTX names the slot in which the
context runs, not its home, where a rebind has made them differ (log entry 81). -/
def State.lxTile (s : State) (tile slot : Nat) : Word :=
  let l := if slot ≥ 2 then (s.tileEntry tile).lcoord else (nget {} s.roster (tile * 2 + slot)).lcoord
  BitVec.ofNat 64 (slot * 2 ^ 30 + l.toNat / 2 ^ 11 * 2 ^ 16 + l.toNat / 32 % 64 * 2 ^ 8 + l.toNat % 32)

/-! ### Traps -/

/-- Freezes a context at its pc and gives the fault to the region's fault domain (R90, R312, R313); `eng` is the engine whose fault
it is, with its logical tile. -/
def State.freeze (s : State) (key tile slot : Nat) (trap tval epc empc : Word) (resolving eng : Option (Engine × Nat)) : State :=
  let c := s.ctxOf key
  let s := s.setCtxOf key { c with
    frozen := true, resolving := resolving, waiting := none, walk := none, gatherNow := none, expanding := none }
  if isFirmware key then s
  else
    s.flushRecords [{
      region := regionOfKey key, ctx := some key, loc := (s.lxTile tile slot).setWidth 32, trap := trap, tval := tval,
      epc := epc, empc := empc, cycle := Config.cycleCount s.ticks, info := false, seq := 0, eng := eng }]

/-- A `contract` of the acting context that an engine fault cuts leaves none of its effect (R88): the sections that its expansion has
pushed so far are cancelled, as R97 would from its context, and it runs again from its start (log entry 22). -/
def State.cutExpansion (s : State) : State :=
  match s.ctx.expanding with
  | none => s
  | some x =>
    let s := s.setCtx { s.ctx with expanding := none }
    x.made.foldl (fun s p => (s.cancelSect s.tile p.1 p.2).1) s

/-- Whether a trap goes to the handler of a context rather than to the fault domain (R90). -/
def Context.handles (c : Context) : Bool := !c.trapactive && c.tvec.extractLsb' 2 62 ≠ 0

/-- The context as it enters its handler (R90): the pc saved, the record and the value written, `trapactive` set, pc at
the handler. A `contract` cut here runs again from its start (R88). -/
def Context.enter (c : Context) (trap tval epc : Word) : Context :=
  { c with
    epc := epc, trap := trap, tval := tval, trapactive := true, pc := c.tvec &&& ~~~3, waiting := none, walk := none
    gatherNow := none, expanding := none }

/-- Takes a precise trap of the acting context (R90, R309): nothing else of the instruction happens. -/
def State.trap (s : State) (code : BitVec 12) (tval : Word) : State :=
  let c := s.ctx
  let record := trapWord false 0 0 7 code
  if c.handles then s.setCtx (c.enter record tval c.pc)
  else s.freeze s.key s.tile s.slot record tval c.pc 0 c.resolving none

/-- Whether a posted engine fault stands before the next instruction (R309, R310). -/
def State.faultDue (s : State) : Bool := !s.ctx.pending.isEmpty && !s.ctx.trapactive

/-- Delivers the first posted engine fault to the acting context at its boundary (R310): the asynchronous trap of R90,
or a record where the context handles none. A fault waits while `trapactive` is set. -/
def State.deliverFault (s : State) : State :=
  let s := if s.faultDue then s.cutExpansion else s
  let c := s.ctx
  match c.pending with
  | [] => s
  | f :: rest =>
    let record := trapWord true f.widx f.sect (BitVec.ofNat 3 f.engine.id) f.code
    let eng := some (f.engine, f.rank)
    if c.trapactive then s
    else if c.frozen then
      (s.setCtx { c with pending := rest }).freeze s.key s.tile s.slot record f.tval c.pc f.upc
        (if c.resolving.isSome then c.resolving else eng) eng
    else if c.handles then
      s.setCtx { c.enter record f.tval c.pc with empc := f.upc, pending := rest, resolving := eng }
    else
      (s.setCtx { c with pending := rest }).freeze s.key s.tile s.slot record f.tval c.pc f.upc eng eng

/-- Resolves the fault of an engine of a region's logical tile, wherever that tile stands: at once where it is placed, with its
restore where it is saved (R311, R313). -/
def State.resolveIn (s : State) (r : Region) (e : Engine) (rank : Nat) : State :=
  match r.savedTile? rank, nget? r.place rank with
  | some _, _ =>
    s.setRegion { r with
      savedTiles := lmod (fun v => v.rank = rank) (fun v => { v with resolves := v.resolves ++ [e.id] }) r.savedTiles }
  | none, some t => s.resolveFault t e
  | none, none => s

/-- Resolves the fault that a context's resolving field names (R311): on a tile of its region, or for a firmware context of a tile
without a region on its own. -/
def State.resolveFor (s : State) (key : Nat) (p : Engine × Nat) : State :=
  match if isFirmware key then s.regionAt (key / 4) else s.regionOf key with
  | some r => s.resolveIn r p.1 p.2
  | none => if isFirmware key then s.resolveFault (key / 4) p.1 else s

/-- The return from a trap (R90): pc at `lx.epc`, `trapactive` cleared, the engine of the resolving field resolved
(R311). -/
def State.trapReturn (s : State) : State :=
  let c := s.ctx
  let s := s.setCtx { c with
    pc := c.epc &&& ~~~3, trapactive := false, resolving := none, instret := c.instret + 1, waiting := none }
  match c.resolving with
  | some p => s.resolveFor s.key p
  | none => s

/-! ### Scalar accesses (R86) -/

/-- What stands before a scalar access: the keys it may touch, or the trap it raises with its code. -/
inductive Access
  | at_ (k : Nat)
  | trap (code : BitVec 12)
deriving DecidableEq, Repr

/-- The address checks of R86: alignment to the size, then reach by R34. -/
def State.checkAddr (s : State) (addr : Word) (n : Nat) : Access :=
  if addr.toNat % n ≠ 0 then .trap 0x002
  else
    match s.scalarKey addr with
    | some k => .at_ k
    | none => .trap 0x003

/-- The checks of a scalar load: address, poison (R322), race (R304). -/
def State.checkLoad (s : State) (addr : Word) (n : Nat) (marked : Bool) : Access :=
  match s.checkAddr addr n with
  | .trap c => .trap c
  | .at_ k =>
    if (firstPoison s (rangeFrom k n)).isSome then .trap 0x301
    else if (firstRace s s.ctx.clock (ctxAgent s.key) (rangeFrom k n) false marked).isSome then .trap 0x201
    else .at_ k

/-- The checks of a scalar store: address, race. -/
def State.checkStore (s : State) (addr : Word) (n : Nat) (marked : Bool) : Access :=
  match s.checkAddr addr n with
  | .trap c => .trap c
  | .at_ k =>
    if (firstRace s s.ctx.clock (ctxAgent s.key) (rangeFrom k n) true marked).isSome then .trap 0x201
    else .at_ k

/-- The bytes a context reads: its own `st.rel`s not yet performed come first (R290, R298). -/
def State.loadNat (s : State) (k n : Nat) : Nat :=
  leNat ((List.range n).map fun i =>
    match lfind (fun p => p.key ≤ k + i && k + i < p.key + p.bytes.length) s.ctx.stores.reverse with
    | some p => lget 0 p.bytes (k + i - p.key)
    | none => memGet s.mem (k + i))

/-- Notes at its sector that a `st.rel` of the acting context has been performed, with what it replaced: agents outside its scope
may still read that (R298, log entry 66). -/
def State.noteLate (s : State) (p : PendStore) : NMap Sector :=
  match p.rels with
  | [] => s.sectors
  | r :: _ =>
    let ks := rangeFrom p.key p.bytes.length
    let x : Late := {
      agent := ctxAgent s.key, rel := r, old := ks.map fun k => (k, memGet s.mem k), oldRels := ks.map fun k => (k, nget [] s.rels k) }
    nmod {} s.sectors (p.key / 32) fun q => { q with late := x :: q.late }

/-- Performs the oldest `st.rel` that the acting context still holds back (R298): its stamp was set when it issued. Its releases
stand at its bytes beside the release sequences of earlier ones (R296). -/
def State.performStore (s : State) : State :=
  match s.ctx.stores with
  | [] => s
  | p :: rest =>
    let s := { s with sectors := s.noteLate p }
    let s := (s.setCtx { s.ctx with stores := rest }).putBytes (cellsFrom p.key p.bytes) true false
    { s with rels := (rangeFrom p.key p.bytes.length).foldl (fun m k => nmod [] m k (· ++ p.rels)) s.rels }

/-- Whether a `st.rel` held back touches one of `n` bytes at a key. -/
def Context.holdsBack (c : Context) (k n : Nat) : Bool := c.stores.any fun p => p.key < k + n && k < p.key + p.bytes.length

/-- Performs every `st.rel` held back: before anything but an `ld.acq` of the context to another location (R298). -/
def State.performStores (s : State) : State := (List.range s.ctx.stores.length).foldl (fun s _ => s.performStore) s

/-- What the acting context has seen joins its clock. -/
def State.join (s : State) (c : Clock) : State := s.setCtx { s.ctx with clock := s.ctx.clock.join c }

/-- A release by the acting context: its epoch closes (R303). The clock published is that of the new state. -/
def State.release (s : State) : State :=
  s.setCtx { s.ctx with clock := s.ctx.clock.release (ctxAgent s.key) }

/-! ### Parking (R109, R110, R353) -/

/-- Whether anything forbids the acting context to park (R109). -/
def State.parkHeld (s : State) : Bool :=
  let c := s.ctx
  c.trapactive || isFirmware s.key
    || allEngines.any (fun e =>
      let g := s.eng e
      (match g.claim with | some q => q.owner = s.key | none => false)
        || (match g.program with | some p => p.owner = s.key | none => false))

/-- The commands of a tile's engines each close their epoch: a save of engine state is a release (R301). -/
def Tile.closeRuns (t : Tile) : Tile :=
  { t with engines := t.engines.map fun p => (p.1, { p.2 with runs := p.2.runs.map Run.close }) }

/-- A clock joined with what the commands of a tile's engines have done up to their last release. -/
def Tile.heldClock (t : Tile) (c : Clock) : Clock :=
  t.engines.foldl (fun (c : Clock) p => p.2.runs.foldl (fun (c : Clock) r => c.join r.clock) (c.join p.2.last)) c

/-- A clock joined with what the commands of one context have done on a tile (R301). -/
def Tile.ownClock (t : Tile) (key : Nat) (c : Clock) : Clock :=
  t.engines.foldl (fun (c : Clock) p =>
    let c := c.join (nget [] p.2.done key)
    let c := (p.2.sects.filter (·.owner = key)).foldl (fun (c : Clock) q => c.join q.seen) c
    (p.2.runs.filter (·.owner = key)).foldl (fun (c : Clock) r => c.join r.clock) c) c

/-- A slot whose context parks or ends (R348); a DRAINING one, whose whistle is still held, notes what it holds now. -/
def Slot.become (e : Slot) (st : SlotState) : Slot := if e.state = .draining then { e with before := st } else { e with state := st }

/-- Parks the acting context at its wait (R353): the descriptor goes to the wake unit, the slot becomes PARKED, and a
condition true by then posts a wake request (R354). The save is a release that the rebind acquires (R301). -/
def State.park (s : State) (d : WaitDesc) : State :=
  let s := s.setTile s.tile (s.tileAt s.tile).closeRuns
  let c := s.ctx
  let i := s.tile * 2 + s.slot
  let rank := rankOf (nget {} s.roster i).lcoord
  let s := s.setCtx { c with
    parked := true, parkNow := false, waiting := none, left := 2 * rank + s.slot
    clock := (s.tileAt s.tile).ownClock s.key (c.clock.release (ctxAgent s.key)) }
  ({ s with
    roster := nmod {} s.roster i fun e => e.become .parked
    wake := nset s.wake i d }).testWakes

/-- Whether the acting context's region parks at once (PARKT = 0, R339). -/
def State.parksAtOnce (s : State) : Bool :=
  match s.regionOf s.key with
  | some r => r.words.parkt = 0
  | none => false

/-- A parking wait whose condition is false (R109, R110): it parks at once with park-now set or a threshold of 0, else
it stalls. -/
def State.parkOrWait (s : State) (i : Instr) (d : WaitDesc) : State :=
  if (s.ctx.parkNow || s.parksAtOnce) && !s.parkHeld then s.park d else s.wait i

/-- A parking wait that completes clears park-now (R110). -/
def State.finishWait (s : State) (rd : Reg) (v : Word) : State :=
  let s := s.finish rd v
  s.setCtx { s.ctx with parkNow := false }

end Sys2Proof.Machine
end

