-- ==== Sys2Proof/Machine/Flags.lean ====
section
/-! DEFINITION. The flag word of R16: its ten flags, and how a retiring section raises them in `lx.flags` (R17). -/

namespace Sys2Proof.Machine

open Sys2Proof

/-- A flag word: bits [9:0] of R16. -/
abbrev Flags := BitVec 10

namespace Flag

/-- Invalid. -/
def nv : Flags := 0x001
/-- Divide by zero. -/
def dz : Flags := 0x002
/-- Overflow. -/
def of : Flags := 0x004
/-- Underflow. -/
def uf : Flags := 0x008
/-- Inexact. -/
def nx : Flags := 0x010
/-- A non-finite value was produced. -/
def nf : Flags := 0x020
/-- Saturation occurred. -/
def sat : Flags := 0x040
/-- Stream length mismatch. -/
def len : Flags := 0x080
/-- Poisoned data replaced by zeros. -/
def poi : Flags := 0x100
/-- Hash overflow seen. -/
def hov : Flags := 0x200

end Flag

/-- A flag raised when a condition holds. -/
def raiseIf (b : Bool) (f : Flags) : Flags := if b then f else 0

/-- The retirement OR of R17: into `lx.flags` of a context, running, parked or saved. -/
def State.orFlags (s : State) (key : Nat) (f : Flags) : State :=
  let c := s.ctxOf key
  s.setCtxOf key { c with flags := c.flags ||| f.setWidth 64 }

/-- What `lx.flags` keeps of a write (R16, R91): the ten flags. -/
def maskFlags (v : Word) : Word := v &&& 0x3FF

end Sys2Proof.Machine
end

