-- ==== Sys2Proof/Machine/Float.lean ====
section
/-! DEFINITION. Number formats and rounding (02_number_formats.md, R35-R46): values decoded exactly, and rounded once. -/

namespace Sys2Proof.Machine

open Sys2Proof

/-- A floating format: exponent bits, fraction bits; `ofp8` is E4M3, which has no infinities (R35, R36). -/
structure Fmt where
  ebits : Nat
  mbits : Nat
  ofp8 : Bool := false
deriving DecidableEq, Repr

namespace Fmt

def fp64 : Fmt := { ebits := 11, mbits := 52 }
def fp32 : Fmt := { ebits := 8, mbits := 23 }
def fp16 : Fmt := { ebits := 5, mbits := 10 }
def bf16 : Fmt := { ebits := 8, mbits := 7 }
def e4m3 : Fmt := { ebits := 4, mbits := 3, ofp8 := true }
def e5m2 : Fmt := { ebits := 5, mbits := 2 }

/-- The exponent bias. -/
def bias (f : Fmt) : Nat := 2 ^ (f.ebits - 1) - 1

/-- The width in bits. -/
def width (f : Fmt) : Nat := 1 + f.ebits + f.mbits

/-- The exponent of the smallest normal. -/
def emin (f : Fmt) : Int := 1 - (f.bias : Int)

/-- Whether the format has eight bits. -/
def isFp8 (f : Fmt) : Bool := f.width = 8

/-- The canonical NaN (R35). -/
def nan (f : Fmt) : Nat :=
  if f.isFp8 then 0x7F else (2 ^ f.ebits - 1) * 2 ^ f.mbits + 2 ^ (f.mbits - 1)

/-- The bits of an infinity; E4M3 has none. -/
def inf (f : Fmt) (neg : Bool) : Nat := (2 ^ f.ebits - 1) * 2 ^ f.mbits + (if neg then 2 ^ (f.ebits + f.mbits) else 0)

/-- The bits of the largest finite value. -/
def maxFin (f : Fmt) (neg : Bool) : Nat :=
  (if f.ofp8 then 0x7E else (2 ^ f.ebits - 1) * 2 ^ f.mbits - 1) + (if neg then 2 ^ (f.ebits + f.mbits) else 0)

/-- The exponent of the largest finite value's leading bit. -/
def emax (f : Fmt) : Int := if f.ofp8 then 8 else (f.bias : Int)

end Fmt

/-- The floating format of a code of R39. -/
def fmtOfCode (c : BitVec 4) : Option Fmt :=
  match c.toNat with
  | 0 => some .fp64 | 1 => some .fp32 | 2 => some .fp16 | 3 => some .bf16 | 4 => some .e4m3 | 5 => some .e5m2
  | _ => none

/-- The width of the elements of a code of R39. -/
def widthOfCode (c : BitVec 4) : Nat :=
  match c.toNat with
  | 0 | 6 | 7 => 64
  | 1 | 8 | 9 => 32
  | 2 | 3 | 10 | 11 => 16
  | 14 | 15 => 4
  | _ => 8

/-- Whether an integer code is signed. -/
def signedCode (c : BitVec 4) : Bool := c.toNat % 2 = 0

/-- A value decoded exactly: a finite one is ± m * 2^e with m nonzero. -/
inductive Val
  | nan (signalling : Bool)
  | inf (neg : Bool)
  | zero (neg : Bool)
  | fin (neg : Bool) (m : Nat) (e : Int)
deriving DecidableEq, Repr

namespace Val

def isNan : Val → Bool | .nan _ => true | _ => false
def isSnan : Val → Bool | .nan s => s | _ => false
def isInf : Val → Bool | .inf _ => true | _ => false
def isZero : Val → Bool | .zero _ => true | _ => false
def isFinite : Val → Bool | .zero _ => true | .fin _ _ _ => true | _ => false

/-- The sign; that of a NaN is not used. -/
def neg : Val → Bool
  | .nan _ => false | .inf n => n | .zero n => n | .fin n _ _ => n

/-- The value with its sign turned. -/
def negate : Val → Val
  | .nan s => .nan s | .inf n => .inf !n | .zero n => .zero !n | .fin n m e => .fin (!n) m e

/-- The value with a given sign. -/
def withSign (v : Val) (n : Bool) : Val :=
  match v with
  | .nan s => .nan s | .inf _ => .inf n | .zero _ => .zero n | .fin _ m e => .fin n m e

end Val

/-- Decodes bits of a format; `ftz` reads a subnormal as a zero of its sign (R43). -/
def Fmt.decode (f : Fmt) (ftz : Bool) (b : Nat) : Val :=
  let neg := b / 2 ^ (f.ebits + f.mbits) % 2 = 1
  let ex := b / 2 ^ f.mbits % 2 ^ f.ebits
  let fr := b % 2 ^ f.mbits
  if f.ofp8 && ex = 15 && fr = 7 then .nan false
  else if !f.ofp8 && ex = 2 ^ f.ebits - 1 then
    if fr = 0 then .inf neg else .nan (!f.isFp8 && fr < 2 ^ (f.mbits - 1))
  else if ex = 0 then
    if fr = 0 || ftz then .zero neg else .fin neg fr (f.emin - f.mbits)
  else .fin neg (2 ^ f.mbits + fr) ((ex : Int) - f.bias - f.mbits)

/-- The rounding modes of R43. -/
inductive Rnd | rne | rtz | rdn | rup | rna | sr
deriving DecidableEq, Repr

/-- The mode of a rounding field; the reserved ones do not pass R70 and read as RNE. -/
def rndOf (r : BitVec 3) : Rnd :=
  match r.toNat with
  | 1 => .rtz | 2 => .rdn | 3 => .rup | 4 => .rna | 5 => .sr | _ => .rne

/-- How an operation rounds: mode, flushes, saturate bit, and the draw of R44 (its 24 bits). -/
structure Rounding where
  rnd : Rnd := .rne
  ftzi : Bool := false
  ftzo : Bool := false
  sat : Bool := false
  draw : Nat := 0
deriving DecidableEq, Repr

/-- Whether a magnitude with a discarded part `rem` of `d` bits (and more below, `sticky`) rounds up (R43, R44). -/
def roundsUp (r : Rounding) (neg odd : Bool) (rem d : Nat) (sticky : Bool) : Bool :=
  let half := 2 ^ (d - 1)
  match r.rnd with
  | .rne => d ≠ 0 && (rem > half || (rem = half && (sticky || odd)))
  | .rna => d ≠ 0 && rem ≥ half
  | .rtz => false
  | .rdn => neg && (rem ≠ 0 || sticky)
  | .rup => !neg && (rem ≠ 0 || sticky)
  | .sr => rem * 2 ^ 24 / 2 ^ d + r.draw ≥ 2 ^ 24

/-- The magnitude m * 2^e rounded to a multiple of 2^q: the multiple, and whether that is inexact. -/
def roundAt (r : Rounding) (neg : Bool) (m : Nat) (e q : Int) (sticky : Bool) : Nat × Bool :=
  if q ≤ e then (m * 2 ^ (e - q).toNat, sticky)
  else
    let d := (q - e).toNat
    let n := m / 2 ^ d
    let rem := m % 2 ^ d
    (if roundsUp r neg (n % 2 = 1) rem d sticky then n + 1 else n, rem ≠ 0 || sticky)

/-- What an overflow delivers (R43, R45). -/
def Fmt.overflow (f : Fmt) (r : Rounding) (neg : Bool) : Nat × Flags :=
  if f.isFp8 && r.sat then (f.maxFin neg, Flag.of ||| Flag.nx ||| Flag.sat)
  else
    let toInf := match r.rnd with
      | .rne | .rna | .sr => true
      | .rtz => false
      | .rdn => neg
      | .rup => !neg
    if toInf then (if f.ofp8 then 0x7F else f.inf neg, Flag.of ||| Flag.nx ||| Flag.nf)
    else (f.maxFin neg, Flag.of ||| Flag.nx)

/-- A nonzero exact magnitude m * 2^e (plus something below its last bit where `sticky`) rounded once into a format,
with its flags (R43-R45). Tininess is detected after rounding. -/
def Fmt.round (f : Fmt) (r : Rounding) (neg : Bool) (m : Nat) (e : Int) (sticky : Bool) : Nat × Flags :=
  let lead : Int := (m.log2 : Int) + e
  let free := lead - f.mbits
  let q := max free (f.emin - f.mbits)
  let (n, inexact) := roundAt r neg m e q sticky
  let sign := if neg then 2 ^ (f.ebits + f.mbits) else 0
  let top : Int := (n.log2 : Int) + q
  let tooBig := n ≠ 0 && (top > f.emax || (f.ofp8 && top = f.emax && n > 14 * 2 ^ (n.log2 - 3)))
  if tooBig then f.overflow r neg
  else
    let (nu, _) := roundAt r neg m e free sticky
    let tiny : Bool := nu ≠ 0 && (nu.log2 : Int) + free < f.emin
    let nx := raiseIf inexact Flag.nx
    let uf := raiseIf (tiny && inexact) Flag.uf
    if n < 2 ^ f.mbits then
      if r.ftzo && n ≠ 0 then (sign, Flag.uf ||| Flag.nx) else (sign + n, nx ||| uf)
    else
      let k := n.log2 - f.mbits
      let ex := (q + k + f.mbits + f.bias).toNat
      (sign + ex * 2 ^ f.mbits + (n / 2 ^ k - 2 ^ f.mbits), nx ||| uf)

/-- A value converted into a floating format (R46): NaN canonical, infinities by the table, finite values rounded. -/
def Fmt.convert (f : Fmt) (r : Rounding) (v : Val) : Nat × Flags :=
  let sign := fun (n : Bool) => if n then 2 ^ (f.ebits + f.mbits) else 0
  match v with
  | .nan s => (f.nan, raiseIf s Flag.nv)
  | .inf n =>
    if f.isFp8 && r.sat then (f.maxFin n, Flag.sat)
    else if f.ofp8 then (0x7F, Flag.nv)
    else (f.inf n, 0)
  | .zero n => (sign n, 0)
  | .fin n m e => f.round r n m e false

/-- A value converted into an integer of `w` bits (R46). -/
def toInteger (signed : Bool) (w : Nat) (r : Rounding) (v : Val) : Nat × Flags :=
  let hi : Int := if signed then 2 ^ (w - 1) - 1 else 2 ^ w - 1
  let lo : Int := if signed then -(2 ^ (w - 1)) else 0
  let bits := fun (i : Int) => (i % 2 ^ w).toNat
  match v with
  | .nan _ => (0, Flag.nv)
  | .inf n => (bits (if n then lo else hi), Flag.nv)
  | .zero _ => (0, 0)
  | .fin n m e =>
    let (k, inexact) := roundAt r n m e 0 false
    let i : Int := if n then -(k : Int) else k
    if i > hi then (bits hi, Flag.nv)
    else if i < lo then (bits lo, Flag.nv)
    else (bits i, raiseIf inexact Flag.nx)

/-- An integer as a value. -/
def valOfInt (i : Int) : Val := if i = 0 then .zero false else .fin (i < 0) i.natAbs 0

/-- The integer that `w` bits hold. -/
def intOfBits (signed : Bool) (w b : Nat) : Int :=
  if signed && b ≥ 2 ^ (w - 1) then (b : Int) - 2 ^ w else b

/-! ### Exact arithmetic -/

/-- A finite value as a signed mantissa at an exponent. -/
def Val.scaled (v : Val) (e : Int) : Int :=
  match v with
  | .fin n m k => let x : Int := m * 2 ^ (k - e).toNat; if n then -x else x
  | _ => 0

/-- The exponent of a finite value's mantissa, or the given one for zero. -/
def Val.exp (v : Val) (d : Int) : Int :=
  match v with
  | .fin _ _ k => k
  | _ => d

/-- The exact sum of two finite values; an exact zero takes the sign given. -/
def exactSum (a b : Val) (zeroNeg : Bool) : Val :=
  let e := min (a.exp (b.exp 0)) (b.exp (a.exp 0))
  let x := a.scaled e + b.scaled e
  if x = 0 then .zero zeroNeg else .fin (x < 0) x.natAbs e

/-- The exact product of two values, neither of them a NaN nor the pair an infinity and a zero. -/
def exactProduct (a b : Val) : Val :=
  let n := a.neg != b.neg
  match a, b with
  | .fin _ m e, .fin _ k f => .fin n (m * k) (e + f)
  | .inf _, _ => .inf n
  | _, .inf _ => .inf n
  | _, _ => .zero n

/-- One step of the generator of R44. -/
def genStep (g : BitVec 32) : BitVec 32 :=
  let g := g ^^^ (g <<< 13)
  let g := g ^^^ (g >>> 17)
  g ^^^ (g <<< 5)

/-- The draw that a step of the generator gives: g[31:8]. -/
def genDraw (g : BitVec 32) : Nat := (g.extractLsb' 8 24).toNat

/-- The integer square root, by bits from 2^k down. -/
def isqrt (n : Nat) : Nat → Nat → Nat
  | 0, r => r
  | k + 1, r => let c := r + 2 ^ k; if c * c ≤ n then isqrt n k c else isqrt n k r

end Sys2Proof.Machine
end

