-- ==== Sys2Proof/Machine/Operands.lean ====
section
/-! DEFINITION. The operand forms of the control core: immediates, the integer operations of RV64IM, branch conditions,
CSR values and forms (R15, R52, R85, R91). -/

namespace Sys2Proof.Machine

open Sys2Proof

/-- A 12-bit immediate, sign-extended. -/
def imm12 (i : BitVec 12) : Word := i.signExtend 64

/-- The offset of `jal`: a 20-bit field in units of two bytes. -/
def immJ (i : BitVec 20) : Word := i.signExtend 64 <<< 1

/-- The offset of a branch: a 12-bit field in units of two bytes. -/
def immB (i : BitVec 12) : Word := i.signExtend 64 <<< 1

/-- The value of `lui`: the field in bits [31:12], sign-extended. -/
def immU (i : BitVec 20) : Word := (i ++ (0 : BitVec 12)).signExtend 64

/-- A 32-bit result, sign-extended. -/
def sext32 (v : BitVec 32) : Word := v.signExtend 64

/-- The M extension's division: by zero all ones, overflow the dividend. -/
def divS {n : Nat} (a b : BitVec n) : BitVec n := if b = 0 then BitVec.allOnes n else a.sdiv b

/-- Unsigned division: by zero all ones. -/
def divU {n : Nat} (a b : BitVec n) : BitVec n := if b = 0 then BitVec.allOnes n else a / b

/-- Signed remainder: by zero the dividend, overflow zero. -/
def remS {n : Nat} (a b : BitVec n) : BitVec n := if b = 0 then a else a.srem b

/-- Unsigned remainder: by zero the dividend. -/
def remU {n : Nat} (a b : BitVec n) : BitVec n := if b = 0 then a else a % b

/-- A Bool as a word. -/
def boolWord (b : Bool) : Word := if b then 1 else 0

/-- Register-immediate operations. -/
def aluImm (op : AluImm) (a i : Word) : Word :=
  match op with
  | .addi => a + i
  | .slti => boolWord (a.slt i)
  | .sltiu => boolWord (a.ult i)
  | .xori => a ^^^ i
  | .ori => a ||| i
  | .andi => a &&& i
  | .addiw => sext32 ((a + i).setWidth 32)

/-- Shifts of 64 bits. -/
def shift64 (op : ShiftImm) (a : Word) (n : Nat) : Word :=
  match op with
  | .slli => a <<< n
  | .srli => a >>> n
  | .srai => a.sshiftRight n

/-- Shifts of the low 32 bits. -/
def shift32 (op : ShiftImm) (a : Word) (n : Nat) : Word :=
  let w : BitVec 32 := a.setWidth 32
  sext32 (match op with | .slli => w <<< n | .srli => w >>> n | .srai => w.sshiftRight n)

/-- Register-register operations of RV64I and M. -/
def aluRegOp (op : AluReg) (a b : Word) : Word :=
  let a32 : BitVec 32 := a.setWidth 32
  let b32 : BitVec 32 := b.setWidth 32
  match op with
  | .add => a + b
  | .sub => a - b
  | .sll => shift64 .slli a (b.toNat % 64)
  | .slt => boolWord (a.slt b)
  | .sltu => boolWord (a.ult b)
  | .xor => a ^^^ b
  | .srl => shift64 .srli a (b.toNat % 64)
  | .sra => shift64 .srai a (b.toNat % 64)
  | .or => a ||| b
  | .and => a &&& b
  | .addw => sext32 (a32 + b32)
  | .subw => sext32 (a32 - b32)
  | .sllw => shift32 .slli a (b.toNat % 32)
  | .srlw => shift32 .srli a (b.toNat % 32)
  | .sraw => shift32 .srai a (b.toNat % 32)
  | .mul => a * b
  | .mulh => BitVec.ofInt 64 (a.toInt * b.toInt / 2 ^ 64)
  | .mulhsu => BitVec.ofInt 64 (a.toInt * b.toNat / 2 ^ 64)
  | .mulhu => BitVec.ofNat 64 (a.toNat * b.toNat / 2 ^ 64)
  | .div => divS a b
  | .divu => divU a b
  | .rem => remS a b
  | .remu => remU a b
  | .mulw => sext32 (a32 * b32)
  | .divw => sext32 (divS a32 b32)
  | .divuw => sext32 (divU a32 b32)
  | .remw => sext32 (remS a32 b32)
  | .remuw => sext32 (remU a32 b32)

/-- Destination and value of an integer operation at a pc. -/
def intResult (c : Context) : IntOp → Reg × Word
  | .imm op rd rs1 i => (rd, aluImm op (c.reg rs1) (imm12 i))
  | .shift op rd rs1 n => (rd, shift64 op (c.reg rs1) n.toNat)
  | .shiftw op rd rs1 n => (rd, shift32 op (c.reg rs1) n.toNat)
  | .reg op rd rs1 rs2 => (rd, aluRegOp op (c.reg rs1) (c.reg rs2))
  | .lui rd i => (rd, immU i)
  | .auipc rd i => (rd, c.pc + immU i)

/-- Branch conditions. -/
def branchTaken (op : BranchOp) (a b : Word) : Bool :=
  match op with
  | .eq => a = b
  | .ne => a ≠ b
  | .lt => a.slt b
  | .ge => !a.slt b
  | .ltu => a.ult b
  | .geu => !a.ult b

/-- The bytes and the extension of a load. -/
def loadBytes : LoadOp → Nat
  | .b | .bu => 1
  | .h | .hu => 2
  | .w | .wu => 4
  | .d => 8

/-- The value of a load from the number its bytes hold. -/
def loadValue (op : LoadOp) (v : Nat) : Word :=
  match op with
  | .b => (BitVec.ofNat 8 v).signExtend 64
  | .h => (BitVec.ofNat 16 v).signExtend 64
  | .w => (BitVec.ofNat 32 v).signExtend 64
  | .d => BitVec.ofNat 64 v
  | .bu => (BitVec.ofNat 8 v).setWidth 64
  | .hu => (BitVec.ofNat 16 v).setWidth 64
  | .wu => (BitVec.ofNat 32 v).setWidth 64

/-- The bytes of a store. -/
def storeBytes : StoreOp → Nat
  | .b => 1
  | .h => 2
  | .w => 4
  | .d => 8

/-! ### CSRs -/

/-- The section counters of an engine in the layout of R21. -/
def sectn (g : EngineSt) : Word :=
  BitVec.ofNat 64 (g.running.toNat * 2 ^ 32 + g.enq.toNat * 2 ^ 16 + g.ret.toNat)

/-- The value of `lx.region` in a slot (R18). For context F R18 gives REGION 0 and says nothing of PRIO: the whole register reads 0 there
(log entry 81). -/
def State.lxRegion (s : State) : Word :=
  if s.slot = 2 then 0
  else
    let e := nget {} s.roster (s.tile * 2 + s.slot)
    BitVec.ofNat 64 (e.prio * 2 ^ 32 + e.region)

/-- What a CSR reads as (R15-R21, R85). -/
def State.csrRead (s : State) (n : BitVec 12) : Word :=
  let c := s.ctx
  match n.toNat with
  | 0x800 => c.flags
  | 0x801 => c.tvec
  | 0x802 => c.epc
  | 0x803 => c.trap
  | 0x804 => c.tval
  | 0x805 => c.empc
  | 0x8F0 => (s.tileAt s.tile).fwshare.setWidth 64
  | 0xC00 => Config.cycleCount s.ticks
  | 0xC02 => c.instret
  | 0xCC0 => Config.cycleCount s.ticks
  | 0xCC1 => s.lxTile s.tile s.slot
  | 0xCC2 => s.lxRegion
  | m =>
    if 0xCC8 ≤ m ∧ m ≤ 0xCCE then
      match Engine.ofId (m - 0xCC8) with
      | some e => sectn (s.eng e)
      | none => 0
    else 0

/-- The reserved bits of `lx.trap` cleared (R19, R91). -/
def maskTrap (v : Word) : Word := v &&& 0x80000000FFE38FFF

/-- The context after a write to one of its read-write CSRs (R91). -/
def Context.csrWrite (c : Context) (n : BitVec 12) (v : Word) : Context :=
  match n.toNat with
  | 0x800 => { c with flags := maskFlags v }
  | 0x801 => { c with tvec := v &&& ~~~3 }
  | 0x802 => { c with epc := v &&& ~~~3 }
  | 0x803 => { c with trap := maskTrap v }
  | 0x804 => { c with tval := v }
  | 0x805 => { c with empc := v }
  | _ => c

/-- Whether a CSR is read-only (R15, R52). -/
def csrReadOnly (n : BitVec 12) : Bool := n.toNat / 2 ^ 10 = 3

/-- The source of a CSR form: the register, or its number as the immediate. -/
def csrSource (c : Context) (f : CsrForm) (src : Reg) : Word :=
  match f with
  | .rw | .rs | .rc => c.reg src
  | _ => src.setWidth 64

/-- The value that a writing form stores over the old one. -/
def csrNew (f : CsrForm) (old v : Word) : Word :=
  match f with
  | .rw | .rwi => v
  | .rs | .rsi => old ||| v
  | .rc | .rci => old &&& ~~~v

end Sys2Proof.Machine
end

