-- ==== Sys2Proof/Machine/CoreInt.lean ====
section
/-! DEFINITION. The base instruction set but for its loads and stores (R85), services (R89), CSRs (R91). -/

namespace Sys2Proof.Machine

open Sys2Proof

/-- The bits of an instruction, as `lx.tval` holds them after the trap 0x001 (R52). -/
def instrBits (i : Instr) : Word :=
  match encode i with
  | some w => w.setWidth 64
  | none => 0

/-- INTEGER_OPERATION (R85). -/
def execIntegerOperation (op : IntOp) (s : State) : Out :=
  let r := intResult s.ctx op
  .next (s.finish r.1 r.2)

/-- Completes a jump: the link written, pc at the target; a target off 4 bytes traps and has no effect (R85). -/
def State.jump (s : State) (rd : Reg) (target : Word) : State :=
  if target.toNat % 4 ≠ 0 then s.trap 0x002 target
  else
    let c := s.ctx
    s.setCtx { (c.setReg rd (c.pc + 4)).done with pc := target }

/-- JUMP_BRANCH (R85). -/
def execJumpBranch (j : Jump) (s : State) : Out :=
  let c := s.ctx
  match j with
  | .jal rd i => .next (s.jump rd (c.pc + immJ i))
  | .jalr rd rs1 i => .next (s.jump rd ((c.reg rs1 + imm12 i) &&& ~~~1))
  | .branch op rs1 rs2 i =>
    if branchTaken op (c.reg rs1) (c.reg rs2) then .next (s.jump 0 (c.pc + immB i)) else .next s.done

/-- EBREAK: the precise trap BREAKPOINT (R85). -/
def execEbreak (s : State) : Out := .next (s.trap 0x005 0)

/-- ILLEGAL_INSTRUCTION (R52). -/
def execIllegalInstruction (w : Inst) (s : State) : Out := .next (s.trap 0x001 (w.setWidth 64))

/-! ### Services (R89) -/

/-- Whether every user context that a region started has triggered or ended (R114). -/
def State.regionTriggered (s : State) (r : Region) : Bool :=
  r.starts.all fun k => (s.ctxOf k).triggered || (s.ctxOf k).life = .ended

/-- Sets TRIG of a region that counts as triggered, and lets the wake unit test (R114, R354). -/
def State.noteTriggered (s : State) (rid : Nat) : State :=
  match nget? s.regions rid with
  | none => s
  | some r => if !r.trig && s.regionTriggered r then (s.putRegion { r with trig := true }).testWakes else s

/-- Whether a context has an unretired section on any engine of any tile (R89). -/
def State.hasSections (s : State) (key : Nat) : Bool :=
  s.tiles.any fun t => t.2.engines.any fun g => g.2.sects.any fun q => q.owner = key

/-- A fault of the acting context that is not resolved: the one its handler runs for, or one held pending (R311). -/
def State.unresolved (s : State) : Option EngFault :=
  let handled := match s.ctx.resolving with
    | some p => (nget? (s.places s.tile) p.2).bind fun t => ((s.tileAt t).engine p.1).fault
    | none => none
  if handled.isSome then handled else s.ctx.pending.head?

/-- The end of the acting context by EXIT (R89): its exit value recorded, its slot FREE (R348); the last one ends the
region with the value of logical tile 0, context A. -/
def State.exit (s : State) : State :=
  let k := s.key
  let c := s.ctx
  let s := s.setCtx { c with
    life := .ended, exitVal := (c.reg 10).setWidth 32, waiting := none, instret := c.instret + 1
    clock := c.clock.release (ctxAgent k) }
  let s := { s with roster := nmod {} s.roster (s.tile * 2 + s.slot) fun e => e.become .free }
  let rid := regionOfKey k
  let s := s.noteTriggered rid
  match nget? s.regions rid with
  | none => s
  | some r =>
    let r := { r with seen := r.seen.join (c.clock.release (ctxAgent k)) }
    if r.starts.all fun j => (s.ctxOf j).life = .ended then
      let v := (s.ctxOf (rid * 2 ^ 32)).exitVal
      let s := s.setRegion { r with value := v }
      { s with fmc := { s.fmc with ends := s.fmc.ends ++ [rid] } }
    else s.setRegion r

/-- ECALL with `a7` = 0, EXIT (R89): it waits until every section of the context has retired; a fault not resolved goes
to the fault domain (R311); in context F the trap 0x001 (R119). -/
def execEcallExit (s : State) : Out :=
  if s.slot = 2 then .next (s.trap 0x001 0x73)
  else
    match s.unresolved with
    | some f =>
      let c := s.ctx
      let record := trapWord true f.widx f.sect (BitVec.ofNat 3 f.engine.id) f.code
      let s := s.setCtx { c with pending := c.pending.filter (· ≠ f) }
      .next (s.freeze s.key s.tile s.slot record f.tval c.pc f.upc (some (f.engine, f.rank)) (some (f.engine, f.rank)))
    | none => if s.hasSections s.key then .next (s.wait .ecallExit) else .next s.exit

/-- EXIT_COMPLETE: a waiting EXIT whose sections have all retired ends the context (R89). -/
def execExitComplete (s : State) : Out :=
  if s.ctx.waiting = some .ecallExit && !s.hasSections s.key then .next s.exit else .next s

/-- ECALL with `a7` = 1, ABORT (R89, R361). -/
def execEcallAbort (s : State) : Out :=
  if s.slot = 2 then .next (s.trap 0x001 0x73)
  else .next (s.abortRegion (regionOfKey s.key) 0x503 ((s.reg 10).setWidth 32))

/-- ECALL with any other `a7` (R89). -/
def execEcallReserved (s : State) : Out :=
  if s.slot = 2 then .next (s.trap 0x001 0x73) else .next (s.finish 10 (BitVec.allOnes 64))

/-! ### CSRs (R91) -/

/-- A CSR instruction: the old value to rd, and for a form that writes the new value stored. A write of a read-only
number, or of `lx.fwshare` by a user context, is the trap 0x001 (R15, R8). -/
def State.csr (s : State) (i : Instr) (form : CsrForm) (n : BitVec 12) (rd src : Reg) : State :=
  let c := s.ctx
  let old := s.csrRead n
  if form.writes src then
    if csrReadOnly n || (n = 0x8F0 && s.slot ≠ 2) then s.trap 0x001 (instrBits i)
    else
      let v := csrNew form old (csrSource c form src)
      if n = 0x8F0 then
        let t := s.tileAt s.tile
        (s.setTile s.tile { t with fwshare := BitVec.ofNat 7 (min 64 (v.toNat % 128)) }).finish rd old
      else s.setCtx (((c.csrWrite n v).setReg rd old).done)
  else s.finish rd old

/-- LX_FLAGS_WRITE: a CSR instruction that writes `lx.flags`, atomic with the retirement ORs (R17). -/
def execLxFlagsWrite (form : CsrForm) (rd src : Reg) (s : State) : Out :=
  .next (s.csr (.lxFlagsWrite form rd src) form 0x800 rd src)

/-- LX_FWSHARE_WRITE (R20). -/
def execLxFwshareWrite (form : CsrForm) (rd src : Reg) (s : State) : Out :=
  .next (s.csr (.lxFwshareWrite form rd src) form 0x8F0 rd src)

/-- CSR_WRITE: a CSR instruction on any other listed number (R91). -/
def execCsrWrite (form : CsrForm) (n : BitVec 12) (rd src : Reg) (s : State) : Out :=
  .next (s.csr (.csrWrite form n rd src) form n rd src)

end Sys2Proof.Machine
end

