-- ==== Sys2Proof/Machine/CoreMem.lean ====
section
/-! DEFINITION. Scalar loads and stores, plain and ordered (R86, R107, R292, R296, R298). -/

namespace Sys2Proof.Machine

open Sys2Proof

/-- LOAD (R86). -/
def execLoad (op : LoadOp) (rd rs1 : Reg) (imm : BitVec 12) (s : State) : Out :=
  let addr := s.reg rs1 + imm12 imm
  let n := loadBytes op
  match s.checkLoad addr n false with
  | .trap c => .next (s.trap c addr)
  | .at_ k =>
    let v := loadValue op (s.loadNat k n)
    .next ((noteRead s s.ctx.clock (ctxAgent s.key) (rangeFrom k n) false).finish rd v)

/-- STORE (R86). -/
def execStore (op : StoreOp) (rs1 rs2 : Reg) (imm : BitVec 12) (s : State) : Out :=
  let addr := s.reg rs1 + imm12 imm
  let n := storeBytes op
  match s.checkStore addr n false with
  | .trap c => .next (s.trap c addr)
  | .at_ k =>
    let cells := cellsFrom k (leBytes n (s.reg rs2).toNat)
    .next (s.write s.ctx.clock (ctxAgent s.key) cells false false).done

/-- The releases that stand at the bytes of a location (R296). -/
def State.relsAt (s : State) (k n : Nat) : List Rel :=
  ((rangeFrom k n).flatMap fun j => nget [] s.rels j).eraseDups

/-- Whether an acquire at a scope may miss a performed `st.rel` (R290, R298): another agent's, which does not happen-before it, and
whose scope and its own do not include one another. -/
def State.mayMiss (s : State) (scope : Nat) (x : Late) : Bool :=
  x.agent ≠ ctxAgent s.key && nget 0 s.ctx.clock x.agent < nget 0 x.rel.clock x.agent && !s.meets x.rel s.tile scope

/-- The latest `st.rel`s at the sector of a key that an acquire may miss, the latest first. -/
def State.missable (s : State) (k scope : Nat) : List Late := (nget {} s.sectors (k / 32)).late.takeWhile (s.mayMiss scope)

/-- Memory and its releases as they stood before some `st.rel`s, given the latest first. -/
def State.unseen (s : State) (ls : List Late) : State :=
  { s with
    mem := memPut s.mem (ls.flatMap (·.old)), rels := (ls.flatMap (·.oldRels)).foldl (fun m p => nset m p.1 p.2) s.rels }

/-- What an acquire at a scope reads from: memory less as many of the `st.rel`s it may miss as the choice says (R298, log entries
10 and 66). -/
def State.acquireView (s : State) (k scope : Nat) : State :=
  s.unseen ((s.missable k scope).take (if (s.missable k scope).isEmpty then 0 else s.choose.1))

/-- The releases that an `ld.acq` meets (R296): of marked stores whose value, or an update's in their release sequence, it returns;
of fences whose write it returns; of an external read's record whose DONE it reads. -/
def acquirable (rs : List Rel) : List Rel :=
  rs.filter fun r => (r.kind = .store && r.via ≠ .covered) || ((r.kind = .fence || r.kind = .record) && r.via = .written)

/-- The releases that a marked read keeps for a later `fence.acq` (R296): those whose own write it returns. -/
def fenceable (rs : List Rel) : List Rel := rs.filter fun r => (r.kind = .store || r.kind = .fence) && r.via = .written

/-- The context after a marked read that keeps what it read for a later `fence.acq` (R296). -/
def Context.keep (c : Context) (rs : List Rel) : Context := { c with acquired := (c.acquired ++ fenceable rs).eraseDups }

/-- An `ld.acq` (R107): the checks of R86 as a marked read, the value, and the acquire of what released it (R296). What
it reads is also kept for a later `fence.acq`. A `st.rel` held back to the same bytes comes first (R298). -/
def State.loadAcquire (s : State) (op : LoadOp) (rd rs1 : Reg) (off : BitVec 8) (scope : BitVec 4) : State :=
  let addr := s.reg rs1 + off.signExtend 64
  let n := loadBytes op
  match s.checkLoad addr n true with
  | .trap c => s.trap c addr
  | .at_ k =>
    let s := if s.ctx.holdsBack k n then s.performStores else s
    let u := s.acquireView k scope.toNat
    let v := loadValue op (u.loadNat k n)
    let rels := u.relsAt k n
    let s := if (s.missable k scope.toNat).isEmpty then s else s.choose.2
    let s := noteRead s s.ctx.clock (ctxAgent s.key) (rangeFrom k n) true
    let c := s.ctx
    let s := s.setCtx { c.keep rels with clock := s.acquire c.clock (acquirable rels) s.tile scope.toNat }
    s.finish rd v

/-- An `st.rel` (R107): the checks of R86 as a marked write; a release at its scope (R292), with an earlier `fence.rel`
of each scope (R296). It is performed at once, or held back past later `ld.acq`s where the choice says so (R298). -/
def State.storeRelease (s : State) (op : StoreOp) (rs2 rs1 : Reg) (off : BitVec 8) (scope : BitVec 4) : State :=
  let s := s.performStores
  let addr := s.reg rs1 + off.signExtend 64
  let n := storeBytes op
  match s.checkStore addr n true with
  | .trap c => s.trap c addr
  | .at_ k =>
    let a := ctxAgent s.key
    let bytes := leBytes n (s.reg rs2).toNat
    let late := (nget {} s.sectors (k / 32)).late
    let secs := stampWrite s.sectors s.ctx.clock a (rangeFrom k n) true
    let s := { s with sectors := nmod {} secs (k / 32) fun q => { q with late := late } }
    let s := s.release
    let rel : Rel := { tile := s.tile, scope := scope.toNat, clock := s.ctx.clock }
    let (hold, s) := s.choose
    let c := s.ctx
    let s := s.setCtx { c with stores := [{ key := k, bytes := bytes, rels := rel :: c.relFences }] }
    (if hold = 0 then s.performStores else s).done

/-- LD_ACQ_B (R107). -/
def execLdAcqB (rd rs1 : Reg) (off : BitVec 8) (scope : BitVec 4) (s : State) : Out :=
  .next (s.loadAcquire .b rd rs1 off scope)

/-- LD_ACQ_H (R107). -/
def execLdAcqH (rd rs1 : Reg) (off : BitVec 8) (scope : BitVec 4) (s : State) : Out :=
  .next (s.loadAcquire .h rd rs1 off scope)

/-- LD_ACQ_W (R107). -/
def execLdAcqW (rd rs1 : Reg) (off : BitVec 8) (scope : BitVec 4) (s : State) : Out :=
  .next (s.loadAcquire .w rd rs1 off scope)

/-- LD_ACQ_D (R107). -/
def execLdAcqD (rd rs1 : Reg) (off : BitVec 8) (scope : BitVec 4) (s : State) : Out :=
  .next (s.loadAcquire .d rd rs1 off scope)

/-- LD_ACQ_BU (R107). -/
def execLdAcqBu (rd rs1 : Reg) (off : BitVec 8) (scope : BitVec 4) (s : State) : Out :=
  .next (s.loadAcquire .bu rd rs1 off scope)

/-- LD_ACQ_HU (R107). -/
def execLdAcqHu (rd rs1 : Reg) (off : BitVec 8) (scope : BitVec 4) (s : State) : Out :=
  .next (s.loadAcquire .hu rd rs1 off scope)

/-- LD_ACQ_WU (R107). -/
def execLdAcqWu (rd rs1 : Reg) (off : BitVec 8) (scope : BitVec 4) (s : State) : Out :=
  .next (s.loadAcquire .wu rd rs1 off scope)

/-- ST_REL_B (R107). -/
def execStRelB (rs2 rs1 : Reg) (off : BitVec 8) (scope : BitVec 4) (s : State) : Out :=
  .next (s.storeRelease .b rs2 rs1 off scope)

/-- ST_REL_H (R107). -/
def execStRelH (rs2 rs1 : Reg) (off : BitVec 8) (scope : BitVec 4) (s : State) : Out :=
  .next (s.storeRelease .h rs2 rs1 off scope)

/-- ST_REL_W (R107). -/
def execStRelW (rs2 rs1 : Reg) (off : BitVec 8) (scope : BitVec 4) (s : State) : Out :=
  .next (s.storeRelease .w rs2 rs1 off scope)

/-- ST_REL_D (R107). -/
def execStRelD (rs2 rs1 : Reg) (off : BitVec 8) (scope : BitVec 4) (s : State) : Out :=
  .next (s.storeRelease .d rs2 rs1 off scope)

end Sys2Proof.Machine
end

