-- ==== Sys2Proof/Machine/CoreSync.lean ====
section
/-! DEFINITION. Fences, barriers, synchronisation words, waits, launches, and the return from a trap (R89-R118). -/

namespace Sys2Proof.Machine

open Sys2Proof

/-! ### Fences (R108, R296) -/

/-- A context after a release fence (R108, R296): its later marked writes carry this release beside those of its earlier fences at
other scopes. -/
def Context.fenced (c : Context) (tile scope : Nat) : Context :=
  let rel : Rel := { tile := tile, scope := scope, clock := c.clock, kind := .fence }
  { c with relFences := rel :: c.relFences.filter fun r => !(r.tile = tile && r.scope = scope) }

/-- `fence.sc` at a scope: a release and an acquire fence, ordered after every earlier `fence.sc` whose scope includes
this agent and whose agent this scope includes. -/
def State.fenceSc (s : State) (scope : Nat) : State :=
  let s := s.performStores
  let c := s.ctx
  let s := s.setCtx { c with clock := s.acquire c.clock (c.acquired ++ s.scFence) s.tile scope }
  let s := s.release
  let rel : Rel := { tile := s.tile, scope := scope, clock := s.ctx.clock }
  { s with scFence := s.scFence ++ [rel] }.setCtx (s.ctx.fenced s.tile scope)

/-- FENCE: a `nop` with an empty set, else `fence.sc 1` (R85). -/
def execFence (_fm pred succ : BitVec 4) (_rd _rs1 : Reg) (s : State) : Out :=
  if pred = 0 || succ = 0 then .next s.done else .next (s.fenceSc 1).done

/-- FENCE_SC (R108). -/
def execFenceSc (scope : BitVec 4) (s : State) : Out := .next (s.fenceSc scope.toNat).done

/-- FENCE_ACQ (R108): the releases that earlier marked reads met now synchronise, at the fence's scope. -/
def execFenceAcq (scope : BitVec 4) (s : State) : Out :=
  let c := s.ctx
  .next (s.setCtx { c with clock := s.acquire c.clock c.acquired s.tile scope.toNat }).done

/-- FENCE_REL (R108): later marked writes carry this release. -/
def execFenceRel (scope : BitVec 4) (s : State) : Out :=
  let s := s.performStores.release
  .next (s.setCtx (s.ctx.fenced s.tile scope.toNat)).done

/-! ### Barriers (R103, R104) -/

/-- What an arrival does at a barrier (R103). -/
inductive Arrival
  | unarmed
  | mismatch
  | arrived (b : Barrier) (gen : BitVec 16)
deriving DecidableEq, Repr

/-- One arrival with count `k` at a scope (R103); the arrival's release is kept with the generation (R296). -/
def Barrier.arrive (b : Barrier) (k : Nat) (scope : BitVec 4) (tile : Nat) (clock : Clock) : Arrival :=
  if b.part = 0 && (k = 0 || k > 255) then .unarmed
  else if b.part ≠ 0 && ((k ≠ 0 && k ≠ b.part.toNat) || scope ≠ b.scope) then .mismatch
  else
    let b := if b.part = 0 then { b with part := BitVec.ofNat 8 k, scope := scope, arr := 0 } else b
    let gen := b.gen
    let b := { b with
      arr := b.arr + 1, rels := b.rels ++ [(gen, { tile := tile, scope := scope.toNat, clock := clock })] }
    .arrived (if b.arr = b.part then { b with gen := b.gen + 1, arr := 0 } else b) gen

/-- Barrier `n` of a tile. -/
def State.barrier (s : State) (tile n : Nat) : Barrier := nget {} (s.tileAt tile).barriers n

/-- Writes a barrier of a tile. -/
def State.setBarrier (s : State) (tile n : Nat) (b : Barrier) : State :=
  let t := s.tileAt tile
  s.setTile tile { t with barriers := nset t.barriers n b }

/-- The releases that a wait for a generation meets (R296). -/
def Barrier.met (b : Barrier) (awaited : BitVec 16) : List Rel :=
  (b.rels.filter fun p => barReached awaited (p.1 + 1)).map Prod.snd

/-- BAR_ARR (R103). -/
def execBarArr (rd rs1 : Reg) (bar : BitVec 7) (scope : BitVec 4) (s : State) : Out :=
  let tval : Word := bar.setWidth 64
  match (s.barrier s.tile bar.toNat).arrive (s.reg rs1).toNat scope s.tile s.release.ctx.clock with
  | .unarmed => .next (s.trap 0x019 tval)
  | .mismatch => .next (s.trap 0x01A tval)
  | .arrived b gen => .next (((s.release.setBarrier s.tile bar.toNat b).finish rd (gen.setWidth 64)).testWakes)

/-- BAR_WAIT (R104). -/
def execBarWait (rd rs1 : Reg) (bar : BitVec 7) (s : State) : Out :=
  let b := s.barrier s.tile bar.toNat
  let awaited : BitVec 16 := (s.reg rs1).setWidth 16
  if b.part = 0 then .next (s.trap 0x019 (bar.setWidth 64))
  else if barReached b.gen awaited then
    let c := s.ctx
    let s := s.setCtx { c with clock := s.acquire c.clock (b.met awaited) s.tile b.scope.toNat }
    .next (s.finishWait rd (b.gen.setWidth 64))
  else .next (s.parkOrWait (.barWait rd rs1 bar) (.bar s.ownRank bar awaited))

/-- BAR_WAIT_PASS: a waiting `bar.wait` runs again and completes once the generation is reached (R104, R109). -/
def execBarWaitPass (s : State) : Out :=
  match s.ctx.waiting with
  | some (.barWait rd rs1 bar) =>
    if barReached (s.barrier s.tile bar.toNat).gen ((s.reg rs1).setWidth 16) then execBarWait rd rs1 bar s else .next s
  | _ => .next s

/-! ### Synchronisation words (R105, R106) -/

/-- The checks of a SYW instruction: alignment, reach, poison (R105), race (R86). -/
def State.checkSyw (s : State) (addr : Word) (write : Bool) : Access :=
  match s.checkAddr addr 16 with
  | .trap c => .trap c
  | .at_ k =>
    if (firstPoison s (sywKeys k)).isSome then .trap 0x301
    else if (firstRace s s.ctx.clock (ctxAgent s.key) (sywKeys k) write true).isSome then .trap 0x201
    else .at_ k

/-- The armed word of R105. -/
def armedSyw (v : Word) : Syw :=
  { target := v.toNat % 2 ^ 40, count := 0, gen := 0, armed := true, ovr := false, rest := 0 }

/-- Whether a value is a TARGET that arms a SYW (R105). -/
def armable (v : Word) : Bool := v.toNat % 2 ^ 40 ≠ 0 && v.toNat / 2 ^ 40 = 0

/-- SYW_ARM (R105): the address checks, then the format, then poison and race; one atomic write, a release (R93), which carries the
context's release fences as any marked write does (R296). -/
def execSywArm (rs1 rs2 : Reg) (s : State) : Out :=
  let addr := s.reg rs1
  let v := s.reg rs2
  match s.checkAddr addr 16 with
  | .trap c => .next (s.trap c addr)
  | .at_ _ =>
    if !armable v then .next (s.trap 0x01B v)
    else
      match s.checkSyw addr true with
      | .trap c => .next (s.trap c addr)
      | .at_ k =>
        let s := s.write s.ctx.clock (ctxAgent s.key) (cellsFrom k (leBytes 16 (armedSyw v).toNat)) true false
        let s := s.release
        let rel : Rel := { tile := s.tile, scope := 1, clock := s.ctx.clock, kind := .arm }
        .next ({ s with rels := (sywKeys k).foldl (fun m j =>
          nmod [] m j (· ++ s.ctx.relFences ++ (if j = k then [rel] else []))) s.rels }.done.testWakes)

/-- The releases that a wait on a SYW for a generation meets: the arm, and arrivals at earlier generations (R296). -/
def State.sywMet (s : State) (k : Nat) (awaited : BitVec 32) : List Rel :=
  (nget [] s.rels k).filter fun r =>
    match r.kind with
    | .arm => true
    | .arrival g => genReached awaited (g + 1)
    | _ => false

/-- Whether a SYW has reached a generation (R106). -/
def Syw.passed (w : Syw) (awaited : BitVec 32) : Bool := w.armed && genReached w.gen awaited

/-- SYW_WAIT (R106). -/
def execSywWait (rd rs1 rs2 : Reg) (scope : BitVec 4) (s : State) : Out :=
  let addr := s.reg rs1
  let awaited : BitVec 32 := (s.reg rs2).setWidth 32
  match s.checkSyw addr false with
  | .trap c => .next (s.trap c addr)
  | .at_ k =>
    let w := s.sywAt k
    if w.passed awaited then
      let s := noteRead s s.ctx.clock (ctxAgent s.key) (sywKeys k) true
      let c := s.ctx
      let s := s.setCtx { c.keep (s.relsAt k 16) with clock := s.acquire c.clock (s.sywMet k awaited) s.tile scope.toNat }
      .next (s.finishWait rd (w.gen.setWidth 64))
    else .next (s.parkOrWait (.sywWait rd rs1 rs2 scope) (.syw addr awaited))

/-- SYW_WAIT_PASS: a waiting `syw.wait` runs again and completes once the generation is reached (R106, R109). -/
def execSywWaitPass (s : State) : Out :=
  match s.ctx.waiting with
  | some (.sywWait rd rs1 rs2 scope) =>
    match s.scalarKey (s.reg rs1) with
    | some k =>
      if (s.sywAt k).passed ((s.reg rs2).setWidth 32) then execSywWait rd rs1 rs2 scope s else .next s
    | none => .next s
  | _ => .next s

/-! ### Yield, triggers, dependants, children (R110-R115) -/

/-- YIELD (R110); barred in context F (R119). -/
def execYield (s : State) : Out :=
  if s.slot = 2 then .next (s.trap 0x001 (instrBits .yield)) else .next (s.setCtx { s.ctx with parkNow := true }).done

/-- TRIGGER (R114): a release at scope 15; the region counts as triggered once every started context has triggered or
ended. A second one by a context has no effect. -/
def execTrigger (s : State) : Out :=
  if s.slot = 2 then .next (s.trap 0x001 (instrBits .trigger))
  else
    if s.ctx.triggered then .next s.done
    else
      let s := s.release
      let s := s.setCtx { s.ctx with triggered := true }
      let s := s.done
      let rid := regionOfKey s.key
      let s := match nget? s.regions rid with
        | some r => s.setRegion { r with trigSeen := r.trigSeen.join s.ctx.clock }
        | none => s
      .next (s.noteTriggered rid)

/-- The ending codes of regions in order, 0 for one that has not ended. -/
def State.endCodes (s : State) (rids : List Nat) : List (BitVec 12) :=
  rids.map fun p => match nget? s.regions p with | some q => if q.state = .ended then q.code else 0 | none => 0

/-- The result of `waitdep` (R115, R358): the code of the lowest-listed producer that ended by a fault; where none did and one was
ABORTED, which is neither a normal end nor one by a fault (R361), that code (log entry 68); else 0. -/
def State.depCode (s : State) (prods : List Nat) : Word :=
  let codes := (s.endCodes prods).filter (· ≠ 0)
  match lfind (· ≠ 0x503) codes, codes with
  | some c, _ => c.setWidth 64
  | none, c :: _ => c.setWidth 64
  | none, [] => 0

/-- What the regions have released at their triggers, and at their ends those that have ended (R296). -/
def State.seenOf (s : State) (rids : List Nat) : Clock :=
  rids.foldl (fun c p => match nget? s.regions p with
    | some q => if q.state = .ended then (c.join q.trigSeen).join q.seen else c.join q.trigSeen
    | none => c) []

/-- WAITDEP (R115). -/
def execWaitdep (rd : Reg) (s : State) : Out :=
  if s.slot = 2 then .next (s.trap 0x001 (instrBits (.waitdep rd)))
  else
    let rid := regionOfKey s.key
    let prods := match nget? s.regions rid with | some r => r.prods | none => []
    if s.depsHold rid then
      .next ((s.join (s.seenOf prods)).finishWait rd (s.depCode prods))
    else .next (s.parkOrWait (.waitdep rd) .dep)

/-- WAITDEP_PASS: a waiting `waitdep` completes once every producer has triggered or ended (R115). -/
def execWaitdepPass (s : State) : Out :=
  match s.ctx.waiting with
  | some (.waitdep rd) => if s.depsHold (regionOfKey s.key) then execWaitdep rd s else .next s
  | _ => .next s

/-- The child that a handle names and that may still be waited on (R113). -/
def State.childOf (s : State) (rid : Nat) (handle : BitVec 32) : Option Region :=
  match nget? s.regions handle.toNat with
  | some c => if c.parent = some rid && c.id = handle.toNat && c.launched && !c.detach && !c.taken then some c else none
  | none => none

/-- The exit status of R113. -/
def exitStatus (value : BitVec 32) (code : BitVec 12) : Word :=
  BitVec.ofNat 64 (value.toNat * 2 ^ 32 + code.toNat)

/-- CWAIT (R113). The VALUE beside BAD_HANDLE, of which R113 says nothing, is 0 (log entry 69). -/
def execCwait (rd rs1 : Reg) (s : State) : Out :=
  if s.slot = 2 then .next (s.trap 0x001 (instrBits (.cwait rd rs1)))
  else
    let rid := regionOfKey s.key
    let h : BitVec 32 := (s.reg rs1).setWidth 32
    match s.childOf rid h with
    | none => .next (s.finishWait rd (exitStatus 0 0x504))
    | some c =>
      if c.state = .ended then
        let s := s.setRegion { c with taken := true }
        let s := match nget? s.regions rid with
          | some r => s.putRegion { r with cheld := r.cheld - 1 }
          | none => s
        .next ((s.join c.seen).finishWait rd (exitStatus c.value c.code))
      else .next (s.parkOrWait (.cwait rd rs1) (.child h))

/-- CWAIT_RETURN: a waiting `cwait` returns once the child has ended (R113). -/
def execCwaitReturn (s : State) : Out :=
  match s.ctx.waiting with
  | some (.cwait rd rs1) =>
    match s.childOf (regionOfKey s.key) ((s.reg rs1).setWidth 32) with
    | some c => if c.state = .ended then execCwait rd rs1 s else .next s
    | none => execCwait rd rs1 s
  | _ => .next s

/-- The failure value of `launch` (R111). -/
def launchFail (code : Nat) : Word := BitVec.ofNat 64 (2 ^ 63 + code)

/-- LAUNCH (R112, R356). -/
def execLaunch (rd rs1 rs2 rs3 : Reg) (s : State) : Out :=
  if s.slot = 2 then .next (s.trap 0x001 (instrBits (.launch rd rs1 rs2 rs3)))
  else
    let rcb := s.reg rs1
    let flags := s.reg rs3
    if rcb.toNat % 64 ≠ 0 || flags.toNat / 2 ≠ 0 then .next (s.finish rd (launchFail 0x502))
    else
      match s.regionOf s.key with
      | none => .next (s.finish rd (launchFail 0x501))
      | some r =>
        if r.cheld ≥ r.words.cslots.toNat then .next (s.finish rd (launchFail 0x501))
        else
          let s := s.release
          let id := s.fmc.nextRegion
          let s := s.putRegion { r with cheld := r.cheld + 1 }
          let s := s.setRegion {
            id := id, addr := rcb, space := r.space, parent := some r.id, arg := s.reg rs2, launched := true,
            detach := flags = 1, begun := s.ctx.clock }
          let entry : DevEntry :=
            { region := id, parent := r.id, rcb := rcb, arg := s.reg rs2, detach := flags = 1 }
          let s := { s with fmc := { s.fmc with nextRegion := id + 1, device := s.fmc.device ++ [entry] } }
          .next (s.finish rd (BitVec.ofNat 64 (id % 2 ^ 32)))

/-! ### Traps (R90, R309, R310) -/

/-- LX_TRET (R90). -/
def execLxTret (s : State) : Out := .next s.trapReturn

/-- ENGINE_FAULT_DELIVERY: the first posted fault reaches the context at its boundary (R310). -/
def execEngineFaultDelivery (s : State) : Out :=
  if s.ctx.life = .live && !s.ctx.parked then .next s.deliverFault else .next s

/-- The descriptor of a waiting parking wait (R353). -/
def State.waitDesc (s : State) : Option WaitDesc :=
  match s.ctx.waiting with
  | some (.barWait _ rs1 bar) => some (.bar s.ownRank bar ((s.reg rs1).setWidth 16))
  | some (.sywWait _ rs1 rs2 _) => some (.syw (s.reg rs1) ((s.reg rs2).setWidth 32))
  | some (.waitdep _) => some .dep
  | some (.cwait _ rs1) => some (.child ((s.reg rs1).setWidth 32))
  | _ => none

/-- PARK_THRESHOLD_EXPIRY (R109): a parking wait that has stalled past the threshold parks its context, unless the
threshold never parks (R339), something forbids it, or its condition has become true first (R110). With park-now set no threshold
counts: it parks once nothing forbids it (R110). -/
def execParkThresholdExpiry (s : State) : Out :=
  let never := match s.regionOf s.key with | some r => r.words.parkt = 0xFFFF | none => true
  match s.waitDesc with
  | some d =>
    if s.parkHeld || (never && !s.ctx.parkNow) || s.condHolds (regionOfKey s.key) d then .next s else .next (s.park d)
  | none => .next s

end Sys2Proof.Machine
end

