-- ==== Sys2Proof/Machine/Ports.lean ====
section
/-! DEFINITION. Ports, delivery points and take points (R71, R120-R123, R154, R155): how packets enter a buffer, merge,
and are read lane word by lane word. A point's key is its port code; the index channel of a SID is 0x100 + SID. -/

namespace Sys2Proof.Machine

open Sys2Proof

/-- The key of the index channel of a stream id. -/
def channel (sid : BitVec 9) : Nat := 0x100 + sid.toNat

/-- A point of a tile. -/
def State.point (s : State) (tile code : Nat) : Point := nget {} (s.tileAt tile).points code

/-- Writes a point of a tile. -/
def State.setPoint (s : State) (tile code : Nat) (p : Point) : State :=
  let t := s.tileAt tile
  s.setTile tile { t with points := nset t.points code p }

/-- A DFA port's binding. -/
def State.portSt (s : State) (tile code : Nat) : PortSt := nget {} (s.tileAt tile).dfa.ports code

/-- Whether a port code is input-side (R120). -/
def inputSide (p : BitVec 5) : Bool := p ≤ 7 || (0x10 ≤ p && p ≤ 0x14) || p = 0x1E

/-- Whether a port code is output-side (R120). -/
def outputSide (p : BitVec 5) : Bool := (8 ≤ p && p ≤ 0x0F) || p = 0x15

/-! ### Packets -/

/-- The count of lane words of a packet. -/
def Packet.count (p : Packet) : Nat := p.lanes.length

/-- Whether two packets merge (R154). -/
def Packet.merges (a b : Packet) : Bool :=
  a.sid = b.sid && a.marker = none && b.marker = none && a.count + b.count ≤ 8

/-- A packet as its header reads (R71): a marker beside one lane word and a PRED of 0 make a marker-only packet. -/
def Packet.norm (k : Packet) : Packet :=
  if k.marker.isSome && k.lanes.length = 1 && k.pred = 0 then { k with lanes := [], pred := 0 } else k

/-- The PRED bits of a packet's own lane words. -/
def Packet.ownPred (k : Packet) : BitVec 8 := k.pred &&& BitVec.ofNat 8 (2 ^ k.count - 1)

/-- The merged packet: the PRED bits of the earlier followed by those of the later. -/
def Packet.merge (a b : Packet) : Packet :=
  { a with lanes := a.lanes ++ b.lanes, pred := a.ownPred ||| b.pred <<< a.count, resp := a.resp.join b.resp }

/-- Merges a packet into the last of a buffer, if the rules of R154 allow it; the head has begun to be read or not. -/
def mergeLast (begun : Bool) (b : Packet) : List Packet → Option (List Packet)
  | [] => none
  | [a] => if !begun && a.merges b then some [a.merge b] else none
  | a :: t =>
    match mergeLast false b t with
    | some t' => some (a :: t')
    | none => none

/-- Whether a port's packets merge: the DFA ports do. -/
def mergesAt (code : Nat) : Bool := code < 16

/-- Whether a group's fault holds the array of a tile: every slot, buffer and register stays as it was (R167). -/
def EngineSt.groupFault (g : EngineSt) : Bool :=
  match g.fault with
  | some f => f.code = 0x120 || f.code = 0x122 || f.code = 0x123
  | none => false

/-- Whether a point is a port of an array that a group's fault holds. -/
def State.arrayHeld (s : State) (tile code : Nat) : Bool := code < 16 && ((s.tileAt tile).engine .ae).groupFault

/-- A packet placed in a buffer, where it has room: four packets at a port, 16 lane words in an index channel (R12,
R135). -/
def Point.place (p : Point) (code : Nat) (k : Packet) : Option Point :=
  let k := k.norm
  match if mergesAt code then mergeLast p.begun k p.buf else none with
  | some buf => some { p with buf := buf }
  | none =>
    let room := if code ≥ 0x100 then ((p.buf.map Packet.count).foldl (· + ·) 0) + k.count ≤ 16 else p.buf.length < 4
    if room then some { p with buf := p.buf ++ [k] } else none

/-- The control link that feeds the lane gate of a port, if one does (R155). -/
def Dfa.laneGate (d : Dfa) (code : Nat) : Option (Nat × Ctrl) :=
  lfind (fun c => c.2.dst.toNat = 0x20 + code) d.ctrls

/-- Applies the lane gate transfer of a port to a packet (R154, R155): lane words with token 0 lose their PRED bit. None
where a transfer is awaited. -/
def State.gateLanes (s : State) (tile code : Nat) (k : Packet) : Option (Packet × State) :=
  let t := s.tileAt tile
  match if code < 16 then t.dfa.laneGate code else none with
  | none => some (k, s)
  | some (i, c) =>
    match c.arrived with
    | [] => none
    | tok :: rest =>
      let d := { t.dfa with ctrls := nset t.dfa.ctrls i { c with arrived := rest, resps := c.resps.drop 1 } }
      some (({ k with pred := k.pred &&& tok } : Packet).norm, s.setTile tile { t with dfa := d })

/-- Whether WHISTLE stands in a buffer. -/
def Point.whistled (p : Point) : Bool := p.buf.any (·.marker = some .whistle)

/-- The WHISTLE packet of a port (R315). -/
def whistlePacket (sid : BitVec 9) : Packet := { lanes := [], pred := 0, sid := sid, marker := some .whistle }

/-- Whether WHISTLE stands in a port's buffer or has gone on into its link. -/
def Tile.portWhistled (t : Tile) (p : Nat) : Bool :=
  (nget {} t.points p).whistled
    || t.dfa.links.any fun l => l.2.src.toNat = 0x20 + p && (l.2.arrived ++ l.2.transit).any (·.marker = some .whistle)

/-- Puts WHISTLE behind whatever an input port's buffer holds (R315); it takes no place from a packet. -/
def State.putWhistle (s : State) (tile code : Nat) : State :=
  let p := s.point tile code
  s.setPoint tile code { p with buf := p.buf ++ [whistlePacket (s.portSt tile code).sid] }

/-- The WHISTLE that the AE places directly behind an END that enters a bound input port in a cut (R315). -/
def State.whistleBehind (s : State) (tile code : Nat) (k : Packet) : State :=
  if (s.tileAt tile).cut = .blown && code < 8 && k.marker = some .fin && (s.portSt tile code).bound
      && !(s.tileAt tile).portWhistled code then s.putWhistle tile code
  else s

/-! ### Links at ports (R152, R154) -/

/-- Packets that a link holds besides those in its port's buffer: slots and delay entries (R152, R153). -/
def Link.capacity (l : Link) : Nat := l.slots + l.delay

/-- Whether a link holds nothing of its own. -/
def Link.through (l : Link) : Bool := l.capacity = 0

/-- Packets in a link. -/
def Link.load (l : Link) : Nat := l.transit.length + l.arrived.length

/-- The point of a link's port end. -/
def Link.pointOfSrc (l : Link) : Nat := l.src.toNat - 0x20

/-- The point of a link's output port. -/
def Link.pointOfDst (l : Link) : Nat := l.dst.toNat - 0x20 + 8

/-- The link that a port feeds (R70, R152). -/
def Dfa.linkOfPort (d : Dfa) (code : Nat) : Option (Nat × Link) :=
  lfind (fun l => l.2.src ≥ 0x20 && l.2.pointOfSrc = code) d.links

/-- Packets at the head of a port's buffer go on into its link while it has room; the fuel bounds them. -/
def State.feed (s : State) (tile code : Nat) : Nat → State
  | 0 => s
  | fuel + 1 =>
    let t := s.tileAt tile
    match t.dfa.linkOfPort code, (s.point tile code).buf with
    | some (i, l), k :: rest =>
      if l.through || l.load ≥ l.capacity then s
      else
        let s := s.setPoint tile code { s.point tile code with buf := rest, begun := false, bits := 0 }
        let t := s.tileAt tile
        (s.setTile tile { t with
          dfa := { t.dfa with links := nset t.dfa.links i { l with transit := l.transit ++ [k] } } }).feed tile code fuel
    | _, _ => s

/-- Places a packet at a delivery point: the lane gate of an input port, then the buffer. What an input port's buffer holds
goes on into a free link before the next packet comes, so such packets do not merge: a port takes one packet a cycle (R154,
R363, DEDUCED, log entry 37). None while it must wait. -/
def State.enter (s : State) (tile code : Nat) (k : Packet) : Option State :=
  let s := if code < 8 then s.feed tile code 4 else s
  match (s.point tile code).place code k with
  | none => none
  | some _ =>
    match s.gateLanes tile code k with
    | none => none
    | some (k, s) =>
      match (s.point tile code).place code k with
      | none => none
      | some p => some ((s.setPoint tile code p).whistleBehind tile code k)

/-! ### Streams and their points (R121, R124, R130) -/

/-- What the pattern streams share (R124). -/
structure Pattern where
  write : Bool
  port : BitVec 5
  es : Nat
  pkt : Nat
  start : Bool
  fin : Bool
  trap : Bool
  sid : BitVec 9
  ext : Ext
deriving DecidableEq, Repr

/-- The pattern of a stream command. -/
def patternOf : Instr → Option Pattern
  | .seAff c => some {
      write := c.dir, port := c.port, es := 2 ^ c.esize.toNat, pkt := c.pkt.toNat + 1, start := c.start, fin := c.fin
      trap := c.pois, sid := c.sid, ext := c.ext }
  | .seInd c => some {
      write := c.dir, port := c.port, es := 2 ^ c.esize.toNat, pkt := c.pkt.toNat + 1, start := c.start, fin := c.fin
      trap := c.pois, sid := c.sid, ext := c.ext }
  | .seMcast c => some {
      write := false, port := c.port, es := 2 ^ c.esize.toNat, pkt := c.pkt.toNat + 1, start := c.start, fin := c.fin
      trap := c.pois, sid := c.sid, ext := c.ext }
  | _ => none

/-- The key of the point that a port code and a stream id name (R120, R121). -/
def pointKey (port : BitVec 5) (sid : BitVec 9) : Nat := if port = 0x1E then channel sid else port.toNat

/-- The delivery point that a stream of a tile's SE wants on its own tile; a multicast wants one only if TMASK names the tile. -/
def State.wants (s : State) (tile : Nat) (i : Instr) : Option Nat :=
  match i with
  | .seRec c => some c.dst.toNat
  | .seMcast c =>
    match c.tail with
    | some (m, _) => if m.getLsbD (rankOf (s.tileEntry tile).lcoord % 24) then some (pointKey c.port c.sid) else none
    | none => some (pointKey c.port c.sid)
  | _ =>
    match patternOf i with
    | some p => if p.write then none else some (pointKey p.port p.sid)
    | none => none

/-- The command that holds a delivery point (R121): the one that has delivered to it and not ended, else the first stream of
the tile's own SE, in the order of starting, that wants it (DEDUCED, log entry 38). -/
def State.pointHolder (s : State) (tile code : Nat) : Option Nat :=
  match (s.point tile code).holder with
  | some h => some h
  | none => (lfind (fun r => s.wants tile r.instr = some code) ((s.tileAt tile).engine .se).runs).map (·.id)

/-- What a delivery meets (R121). -/
inductive Delivery
  | done (s : State)
  | waits
  | wrongSid
deriving DecidableEq, Repr

/-- Delivers a packet for a command to a point of a tile (R121): the point must be free or its own, a DFA port loaded
with its gate open; for a stream of the SE and a gather of the NE the SID is checked at the first delivery, when the command
takes the point (R121, R130, R258; log entry 67). A gated tile takes nothing until it runs again (R323). -/
def State.deliver (s : State) (tile code cmd : Nat) (checked : Bool) (k : Packet) : Delivery :=
  let p := s.point tile code
  let free := match s.pointHolder tile code with | none => true | some h => h = cmd
  if !free || s.arrayHeld tile code || (s.tileAt tile).part = .gated then .waits
  else if code < 8 && ((s.tileAt tile).dfa.status ≠ .loaded || !(s.portSt tile code).gate) then .waits
  else if checked && code < 8 && p.holder = none && (s.portSt tile code).sid ≠ k.sid then .wrongSid
  else
    match s.enter tile code k with
    | none => .waits
    | some s => .done (s.setPoint tile code { s.point tile code with holder := some cmd })

/-! ### The status of an engine (R23) -/

/-- The delivery points that a command in progress delivers to on its own tile, and for a multicast on the tiles of TMASK that hold
its region. -/
def State.destinations (s : State) (tile : Nat) (r : Run) : List (Nat × Nat) :=
  let here := fun (code : Nat) => [(tile, code)]
  match r.instr with
  | .seAff _ | .seInd _ | .seRec _ => ((s.wants tile r.instr).map here).getD []
  | .seMcast c =>
    (s.places tile).filterMap fun p => if p.2 / 24 = tile / 24 then (s.wants p.2 (.seMcast c)).map fun k => (p.2, k) else none
  | .aeEnd im | .aeEndFlush im | .aeEndStart im => ((rangeFrom 0 8).filter fun k => im.getLsbD k).flatMap here
  | .meEnd _ | .meRecRec _ | .meRecScan _ => here 0x15
  | .saOpXchg c | .saOpCas c => (c.resp.map fun q => here (pointKey q.rport q.rsid)).getD []
  | .neGath c => if c.dmem then [] else here (pointKey c.port (c.mid.extractLsb' 1 9))
  | .tkMerge c => if c.pmode then here (pointKey c.port c.sid) else []
  | .tkBias c => if c.ext.isNone then here (pointKey c.port c.sid) else []
  | _ => []

/-- Whether a point has room for no further packet. -/
def State.pointFull (s : State) (at_ : Nat × Nat) : Bool :=
  ((s.point at_.1 at_.2).place at_.2 { lanes := [0], pred := 1, sid := 0, marker := some .flush }).isNone

/-- Whether a command in progress stands at a full destination (R23). -/
def State.blocked (s : State) (tile : Nat) (r : Run) : Bool := (s.destinations tile r).any s.pointFull

/-- Whether the section at the head of an engine's queue waits for a section of another engine (R62). -/
def State.depWaits (s : State) (tile : Nat) (e : Engine) : Bool :=
  match ((s.tileAt tile).engine e).queue with
  | w :: _ =>
    w.word.op = 0xFF
      && !(depsOf e (w.word.o.extractLsb' 0 54)).all fun p => reached ((s.tileAt tile).engine p.1).ret p.2
  | [] => false

/-- The status of an engine (R23): FAULTED; CANCELLING while a command of a cancelled section runs to its boundary; WAITING where
every command in progress stands at a full destination, or nothing is in progress and the next section waits for a dependency; else
RUNNING where a section executes (R21) or a header stands to start it (log entry 71); IDLE with nothing to do. -/
def State.engineStatus (s : State) (tile : Nat) (e : Engine) : Nat :=
  let g := (s.tileAt tile).engine e
  if g.fault.isSome then 3
  else if g.runs.any (fun r => match g.sect? r.sect with | some q => q.cancelled | none => false) then 4
  else if !g.runs.isEmpty then (if g.program.isNone && g.runs.all (s.blocked tile) then 2 else 1)
  else if g.program.isSome then 1
  else if s.depWaits tile e then 2
  else if g.sects.isEmpty then 0
  else 1

/-! ### Taking -/

/-- What a taker meets next at a point: a lane word with its PRED bit, or a marker. -/
inductive Item
  | lane (w : Word) (present : Bool)
  | mark (m : Marker)
deriving DecidableEq, Repr

/-- The next item of a packet: START stands before its lane words, any other marker after them (R156). -/
def Packet.item (k : Packet) : Option Item :=
  if k.marker = some .start then some (.mark .start)
  else
    match k.lanes with
    | w :: _ => some (.lane w (k.pred.getLsbD 0))
    | [] => k.marker.map .mark

/-- The packet less its next item; none when nothing of it is left. -/
def Packet.rest (k : Packet) : Option Packet :=
  let k' : Packet :=
    if k.marker = some .start then { k with marker := none }
    else
      match k.lanes with
      | _ :: t => { k with lanes := t, pred := k.pred >>> 1 }
      | [] => { k with marker := none }
  if k'.lanes.isEmpty && k'.marker = none then none else some k'

/-- The next item at a point. -/
def Point.item (p : Point) : Option Item :=
  match p.buf with
  | k :: _ => k.item
  | [] => none

/-- The point less its next item. -/
def Point.pop (p : Point) : Point :=
  match p.buf with
  | [] => p
  | k :: t =>
    match k.rest with
    | some k' => { p with buf := k' :: t, begun := true, bits := 0 }
    | none => { p with buf := t, begun := false, bits := 0 }

/-- Begins to read the head of a point: an output port's gate must be open (R154), its lane gate transfer is applied as
the packet is taken. None while nothing can be taken. -/
def State.openHead (s : State) (tile code : Nat) : Option State :=
  let p := s.point tile code
  match if s.arrayHeld tile code then [] else p.buf with
  | [] => none
  | k :: t =>
    if p.begun then some s
    else if 8 ≤ code && code < 16 then
      if !(s.portSt tile code).gate then none
      else
        match s.gateLanes tile code k with
        | none => none
        | some (k, s) => some (s.setPoint tile code { s.point tile code with buf := k :: t, begun := true })
    else some (s.setPoint tile code { p with begun := true })

/-- The lowest bound output port (R165). -/
def Dfa.lowestOut (d : Dfa) : Option Nat :=
  lfind (fun i => (nget {} d.ports i).bound) (rangeFrom 8 8)

/-- Counts an END taken at an output port (R162), and the invocation at the lowest bound one (R165). -/
def State.countEnd (s : State) (tile code : Nat) : State :=
  let t := s.tileAt tile
  let d := { t.dfa with
    ports := nmod {} t.dfa.ports code fun p => { p with ends := p.ends + 1 }
    invoc := if t.dfa.lowestOut = some code then t.dfa.invoc + 1 else t.dfa.invoc }
  s.setTile tile { t with dfa := d }

/-- The next item that a taker can take at a point, with the head begun; a WHISTLE at the head of an output port stops
it (R315). -/
def State.peek (s : State) (tile code : Nat) : Option (Item × State) :=
  match s.openHead tile code with
  | none => none
  | some s =>
    match (s.point tile code).item with
    | none => none
    | some (.mark .whistle) => none
    | some i => some (i, s)

/-- Takes the next item away. -/
def State.pop (s : State) (tile code : Nat) : State :=
  let p := s.point tile code
  let isEnd := p.item = some (.mark .fin)
  let s := s.setPoint tile code p.pop
  if isEnd && 8 ≤ code && code < 16 then s.countEnd tile code else s

/-- The responses that the head packet of a point carries (R299). -/
def State.headResp (s : State) (tile code : Nat) : Clock :=
  match (s.point tile code).buf with
  | k :: _ => k.resp
  | [] => []

/-- An element read from lane words at a width of `w` bits, or a marker met instead. -/
inductive Elem
  | value (v : Nat) (present : Bool)
  | mark (m : Marker)
deriving DecidableEq, Repr

/-- Passes over the bits of a partly read lane word that are too few for an element of width `w` (R229). -/
def State.fitHead (s : State) (tile code w : Nat) : State :=
  let p := s.point tile code
  if p.bits ≠ 0 && (p.bits + w - 1) / w * w + w > 64 then s.pop tile code else s

/-- The responses carried by the packet that holds the next index (R128, R299): absent lane words and markers are skipped. -/
def State.indexResp (s : State) (tile code w : Nat) : Nat → Clock
  | 0 => []
  | fuel + 1 =>
    match (s.fitHead tile code w).peek tile code with
    | some (.lane _ false, s) => (s.pop tile code).indexResp tile code w fuel
    | some (.mark .fin, s) => s.headResp tile code
    | some (.mark _, s) => (s.pop tile code).indexResp tile code w fuel
    | some (.lane _ true, s) => s.headResp tile code
    | none => []

/-- The responses carried by the packet that holds the next element of width `w` (R299). -/
def State.elemResp (s : State) (tile code w : Nat) : Clock := (s.fitHead tile code w).headResp tile code

/-- Takes the next `w`-bit element at a point, element 0 of a lane word first (R122, R228); a partly read lane word goes
on at the lowest multiple of `w` (R229). A marker is taken as it comes. -/
def State.takeElem (s : State) (tile code w : Nat) : Option (Elem × State) :=
  match (s.fitHead tile code w).peek tile code with
  | none => none
  | some (.mark m, s) => some (.mark m, s.pop tile code)
  | some (.lane v present, s) =>
    let p := s.point tile code
    let b := (p.bits + w - 1) / w * w
    let e := v.toNat / 2 ^ b % 2 ^ w
    let s := if b + w ≥ 64 then s.pop tile code else s.setPoint tile code { p with bits := b + w }
    some (.value e present, s)

/-- What the next index comes to: none yet, the end of the source, or an index; and the point as it then stands. -/
inductive IndexRead
  | waits (s : State)
  | ended (s : State)
  | value (v : Nat) (s : State)
deriving DecidableEq, Repr

/-- Takes the next index of width `w` (R128, R229): lane words whose PRED bit is 0 are skipped whole, and are gone even where the index
behind them has still to come; the source ends when a packet carrying END has been read. The fuel bounds the lane words and markers
passed over. -/
def State.nextIndex (s : State) (tile code w : Nat) : Nat → IndexRead
  | 0 => .waits s
  | fuel + 1 =>
    match (s.fitHead tile code w).peek tile code with
    | none => .waits s
    | some (.lane _ false, s) => (s.pop tile code).nextIndex tile code w fuel
    | some (.mark .fin, s) => .ended (s.pop tile code)
    | some (.mark _, s) => (s.pop tile code).nextIndex tile code w fuel
    | some (.lane _ true, t) =>
      match t.takeElem tile code w with
      | some (.value v _, t) => .value v t
      | _ => .waits s

end Sys2Proof.Machine
end

