-- ==== Sys2Proof/Machine/Engine.lean ====
section
/-! DEFINITION. How an engine takes the command at the head of its queue (R56, R62), reads and writes through its extents
(R33, R57, R64), and what the memory answers: data, poison, race, or an address outside (R139, R304). -/

namespace Sys2Proof.Machine

open Sys2Proof

/-! ### The head of the queue -/

/-- The words of the command at the head of a queue whose last word has been pushed (R56); none for a header. -/
def EngineSt.headCmd (g : EngineSt) : Option (List QWord) :=
  match g.queue with
  | [] => none
  | w :: _ =>
    let ws := g.queue.takeWhile (fun q => q.cmd = w.cmd && q.word.op ≠ 0xFF)
    if ws.any (fun q => q.word.last) then some ws else none

/-- Whether the head command may start as far as its section goes: started, not cancelled, the engine not FAULTED. -/
def EngineSt.headReady (g : EngineSt) : Bool :=
  match g.queue with
  | [] => false
  | w :: _ =>
    g.fault.isNone && (match g.sect? w.sect with | some q => q.started && !q.cancelled | none => false)

/-- The engines whose commands are ordered one after the other (R294). -/
def ordered : Engine → Bool
  | .ae | .me | .sa | .tk => true
  | _ => false

/-! ### Stops of a tile's units (R314, R315, R323, R393) -/

/-- Whether the ME of a tile holds the whistle (R227): a bank is not FREE, or it stands inside a command other than a load, whose
progress a save keeps. -/
def Tile.meBusy (t : Tile) : Bool :=
  t.me.banks.any (fun b => b.2.state ≠ .free)
    || (t.engine .me).runs.any fun r => match r.instr with | .meWld _ | .meSpw _ => false | _ => true

/-- Whether a stream runs on in a cut (R314, R315): a read stream until WHISTLE stands in the DFA input ports it delivers to, a
multicast's on every tile; a write stream and a recurrence from a DFA output port until WHISTLE reaches them. -/
def State.streamRunsOn (s : State) (tile : Nat) (r : Run) : Bool :=
  let out := fun (p : BitVec 5) => 8 ≤ p && p ≤ 15
  let into := (s.destinations tile r).any fun d => d.2 ≤ 7 && !(s.tileAt d.1).portWhistled d.2
  match r.instr with
  | .seAff c => if c.dir then out c.port else into
  | .seInd c => if c.dir then out c.port else into
  | .seMcast _ => into
  | .seRec c => out c.src && !r.work.stopping
  | _ => false

/-- Whether every bound input port of the DFA holds its WHISTLE, or its link does. -/
def Tile.allWhistled (t : Tile) : Bool :=
  t.dfa.status ≠ .loaded
    || (rangeFrom 0 8).all fun p => !(nget {} t.dfa.ports p).bound || t.portWhistled p

/-- Whether a stream serves the ports of the ME. -/
def Run.atMatrix (r : Run) : Bool :=
  let me := fun (p : BitVec 5) => 0x10 ≤ p && p ≤ 0x15
  match r.instr with
  | .seAff c => me c.port
  | .seInd c => me c.port
  | .seMcast c => me c.port
  | .seRec c => me c.src || me c.dst
  | _ => false

/-- Whether a unit of the acting tile stands still: its clock is gated (R323, R393), or a cut has stopped it at the boundary
where it stands (R314). An ME with a bank not FREE runs on until the bank has retired (R227), and with it the started streams that feed
and drain it (R316; log entry 30). The AE runs on until every input port has its WHISTLE (R315). -/
def State.unitStops (s : State) (e : Engine) (r : Option Run) : Bool :=
  let t := s.tileAt s.tile
  t.part = .gated || s.powerGated s.tile ||
    match t.cut with
    | .none => false
    | .saved => true
    | .blown =>
      match e with
      | .se => !(match r with | some r => s.streamRunsOn s.tile r || (t.meBusy && r.atMatrix) | none => false)
      | .me => !t.meBusy
      | .ae => t.allWhistled
      | _ => true

/-- Starts the command at the head of an engine's queue of the acting tile: its words leave the queue, and it becomes a
command in progress with what it has seen (R93, R294, R295). -/
def State.startRun (s : State) (e : Engine) (i : Instr) : Option (Run × State) :=
  let g := s.eng e
  if !g.headReady || s.unitStops e none then none
  else
    match g.headCmd with
    | none => none
    | some ws =>
      match ws.getLast?, g.sect? ((ws.head?.map (·.sect)).getD 0) with
      | some w, some q =>
        let clock := ((w.begun.join q.begun).join g.fence).join (if ordered e then g.last else [])
        let r : Run := { id := w.cmd, instr := i, sect := q.num, owner := q.owner, clock := clock, prog := q.prog }
        some (r, s.setEng e { g with queue := g.queue.drop ws.length, runs := g.runs ++ [r] })
      | _, _ => none

/-- Writes a command in progress back. -/
def State.setRun (s : State) (e : Engine) (r : Run) : State := s.setEng e ((s.eng e).modRun r.id fun _ => r)

/-- A command in progress by number; none while its engine is FAULTED (R23) or stopped. -/
def State.runOf (s : State) (e : Engine) (id : Nat) : Option Run :=
  if (s.eng e).fault.isSome then none
  else
    match (s.eng e).run? id with
    | some r => if s.unitStops e (some r) then none else some r
    | none => none

/-- The oldest command in progress that is this instruction, else the command at the head started as it, where `ok`
allows a start; none while the engine is FAULTED or stopped. -/
def State.resume (s : State) (e : Engine) (i : Instr) (ok : Bool) : Option (Run × State) :=
  if (s.eng e).fault.isSome then none
  else
    match lfind (fun r => r.instr = i) (s.eng e).runs with
    | some r => if s.unitStops e (some r) then none else some (r, s)
    | none => if ok then s.startRun e i else none

/-- A command of the acting tile completes. -/
def State.complete (s : State) (e : Engine) (r : Run) : State := (s.setRun e r).endRun s.tile e r.id

/-- A command of the acting tile faults at its micro-PC, in a check that is no access. -/
def State.faultNow (s : State) (e : Engine) (r : Run) (code : BitVec 12) (tval : Word) : State :=
  (s.setRun e r).postFault s.tile e r code tval

/-- A command of the acting tile faults at its micro-PC, or its access waits. -/
def State.faultAt (s : State) (e : Engine) (r : Run) (code : BitVec 12) (tval : Word) : State :=
  (s.setRun e r).runFault s.tile e r code tval

/-- Raises flags in a command's flag word. -/
def Run.raise (r : Run) (f : Flags) : Run := { r with flags := r.flags ||| f }


/-- A command as the agent of its part `n` (a chunk, a row): what part `n` publishes covers the parts up to it and not those that
the command has run ahead to (R143, R299). -/
def Run.part (r : Run) (n : Nat) : Run := { r with clock := nset r.clock (cmdAgent r.id) (r.base + n) }

/-- A command that has made accesses of its part `n`. -/
def Run.reached (r : Run) (n : Nat) : Run :=
  { r with clock := nset r.clock (cmdAgent r.id) (max (nget 0 r.clock (cmdAgent r.id)) (r.base + n)) }

/-- The micro-PC whose LC1:LC0 hold a count. -/
def microCount (n : Nat) : Word := microPc 0 (n / 2 ^ 16) n 0

/-! ### Extents -/

/-- Whether an address lies in the logical scratchpad space (R32). -/
def isScratchAddr (a : Nat) : Bool := a / 2 ^ 56 = 0x80

/-- The key of one byte that a command of the acting tile reaches: a scratchpad address by R33, a device virtual address
by the frames of its own extents or of its program's data extent (R64). -/
def State.runKey (s : State) (e : Engine) (r : Run) (a : Nat) : Option Nat :=
  if isScratchAddr a then logicalKey (s.places s.tile) a
  else
    let mine := (s.eng e).extents.filter fun p => p.2.tag = r.id || some p.2.tag = r.prog
    frameKey (mine.flatMap fun p => p.2.frames) a

/-- The keys of a run of bytes; none where one of them is reached by no extent. -/
def State.runKeys (s : State) (e : Engine) (r : Run) (a : Nat) : Nat → Option (List Nat)
  | 0 => some []
  | n + 1 =>
    match s.runKey e r a, s.runKeys e r (a + 1) n with
    | some k, some ks => some (k :: ks)
    | _, _ => none

/-- Whether [a, a + n) lies in an extent. -/
def inExt (x : Ext) (a : Int) (n : Nat) : Bool := x.base.toNat ≤ a && a + n ≤ x.base.toNat + x.bytes

/-! ### What memory answers -/

/-- An engine read: bytes with what they raise, or a fault's code and `lx.tval` (`heldCode` for an access that waits, R323). -/
inductive Reading
  | bytes (bs : List Byte) (poisoned : Bool)
  | fault (code : BitVec 12) (tval : Word)
deriving DecidableEq, Repr

/-- The address of the sector that holds an address. -/
def sectorAddr (a : Nat) : Word := BitVec.ofNat 64 (a / 32 * 32)

/-- What the response rows that stand at memory keys release (R299). -/
def State.responses (s : State) (ks : List Nat) : Clock :=
  ks.foldl (fun c k => ((nget [] s.rels k).filter (·.kind = .response)).foldl (fun (c : Clock) x => c.join x.clock) c) []

/-- What a command has seen as it reads bytes: response rows that stand there come before it (R299). -/
def State.readClock (s : State) (r : Run) (ks : List Nat) : Clock := r.clock.join (s.responses ks)

/-- The address of a byte among the keys of a run of bytes. -/
def addrOf (a : Nat) (ks : List Nat) (k : Nat) : Nat := a + (ks.takeWhile (· ≠ k)).length

/-- Reads `n` bytes for a command at an address: outside every extent ENG_BOUND, poison by the policy (R139), an unordered
write RACE with the address that races (R304). Under ZERO the bytes of a poisoned sector read as zeros. -/
def State.runRead (s : State) (e : Engine) (r : Run) (a n : Nat) (trap marked : Bool) : Reading :=
  match s.runKeys e r a n with
  | none => .fault 0x105 (BitVec.ofNat 64 a)
  | some ks =>
    let bad := fun (k : Nat) => (nget {} s.sectors (k / 32)).poison
    if ks.any (s.held s.tile) then .fault heldCode 0
    else
      match firstPoison s ks, trap with
      | some k, true => .fault 0x110 (sectorAddr (addrOf a ks k))
      | p, _ =>
        match firstRace s (s.readClock r ks) (cmdAgent r.id) ks false marked with
        | some k => .fault 0x201 (BitVec.ofNat 64 (addrOf a ks k))
        | none => .bytes (ks.map fun k => if bad k then 0 else memGet s.mem k) p.isSome

/-- A command that has read bytes: response rows that stood there come before what it does from now on (R299). -/
def State.took (s : State) (e : Engine) (r : Run) (a n : Nat) : Run :=
  match s.runKeys e r a n with
  | none => r
  | some ks => { r with clock := s.readClock r ks }

/-- A command that has taken response elements, and computes values from them (R299). -/
def Run.gained (r : Run) (c : Clock) : Run :=
  { r with clock := r.clock.join c, work := { r.work with resp := r.work.resp.join c } }

/-- A command that has read bytes and computes values from them (R299). -/
def State.tookValue (s : State) (e : Engine) (r : Run) (a n : Nat) : Run :=
  match s.runKeys e r a n with
  | none => r
  | some ks => r.gained (s.responses ks)

/-- Notes the read of `n` bytes in the sectors' stamps. -/
def State.runNote (s : State) (e : Engine) (r : Run) (a n : Nat) (marked : Bool) : State :=
  match s.runKeys e r a n with
  | none => s
  | some ks => noteRead s r.clock (cmdAgent r.id) ks marked

/-- An engine write: the new state, or a fault's code and `lx.tval`. -/
inductive Writing
  | done (s : State)
  | fault (code : BitVec 12) (tval : Word)
deriving DecidableEq, Repr

/-- Writes bytes for a command at an address. -/
def State.runWrite (s : State) (e : Engine) (r : Run) (a : Nat) (bs : List Byte) (marked atomic : Bool) : Writing :=
  match s.runKeys e r a bs.length with
  | none => .fault 0x105 (BitVec.ofNat 64 a)
  | some ks =>
    if ks.any (s.held s.tile) then .fault heldCode 0
    else
      match firstRace s r.clock (cmdAgent r.id) ks true marked with
      | some k => .fault 0x201 (BitVec.ofNat 64 (addrOf a ks k))
      | none => .done (s.write r.clock (cmdAgent r.id) (ks.zip bs) marked atomic)

/-- An arrival at a SYW for a command: poison is a fault whatever the policy, and so is a race (R29). -/
def State.runArrive (s : State) (r : Run) (a k bytes : Nat) (scope : Nat := 15) : Writing :=
  if s.held s.tile k then .fault heldCode 0
  else if (firstPoison s (sywKeys k)).isSome then .fault 0x110 (sectorAddr a)
  else if (firstRace s r.clock (cmdAgent r.id) (sywKeys k) true true).isSome then .fault 0x201 (BitVec.ofNat 64 a)
  else .done (s.sywArrive r.clock (cmdAgent r.id) s.tile k bytes scope)

/-- The words that bytes hold, eight bytes each. -/
def wordsOf : Nat → List Byte → List Word
  | 0, _ => []
  | n + 1, bs => BitVec.ofNat 64 (leNat (bs.take 8)) :: wordsOf n (bs.drop 8)

/-! ### Region parameters (R340) -/

/-- The effective value of an inherited parameter: the nearest nonzero one toward the root, else the default (R340). -/
def State.effective (s : State) (f : RcbWords → Nat) (dflt : Nat) : Nat → Nat → Nat
  | 0, _ => dflt
  | fuel + 1, rid =>
    match nget? s.regions rid with
    | none => dflt
    | some r =>
      if f r.words ≠ 0 then f r.words
      else match r.parent with | some p => s.effective f dflt fuel p | none => dflt

/-- The reduction-depth cap of the acting tile's region (R215, R340). -/
def State.dcap (s : State) : Nat := min 512 (s.effective (·.dcap.toNat) 512 9 (s.tileEntry s.tile).region)

/-- The pattern density threshold of the acting tile's region (R267, R340). -/
def State.thresh (s : State) : Nat := s.effective (·.thresh.toNat) 40 9 (s.tileEntry s.tile).region

end Sys2Proof.Machine
end

