-- ==== Sys2Proof/Machine/Array.lean ====
section
/-! DEFINITION. The matrix array's arithmetic (R40-R42, R47-R49) and geometry (R197-R201). -/

namespace Sys2Proof.Machine

open Sys2Proof

/-! ### Formats (R197, R198, R201) -/

/-- The magnitude width of a PL format, 0 for any other code. -/
def plBits (fmt : BitVec 4) : Nat :=
  match fmt.toNat with
  | 1 => 2 | 2 => 4 | 3 => 7 | _ => 0

/-- The bits of a block of a PL format (R40). -/
def plBlock (fmt : BitVec 4) : Nat := 16 + 16 * (plBits fmt + 1)

/-- The bytes of an element of a format that is not PL. -/
def elemBytes (fmt : BitVec 4) : Nat := if fmt = 7 || fmt = 8 then 2 else 1

/-- The reduction length of a plane (R198). -/
def reduction (latch : BitVec 4) (sparse : Bool) : Nat :=
  let k := match latch.toNat with | 1 => 512 | 2 => 256 | _ => 128
  if sparse then 2 * k else k

/-- The bits of a run of `k` elements: PL blocks, or elements side by side (R199). -/
def runBits (fmt : BitVec 4) (k : Nat) : Nat :=
  if plBits fmt ≠ 0 then k / 16 * plBlock fmt else k * 8 * elemBytes fmt

/-- The bytes of a dense column; of half of them for a four-of-eight column of doubled length (R201). -/
def columnBytes (fmt : BitVec 4) : Nat := runBits fmt (reduction fmt false) / 8

/-- The elements of a run held as a number, `k` of them from element `i` on. -/
def cellsOf (fmt : BitVec 4) (v : Nat) (k : Nat) : List MCell :=
  let m := plBits fmt
  (List.range k).map fun i =>
    if m ≠ 0 then
      let b := v / 2 ^ (i / 16 * plBlock fmt)
      let j := i % 16
      { bits := BitVec.ofNat 16 (b / 2 ^ (16 + (m + 1) * j) % 2 ^ (m + 1))
        tuck := BitVec.ofNat 2 (b / 2 ^ (8 + 2 * (j / 4)) % 4)
        exp := BitVec.ofNat 8 b }
    else { bits := BitVec.ofNat 16 (v / 2 ^ (8 * elemBytes fmt * i) % 2 ^ (8 * elemBytes fmt)) }

/-- The value of an element (R40, R197). -/
def cellVal (fmt : BitVec 4) (c : MCell) : Val :=
  let m := plBits fmt
  if m ≠ 0 then
    let mag := c.bits.toNat % 2 ^ m
    if c.exp = 255 then .nan false
    else if mag = 0 then .zero false
    else .fin (c.bits.toNat / 2 ^ m % 2 = 1) mag ((c.exp.toNat : Int) - 127 - c.tuck.toNat - (m - 1))
  else
    match fmt.toNat with
    | 4 => Fmt.e4m3.decode false c.bits.toNat
    | 5 => Fmt.e5m2.decode false c.bits.toNat
    | 7 => Fmt.bf16.decode false c.bits.toNat
    | 8 => Fmt.fp16.decode false c.bits.toNat
    | 9 => valOfInt c.bits.toNat
    | _ => valOfInt (intOfBits true 8 c.bits.toNat)

/-- The integer of an INT8 or UINT8 element. -/
def cellInt (fmt : BitVec 4) (c : MCell) : Int :=
  if fmt = 9 then c.bits.toNat else intOfBits true 8 c.bits.toNat

/-- The pairing of R200. -/
def pairs (latch afmt : BitVec 4) : Bool :=
  match latch.toNat with
  | 0 => false
  | 4 | 5 => afmt = 4 || afmt = 5
  | 6 => afmt = 6 || afmt = 9
  | _ => afmt = latch

/-! ### One group of sixteen (R47-R49) -/

/-- The products of a group: elements of A and W whose position is not masked. -/
def groupPairs (afmt wfmt : BitVec 4) : List MCell → List MCell → List Bool → List (Val × Val)
  | a :: as, w :: ws, m :: ms =>
    if m then (cellVal afmt a, cellVal wfmt w) :: groupPairs afmt wfmt as ws ms else groupPairs afmt wfmt as ws ms
  | _, _, _ => []

/-- An FP32 accumulator after an exact finite addend (R47, R48). -/
def accAdd (sat : Bool) (acc : BitVec 32) (v : Val) : BitVec 32 × Flags :=
  match Fmt.fp32.decode false acc.toNat with
  | .nan _ => (acc, 0)
  | .inf _ => (acc, 0)
  | a =>
    match exactSum a v false with
    | .fin n m e =>
      let (b, f) := Fmt.fp32.round {} n m e false
      if f &&& Flag.of ≠ 0 && sat then
        (BitVec.ofNat 32 (Fmt.fp32.maxFin n), Flag.of ||| Flag.nx ||| Flag.sat)
      else (BitVec.ofNat 32 b, f)
    | _ => (0, 0)

/-- The canonical NaN of FP32. -/
def nan32 : BitVec 32 := 0x7FC00000

/-- One column's group of sixteen products added into an FP32 accumulator (R47). -/
def accGroup (sat : Bool) (acc : BitVec 32) (ps : List (Val × Val)) : BitVec 32 × Flags :=
  let isNan := ps.any fun p => p.1.isNan || p.2.isNan
  let snan := ps.any fun p => p.1.isSnan || p.2.isSnan
  let bad := ps.any fun p => (p.1.isInf && p.2.isZero) || (p.1.isZero && p.2.isInf)
  if isNan then (nan32, Flag.nf ||| raiseIf snan Flag.nv)
  else if bad then (nan32, Flag.nv ||| Flag.nf)
  else
    let prods := ps.map fun p => exactProduct p.1 p.2
    let infs := prods.filter Val.isInf
    match infs with
    | i :: rest =>
      if rest.any (fun j => j.neg != i.neg) then (nan32, Flag.nv ||| Flag.nf)
      else
        match Fmt.fp32.decode false acc.toNat with
        | .nan signalling => (nan32, raiseIf signalling Flag.nv)
        | .inf n => if n = i.neg then (acc, 0) else (nan32, Flag.nv ||| Flag.nf)
        | _ => (BitVec.ofNat 32 (Fmt.fp32.inf i.neg), 0)
    | [] =>
      let fins := prods.filterMap fun v => match v with | .fin n m e => some (n, m, e) | _ => none
      match fins with
      | [] => (acc, 0)
      | (_, m0, e0) :: _ =>
        let emax : Int := fins.foldl (fun x p => max x ((p.2.1.log2 : Int) + p.2.2)) ((m0.log2 : Int) + e0)
        let unit := emax - 38
        let sum : Int := fins.foldl (fun x p =>
          let q : Nat := if p.2.2 ≥ unit then p.2.1 * 2 ^ (p.2.2 - unit).toNat else p.2.1 / 2 ^ (unit - p.2.2).toNat
          if p.1 then x - q else x + q) 0
        if sum = 0 then (acc, 0) else accAdd sat acc (.fin (sum < 0) sum.natAbs unit)

/-- One column's group of integer products added into an INT32 accumulator (R48). -/
def accGroupInt (sat : Bool) (acc : BitVec 32) (sum : Int) : BitVec 32 × Flags :=
  let x := acc.toInt + sum
  if sat && x > 2 ^ 31 - 1 then (0x7FFFFFFF, Flag.sat)
  else if sat && x < -(2 ^ 31) then (0x80000000, Flag.sat)
  else (BitVec.ofInt 32 x, 0)

/-- The groups of sixteen of a column, in ascending order of position (R51), by the fuel of the groups left. -/
def accColumn (intMode sat : Bool) (afmt wfmt : BitVec 4) :
    Nat → List MCell → List MCell → List Bool → BitVec 32 → Flags → BitVec 32 × Flags
  | 0, _, _, _, acc, f => (acc, f)
  | g + 1, as, ws, ms, acc, f =>
    let (acc', f') :=
      if intMode then
        let ps := (as.take 16).zip ((ws.take 16).zip (ms.take 16))
        let sum : Int := ps.foldl (fun x p => if p.2.2 then x + cellInt afmt p.1 * cellInt wfmt p.2.1 else x) 0
        accGroupInt sat acc sum
      else accGroup sat acc (groupPairs afmt wfmt (as.take 16) (ws.take 16) (ms.take 16))
    accColumn intMode sat afmt wfmt g (as.drop 16) (ws.drop 16) (ms.drop 16) acc' (f ||| f')

/-- The mask bits of a column as a list. -/
def maskList (m : BitVec 512) (k : Nat) : List Bool := (List.range k).map fun i => m.getLsbD i

/-- The cells of a column: zeros where none are listed. -/
def columnCells (cells : NMap (List MCell)) (n k : Nat) : List MCell :=
  match nget? cells n with
  | some l => l
  | none => List.replicate k { bits := 0 }

/-- What a row is multiplied with: format, cells, masks, reduction length. -/
structure Weights where
  fmt : BitVec 4
  cells : NMap (List MCell)
  masks : NMap (BitVec 512)
  k : Nat
deriving DecidableEq, Repr

/-- The weights of a plane. -/
def Plane.weights (p : Plane) : Weights :=
  { fmt := p.latch, cells := p.cells, masks := p.masks, k := reduction p.latch p.sparse }

/-- A row of A through the array into a row of 128 accumulators (R211, R217): INT8 weights with integer rows in INT32
accumulation, every other pair in FP32. -/
def fireRow (w : Weights) (sat : Bool) (afmt : BitVec 4) (a : List MCell) (acc : List (BitVec 32)) :
    List (BitVec 32) × Flags :=
  let intMode := w.fmt = 6
  let res := (acc.zip (List.range 128)).map fun p =>
    accColumn intMode sat afmt w.fmt (w.k / 16) a (columnCells w.cells p.2 w.k)
      (maskList (nget (BitVec.allOnes 512) w.masks p.2) w.k) p.1 0
  (res.map Prod.fst, res.foldl (fun f p => f ||| p.2) 0)

/-! ### Packing a pleat block (R42) -/

/-- A generator and the flags of an operation under way. -/
structure Draws where
  gen : BitVec 32
  flags : Flags
deriving DecidableEq, Repr

/-- Rounds one magnitude at a quantum 2^q for a block; under SR the generator advances first, for every value but an
infinity (R42, R44; log entry 20). -/
def plRound (r : Rounding) (v : Val) (q : Int) (d : Draws) : Nat × Bool × Draws :=
  let d := if r.rnd = .sr && !v.isInf then { d with gen := genStep d.gen } else d
  match v with
  | .fin n m e =>
    let (k, inx) := roundAt { r with draw := genDraw d.gen } n m e q false
    (k, inx, d)
  | _ => (0, false, d)

/-- Whether an exact magnitude is at most `lim` * 2^q. -/
def magAtMost (v : Val) (lim : Nat) (q : Int) : Bool :=
  match v with
  | .fin _ m e => if e ≥ q then m * 2 ^ (e - q).toNat ≤ lim else m ≤ lim * 2 ^ (q - e).toNat
  | _ => true

/-- The tuck of a quarter, with whether it is a tight one (R42 step 4). -/
def plTuck (m : Nat) (ex : Int) (vs : List Val) : Nat × Bool :=
  let fits := fun (t : Nat) => vs.all fun v => !v.isInf && magAtMost v (2 ^ m - 1) (ex - 127 - t - (m - 1))
  if vs.all Val.isZero then (3, true)
  else if fits 3 then (3, true) else if fits 2 then (2, true) else if fits 1 then (1, true) else (0, false)

/-- One packed element: sign and magnitude, its flags; or a request to raise E (R42 steps 4 to 8). -/
structure PlElem where
  neg : Bool
  mag : Nat
  flags : Flags
  overflow : Bool
deriving DecidableEq, Repr

/-- Packs one value at its quarter's tuck. -/
def plElem (r : Rounding) (m : Nat) (ex : Int) (t : Nat) (v : Val) (d : Draws) : PlElem × Draws :=
  let (k, inx, d) := plRound r v (ex - 127 - t - (m - 1)) d
  match v with
  | .inf n => ({ neg := n, mag := 2 ^ m - 1, flags := Flag.of ||| Flag.sat ||| Flag.nx, overflow := false }, d)
  | .fin n _ _ =>
    if k ≥ 2 ^ m then
      if ex < 254 then ({ neg := n, mag := k, flags := 0, overflow := true }, d)
      else ({ neg := n, mag := 2 ^ m - 1, flags := Flag.of ||| Flag.nx ||| Flag.sat, overflow := false }, d)
    else
      ({ neg := n && k ≠ 0, mag := k,
         flags := raiseIf inx Flag.nx ||| raiseIf (k = 0) (Flag.uf ||| Flag.nx), overflow := false }, d)
  | _ => ({ neg := false, mag := 0, flags := 0, overflow := false }, d)

/-- Packs a quarter's values in order. -/
def plQuarter (r : Rounding) (m : Nat) (ex : Int) (t : Nat) : List Val → Draws → List PlElem × Draws
  | [], d => ([], d)
  | v :: vs, d =>
    let (e, d) := plElem r m ex t v d
    let (es, d) := plQuarter r m ex t vs d
    (e :: es, d)

/-- One pass of step 4 over the four quarters: tucks and elements. -/
def plPass (r : Rounding) (m : Nat) (ex : Int) (vs : List Val) (d : Draws) : List (Nat × List PlElem) × Draws :=
  ([0, 1, 2, 3]).foldl (fun (acc : List (Nat × List PlElem) × Draws) q =>
    let part := (vs.drop (4 * q)).take 4
    let t := (plTuck m ex part).1
    let (es, d) := plQuarter r m ex t part acc.2
    (acc.1 ++ [(t, es)], d)) ([], d)

/-- The block of a pass as a number (R40). -/
def plBlockBits (m : Nat) (ex : Nat) (qs : List (Nat × List PlElem)) : Nat :=
  let tucks := (qs.zip (List.range 4)).foldl (fun x p => x + p.1.1 * 2 ^ (8 + 2 * p.2)) 0
  let es := qs.flatMap Prod.snd
  let bits := (es.zip (List.range 16)).foldl (fun x p =>
    x + ((if p.1.neg then 2 ^ m else 0) + p.1.mag) * 2 ^ (16 + (m + 1) * p.2)) 0
  ex + tucks + bits

/-- Repeats the pass while a coarse magnitude overflows below E = 254 (R42 step 5). -/
def plPasses (r : Rounding) (m : Nat) (vs : List Val) : Nat → Nat → Draws → Nat × Draws
  | 0, ex, d => (ex, d)
  | fuel + 1, ex, d =>
    let (qs, d) := plPass r m ex vs d
    if ex < 254 && qs.any (fun q => q.2.any (·.overflow)) then plPasses r m vs fuel (ex + 1) d
    else (plBlockBits m ex qs, { d with flags := d.flags ||| (qs.flatMap Prod.snd).foldl (fun f e => f ||| e.flags) 0 })

/-- The floor of log2 of a finite nonzero value. -/
def valLog2 (v : Val) : Int :=
  match v with
  | .fin _ m e => (m.log2 : Int) + e
  | _ => 0

/-- Packs sixteen values into a block of magnitude width `m` (R42). -/
def plPack (r : Rounding) (m : Nat) (vs : List Val) (d : Draws) : Nat × Draws :=
  if vs.any Val.isNan then (255, { d with flags := d.flags ||| raiseIf (vs.any Val.isSnan) Flag.nv })
  else
    let fins := vs.filter fun v => match v with | .fin _ _ _ => true | _ => false
    let ex : Int :=
      match fins with
      | [] => if vs.any Val.isInf then 254 else 0
      | v :: rest => rest.foldl (fun x w => max x (valLog2 w)) (valLog2 v) + 127
    if fins.isEmpty && !vs.any Val.isInf then (0, d)
    else plPasses r m vs 255 (max 0 (min 254 ex)).toNat d

end Sys2Proof.Machine
end

