-- ==== Sys2Proof/Machine/Reals.lean ====
section
/-! DEFINITION. Real functions in fixed point, with 512 bits below the point: an enclosure of the exact result, the values of a
format within a bound of it (R195), and the logarithm of a size (R280). -/

namespace Sys2Proof.Machine

open Sys2Proof

/-- The number 1 in fixed point. -/
def fixOne : Nat := 2 ^ 512

/-- The product of two fixed-point numbers. -/
def fixMul (a b : Nat) : Nat := a * b / fixOne

/-- What no error of the functions below reaches, in units of the last place: 2^160. -/
def fixErr : Nat := 2 ^ 160

/-- `sum + term * t / k + …`: the exponential series from term `k` on. -/
def expLoop (t : Nat) : Nat → Nat → Nat → Nat → Nat
  | 0, _, _, sum => sum
  | n + 1, k, term, sum => let term := fixMul term t / k; expLoop t n (k + 1) term (sum + term)

/-- The exponential of a number in [0, 1]. -/
def fixExp (t : Nat) : Nat := expLoop t 130 1 fixOne fixOne

/-- The series z + z^3/3 + z^5/5 + … of the inverse hyperbolic tangent, with alternating signs that of the inverse tangent. -/
def atanLoop (alt : Bool) (zz : Nat) : Nat → Nat → Nat → Int → Int
  | 0, _, _, sum => sum
  | n + 1, k, pow, sum =>
    let term : Int := pow / (2 * k + 1)
    atanLoop alt zz n (k + 1) (fixMul pow zz) (if alt && k % 2 = 1 then sum - term else sum + term)

/-- The natural logarithm of a / b, a number in [1, 2). -/
def fixLog (a b : Nat) : Nat :=
  let z := (a - b) * fixOne / (a + b)
  2 * (atanLoop false (fixMul z z) 180 0 z 0).toNat

/-- The natural logarithm of 2. -/
def fixLn2 : Nat := fixLog 2 1

/-- The inverse tangent of 1 / n. -/
def fixAtan (n : Nat) : Int := let z := fixOne / n; atanLoop true (fixMul z z) 120 0 z 0

/-- Half of pi, by Machin's formula. -/
def fixHalfPi : Nat := (8 * fixAtan 5 - 2 * fixAtan 239).toNat

/-- The alternating series of the sine (from k = 1 with t) or the cosine (from k = 0 with 1). -/
def circLoop (tt : Nat) : Nat → Nat → Nat → Int → Int
  | 0, _, _, sum => sum
  | n + 1, k, term, sum =>
    circLoop tt n (k + 2) (fixMul term tt / ((k + 1) * (k + 2))) (if k % 4 < 2 then sum + term else sum - term)

/-- The sine of x quarter turned `turn` times. -/
def fixSin (x turn : Nat) : Int :=
  let q := x / fixHalfPi + turn
  let t := x % fixHalfPi
  let v := if q % 2 = 0 then circLoop (fixMul t t) 100 1 t 0 else circLoop (fixMul t t) 100 0 fixOne 0
  if q % 4 < 2 then v else -v

/-- The exponential of x, in fixed point; past 2000 that of 2000. -/
def fixExpBig (x : Nat) : Nat :=
  let x := min x (2000 * fixOne)
  fixExp (x % fixLn2) * 2 ^ (x / fixLn2)

/-- A magnitude enclosed: the exact one lies strictly between `lo` and `hi`, in units of 2^e; `neg` is its sign. -/
structure Enclosed where
  neg : Bool
  lo : Nat
  hi : Nat
  e : Int
deriving DecidableEq, Repr

/-- The enclosure of a fixed-point number, below a bound that the exact result does not reach. -/
def Enclosed.around (neg : Bool) (v top : Nat) : Enclosed :=
  { neg := neg, lo := v - fixErr, hi := min (v + fixErr) top, e := -512 }

/-- The enclosure of 2^x, for x = ± m * 2^e. -/
def encloseExp2 (neg : Bool) (m : Nat) (e : Int) : Enclosed :=
  let x : Int := if neg then -((m * 2 ^ (e + 512).toNat : Nat) : Int) else m * 2 ^ (e + 512).toNat
  let v := fixExp (fixMul (x % fixOne).toNat fixLn2)
  { neg := false, lo := v - fixErr, hi := v + fixErr, e := max (x / fixOne) (-1000) - 512 }

/-- The enclosure of log2 x, for x = m * 2^e. -/
def encloseLog2 (m : Nat) (e : Int) : Enclosed :=
  let v : Int := ((m.log2 : Int) + e) * fixOne + fixLog m (2 ^ m.log2) * fixOne / fixLn2
  { neg := v < 0, lo := v.natAbs - fixErr, hi := v.natAbs + fixErr, e := -512 }

/-- The enclosure of the exact result of a special function outside its exact and special cases, for ± m * 2^e (R195). -/
def enclose (opc : Nat) (neg : Bool) (m : Nat) (e : Int) : Enclosed :=
  let x := m * 2 ^ (e + 512).toNat
  match opc with
  | 0x58 =>
    let v := 2 ^ 600 / m
    { neg := neg, lo := if v * m = 2 ^ 600 then v - 1 else v, hi := v + 1, e := -600 - e }
  | 0x59 =>
    let (m, e) := if e % 2 = 0 then (m, e) else (2 * m, e - 1)
    let v := isqrt (2 ^ 800 / m) 401 0
    { neg := false, lo := v, hi := v + 1, e := -400 - e / 2 }
  | 0x5A => encloseExp2 neg m e
  | 0x5B => encloseLog2 m e
  | 0x5C => let v := fixSin x 0; .around (neg != (v < 0)) v.natAbs (min x fixOne)
  | 0x5D => let v := fixSin x 1; .around (v < 0) v.natAbs fixOne
  | 0x5E =>
    let a := fixExpBig (2 * x)
    .around neg ((a - fixOne) * fixOne / (a + fixOne)) (min x fixOne)
  | _ =>
    let a := fixExpBig x
    .around false ((if neg then fixOne else a) * fixOne / (a + fixOne)) fixOne

/-- The position of the largest value of a format at or below m * 2^e among its magnitudes, 0 for zero; and whether they are
equal. Past the largest finite value the positions go on as if the exponent had no upper limit. -/
def Fmt.place (f : Fmt) (m : Nat) (e : Int) : Int × Bool :=
  if m = 0 then (0, true)
  else
    let lead : Int := (m.log2 : Int) + e
    let q := max (lead - f.mbits) (f.emin - f.mbits)
    let (n, inexact) := roundAt { rnd := .rtz } false m e q false
    (if n < 2 ^ f.mbits then n else (lead + f.bias) * 2 ^ f.mbits + n - 2 ^ f.mbits, !inexact)

/-- The position of the smallest value of a format above ± m * 2^e. -/
def Fmt.above (f : Fmt) (x : Int) (e : Int) : Int :=
  let (n, same) := f.place x.natAbs e
  if x ≥ 0 then n + 1 else if same then 1 - n else -n

/-- The positions of the values of a format whose distance from an enclosed number is at most `bound` halves of the unit of its
last place: the first of them and how many. -/
def Fmt.within (f : Fmt) (x : Enclosed) (bound : Nat) : Int × Nat :=
  let lead : Int := if x.lo = 0 then f.emin else (x.lo.log2 : Int) + x.e
  let unit := max (lead - f.mbits) (f.emin - f.mbits) - 1
  let c := min x.e unit
  let b : Int := bound * 2 ^ (unit - c).toNat
  let first := f.above ((x.lo * 2 ^ (x.e - c).toNat : Nat) - b) c
  let past := -f.above (-((x.hi * 2 ^ (x.e - c).toNat : Nat) + b)) c
  (first, (past - first).toNat + 1)

/-- The bound of R195 in half units: for FP32 and for the two 16-bit formats. -/
def specialBound (opc : Nat) (f : Fmt) : Nat :=
  let algebraic : Bool := opc = 0x58 || opc = 0x59
  if f.width = 32 then (if algebraic then 2 else 4) else if algebraic then 1 else 2

/-- The natural logarithm of an integer above 1, rounded RNE into a format (R280). -/
def Fmt.logOf (f : Fmt) (n : Nat) : Nat :=
  (f.round {} false (n.log2 * fixLn2 + fixLog n (2 ^ n.log2)) (-512) true).1

end Sys2Proof.Machine
end

