-- ==== Sys2Proof/Machine/PeOps.lean ====
section
/-! DEFINITION. What the operations of a processing element compute (08_pe_operations.md, R168-R196), from operand lane
words to result lane words, tokens and flags. -/

namespace Sys2Proof.Machine

open Sys2Proof

/-! ### Operation words (R68) -/

/-- A PE operation word. -/
structure PeOp where
  opc : Nat
  type : BitVec 4
  rnd : BitVec 3
  ftzi : Bool
  ftzo : Bool
  sat : Bool
  dst : Nat
  a : Nat
  b : Nat
  c : Nat
  gate : Nat
  imm : BitVec 16
deriving DecidableEq, Repr

/-- The fields of a word. -/
def PeOp.ofWord (w : Word) : PeOp :=
  { opc := (w.extractLsb' 56 8).toNat, type := w.extractLsb' 52 4, rnd := w.extractLsb' 49 3, ftzi := w.getLsbD 48
    ftzo := w.getLsbD 47, sat := w.getLsbD 46, dst := (w.extractLsb' 40 6).toNat, a := (w.extractLsb' 34 6).toNat
    b := (w.extractLsb' 28 6).toNat, c := (w.extractLsb' 22 6).toNat, gate := (w.extractLsb' 16 6).toNat
    imm := w.extractLsb' 0 16 }

/-- Which sources an opcode uses (R69). -/
def srcsUsed (opc : Nat) : Bool × Bool × Bool :=
  if opc = 0 then (false, false, false)
  else if (4 ≤ opc && opc ≤ 6) || opc = 0x18 || opc = 0x29 || opc = 0x51 then (true, true, true)
  else if (1 ≤ opc && opc ≤ 3) || opc = 7 || opc = 8 || opc = 0x0B || opc = 0x0D || (0x10 ≤ opc && opc ≤ 0x16)
      || (0x20 ≤ opc && opc ≤ 0x26) || (0x2A ≤ opc && opc ≤ 0x30) || opc = 0x4D then (true, true, false)
  else (true, false, false)

/-- Whether an opcode is a compare or `tst`. -/
def isCompare (opc : Nat) : Bool := 0x10 ≤ opc && opc ≤ 0x17

/-- How an operation rounds, with a draw. -/
def PeOp.rounding (p : PeOp) (draw : Nat) : Rounding :=
  { rnd := rndOf p.rnd, ftzi := p.ftzi, ftzo := p.ftzo, sat := p.sat, draw := draw }

/-! ### Operands and results (R168) -/

/-- An operand: four lane words, none where absent. -/
abbrev Lanes := List (Option Word)

/-- Lane word `i` of an operand. -/
def laneOf (o : Lanes) (i : Nat) : Option Word := lget none o i

/-- Element `e` of an operand at width `w`: zero bits where its lane word is absent. -/
def elemOf (o : Lanes) (w e : Nat) : Nat :=
  match laneOf o (e / (64 / w)) with
  | some v => v.toNat / 2 ^ (w * (e % (64 / w))) % 2 ^ w
  | none => 0

/-- The lane word that holds elements of width `w`, element 0 the least significant (R39). -/
def joinLane (w : Nat) : List Nat → Nat
  | [] => 0
  | v :: vs => v % 2 ^ w + 2 ^ w * joinLane w vs

/-- What an operation reads: its word, its operands, which result lane words its gate and stage enable, the count of R149,
the tokens of `sel`. -/
structure PeIn where
  op : PeOp
  a : Lanes
  b : Lanes
  c : Lanes
  en : List Bool
  count : Nat
  tokens : BitVec 8
  pe : Nat
deriving DecidableEq, Repr

/-- What an operation gives: its enabled lane words, the result count, a token transfer, or a fault's `lx.tval`. -/
structure PeOut where
  lanes : Lanes
  count : Nat
  token : Option (BitVec 8) := none
  fault : Option Word := none
deriving DecidableEq, Repr

/-- One more draw where the operation rounds stochastically (R44, R172). -/
def PeOp.draw (p : PeOp) (d : Draws) : Draws := if rndOf p.rnd = .sr then { d with gen := genStep d.gen } else d

/-- Adds flags. -/
def Draws.raise (d : Draws) (f : Flags) : Draws := { d with flags := d.flags ||| f }

/-- Applies a function of one element's index to elements in ascending order, with a draw before each (R172). -/
def eachElem (p : PeOp) (f : Rounding → Nat → Nat × Flags) : List Nat → Draws → List Nat × Draws
  | [], d => ([], d)
  | e :: es, d =>
    let d := p.draw d
    let (v, fl) := f (p.rounding (genDraw d.gen)) e
    let (vs, d) := eachElem p f es (d.raise fl)
    (v :: vs, d)

/-- Applies a function to the elements of the lane words that `on` names, in order; the other lane words are absent. -/
def eachLane (p : PeOp) (w : Nat) (on : Nat → Bool) (f : Rounding → Nat → Nat × Flags) : List Nat → Draws → Lanes × Draws
  | [], d => ([], d)
  | i :: is, d =>
    if on i then
      let (vs, d) := eachElem p f (rangeFrom (64 / w * i) (64 / w)) d
      let (ls, d) := eachLane p w on f is d
      (some (BitVec.ofNat 64 (joinLane w vs)) :: ls, d)
    else
      let (ls, d) := eachLane p w on f is d
      (none :: ls, d)

/-- Whether an operand that is used has lane word `i`. -/
def hasLane (used : Bool) (o : Lanes) (i : Nat) : Bool := !used || (laneOf o i).isSome

/-- An element-wise operation (R168): result element e from element e of each source. -/
def elementWise (x : PeIn) (f : Rounding → Nat → Nat → Nat → Nat × Flags) (d : Draws) : PeOut × Draws :=
  let w := widthOfCode x.op.type
  let (ua, ub, uc) := srcsUsed x.op.opc
  let on := fun i => lget false x.en i && hasLane ua x.a i && hasLane ub x.b i && hasLane uc x.c i
  let (ls, d) := eachLane x.op w on (fun r e => f r (elemOf x.a w e) (elemOf x.b w e) (elemOf x.c w e)) [0, 1, 2, 3] d
  ({ lanes := ls, count := x.count }, d)

/-! ### Floating arithmetic (R175-R177) -/

/-- Whether one value is less than another; −0 equals +0. -/
def Val.less (a b : Val) : Bool :=
  match a, b with
  | .inf n, .inf m => n && !m
  | .inf n, _ => n
  | _, .inf m => !m
  | _, _ => let e := min (a.exp (b.exp 0)) (b.exp (a.exp 0)); a.scaled e < b.scaled e

/-- The sum of values none of which is a NaN (R175); none where infinities of opposite sign meet. The sign of an exact zero
sum follows IEEE 754-2019 (log entry 24). -/
def sumOf (rdn : Bool) (vs : List Val) : Option Val :=
  match vs.filter Val.isInf with
  | i :: rest => if rest.any (fun j => j.neg != i.neg) then none else some (.inf i.neg)
  | [] =>
    let fins := vs.filter fun v => !v.isZero
    if fins.isEmpty then
      some (.zero (if vs.all Val.neg then true else if vs.any Val.neg then rdn else false))
    else some (fins.foldl (fun a b => exactSum a b rdn) (.zero rdn))

/-- The product of two values none of which is a NaN; none for ∞ × 0. -/
def productOf (a b : Val) : Option Val :=
  if (a.isInf && b.isZero) || (a.isZero && b.isInf) then none else some (exactProduct a b)

/-- An exact result: a value, whether something lies below its last bit, flags that come with it. -/
structure Exact where
  val : Val
  sticky : Bool := false
  flags : Flags := 0
deriving DecidableEq, Repr

/-- The exact quotient (R175). -/
def quotientOf (a b : Val) : Option Exact :=
  let n := a.neg != b.neg
  match a, b with
  | .inf _, .inf _ => none
  | .inf _, _ => some { val := .inf n }
  | _, .inf _ => some { val := .zero n }
  | .zero _, .zero _ => none
  | _, .zero _ => some { val := .inf n, flags := Flag.dz ||| Flag.nf }
  | .zero _, _ => some { val := .zero n }
  | .fin _ m e, .fin _ k f =>
    let sh := 200 + k.log2
    some { val := .fin n (m * 2 ^ sh / k) (e - f - sh), sticky := m * 2 ^ sh % k ≠ 0 }
  | _, _ => none

/-- The exact square root (R175). -/
def rootOf (a : Val) : Option Exact :=
  match a with
  | .inf n => if n then none else some { val := .inf false }
  | .zero n => some { val := .zero n }
  | .fin n m e =>
    if n then none
    else
      let odd := e % 2 ≠ 0
      let big := (if odd then 2 * m else m) * 2 ^ 200
      let r := isqrt big 130 0
      some { val := .fin false r ((if odd then e - 1 else e) / 2 - 100), sticky := r * r ≠ big }
  | .nan _ => none

/-- Rounds an exact result into a format (R43). -/
def Fmt.deliver (f : Fmt) (r : Rounding) (x : Exact) : Nat × Flags :=
  let (v, fl) := match x.val with
    | .fin n m e => f.round r n m e x.sticky
    | v => f.convert r v
  (v, fl ||| x.flags)

/-- The canonical NaN of an invalid operation. -/
def Fmt.invalid (f : Fmt) : Nat × Flags := (f.nan, Flag.nv ||| Flag.nf)

/-- The arithmetic operations of R175: opcodes 1 to 6, 0x0B, 0x0C. -/
def arith (opc : Nat) (f : Fmt) (r : Rounding) (x y z : Nat) : Nat × Flags :=
  let a := f.decode r.ftzi x
  let b := if opc = 0x0C then .zero false else f.decode r.ftzi y
  let fused := 4 ≤ opc && opc ≤ 6
  let c := if fused then f.decode r.ftzi z else .zero false
  let rdn := r.rnd = .rdn
  if fused && (productOf a b).isNone && !a.isNan && !b.isNan then f.invalid
  else if a.isNan || b.isNan || c.isNan then (f.nan, raiseIf (a.isSnan || b.isSnan || c.isSnan) Flag.nv)
  else
    let prod := match productOf a b with | some v => v | none => .zero false
    let sum := fun vs => (sumOf rdn vs).map fun v => ({ val := v } : Exact)
    let e : Option Exact := match opc with
      | 1 => sum [a, b]
      | 2 => sum [a, b.negate]
      | 3 => (productOf a b).map fun v => { val := v }
      | 4 => sum [prod, c]
      | 5 => sum [prod, c.negate]
      | 6 => sum [prod.negate, c]
      | 0x0B => quotientOf a b
      | _ => rootOf a
    match e with
    | none => f.invalid
    | some e => f.deliver r e

/-- `fmin` and `fmax` (R176). -/
def minMax (mx : Bool) (f : Fmt) (r : Rounding) (x y : Nat) : Nat × Flags :=
  let a := f.decode r.ftzi x
  let b := f.decode r.ftzi y
  let nv := raiseIf (a.isSnan || b.isSnan) Flag.nv
  let less := a.less b || (!b.less a && a.neg && !b.neg)
  let v := if a.isNan then b else if b.isNan then a else if less = mx then b else a
  let (n, fl) := f.convert { r with sat := false } (match v with | .nan _ => .nan false | v => v)
  (n, fl ||| nv)

/-- `fabs`, `fneg`, `fcpysgn` (R176). -/
def signOp (opc : Nat) (f : Fmt) (r : Rounding) (x y : Nat) : Nat × Flags :=
  let a := f.decode r.ftzi x
  let v := match opc with
    | 9 => a.withSign false
    | 0x0A => a.negate
    | _ => a.withSign (y / 2 ^ (f.width - 1) % 2 = 1)
  f.convert { r with sat := false } v

/-- `fround` (R177). -/
def roundOp (f : Fmt) (r : Rounding) (x : Nat) : Nat × Flags :=
  match f.decode r.ftzi x with
  | .fin n m e =>
    let (k, inx) := roundAt r n m e 0 false
    let v : Val := if k = 0 then .zero n else .fin n k 0
    ((f.convert {} v).1, raiseIf inx Flag.nx)
  | v => f.convert {} v

/-- `fclass` (R177). -/
def classOp (f : Fmt) (x : Nat) : Nat :=
  let sub := x / 2 ^ f.mbits % 2 ^ f.ebits = 0
  2 ^ (match f.decode false x with
    | .nan s => if s then 8 else 9
    | .inf n => if n then 0 else 7
    | .zero n => if n then 3 else 4
    | .fin n _ _ => if n then (if sub then 2 else 1) else (if sub then 5 else 6))

/-! ### Predicates (R178) -/

/-- The predicate of a compare or `tst` on one element, with its flags. -/
def predicate (p : PeOp) (x y : Nat) : Bool × Flags :=
  let w := widthOfCode p.type
  let sint := fun (v : Nat) => intOfBits true w v
  match fmtOfCode p.type, p.opc with
  | some f, 0x10 | some f, 0x11 | some f, 0x12 | some f, 0x13 =>
    let a := f.decode p.ftzi x
    let b := f.decode p.ftzi y
    let nan := a.isNan || b.isNan
    let snan := raiseIf (a.isSnan || b.isSnan) Flag.nv
    if p.opc = 0x13 then (nan, snan)
    else if nan then (false, if p.opc = 0x10 then snan else Flag.nv)
    else
      match p.opc with
      | 0x10 => (!a.less b && !b.less a, 0)
      | 0x11 => (a.less b, 0)
      | _ => (!b.less a, 0)
  | _, 0x14 => (x = y, 0)
  | _, 0x15 => (sint x < sint y, 0)
  | _, 0x16 => (x < y, 0)
  | _, _ => (x ≠ 0, 0)

/-- A compare: its transfer, one token a lane word, tokens 4 to 7 copies of 0 to 3 (R178). -/
def compareOp (x : PeIn) (live : Bool) (d : Draws) : PeOut × Draws :=
  let w := widthOfCode x.op.type
  let (_, ub, _) := srcsUsed x.op.opc
  let n := 64 / w
  let lane := fun (i : Nat) =>
    if lget false x.en i && hasLane true x.a i && hasLane ub x.b i then
      let ps := (rangeFrom (n * i) n).map fun e => predicate x.op (elemOf x.a w e) (elemOf x.b w e)
      let tok := match (x.op.imm.extractLsb' 0 2).toNat with
        | 0 => ps.all Prod.fst
        | 1 => ps.any Prod.fst
        | _ => (lget (false, 0) ps 0).1
      (tok, ps.foldl (fun f p => f ||| p.2) (0 : Flags))
    else (false, 0)
  let res := ([0, 1, 2, 3]).map fun i => (i, lane i)
  let tok := res.foldl (fun t p => if p.2.1 then t + 2 ^ p.1 else t) 0
  let fl := res.foldl (fun f p => f ||| p.2.2) (0 : Flags)
  ({ lanes := [none, none, none, none], count := x.count
     token := if live then some (BitVec.ofNat 8 (tok + 16 * tok)) else none }, d.raise fl)

/-! ### Integers (R180, R181) -/

/-- Writes an exact integer at width `w`: wrapped, or clamped with SAT. -/
def intWrite (signed : Bool) (w : Nat) (sat : Bool) (x : Int) : Nat × Flags :=
  let hi : Int := if signed then 2 ^ (w - 1) - 1 else 2 ^ w - 1
  let lo : Int := if signed then -(2 ^ (w - 1)) else 0
  if sat && x > hi then ((hi % 2 ^ w).toNat, Flag.sat)
  else if sat && x < lo then ((lo % 2 ^ w).toNat, Flag.sat)
  else ((x % 2 ^ w).toNat, 0)

/-- The integer arithmetic of R180: opcodes 0x20 to 0x29. -/
def intArith (opc : Nat) (signed : Bool) (w : Nat) (sat : Bool) (x y z : Nat) : Nat × Flags :=
  let a := intOfBits signed w x
  let b := intOfBits signed w y
  let c := intOfBits signed w z
  match opc with
  | 0x20 => intWrite signed w sat (a + b)
  | 0x21 => intWrite signed w sat (a - b)
  | 0x22 => intWrite signed w sat (a * b)
  | 0x23 => intWrite signed w false (intOfBits true w x * intOfBits true w y / 2 ^ w)
  | 0x24 => (x * y / 2 ^ w, 0)
  | 0x25 => intWrite signed w false (min a b)
  | 0x26 => intWrite signed w false (max a b)
  | 0x27 => intWrite signed w sat a.natAbs
  | 0x28 => intWrite signed w sat (0 - a)
  | _ => intWrite signed w sat (a * b + c)

/-- The count of 1 bits. -/
def popCount : Nat → Nat → Nat
  | 0, _ => 0
  | n + 1, v => v % 2 + popCount n (v / 2)

/-- The bit operations of R181: opcodes 0x2A to 0x33. -/
def bitOp (opc w x y : Nat) : Nat :=
  let s := y % w
  match opc with
  | 0x2A => x * 2 ^ s % 2 ^ w
  | 0x2B => x / 2 ^ s
  | 0x2C => (intOfBits true w x / 2 ^ s % 2 ^ w).toNat
  | 0x2D => x &&& y
  | 0x2E => x ||| y
  | 0x2F => x ^^^ y
  | 0x30 => x &&& (2 ^ w - 1 - y)
  | 0x31 => 2 ^ w - 1 - x
  | 0x32 => popCount w x
  | _ => if x = 0 then w else w - 1 - x.log2

/-! ### Element-moving operations (R168, R179, R183, R190, R191) -/

/-- Where a result element comes from: which operand (A or B) and which element; none for zero bits that draw on nothing. -/
abbrev Pick := Option (Bool × Nat)

/-- The lane word that a pick draws on, if present. -/
def pickLane (x : PeIn) (win : Nat) (p : Pick) : Option Word :=
  match p with
  | none => none
  | some (b, e) => laneOf (if b then x.b else x.a) (e / (64 / win))

/-- Moves elements: result element q from pick q, converted; a lane word is present when one it draws on is (R168). Each element
converted in an enabled lane word takes a draw, one read from an absent lane word too (R172), and one filled with zero bits takes
none: the model's choice (log entry 78). -/
def moveElems (x : PeIn) (win wout count : Nat) (conv : Rounding → Nat → Nat × Flags) (picks : List Pick) :
    List Nat → Draws → Lanes × Draws
  | [], d => ([], d)
  | j :: js, d =>
    let n := 64 / wout
    let part := (picks.drop (n * j)).take n
    if lget false x.en j && part.any (fun p => (pickLane x win p).isSome) then
      let (vs, d) := part.foldl (fun (acc : List Nat × Draws) p =>
        match p, pickLane x win p with
        | some (b, e), some _ =>
          let d := x.op.draw acc.2
          let (v, fl) := conv (x.op.rounding (genDraw d.gen)) (elemOf (if b then x.b else x.a) win e)
          (acc.1 ++ [v], d.raise fl)
        | some _, none => (acc.1 ++ [0], x.op.draw acc.2)
        | none, _ => (acc.1 ++ [0], acc.2)) ([], d)
      let (ls, d) := moveElems x win wout count conv picks js d
      (some (BitVec.ofNat 64 (joinLane wout vs)) :: ls, d)
    else
      let (ls, d) := moveElems x win wout count conv picks js d
      (none :: ls, d)

/-- A move that copies bits. -/
def copyElems (x : PeIn) (win wout count : Nat) (picks : List Pick) (d : Draws) : PeOut × Draws :=
  let (ls, d) := moveElems x win wout count (fun _ v => (v, 0)) picks [0, 1, 2, 3] d
  ({ lanes := ls, count := count }, d)

/-- `cvt` of one element from the format `src` to the format `dst` (R182). -/
def convertElem (src dst : BitVec 4) (r : Rounding) (x : Nat) : Nat × Flags :=
  let wd := widthOfCode dst
  if src = dst then
    match fmtOfCode src with
    | some f => f.convert { r with sat := false } (f.decode r.ftzi x)
    | none => (x, 0)
  else
    match fmtOfCode src, fmtOfCode dst with
    | some f, some g => g.convert r (f.decode r.ftzi x)
    | some f, none => toInteger (signedCode dst) wd r (f.decode r.ftzi x)
    | none, some g => g.convert r (valOfInt (intOfBits (signedCode src) (widthOfCode src) x))
    | none, none => intWrite (signedCode dst) wd r.sat (intOfBits (signedCode src) (widthOfCode src) x)

/-- The picks of `cvt` (R183). -/
def cvtPicks (ws wd part : Nat) : List Pick :=
  let ns := 256 / ws
  let nd := 256 / wd
  if wd ≤ ws then (List.range nd).map fun q => if q < ns then some (false, q) else none
  else (List.range nd).map fun q => some (false, part * nd + q)

/-- The result count of `cvt`: 1 more than the highest lane word that draws on a source lane word below the count. -/
def cvtCount (ws wd k : Nat) (picks : List Pick) : Nat :=
  1 + ([0, 1, 2, 3]).foldl (fun m j =>
    if ((picks.drop (64 / wd * j)).take (64 / wd)).any (fun p =>
      match p with | some (_, e) => e / (64 / ws) < k | none => false) then j else m) 0

/-- The picks of `shuf` (R190). -/
def shufPicks (mode w : Nat) : List Pick :=
  let n := 256 / w
  let h := n / 2
  (List.range n).map fun e => some (
    match mode with
    | 0 => (e % 2 = 1, e / 2)
    | 1 => (e % 2 = 1, h + e / 2)
    | 2 => (e ≥ h, 2 * (e % h))
    | _ => (e ≥ h, 2 * (e % h) + 1))

/-! ### Pleat operations (R185-R188) -/

/-- Magnitude width and format code of FMT of R170. -/
def plFmt (imm : BitVec 16) : Nat × BitVec 4 :=
  match (imm.extractLsb' 0 2).toNat with
  | 0 => (2, 1) | 1 => (4, 2) | _ => (7, 3)

/-- The lane words that a padded block occupies (R185). -/
def plWords (m : Nat) : Nat := if m = 2 then 1 else if m = 4 then 2 else 3

/-- Lane words of a number, as far as enabled. -/
def lanesOfNat (en : List Bool) (n v : Nat) : Lanes :=
  ([0, 1, 2, 3]).map fun i => if i < n && lget false en i then some (BitVec.ofNat 64 (v / 2 ^ (64 * i))) else none

/-- The block at the start of an operand, if all its lane words are present. -/
def blockOf (o : Lanes) (n : Nat) : Option Nat :=
  (List.range n).foldr (fun i acc =>
    match laneOf o i, acc with
    | some v, some x => some (v.toNat + 2 ^ 64 * x)
    | _, _ => none) (some 0)

/-- `plpack` (R186). -/
def plpackOp (x : PeIn) (d : Draws) : PeOut × Draws :=
  let (m, _) := plFmt x.op.imm
  let present := x.a.any Option.isSome && (x.en.take (plWords m)).any id
  let f := match fmtOfCode x.op.type with | some f => f | none => Fmt.fp16
  let vals := (List.range 16).map fun e => f.decode x.op.ftzi (elemOf x.a 16 e)
  if present then
    let (b, d) := plPack (x.op.rounding 0) m vals d
    ({ lanes := lanesOfNat x.en (plWords m) b, count := plWords m }, d)
  else ({ lanes := [none, none, none, none], count := plWords m }, d)

/-- `plunpk`, `plexp`, `plmant` (R187, R188). -/
def plReadOp (x : PeIn) (d : Draws) : PeOut × Draws :=
  let (m, fmt) := plFmt x.op.imm
  match blockOf x.a (plWords m) with
  | none => ({ lanes := [none, none, none, none], count := 4 }, d)
  | some b =>
    let cells := cellsOf fmt b 16
    let cell := fun i => lget { bits := 0 } cells i
    let fp32 := fun (v : Val) => Fmt.fp32.convert { ftzo := x.op.ftzo } v
    let (w, vs) : Nat × List (Nat × Flags) :=
      match x.op.opc with
      | 0x41 =>
        let half := if x.op.imm.getLsbD 2 then 8 else 0
        (32, (rangeFrom half 8).map fun i => fp32 (cellVal fmt (cell i)))
      | 0x42 =>
        (32, (List.range 8).map fun i =>
          if i ≥ 4 then (0, 0)
          else
            let c := cell (4 * i)
            if c.exp = 255 then (Fmt.fp32.nan, 0)
            else Fmt.fp32.convert {} (.fin false 1 ((c.exp.toNat : Int) - 127 - c.tuck.toNat - (m - 1))))
      | _ =>
        let f := match fmtOfCode x.op.type with | some f => f | none => Fmt.fp16
        (16, (List.range 16).map fun i =>
          let c := cell i
          let mag := c.bits.toNat % 2 ^ m
          if mag = 0 then (0, 0) else f.convert {} (.fin (c.bits.getLsbD m) mag 0))
    let n := 64 / w
    let lane := fun i => some (BitVec.ofNat 64 (joinLane w (((vs.drop (n * i)).take n).map Prod.fst)))
    let on := fun i => lget false x.en i
    let fl := ([0, 1, 2, 3]).foldl (fun f i =>
      if on i then ((vs.drop (n * i)).take n).foldl (fun f v => f ||| v.2) f else f) (0 : Flags)
    ({ lanes := ([0, 1, 2, 3]).map fun i => if on i then lane i else none, count := 4 }, d.raise fl)

/-! ### Reductions (R189) -/

/-- The reduction of elements. -/
def reduceElems (p : PeOp) (r : Rounding) (es : List Nat) : Nat × Flags :=
  let w := widthOfCode p.type
  if p.opc = 0x4B then (es.foldl (· ||| ·) 0, 0)
  else
    match fmtOfCode p.type with
    | none =>
      let s := signedCode p.type
      let is := es.map (intOfBits s w)
      if p.opc = 0x48 then intWrite s w false (is.foldl (· + ·) 0)
      else
        match is with
        | [] => (0, 0)
        | i :: rest => intWrite s w false (rest.foldl (fun a b => if p.opc = 0x49 then max a b else min a b) i)
    | some f =>
      if p.opc = 0x48 then
        let vs := es.map (f.decode r.ftzi)
        if vs.any Val.isNan then (f.nan, raiseIf (vs.any Val.isSnan) Flag.nv)
        else
          match sumOf (r.rnd = .rdn) vs with
          | none => f.invalid
          | some v => f.deliver r { val := v }
      else
        match es with
        | [] => (0, 0)
        | e :: rest =>
          let first : Nat × Flags := if rest.isEmpty then minMax (p.opc = 0x49) f r e e else (e, 0)
          rest.foldl (fun a b => let (v, fl) := minMax (p.opc = 0x49) f r a.1 b; (v, a.2 ||| fl)) first

/-- `radd`, `rmax`, `rmin`, `ror` (R189). -/
def reduceOp (x : PeIn) (d : Draws) : PeOut × Draws :=
  let w := widthOfCode x.op.type
  let n := 64 / w
  let elems := fun i => (rangeFrom (n * i) n).map (elemOf x.a w)
  let one := fun (es : List Nat) (d : Draws) =>
    let d := x.op.draw d
    let (v, fl) := reduceElems x.op (x.op.rounding (genDraw d.gen)) es
    (BitVec.ofNat 64 v, d.raise fl)
  let present := ([0, 1, 2, 3]).filter fun i => (laneOf x.a i).isSome
  if x.op.imm.getLsbD 0 then
    if lget false x.en 0 && !present.isEmpty then
      let (v, d) := one (present.flatMap elems) d
      ({ lanes := [some v, none, none, none], count := 1 }, d)
    else ({ lanes := [none, none, none, none], count := 1 }, d)
  else
    let (ls, d) := ([0, 1, 2, 3]).foldl (fun (acc : Lanes × Draws) i =>
      if lget false x.en i && present.contains i then
        let (v, d) := one (elems i) acc.2
        (acc.1 ++ [some v], d)
      else (acc.1 ++ [none], acc.2)) ([], d)
    ({ lanes := ls, count := x.count }, d)

/-! ### Four-of-eight (R192-R194) -/

/-- How `pk48` ranks the bits of an element: NaN, then infinity, then magnitude. -/
def rank48 (t : BitVec 4) (b : Nat) : Nat :=
  match fmtOfCode t with
  | some f =>
    if (f.decode false b).isNan then 2 ^ f.width else b % 2 ^ (f.width - 1)
  | none => (intOfBits (signedCode t) (widthOfCode t) b).natAbs

/-- The positions of a group of eight that `pk48` keeps, in order. -/
def kept48 (ranks : List Nat) : List Nat :=
  (List.range 8).filter fun b =>
    ((List.range 8).filter fun o => lget 0 ranks o > lget 0 ranks b || (lget 0 ranks o = lget 0 ranks b && o < b)).length < 4

/-- `pk48` (R192). -/
def pk48Op (x : PeIn) (d : Draws) : PeOut × Draws :=
  let w := widthOfCode x.op.type
  let groups := 32 / w
  let kept := (List.range groups).map fun g =>
    let es := (rangeFrom (8 * g) 8).map (elemOf x.a w)
    (es, kept48 (es.map (rank48 x.op.type)))
  let vals := kept.flatMap fun k => k.2.map fun b => lget 0 k.1 b
  let masks := joinLane 8 (kept.map fun k => k.2.foldl (fun m b => m + 2 ^ b) 0)
  let n := 64 / w
  let present := x.a.any Option.isSome
  let words := [joinLane w (vals.take n), joinLane w (vals.drop n), masks]
  ({ lanes := (([0, 1, 2]).map fun i =>
        if present && lget false x.en i then some (BitVec.ofNat 64 (lget 0 words i)) else none) ++ [none]
     count := 3 }, d)

/-- One group of `spdot`: the sum of the four products. -/
def spdotGroup (p : PeOp) (r : Rounding) (ps : List (Nat × Nat)) : Nat × Flags :=
  let w := widthOfCode p.type
  match fmtOfCode p.type with
  | none =>
    let s := signedCode p.type
    let sum := ps.foldl (fun (a : Int) q => a + intOfBits s w q.1 * intOfBits s w q.2) 0
    ((sum % 2 ^ 32).toNat, 0)
  | some f =>
    let vs := ps.map fun q => (f.decode false q.1, f.decode false q.2)
    if vs.any (fun v => v.1.isNan || v.2.isNan) then
      (Fmt.fp32.nan, raiseIf (vs.any fun v => v.1.isSnan || v.2.isSnan) Flag.nv)
    else if vs.any (fun v => (productOf v.1 v.2).isNone) then Fmt.fp32.invalid
    else
      match sumOf (r.rnd = .rdn) (vs.map fun v => exactProduct v.1 v.2) with
      | none => Fmt.fp32.invalid
      | some v => Fmt.fp32.deliver r { val := v }

/-- `spdot` (R193). -/
def spdotOp (x : PeIn) (d : Draws) : PeOut × Draws :=
  let w := widthOfCode x.op.type
  let n := 64 / w
  let groups := 32 / w
  let mask := fun (g : Nat) => match laneOf x.c 2 with | some v => v.toNat / 2 ^ (8 * g) % 256 | none => 0
  let live := fun (g : Nat) =>
    lget false x.en (g / 2) && (laneOf x.c 2).isSome
      && (List.range 4).all (fun j => (laneOf x.a ((4 * g + j) / n)).isSome)
      && (List.range 8).all (fun j => (laneOf x.b ((8 * g + j) / n)).isSome)
  let count := (groups + 1) / 2
  match lfind (fun g => live g && popCount 8 (mask g) ≠ 4) (List.range groups) with
  | some g =>
    ({ lanes := [none, none, none, none], count := count
       fault := some (BitVec.ofNat 64 (x.pe * 256 + mask g)) }, d)
  | none =>
    let (vs, d) := (List.range groups).foldl (fun (acc : List Nat × Draws) g =>
      if live g then
        let d := x.op.draw acc.2
        let bs := (List.range 8).filter fun b => (mask g).testBit b
        let ps := (bs.zip (List.range 4)).map fun q => (elemOf x.a w (4 * g + q.2), elemOf x.b w (8 * g + q.1))
        let (v, fl) := spdotGroup x.op (x.op.rounding (genDraw d.gen)) ps
        (acc.1 ++ [v], d.raise fl)
      else (acc.1 ++ [0], acc.2)) ([], d)
    let drawn := fun (i : Nat) => (List.range groups).any fun g => g / 2 = i && ((laneOf x.c 2).isSome
      || (List.range 4).any (fun j => (laneOf x.a ((4 * g + j) / n)).isSome)
      || (List.range 8).any (fun j => (laneOf x.b ((8 * g + j) / n)).isSome))
    ({ lanes := ([0, 1, 2, 3]).map fun i =>
        if i < count && lget false x.en i && drawn i then
          some (BitVec.ofNat 64 (joinLane 32 ((vs.drop (2 * i)).take 2))) else none
       count := count }, d)

/-! ### Special functions (R195, R196) -/

/-- What a special function gives for an infinity or a zero (R196); none where R195 applies. -/
def specialEdge (opc : Nat) (v : Val) : Option Exact :=
  let bad : Exact := { val := .nan false, flags := Flag.nv }
  let one : Exact := { val := .fin false 1 0 }
  match v with
  | .inf n =>
    some (match opc with
      | 0x58 => { val := .zero n }
      | 0x59 => if n then bad else { val := .zero false }
      | 0x5A => if n then { val := .zero false } else { val := .inf false }
      | 0x5B => if n then bad else { val := .inf false }
      | 0x5E => { val := .fin n 1 0 }
      | 0x5F => if n then { val := .zero false } else one
      | _ => bad)
  | .zero n =>
    let pole : Flags := Flag.dz ||| Flag.nf
    some (match opc with
      | 0x58 | 0x59 => { val := .inf n, flags := pole }
      | 0x5A | 0x5D => one
      | 0x5B => { val := .inf true, flags := pole }
      | 0x5F => { val := .fin false 1 (-1) }
      | _ => { val := .zero n })
  | .fin n _ _ =>
    if n && (opc = 0x59 || opc = 0x5B) then some { bad with flags := Flag.nv ||| Flag.nf } else none
  | .nan s => some { val := .nan false, flags := raiseIf s Flag.nv }

/-- The exact result of a special function where it is ± a power of two or an integer (R195). -/
def specialExact (opc : Nat) (v : Val) : Option Val :=
  match v with
  | .fin n m e =>
    let lg : Int := (m.log2 : Int) + e
    let pow2 : Bool := m = 2 ^ m.log2
    match opc with
    | 0x58 => if pow2 then some (.fin n 1 (-lg)) else none
    | 0x59 => if pow2 && lg % 2 = 0 then some (.fin false 1 (-(lg / 2))) else none
    | 0x5A =>
      if e ≥ 0 || m % 2 ^ (-e).toNat = 0 then
        let i : Int := if e ≥ 0 then m * 2 ^ (min e 12).toNat else m / 2 ^ (-e).toNat
        some (.fin false 1 (if n then -i else i))
      else none
    | 0x5B => if pow2 then some (if lg = 0 then .zero false else .fin (lg < 0) lg.natAbs 0) else none
    | _ => none
  | _ => none

/-- Whether the exact result lies at or above twice the largest power of two of the format: overflow whatever the bound. -/
def specialOver (opc : Nat) (f : Fmt) (v : Val) : Bool :=
  match v with
  | .fin n m e =>
    match opc with
    | 0x58 =>
      -- |x| <= 2^-(emax + 1)
      let k : Int := e + f.emax + 1
      if k ≥ 0 then false else m ≤ 2 ^ (-k).toNat
    | 0x5A => !n && (if e ≥ 0 then m * 2 ^ (min e 12).toNat ≥ (f.emax + 1).toNat else m ≥ (f.emax + 1).toNat * 2 ^ (-e).toNat)
    | _ => false
  | _ => false

/-- A special function on one element (R195, R196). Outside its exact and special cases the value is free among those that its
bound allows (log entry 5), and the flags follow from the value. -/
def specialOp (opc : Nat) (type : BitVec 4) (f : Fmt) (rnd : BitVec 3) (r : Rounding) (x : Nat) : Nat × Flags :=
  let v := f.decode r.ftzi x
  match specialEdge opc v with
  | some e => f.deliver r e
  | none =>
    let normal := fun (e : Val) => match e with
      | .fin _ m k => f.emin ≤ (m.log2 : Int) + k && (m.log2 : Int) + k ≤ f.emax
      | _ => true
    match specialExact opc v with
    | some e =>
      if normal e then f.deliver r { val := e }
      else if specialOver opc f v then f.overflow r v.neg
      else free v
    | none => if specialOver opc f v then f.overflow r v.neg else free v
where
  /-- The free value with its flags: one of the values that the bound allows, picked by the free function; under SR two neighbours
  and the discarded part between them, which the draw of R44 decides by. -/
  free (v : Val) : Nat × Flags :=
    let pick := (Config.special opc type rnd r.ftzi r.ftzo (BitVec.ofNat 64 (f.convert {} v).1)).toNat
    match v with
    | .fin n m e =>
      let x := enclose opc n m e
      let (first, count) := f.within x (specialBound opc f)
      let draws : Bool := r.rnd = .sr && count > 1
      let up : Bool := draws && pick % 2 ^ 24 + r.draw ≥ 2 ^ 24
      let k := first + ((if draws then pick / 2 ^ 24 % (count - 1) else pick % count) + (if up then 1 else 0) : Nat)
      let neg := x.neg != (k < 0)
      let sign := if neg then 2 ^ (f.width - 1) else 0
      if k.natAbs ≥ f.inf false then f.overflow r neg
      else if k.natAbs < 2 ^ f.mbits then (if r.ftzo then sign else sign + k.natAbs, Flag.uf ||| Flag.nx)
      else (sign + k.natAbs, Flag.nx)
    | _ => (f.nan, 0)

/-! ### One operation -/

/-- What an operation of R69 computes; `live` says that its stage is enabled. -/
def peCompute (x : PeIn) (live : Bool) (d : Draws) : PeOut × Draws :=
  let p := x.op
  let w := widthOfCode p.type
  let s := signedCode p.type
  let none4 : PeOut := { lanes := [none, none, none, none], count := x.count }
  if isCompare p.opc then compareOp x live d
  else if p.opc = 0 then (none4, d)
  else if p.opc = 0x18 then
    copyElems x 64 64 x.count (([0, 1, 2, 3]).map fun i => some (!x.tokens.getLsbD i, i)) d
  else if p.opc = 0x19 then copyElems x 64 64 x.count (([0, 1, 2, 3]).map fun i => some (false, i)) d
  else if 0x20 ≤ p.opc && p.opc ≤ 0x29 then elementWise x (fun _ a b c => intArith p.opc s w p.sat a b c) d
  else if 0x2A ≤ p.opc && p.opc ≤ 0x33 then elementWise x (fun _ a b _ => (bitOp p.opc w a b, 0)) d
  else
    match p.opc with
    | 0x38 =>
      let src : BitVec 4 := p.imm.extractLsb' 0 4
      let ws := widthOfCode src
      let picks := cvtPicks ws w (p.imm.extractLsb' 4 4).toNat
      let (ls, d) := moveElems x ws w x.count (convertElem src p.type) picks [0, 1, 2, 3] d
      ({ lanes := ls, count := cvtCount ws w x.count picks }, d)
    | 0x40 => plpackOp x d
    | 0x41 | 0x42 | 0x43 => plReadOp x d
    | 0x48 | 0x49 | 0x4A | 0x4B => reduceOp x d
    | 0x4C =>
      copyElems x 64 64 4 (([0, 1, 2, 3]).map fun j => some (false, (p.imm.extractLsb' (2 * j) 2).toNat)) d
    | 0x4D => copyElems x w w 4 (shufPicks (p.imm.extractLsb' 0 2).toNat w) d
    | 0x4E =>
      let (ls, d) := moveElems x (2 * w) w x.count (fun _ v => intWrite s w p.sat (intOfBits s (2 * w) v))
        ((List.range (256 / w)).map fun q => if q < 128 / w then some (false, q) else none) [0, 1, 2, 3] d
      ({ lanes := ls, count := (x.count + 1) / 2 }, d)
    | 0x4F =>
      let h := w / 2
      let base := if p.imm.getLsbD 0 then 2 * (64 / h) else 0
      let (ls, d) := moveElems x h w 4 (fun _ v => intWrite s w false (intOfBits s h v))
        ((List.range (256 / w)).map fun q => some (false, base + q)) [0, 1, 2, 3] d
      ({ lanes := ls, count := 4 }, d)
    | 0x50 => pk48Op x d
    | 0x51 => spdotOp x d
    | opc =>
      match fmtOfCode p.type with
      | none => (none4, d)
      | some f =>
        if opc = 7 || opc = 8 then elementWise x (fun r a b _ => minMax (opc = 8) f r a b) d
        else if opc = 9 || opc = 0x0A || opc = 0x0D then elementWise x (fun r a b _ => signOp opc f r a b) d
        else if opc = 0x0E then elementWise x (fun r a _ _ => roundOp f r a) d
        else if opc = 0x0F then elementWise x (fun _ a _ _ => (classOp f a, 0)) d
        else if 0x58 ≤ opc then elementWise x (fun r a _ _ => specialOp opc p.type f p.rnd r a) d
        else elementWise x (fun r a b c => arith opc f r a b c) d

end Sys2Proof.Machine
end

