-- ==== Sys2Proof/Machine/CfgImage.lean ====
section
/-! DEFINITION. Configuration images: their words (R66-R69), the two passes of checks (R70, R169, R170, R174, R184), delay
balancing (R153), and the array state that a load sets (R26). -/

namespace Sys2Proof.Machine

open Sys2Proof

/-! ### Operation words (R68-R70) -/

/-- Whether an opcode is assigned (R69). -/
def opcAssigned (o : Nat) : Bool :=
  o ≤ 0x19 || (0x20 ≤ o && o ≤ 0x33) || o = 0x38 || (0x40 ≤ o && o ≤ 0x43) || (0x48 ≤ o && o ≤ 0x51)
    || (0x58 ≤ o && o ≤ 0x5F)

/-- Whether an operation uses RND. -/
def usesRnd (o : Nat) : Bool :=
  (1 ≤ o && o ≤ 6) || o = 0x0B || o = 0x0C || o = 0x0E || o = 0x38 || o = 0x40 || o = 0x48 || o = 0x51
    || (0x58 ≤ o && o ≤ 0x5F)

/-- Whether an operation uses the FTZ bits. -/
def usesFtz (o : Nat) : Bool :=
  (1 ≤ o && o ≤ 0x0C) || (0x10 ≤ o && o ≤ 0x13) || o = 0x38 || o = 0x40 || o = 0x41 || o = 0x48
    || (0x58 ≤ o && o ≤ 0x5F)

/-- Whether an operation uses SAT. -/
def usesSat (o : Nat) : Bool :=
  (1 ≤ o && o ≤ 6) || o = 0x0B || o = 0x0C || (0x20 ≤ o && o ≤ 0x22) || (0x27 ≤ o && o ≤ 0x29) || o = 0x38 || o = 0x40
    || o = 0x4E

/-- Whether a TYPE is in the operation's class and its further limits (R69, R174). -/
def typeAllowed (o t : Nat) : Bool :=
  if o = 0 then t = 0
  else if o ≤ 0x13 then t ≤ 3
  else if o ≤ 0x17 then 6 ≤ t
  else if o ≤ 0x19 then true
  else if o = 0x27 then t = 6 || t = 8 || t = 0xA || t = 0xC || t = 0xE
  else if o ≤ 0x33 then 6 ≤ t
  else if o = 0x38 then true
  else if o = 0x40 || o = 0x43 then t = 2 || t = 3
  else if o = 0x41 || o = 0x42 then t = 1
  else if o = 0x4E then 8 ≤ t
  else if o = 0x4F then 6 ≤ t && t ≤ 0xD
  else if o = 0x50 then (1 ≤ t && t ≤ 5) || 8 ≤ t
  else if o = 0x51 then (1 ≤ t && t ≤ 5) || 0xA ≤ t
  else if 0x58 ≤ o then 1 ≤ t && t ≤ 3
  else true

/-- The IMM bits that an operation uses as a control field (R170); none where IMM is a source value. -/
def immField (o : Nat) : Option Nat :=
  if isCompare o then some 0x3
  else if o = 0x38 then some 0xFF
  else if o = 0x40 || o = 0x42 || o = 0x43 then some 0x3
  else if o = 0x41 then some 0x7
  else if 0x48 ≤ o && o ≤ 0x4B then some 0x1
  else if o = 0x4C then some 0xFF
  else if o = 0x4D then some 0x3
  else if o = 0x4F then some 0x1
  else if o = 0x4E || o = 0x50 || o = 0x51 || o = 0 then some 0
  else none

/-- Whether the control field of IMM holds an allowed value (R170, R184). -/
def immAllowed (p : PeOp) : Bool :=
  let v := p.imm.toNat
  if isCompare p.opc then v % 4 < 3
  else if 0x40 ≤ p.opc && p.opc ≤ 0x43 then v % 4 < 3
  else if p.opc = 0x38 then
    let ws := widthOfCode (p.imm.extractLsb' 0 4)
    let wd := widthOfCode p.type
    let part := v / 16 % 16
    if wd ≤ ws then part = 0 else part < wd / ws
  else true

/-- A source selector in its role (R68, R170, R179, R193). -/
def srcAllowed (p : PeOp) (used isC : Bool) (sel : Nat) : Bool :=
  if !used then true
  else if isC && p.opc = 0x18 then 0x30 ≤ sel && sel ≤ 0x37
  else if isC && p.opc = 0x51 then 0x10 ≤ sel && sel ≤ 0x1F
  else if sel = 0x2C then (immField p.opc).isNone
  else sel ≤ 0x2B

/-- A destination selector in its role. -/
def dstAllowed (p : PeOp) : Bool :=
  if isCompare p.opc then 0x38 ≤ p.dst
  else if p.opc = 0 then true
  else p.dst < 0x10 || (0x20 ≤ p.dst && p.dst ≤ 0x2B) || p.dst = 0x2D

/-- The defects of an operation word in the first pass, lowest code first (R70). A `nop` with another DST than 0x2D or with GATE nonzero,
and a nonzero IMM that an operation has no use for, which no rule gives a code, are 0x402 (log entry 82). -/
def opDefect (w : Word) : Option (BitVec 12) :=
  let p := PeOp.ofWord w
  let (ua, ub, uc) := srcsUsed p.opc
  let anyImm := (ua && p.a = 0x2C) || (ub && p.b = 0x2C) || (uc && p.c = 0x2C)
  let t := p.type.toNat
  let immReserved := match immField p.opc with
    | some m => p.imm.toNat &&& (0xFFFF - m) ≠ 0
    | none => if anyImm then (t = 4 || t = 5) && p.imm.toNat ≥ 256 else p.imm ≠ 0
  if !opcAssigned p.opc then some 0x401
  else if (!usesRnd p.opc && p.rnd ≠ 0) || (!usesFtz p.opc && (p.ftzi || p.ftzo)) || (!usesSat p.opc && p.sat)
      || (!ua && p.a ≠ 0x2D) || (!ub && p.b ≠ 0x2D) || (!uc && p.c ≠ 0x2D) || immReserved
      || (p.opc = 0 && (p.dst ≠ 0x2D || p.gate ≠ 0)) then some 0x402
  else if p.rnd.toNat ≥ 6 then some 0x403
  else if !dstAllowed p || !srcAllowed p ua false p.a || !srcAllowed p ub false p.b || !srcAllowed p uc true p.c
      || !(p.gate = 0 || (8 ≤ p.gate && p.gate ≤ 15) || (0x30 ≤ p.gate && p.gate ≤ 0x37)) then some 0x404
  else if !typeAllowed p.opc t || !immAllowed p then some 0x40A
  else none

/-- Issue latency (R173). -/
def latency (p : PeOp) : Nat :=
  let o := p.opc
  if o = 0x38 || o = 7 || o = 8 || o = 0x0E || o = 0x4B || o = 0x49 || o = 0x4A then 2
  else if (0x22 ≤ o && o ≤ 0x24) || o = 0x29 || (0x40 ≤ o && o ≤ 0x43) || o = 0x50 then 3
  else if o = 0x48 then (if (fmtOfCode p.type).isSome then 4 else 3)
  else if 1 ≤ o && o ≤ 6 then 4
  else if o = 0x51 then 5
  else if 0x58 ≤ o then 8
  else if o = 0x0B || o = 0x0C then 14
  else 1

/-! ### Images (R66, R67) -/

/-- A CONST item: PE, target, first quarter, data words. -/
structure ConstItem where
  pe : Nat
  target : Nat
  first : Nat
  data : List Word
deriving DecidableEq, Repr

/-- An image as parsed: each link, delay item and operation with its word index. -/
structure CfgImage where
  id : BitVec 32 := 0
  links : List (Nat × Link) := []
  ports : NMap PortSt := []
  delays : List (Nat × Nat × Nat × Nat) := []
  consts : List ConstItem := []
  ctrls : List Ctrl := []
  groups : NMap Group := []
  pes : NMap (Nat × Nat × List Word) := []
deriving DecidableEq, Repr

/-- What the parser stands in. -/
inductive CfgMode
  | item
  | ops (pe : Nat) (left : Nat)
  | data (pe target first left : Nat)
deriving DecidableEq, Repr

/-- A field of a word. -/
def fld (w : Word) (hi lo : Nat) : Nat := w.toNat / 2 ^ lo % 2 ^ (hi + 1 - lo)

/-- A defect: its code and word index. -/
abbrev CfgDefect := BitVec 12 × Nat

/-- The first code whose test holds; the tests stand in rising order of code. -/
def firstCode (cs : List (Bool × BitVec 12)) : Option (BitVec 12) := (lfind Prod.fst cs).map Prod.snd

/-- The link that a LINK word gives. -/
def linkOfWord (w : Word) : Link :=
  { src := w.extractLsb' 50 6, dst := w.extractLsb' 44 6, side := w.extractLsb' 42 2, slots := fld w 41 37
    routed := w.getLsbD 36, hops := w.extractLsb' 20 16 }

/-- One item word of the first pass: the image and the mode after it, or its lowest defect. `left` counts the words that
follow. Which code a nonzero hop field of an unrouted LINK gives (0x402) and a second CTRL item at one port lane gate (0x404), and that an
image which ends inside a run is reported at the word that announces the run, is the model's choice (log entry 82). -/
def cfgItem (im : CfgImage) (i : Nat) (w : Word) (left : Nat) : Except CfgDefect (CfgImage × CfgMode) :=
  let fail := fun (cs : List (Bool × BitVec 12)) (ok : CfgImage × CfgMode) =>
    match firstCode cs with | some c => (.error (c, i) : Except CfgDefect (CfgImage × CfgMode)) | none => .ok ok
  match fld w 63 56 with
  | 0xE1 =>
    let l := linkOfWord w
    fail [(fld w 19 0 ≠ 0 || (!l.routed && l.hops ≠ 0), 0x402), (l.src ≥ 0x28 || l.dst ≥ 0x28, 0x404),
        (im.links.any (fun m => (l.src ≥ 0x20 && m.2.src = l.src) || (l.dst ≥ 0x20 && m.2.dst = l.dst)), 0x405),
        (l.slots > 16, 0x407)]
      ({ im with links := im.links ++ [(i, l)] }, .item)
  | 0xE2 =>
    let p := fld w 55 52
    fail [(fld w 37 0 ≠ 0, 0x402), ((nget? im.ports p).isSome, 0x405)]
      ({ im with ports := nset im.ports p {
        bound := true, sid := w.extractLsb' 43 9, fmt := w.extractLsb' 39 4, initGate := w.getLsbD 38
        gate := w.getLsbD 38 } }, .item)
  | 0xE3 =>
    fail [(fld w 42 0 ≠ 0, 0x402), (fld w 48 43 > 32, 0x407)]
      ({ im with delays := im.delays ++ [(i, fld w 55 51, fld w 50 49, fld w 48 43)] }, .item)
  | 0xE4 =>
    let tgt := fld w 50 46
    let first := fld w 45 44
    let n := fld w 43 42 + 1
    fail [(fld w 41 0 ≠ 0, 0x402),
        (tgt > 16 || first + n > 4 || (tgt = 16 && (first ≠ 0 || n ≠ 1)), 0x407), (left < n, 0x409)]
      ({ im with consts := im.consts ++ [{ pe := fld w 55 51, target := tgt, first := first, data := [] }] },
        .data (fld w 55 51) tgt first n)
  | 0xE5 =>
    let c : Ctrl := { src := w.extractLsb' 50 5, chan := w.extractLsb' 47 3, dst := w.extractLsb' 41 6
                      dchan := w.extractLsb' 38 3, slots := fld w 37 34 }
    let fed := im.ctrls.any fun d => d.dst = c.dst && (c.dst ≥ 0x20 || d.dchan = c.dchan)
    fail [(fld w 33 0 ≠ 0, 0x402), (fld w 55 50 ≥ 0x20 || c.dst ≥ 0x30 || fed, 0x404),
        (c.slots = 0 || c.slots > 8, 0x407)]
      ({ im with ctrls := im.ctrls ++ [c] }, .item)
  | 0xE6 =>
    let g := fld w 55 53
    let mask : BitVec 32 := w.extractLsb' 13 32
    fail [(fld w 12 0 ≠ 0, 0x402),
        ((nget? im.groups g).isSome || im.groups.any (fun h => h.2.mask &&& mask ≠ 0), 0x408)]
      ({ im with groups := nset im.groups g {
        mask := mask, ii := fld w 52 49 + 1, s := fld w 48 46 + 1, strict := w.getLsbD 45 } }, .item)
  | 0xE7 =>
    let pe := fld w 55 51
    let g := fld w 50 48
    let n := fld w 47 44 + 1
    let badGroup := match nget? im.groups g with
      | none => true
      | some h => !h.mask.getLsbD pe || n > h.ii || (nget? im.pes pe).isSome
    fail [(fld w 43 0 ≠ 0, 0x402), (badGroup, 0x408), (left < n, 0x409)]
      ({ im with pes := nset im.pes pe (g, i + 1, []) }, .ops pe n)
  | _ => .error (0x401, i)

/-- The first pass over the words after word 0 (R70). -/
def cfgScan : List Word → Nat → CfgMode → CfgImage → Except CfgDefect CfgImage
  | [], _, _, im => .ok im
  | w :: ws, i, mode, im =>
    match mode with
    | .item =>
      match cfgItem im i w ws.length with
      | .error d => .error d
      | .ok (im, m) => cfgScan ws (i + 1) m im
    | .ops pe left =>
      match opDefect w with
      | some c => .error (c, i)
      | none =>
        let im := { im with pes := nmod (0, 0, []) im.pes pe fun e => (e.1, e.2.1, e.2.2 ++ [w]) }
        cfgScan ws (i + 1) (if left = 1 then .item else .ops pe (left - 1)) im
    | .data pe tgt first left =>
      if tgt = 16 && fld w 63 32 ≠ 0 then .error (0x407, i)
      else
        let im := { im with consts := match im.consts.reverse with
          | c :: cs => (({ c with data := c.data ++ [w] } : ConstItem) :: cs).reverse
          | [] => [] }
        cfgScan ws (i + 1) (if left = 1 then .item else .data pe tgt first (left - 1)) im

/-- The first pass (R66, R70). -/
def cfgFirst (bytes : Nat) (ws : List Word) : Except CfgDefect CfgImage :=
  match ws with
  | [] => .error (0x409, 0)
  | w :: rest =>
    if fld w 63 56 ≠ 0xE0 || fld w 39 32 ≠ 1 then .error (0x401, 0)
    else if bytes % 8 ≠ 0 || fld w 55 40 = 0 || fld w 55 40 ≠ rest.length then .error (0x409, 0)
    else cfgScan rest 1 .item { id := w.extractLsb' 0 32 }

/-! ### Geometry (R67, R152) -/

/-- The PE one hop away, sides 0 N, 1 E, 2 S, 3 W; none outside the 4 × 8 array. -/
def hopTo (pe dir : Nat) : Option Nat :=
  match dir with
  | 0 => if pe ≥ 8 then some (pe - 8) else none
  | 1 => if pe % 8 < 7 then some (pe + 1) else none
  | 2 => if pe < 24 then some (pe + 8) else none
  | _ => if pe % 8 > 0 then some (pe - 1) else none

/-- The direction of a neighbour. -/
def dirTo (a b : Nat) : Option Nat := lfind (fun d => hopTo a d = some b) [0, 1, 2, 3]

/-- The route of a link between PEs: its hops up to the first arrival, where every later hop field is 0. -/
def routeFrom (dst : Nat) : Nat → Nat → Nat → Option (List Nat)
  | 0, _, _ => none
  | fuel + 1, pe, hops =>
    match hopTo pe (hops % 4) with
    | none => none
    | some q =>
      if q = dst then (if hops / 4 = 0 then some [hops % 4] else none)
      else (routeFrom dst fuel q (hops / 4)).map fun l => hops % 4 :: l

/-- The hops of a link between PEs. -/
def Link.path (l : Link) : Option (List Nat) :=
  if l.routed then routeFrom l.dst.toNat 8 l.src.toNat l.hops.toNat
  else (dirTo l.src.toNat l.dst.toNat).map fun d => [d]

/-- Whether a link has a port at an end. -/
def Link.atPort (l : Link) : Bool := l.src ≥ 0x20 || l.dst ≥ 0x20

/-- The hop count of a link. -/
def Link.hopCount (l : Link) : Nat := if l.atPort then 1 else match l.path with | some p => p.length | none => 1

/-- The side at which a link leaves its source PE. -/
def Link.leaves (l : Link) : Option Nat :=
  if l.src ≥ 0x20 || l.dst ≥ 0x20 then none
  else if l.routed then some (l.hops.toNat % 4)
  else dirTo l.src.toNat l.dst.toNat

/-- Whether a link is what a PE's source selector 0x20-0x2B names (R152). -/
def Link.isSource (l : Link) (pe sel : Nat) : Bool :=
  l.dst.toNat = pe && (if sel < 0x28 then l.src.toNat = sel else l.src < 0x20 && l.side.toNat = sel - 0x28)

/-- Whether a link is what a PE's destination selector 0x20-0x2B names. -/
def Link.isDest (l : Link) (pe sel : Nat) : Bool :=
  l.src.toNat = pe && (if sel < 0x28 then l.dst.toNat = sel else l.leaves = some (sel - 0x28))

/-- The first link of a list, keyed, that a test accepts. Of two links at one side of a PE, a routed one and a neighbour's, R152 does not
say which a selector names: it is the first of the image (DESIGN CHOICE, log entry 84). -/
def findLink (ls : NMap Link) (p : Link → Bool) : Option Nat := (lfind (fun l => p l.2) ls).map Prod.fst

/-- The used source selectors of an operation. -/
def PeOp.sources (p : PeOp) : List Nat :=
  let (ua, ub, uc) := srcsUsed p.opc
  (if ua then [p.a] else []) ++ (if ub then [p.b] else []) ++ (if uc then [p.c] else [])

/-- Whether a selector names a data input. -/
def isInput (sel : Nat) : Bool := 0x20 ≤ sel && sel ≤ 0x2B

/-! ### The second pass (R70, R152, R153) -/

/-- Every operation of an image: word index, PE, slot, operation. -/
def CfgImage.ops (im : CfgImage) : List (Nat × Nat × Nat × PeOp) :=
  im.pes.flatMap fun e =>
    ((e.2.2.2.zip (List.range 16)).map fun p => (e.2.2.1 + p.2, e.1, p.2, PeOp.ofWord p.1))

/-- Whether a path of zero-slot links leads from one PE to another. -/
def zeroPath (ls : List (Nat × Link)) (dst : Nat) : Nat → Nat → Bool
  | 0, _ => false
  | fuel + 1, pe =>
    pe = dst || ls.any fun l =>
      l.2.slots = 0 && !l.2.atPort && l.2.src.toNat = pe && zeroPath ls dst fuel l.2.dst.toNat

/-- The largest of optional offsets. -/
def omax (a b : Option Nat) : Option Nat :=
  match a, b with
  | some x, some y => some (max x y)
  | some x, none => some x
  | none, y => y

mutual
/-- The arrival offset of a link (R153): the longest path from an input port, not through the operations of `seen`. -/
def arrival (im : CfgImage) : Nat → List (Nat × Nat) → Link → Option Nat
  | 0, _, _ => none
  | fuel + 1, seen, l =>
    if l.src ≥ 0x20 then some (l.hopCount + 1)
    else
      let pe := l.src.toNat
      let ops := match nget? im.pes pe with | some e => e.2.2.map PeOp.ofWord | none => []
      let best := (ops.zip (List.range 16)).foldl (fun m p =>
        if isInput p.1.dst && l.isDest pe p.1.dst then omax m (resultAt im fuel seen pe p.2) else m) none
      best.map (· + l.hopCount + 1)
/-- The offset at which the operation of a slot gives its result. -/
def resultAt (im : CfgImage) : Nat → List (Nat × Nat) → Nat → Nat → Option Nat
  | 0, _, _, _ => none
  | fuel + 1, seen, pe, slot =>
    if seen.contains (pe, slot) then none
    else
      let ops := match nget? im.pes pe with | some e => e.2.2.map PeOp.ofWord | none => []
      match ops[slot]? with
      | none => none
      | some p =>
        let seen := (pe, slot) :: seen
        let t := p.sources.foldl (fun m sel =>
          if sel < 16 then
            match lfind (fun j => match ops[j]? with | some q => !isCompare q.opc && q.dst = sel | none => false)
                (List.range slot).reverse with
            | some j => omax m (resultAt im fuel seen pe j)
            | none => m
          else if isInput sel then
            match lfind (fun l => l.2.isSource pe sel) im.links with
            | some l => omax m (arrival im fuel seen l.2)
            | none => m
          else m) none
        t.map (· + latency p)
end

/-- What balancing asks of one receiving side: PE, side, entries, the words involved. -/
structure Need where
  pe : Nat
  side : Nat
  depth : Nat
  words : List Nat
deriving DecidableEq, Repr

/-- The entries that one operation needs on its inputs (R153); a path round a loop back to the operation is not followed. An input that
no input port reaches has no arrival offset in R153: it takes no part in L and needs no buffer (DESIGN CHOICE, log entry 84). -/
def opNeeds (im : CfgImage) (idx pe slot : Nat) (p : PeOp) : List Need :=
  let ins := ((p.sources.filter isInput).filterMap fun sel =>
    lfind (fun l => l.2.isSource pe sel) im.links).eraseDups
  let group := match nget? im.pes pe with | some e => nget? im.groups e.1 | none => none
  match group with
  | none => []
  | some g =>
    let never := 8 ≤ p.gate && p.gate ≤ 15 && p.gate - 8 ≥ g.s
    if ins.length < 2 || never then []
    else
      let offs := ins.filterMap fun l => (arrival im 1100 [(pe, slot)] l.2).map fun a => (l, a)
      let top := offs.foldl (fun m o => max m o.2) 0
      offs.map fun o =>
        { pe := pe, side := o.1.2.side.toNat, depth := (top - o.2 + g.ii - 1) / g.ii, words := [idx, o.1.1] }

/-- The depths that balancing gives the receiving sides, the largest of each, with the words involved. -/
def mergeNeeds : List Need → List Need → List Need
  | acc, [] => acc
  | acc, n :: ns =>
    let same := fun (m : Need) => m.pe = n.pe && m.side = n.side
    if acc.any same then
      mergeNeeds (lmod same (fun (m : Need) => { m with depth := max m.depth n.depth, words := m.words ++ n.words }) acc) ns
    else mergeNeeds (acc ++ [n]) ns

/-- The delay-buffer depths of an image: DELAY items and balancing, summed a side. -/
def CfgImage.depths (im : CfgImage) : List Need :=
  let auto := mergeNeeds [] (im.ops.flatMap fun o => opNeeds im o.1 o.2.1 o.2.2.1 o.2.2.2)
  im.delays.foldl (fun (acc : List Need) d =>
    let (i, pe, side, n) := d
    let same := fun (m : Need) => m.pe = pe && m.side = side
    if acc.any same then
      lmod same (fun (m : Need) => { m with depth := m.depth + n, words := m.words ++ [i] }) acc
    else acc ++ [{ pe := pe, side := side, depth := n, words := [i] }]) auto

/-- The least of a list of numbers. -/
def leastOf : List Nat → Nat
  | [] => 0
  | a :: t => t.foldl min a

/-- The defects of the second pass. -/
def cfgSecond (im : CfgImage) : List CfgDefect :=
  let sel := im.ops.flatMap fun o =>
    let (i, pe, _, p) := o
    let src := p.sources.any fun c => isInput c && !(im.links.any fun l => l.2.isSource pe c)
    let dst := !isCompare p.opc && isInput p.dst && !(im.links.any fun l => l.2.isDest pe p.dst)
    if src || dst then [((0x404 : BitVec 12), i)] else []
  let loops := im.links.flatMap fun l =>
    if l.2.slots = 0 && !l.2.atPort && zeroPath im.links l.2.src.toNat 33 l.2.dst.toNat then [((0x406 : BitVec 12), l.1)]
    else []
  let routes := im.links.flatMap fun l =>
    let bad :=
      if l.2.atPort then l.2.routed || l.2.side ≠ 0
      else
        match l.2.path with
        | none => true
        | some p => l.2.side.toNat ≠ (lget 0 p.reverse 0 + 2) % 4
    if bad then [((0x40B : BitVec 12), l.1)] else []
  let deep := im.depths.flatMap fun n => if n.depth > 32 then [((0x40C : BitVec 12), leastOf n.words)] else []
  sel ++ loops ++ routes ++ deep

/-- The defect that the second pass reports: the lowest index, then the lowest code. -/
def worst : List CfgDefect → Option CfgDefect
  | [] => none
  | d :: ds =>
    some (ds.foldl (fun m e => if e.2 < m.2 || (e.2 = m.2 && e.1.toNat < m.1.toNat) then e else m) d)

/-- Both passes over an image of `bytes` bytes. -/
def checkImage (bytes : Nat) (ws : List Word) : Except CfgDefect CfgImage :=
  match cfgFirst bytes ws with
  | .error d => .error d
  | .ok im => match worst (cfgSecond im) with | some d => .error d | none => .ok im

/-! ### What a load sets (R26, R161) -/

/-- A register with lane words put into it from a quarter on. -/
def putQuarters (v : BitVec 256) (first : Nat) : List Word → BitVec 256
  | [] => v
  | w :: ws =>
    let m : BitVec 256 := (BitVec.ofNat 256 (2 ^ 64 - 1)) <<< (64 * first)
    putQuarters ((v &&& ~~~m) ||| ((w.setWidth 256) <<< (64 * first))) (first + 1) ws

/-- The PE after one CONST item: a seed of 0 stores 1. -/
def Pe.const (p : Pe) (c : ConstItem) : Pe :=
  if c.target = 16 then
    let seed : BitVec 32 := match c.data with | w :: _ => w.setWidth 32 | [] => 0
    { p with gen := if seed = 0 then 1 else seed }
  else { p with c := nset p.c c.target (putQuarters (nget 0 p.c c.target) c.first c.data) }

/-- The array state after a successful load; the pending flags and the counters of R165 stay. -/
def Dfa.load (d : Dfa) (im : CfgImage) : Dfa :=
  let depth := fun (l : Link) =>
    if l.dst ≥ 0x20 then 0
    else match lfind (fun n => n.pe = l.dst.toNat && n.side = l.side.toNat) im.depths with
      | some n => n.depth | none => 0
  { d with
    status := .loaded, image := im.id
    pes := im.consts.foldl (fun m c => nmod {} m c.pe fun p => p.const c) []
    ops := im.pes.map fun e => (e.1, e.2.2.2)
    groups := im.groups
    links := (im.links.zip (List.range im.links.length)).map fun p => (p.2, { p.1.2 with delay := depth p.1.2 })
    ctrls := (im.ctrls.zip (List.range im.ctrls.length)).map fun p => (p.2, p.1)
    ports := im.ports }

end Sys2Proof.Machine
end

