-- ==== Sys2Proof/Machine/Checks.lean ====
section
/-! DEFINITION. The commands' own checks at `enq` and at fetch (R140, R166, R225, R257, R272, R283), word by word: each at
the word that carries the field, those that span words at the last word (R63). -/

namespace Sys2Proof.Machine

open Sys2Proof

/-- What the checks read of the machine: the own logical cluster, the logical tiles of the region, whether the tile is the
last of its chain, the LOST maps that no queued `tk.free` names. -/
structure CheckEnv where
  cluster : Nat
  ranks : List Nat
  chainLast : Bool
  lost : List Nat
deriving DecidableEq, Repr

/-- A word offered: the words of its command so far, the offered one last. -/
structure Offer where
  ws : List EngineWord
deriving DecidableEq, Repr

namespace Offer

/-- The lead word. -/
def lead (o : Offer) : EngineWord := lget 0 o.ws 0
/-- The offered word. -/
def cur (o : Offer) : EngineWord := lget 0 o.ws.reverse 0
/-- Its index. -/
def k (o : Offer) : Nat := o.ws.length - 1
/-- Whether it is the lead word. -/
def atLead (o : Offer) : Bool := o.ws.length = 1
/-- Whether it ends the command. -/
def atLast (o : Offer) : Bool := o.cur.last
/-- Whether it is an extent word. -/
def atExt (o : Offer) : Bool := o.cur.isExt
/-- Whether it is a later word that is no extent word. -/
def atTail (o : Offer) : Bool := !o.atLead && !o.cur.isExt
/-- The extents so far. -/
def exts (o : Offer) : List Ext := extsOf o.ws
/-- The number of the offered extent. -/
def extNo (o : Offer) : Nat := o.exts.length - 1
/-- The offered extent. -/
def ext (o : Offer) : Ext := extOf o.cur
/-- The later words so far that are no extent words. -/
def tails (o : Offer) : List EngineWord := tailOf o.ws
/-- A later word's low 40 bits, or a default where the command has no such word. -/
def stride (o : Offer) (d : Nat) : Nat :=
  match o.tails with
  | w :: _ => (fO w 0 40).toNat
  | [] => d

end Offer

/-- Checks in order: what must not hold, and its code. -/
abbrev Checks := List (Bool × BitVec 12)

/-- The code of the first check that fails. -/
def firstDefect (cs : Checks) : Option (BitVec 12) :=
  match lfind (fun c => c.1) cs with
  | some c => some c.2
  | none => none

/-- Whether two byte ranges overlap. -/
def overlap (a b : Ext) : Bool :=
  a.base.toNat < b.base.toNat + b.bytes && b.base.toNat < a.base.toNat + a.bytes

/-- Whether an extent lies in the scratchpads of a logical cluster (R33). -/
def inCluster (cluster : Nat) (x : Ext) : Bool :=
  let last := x.base.toNat + x.bytes - 1
  isScratchAddr x.base.toNat && clusterOfAddr x.base.toNat = cluster && isScratchAddr last && clusterOfAddr last = cluster

/-- Whether an extent lies in a tile scratchpad (R33). -/
def inTile (x : Ext) : Bool :=
  isScratchAddr x.base.toNat && x.base.toNat / 2 ^ 35 % 32 < 24

/-- A feed code of a port that names no output port (R228). -/
def badFeed (f : BitVec 10) : Bool := f.getLsbD 9 && f.extractLsb' 3 6 ≠ 0

/-- R140, the stream engine. -/
def seChecks (v : CheckEnv) (o : Offer) : Checks :=
  let l := o.lead
  let op := l.op.toNat
  let es := 2 ^ (fF l 76 2).toNat
  let port := fF l 78 5
  let write := op ≠ 4 && fB l 83
  match op with
  | 1 | 2 | 4 => [
      (o.atLead && (if write then !outputSide port else !inputSide port), 0x01E),
      (o.atLead && write && (fF l 73 3 ≠ 0 || fB l 72), 0x01E),
      (o.atExt && o.ext.base.toNat % es ≠ 0, 0x01E),
      (o.atLead && op ≠ 2 && (fO l 20 19).toNat % es ≠ 0, 0x01E),
      (o.atTail && (op = 1 || (op = 2 && o.k = 2) || (op = 4 && o.k = 3)) && (fO o.cur 0 40).toNat % es ≠ 0, 0x01E),
      (o.atLead && op = 2 && fF l 68 2 = 3, 0x01E),
      (o.atLead && op = 2 && fB l 45 && fO l 49 6 ≠ 0, 0x01E),
      (o.atLead && op = 4 && port = 0x1E, 0x01E),
      (o.atTail && op = 4 && o.k = 2
        && (fO o.cur 0 24 = 0
          || (List.range 24).any fun t => (fO o.cur 0 24).getLsbD t && !v.ranks.contains (v.cluster * 24 + t)), 0x01E)]
  | 3 => [
      (!inputSide (fF l 78 5) || fF l 78 5 = 0x1E, 0x01E),
      (!outputSide (fF l 73 5), 0x01E)]
  | 5 => [
      (fO l 8 8 ≠ 0 && !fB l 82, 0x01E),
      (fO l 48 16 ≠ 0 && !(fB l 81 && !fB l 82), 0x01E)]
  | 6 => [(fF l 64 2 = 3, 0x01E)]
  | _ => []

/-- R140, the copy engine. -/
def ceChecks (o : Offer) : Checks :=
  let l := o.lead
  let size := 2 ^ (fF l 78 2).toNat
  match l.op.toNat with
  | 1 => [
      (o.atLead && fO l 0 40 = 0, 0x01E),
      (o.atLast && o.ws.length = 4 && (fO l 0 40).toNat > 2 ^ 22, 0x01E),
      (o.atLead && fO l 44 20 ≠ 0 && !fB l 82, 0x01E),
      (o.atLast && (match o.exts with | [a, b] => overlap a b | _ => false), 0x01F)]
  | 2 => [
      (o.atLead && (fO l 0 40).toNat % size ≠ 0, 0x01E),
      (o.atLead && fO l 0 40 = 0, 0x01E),
      (o.atExt && o.ext.base.toNat % size ≠ 0, 0x01E),
      (o.atTail && o.cur.o.toNat / 2 ^ (8 * size) ≠ 0, 0x01E)]
  | _ => []

/-- R166: an `ae.end` of the reserved kind 3 is ARRAY_FORMAT, as R166's table has it, though R71 calls a reserved marker kind ENQ_RESERVED
(DESIGN CHOICE, log entry 84). -/
def aeChecks (o : Offer) : Checks :=
  let l := o.lead
  match l.op.toNat with
  | 1 => [(o.atExt && o.ext.base.toNat % 8 ≠ 0, 0x021)]
  | 3 => [(fF l 64 2 = 3, 0x021), (fF l 72 8 = 0, 0x021)]
  | 4 => [(fO l 0 16 = 0, 0x021)]
  | 5 => [
      (o.atLead && o.atLast && !fB l 65, 0x021),
      (o.atExt && (o.ext.bytes < 32 || o.ext.base.toNat % 8 ≠ 0), 0x021)]
  | _ => []

/-- Whether a matrix format code lies in a range. -/
def fmtIn (f : BitVec 4) (lo hi : Nat) : Bool := lo ≤ f.toNat && f.toNat ≤ hi

/-- The tile bytes of the masked-dense form (R221, R264). -/
def maskedDense (fmt : BitVec 4) : Nat := 128 * columnBytes fmt + 2048

/-- R225 and R272. -/
def meChecks (v : CheckEnv) (o : Offer) : Checks :=
  let l := o.lead
  match l.op.toNat with
  | 1 | 8 =>
    let sp := l.op = 8
    let f := fF l 80 4
    let cs := o.stride (columnBytes f)
    let srcp := fB l 75
    [ (o.atLead && !(if sp then fmtIn f 2 6 else fmtIn f 1 8), 0x022),
      (o.atLast && (match o.exts with | x :: _ => x.bytes < 127 * cs + columnBytes f | [] => false), 0x022),
      (o.atExt && o.extNo = 1 && o.ext.bytes < 16 * reduction f true, 0x022),
      (o.atTail && plBits f ≠ 0, 0x022),
      (o.atTail && (cs < columnBytes f || cs % 8 ≠ 0), 0x022),
      (sp && o.atLast && (if srcp then o.exts.length = 2 else o.exts.length = 1), 0x022)]
  | 2 =>
    let mode := fF l 82 2
    [ (o.atLead && (mode = 2 || mode = 3), 0x022),
      (o.atLead && mode = 1 && fO l 0 32 ≠ 0, 0x022),
      (o.atExt && mode = 0, 0x022),
      (o.atLast && mode = 1 && o.exts.isEmpty, 0x022),
      (o.atExt && mode = 1 && (o.ext.bytes < 512 || o.ext.base.toNat % 4 ≠ 0), 0x022)]
  | 3 | 4 => [(o.atLead && !fmtIn (fF l 79 4) 1 9, 0x022)]
  | 5 => [
      (o.atLead && (fF l 81 2 = 2 || fF l 81 2 = 3), 0x022),
      (o.atTail && fF l 81 2 = 1, 0x022)]
  | 6 => [
      (fF l 80 3 = 7, 0x022),
      (5 ≤ (fF l 77 3).toNat, 0x022),
      ((fF l 80 3 = 3 || fF l 80 3 = 6) && !fB l 75 && fB l 76, 0x022)]
  | 7 => [
      (o.atLead && fB l 83 && !fmtIn (fF l 76 4) 1 9, 0x022),
      (o.atLead && fF l 81 2 = 3, 0x022),
      (o.atTail && fF l 81 2 ≠ 1, 0x022),
      (o.atLast && fF l 81 2 = 1 && o.tails.isEmpty, 0x022),
      (o.atLead && !fB l 83 && fF l 76 4 ≠ 0, 0x022),
      (o.atLead && fB l 80 && v.chainLast, 0x022)]
  | 9 =>
    let f := fF l 79 4
    let w : BitVec 4 := if f = 9 then 6 else f
    [ (o.atLead && !fmtIn f 4 9, 0x022),
      (o.atExt && o.ext.bytes ≠ maskedDense w, 0x022),
      (o.atExt && o.ext.base.toNat % 8 ≠ 0, 0x022)]
  | 10 =>
    let f := fF l 80 4
    [ (o.atLead && !fmtIn f 4 8, 0x022),
      (o.atExt && o.ext.bytes ≠ maskedDense f, 0x022),
      (o.atExt && o.ext.base.toNat % 8 ≠ 0, 0x022)]
  | 11 =>
    let f := fF l 80 4
    [ (o.atLead && !fmtIn f 4 8, 0x022),
      (o.atExt && o.ext.bytes < maskedDense f, 0x022)]
  | _ => []

/-- The element types of an SA operation (R231). -/
def saType (aop : Nat) (t : BitVec 4) : Bool :=
  if 3 ≤ aop && aop ≤ 5 then fmtIn t 6 11 else fmtIn t 1 3 || fmtIn t 6 11

/-- Whether a table length is 8 × S for S a power of two from 16 to 2^21 (R234). -/
def tableLen (n : Nat) : Bool := (List.range 18).any fun i => n = 8 * 2 ^ (i + 4)

/-- Whether a multiplier is even and nonzero. -/
def evenMul (m : BitVec 32) : Bool := m ≠ 0 && !m.getLsbD 0

/-- R257, the scatter-accumulate engine. -/
def saChecks (v : CheckEnv) (o : Offer) : Checks :=
  let l := o.lead
  let table := fun (x : Ext) => !tableLen x.bytes || !inCluster v.cluster x
  match l.op.toNat with
  | 1 =>
    let aop := (fF l 80 4).toNat
    let es := widthOfCode (fF l 76 4) / 8
    [ (o.atLead && (badFeed (fO l 54 10) || badFeed (fO l 44 10)), 0x024),
      (o.atLead && fF l 74 2 = 3, 0x024),
      (o.atLead && (aop ≥ 8 || !saType aop (fF l 76 4)), 0x024),
      (o.atTail && aop ≤ 5, 0x024),
      (o.atLast && aop ≥ 6 && o.tails.isEmpty, 0x024),
      (o.atTail && badFeed (fO o.cur 54 10), 0x024),
      (o.atTail && aop = 6 && fO o.cur 54 10 ≠ 0, 0x024),
      (o.atTail && !inputSide (fO o.cur 40 5), 0x024),
      (o.atExt && (!inCluster v.cluster o.ext || o.ext.base.toNat % es ≠ 0), 0x024)]
  | 2 => [
      (o.atLead && (badFeed (fF l 74 10) || badFeed (fF l 64 10)), 0x024),
      (o.atExt && o.extNo = 0 && table o.ext, 0x024),
      (o.atExt && o.extNo = 1 && (o.ext.bytes < 16 || o.ext.base.toNat % 16 ≠ 0), 0x024),
      (o.atTail && evenMul (fO o.cur 0 32), 0x024)]
  | 3 => [
      (o.atExt && table o.ext, 0x024),
      (o.atLead && evenMul (fO l 0 32), 0x024),
      (o.atLast && (match o.exts with | [a, b] => overlap a b | _ => false), 0x024)]
  | _ => []

/-- R257, the network engine. A field that a form calls zero is reserved in it (log entry 21). -/
def neChecks (o : Offer) : Checks :=
  let l := o.lead
  match l.op.toNat with
  | 1 | 2 =>
    let gath := l.op = 1
    let shard := fB l 81
    let dmem := fB l 80
    let acc := !gath && fB l 30
    let row := ((fO l 31 13).toNat + 1) * 8
    [ (o.atLead && fF l 75 5 ≠ 0 && (!gath || dmem), 0x011),
      (o.atLead && !gath && dmem && fO l 44 10 ≠ 0, 0x011),
      (o.atLead && !gath && !acc && fO l 25 4 ≠ 0, 0x011),
      (o.atLead && badFeed (fO l 54 10), 0x025),
      (o.atLead && !gath && badFeed (fO l 44 10), 0x025),
      (o.atLead && fF l 82 2 = 3, 0x025),
      (o.atLead && acc && !saType 0 (fO l 25 4), 0x025),
      (o.atLead && ((!shard && fF l 64 6 ≠ 0) || (fF l 64 6).toNat > 47), 0x025),
      (o.atExt && o.extNo = 0 && shard && !inTile o.ext, 0x025),
      (o.atLast && o.exts.length ≠ (if dmem then 2 else 1), 0x025),
      (o.atExt && o.extNo = 1 && o.ext.bytes < ((fO l 0 12).toNat + 1) * row, 0x025),
      (o.atTail && (fO o.cur 0 40).toNat % 8 ≠ 0, 0x025),
      (o.atLead && gath && !dmem && !inputSide (fF l 75 5), 0x025),
      (o.atExt && o.extNo = 0 && acc && !isScratchAddr o.ext.base.toNat, 0x025),
      (o.atLead && !gath && fB l 29, 0x025)]
  | 3 =>
    let t := fF l 80 4
    [ (o.atLead && (fF l 78 2 = 3 || !(fmtIn t 1 3 || fmtIn t 8 9)), 0x025),
      (o.atTail && !fB l 76, 0x025),
      (o.atLast && fB l 76 && o.tails.isEmpty, 0x025),
      (o.atExt && !inTile o.ext, 0x025),
      (o.atExt && o.ext.bytes % (widthOfCode t / 8) ≠ 0, 0x025)]
  | 4 =>
    let t := fF l 80 4
    let nin := match o.tails with | w :: _ => (fO w 0 32).toNat | [] => 0
    [ (o.atLead && !(t = 1 || fmtIn t 8 9), 0x025),
      (o.atExt && !inTile o.ext, 0x025),
      (o.atExt && o.ext.bytes % 4 ≠ 0, 0x025),
      (o.atExt && o.ext.base.toNat % 64 ≠ 0, 0x025),
      (o.atLast && (match o.exts with
        | x :: _ => x.bytes < 64 * ((nin * 8 + 63) / 64) + 16448 * ((fO l 20 16).toNat + 1)
        | [] => false), 0x025)]
  | 5 => [
      (o.atLast && o.exts.isEmpty, 0x025),
      (o.atExt && o.ext.bytes ≠ 32, 0x025)]
  | 6 => [
      (fF l 64 16 = 0, 0x025),
      (l.o.toNat % 16 ≠ 0 || !isScratchAddr l.o.toNat, 0x025)]
  | 7 => [
      (o.atLast && (fB l 83 || fB l 73) && o.tails.isEmpty, 0x025),
      (o.atExt && o.extNo = 1
        && (o.ext.bytes ≠ 16 || o.ext.base.toNat % 16 ≠ 0 || !isScratchAddr o.ext.base.toNat), 0x025)]
  | _ => []

/-- R283. -/
def tkChecks (v : CheckEnv) (o : Offer) : Checks :=
  let l := o.lead
  let f := fF l 80 4
  let lost := o.atLead && l.op ≠ 6 && v.lost.contains (fF l 76 4).toNat
  match l.op.toNat with
  | 1 =>
    let parent := (fF l 71 5).toNat
    let n := (fO l 52 12).toNat + 1
    let row := ((fO l 30 10).toNat + 1) * (widthOfCode f / 8)
    [ (lost || (o.atLead && parent < 16 && v.lost.contains parent), 0x026),
      (o.atLead && !fmtIn f 1 3, 0x027),
      (o.atLead && 16 ≤ parent && parent ≤ 30, 0x027),
      (o.atLead && (fO l 40 12).toNat > (n + 1) / 2, 0x027),
      (o.atLead && n = 1, 0x027),
      (o.atLast && (match o.exts with | x :: _ => x.bytes < (n - 1) * o.stride row + row | [] => false), 0x027)]
  | 2 | 4 =>
    let row := ((fO l 50 14).toNat + 1) * (widthOfCode f / 8)
    [ (lost, 0x026),
      (o.atLead && !(if l.op = 2 then fmtIn f 1 3 else f.toNat ≤ 13), 0x027),
      (o.atLead && !fB l 75 && (fF l 70 5 ≠ 0 || fO l 41 9 ≠ 0), 0x027),
      (o.atLead && fB l 75 && !inputSide (fF l 70 5), 0x027),
      (o.atTail && (fO o.cur 0 40).toNat < row, 0x027)]
  | 3 => [
      (lost, 0x026),
      (o.atLead && !fmtIn f 1 3, 0x027),
      (o.atLast && o.atLead && !inputSide (fF l 71 5), 0x027),
      (o.atLast && !o.atLead && (fF l 71 5 ≠ 0 || fO l 0 9 ≠ 0), 0x027)]
  | _ => [(lost, 0x026)]

/-- The commands' own checks of an engine (R63). -/
def cmdChecks (v : CheckEnv) (e : Engine) (o : Offer) : Checks :=
  match e with
  | .se => seChecks v o
  | .ce => ceChecks o
  | .ae => aeChecks o
  | .me => meChecks v o
  | .sa => saChecks v o
  | .ne => neChecks o
  | .tk => tkChecks v o

/-- The format of the words of a command as far as no state is read: the opcode map, the indices, L, the counts of words
and extents, the reserved bits (R56, R57, R59). -/
def sequenceDefect (e : Engine) (o : Offer) (final : Bool) : Option (BitVec 12) :=
  let w := o.cur
  let op := w.op.toNat
  match if op = 0xFE || op = 0xFF then none else opInfo e op with
  | none => some 0x010
  | some m => firstDefect [
      (o.lead.op ≠ w.op || w.widx.toNat ≠ o.k, 0x012),
      (w.last && (o.k + 1 < m.minWords || o.k + 1 > m.maxWords), 0x012),
      (!w.last && (o.k = 3 || o.k + 1 = m.maxWords), 0x012),
      (!w.last && final, 0x012),
      (o.atExt && o.exts.length > m.maxExts, 0x012),
      (w.last && o.exts.length < m.minExts, 0x012),
      (!reservedZero e w, 0x011)]

/-- Whether an extent is longer than an extent may be (R57). -/
def extTooLong (x : Ext) : Bool := x.bytes > 2 ^ 40 - 1

end Sys2Proof.Machine
end

