-- ==== Sys2Proof/Machine/Matrix.lean ====
section
/-! DEFINITION. The matrix engine's commands but for patterns (09_matrix_engine.md). Every command of the ME is taken
step by step: each time it runs it does as much as its ports and the pipeline allow of one row, column or packet. -/

namespace Sys2Proof.Machine

open Sys2Proof

/-- Port codes of the matrix array (R120). -/
def portMa : Nat := 0x10
def portMw : Nat := 0x11
def portMi : Nat := 0x12
def portMm : Nat := 0x13
def portMx : Nat := 0x14
def portMc : Nat := 0x15

/-- The matrix array of the acting tile. -/
def State.me (s : State) : Matrix := (s.tileAt s.tile).me

/-- Writes the matrix array of the acting tile. -/
def State.setMe (s : State) (m : Matrix) : State := s.setTile s.tile { s.tileAt s.tile with me := m }

/-- An accumulator bank. -/
def Matrix.bank (m : Matrix) (b : Bool) : Bank := nget {} m.banks b.toNat

/-- Writes a bank. -/
def Matrix.setBank (m : Matrix) (b : Bool) (k : Bank) : Matrix := { m with banks := nset m.banks b.toNat k }

/-- A row of 128 accumulators; +0 where none is listed. -/
def Bank.row (k : Bank) (r : Nat) : List (BitVec 32) := nget (List.replicate 128 0) k.rows r

/-- FP32 1.0. -/
def one32 : BitVec 32 := 0x3F800000

/-! ### Which command may start (R202) -/

/-- Whether an instruction is a row command. -/
def isRowCmd : Instr → Bool
  | .meRow _ | .meGath _ | .mePat _ | .meRecRec _ | .meRecScan _ => true
  | _ => false

/-- The bank of a row command or of `me.end`. -/
def bankOf : Instr → Option Bool
  | .meRow c => some c.bank
  | .meGath c => some c.bank
  | .mePat c => some c.bank
  | .meEnd c => some c.bank
  | _ => none

/-- The overlaps of R202: a load behind row commands, a row command behind an `me.end` of the other bank. -/
def meMayStart (runs : List Run) (i : Instr) : Bool :=
  runs.isEmpty
    || (match i with
      | .meWld _ | .meSpw _ => runs.all fun r => isRowCmd r.instr
      | .meRow _ | .meGath _ | .mePat _ =>
        runs.all fun r => match r.instr with | .meEnd c => some c.bank ≠ bankOf i | _ => false
      | _ => false)

/-- Whether a token is in the pipeline. -/
def Matrix.tokenInPipe (m : Matrix) : Bool :=
  m.pipe.any fun p => match p with | .row _ _ _ _ _ _ _ => false | .token _ _ _ => true

/-- Resumes or starts a command of the ME. Nothing starts while a token is in the row pipeline, so every command behind a
token finds it passed (R207; log 39, DEDUCED). -/
def State.resumeMe (s : State) (i : Instr) : Option (Run × State) :=
  s.resume .me i (meMayStart (s.eng .me).runs i && !s.me.tokenInPipe)

/-! ### Rows at a port (R199, R212) -/

/-- What gathering lane words at a port has come to. -/
inductive Gathered
  | full (bits : Nat) (r : Run) (s : State)
  | waits (r : Run) (s : State)
  | ended (r : Run) (s : State)
deriving DecidableEq, Repr

/-- Collects `n` lane words at a port into the command's held words; an absent lane word is 64 zero bits; START, SCALE
and FLUSH are dropped; an END completes a partial row with zero bits, which `work.complete` notes (R199, R212). At `mw` and `mm`
an END is passed over too: R212 names `ma` and `mi` (log entry 67). -/
def State.gatherWords (s : State) (code n : Nat) (r : Run) : Nat → Gathered
  | 0 => .waits r s
  | fuel + 1 =>
    let done := fun (r : Run) (s : State) =>
      Gathered.full (r.work.held.reverse.foldr (fun w x => w.toNat + 2 ^ 64 * x) 0)
        { r with work := { r.work with held := [] } } s
    if r.work.held.length ≥ n then done r s
    else
      match s.peek s.tile code with
      | none => .waits r s
      | some (.lane w p, s) =>
        let r := r.gained (s.headResp s.tile code)
        let r := { r with work := { r.work with held := (if p then w else 0) :: r.work.held } }
        (s.pop s.tile code).gatherWords code n r fuel
      | some (.mark .fin, s) =>
        let s := s.pop s.tile code
        if code = portMw || code = portMm then s.gatherWords code n r fuel
        else if r.work.held.isEmpty then .ended r s
        else done { r with work := { r.work with complete := true } } s
      | some (.mark _, s) => (s.pop s.tile code).gatherWords code n r fuel

/-- An END that is the next head at a port is consumed by the command that has read its last row (R212). -/
def State.dropEnd (s : State) (code : Nat) : State :=
  match s.peek s.tile code with
  | some (.mark .fin, s) => s.pop s.tile code
  | _ => s

/-- Sends packets of eight lane words at `mc`, where there is room; END on the last (R214, R217). They come after the response
elements that they are computed from (R299), and after the reads of commands with IP = 1 (R224). -/
def State.sendMc (s : State) (lanes : List Word) (fin : Bool) (resp : Clock) : Option State :=
  s.enter s.tile portMc
    { lanes := lanes, pred := BitVec.allOnes 8 >>> (8 - lanes.length), sid := 0
      marker := if fin then some .fin else none, resp := s.me.ipReads.join resp }

/-! ### Weight loads (R203-R205, R220) -/

/-- The histogram bin of a weight (R220). -/
def histBin (fmt : BitVec 4) (c : MCell) : Nat :=
  match cellVal fmt c with
  | .nan _ => 31
  | .inf _ => 31
  | .zero _ => 0
  | v => (max 1 (min 31 (valLog2 v + 16))).toNat

/-- Raises a histogram counter, saturating (R220). -/
def histAdd (h : NMap (BitVec 32)) (b : Nat) : NMap (BitVec 32) :=
  nmod 0 h b fun c => if c = BitVec.allOnes 32 then c else c + 1

/-- Lowers a histogram counter; R222 states no value for one that counts none, of another tile's weights (log entry 67). -/
def histDrop (tick : Nat) (h : NMap (BitVec 32)) (b : Nat) : NMap (BitVec 32) :=
  nmod 0 h b fun c => if c = 0 then (Config.freeWord tick).setWidth 32 else c - 1

/-- The counters rebuilt from a plane's active weights (R220). -/
def histOf (p : Plane) : NMap (BitVec 32) :=
  (List.range 128).foldl (fun h n =>
    let k := reduction p.latch p.sparse
    ((columnCells p.cells n k).zip (maskList (nget (BitVec.allOnes 512) p.masks n) k)).foldl
      (fun h c => if c.2 then histAdd h (histBin p.latch c.1) else h) h) []

/-- Places the kept values of a four-of-eight column at the positions whose mask bit is 1. -/
def placeKept : List Bool → List MCell → List MCell
  | [], _ => []
  | true :: ms, c :: cs => c :: placeKept ms cs
  | true :: ms, [] => { bits := 0 } :: placeKept ms []
  | false :: ms, cs => { bits := 0 } :: placeKept ms cs

/-- The first mask byte that does not have exactly four bits, with its group. -/
def badMask : Nat → Nat → Nat → Option (Nat × Nat)
  | 0, _, _ => none
  | n + 1, g, v =>
    let b := v % 256
    if ((List.range 8).filter fun i => b.testBit i).length ≠ 4 then some (g, b) else badMask n (g + 1) (v / 256)

/-- The parameters of a load, dense or four-of-eight. -/
structure LoadSpec where
  fmt : BitVec 4
  sparse : Bool
  swap : Bool
  trap : Bool
  hist : Bool
  fromMw : Bool
  fromMm : Bool
  ext : Ext
  mext : Option Ext
  cstride : Nat
  ip : Bool

/-- Bytes of a column of the tile in memory. -/
def LoadSpec.colBytes (l : LoadSpec) : Nat := columnBytes l.fmt

/-- The spec of `me.wld`. -/
def wldSpec (c : WldCmd) : LoadSpec :=
  { fmt := c.fmt, sparse := false, swap := c.swap, trap := c.pois, hist := c.hist, fromMw := c.srcp, fromMm := false
    ext := c.ext, mext := none, cstride := match c.cstride with | some n => n.toNat | none => columnBytes c.fmt
    ip := c.ip }

/-- The spec of `me.spw`. -/
def spwSpec (c : SpwCmd) : LoadSpec :=
  { fmt := c.fmt, sparse := true, swap := c.swap, trap := c.pois, hist := c.hist, fromMw := false, fromMm := c.srcp
    ext := c.ext, mext := c.mext, cstride := match c.cstride with | some n => n.toNat | none => columnBytes c.fmt
    ip := c.ip }

/-- What a column read gives: the value of its bytes, or a wait, an early end, a fault. -/
inductive Column
  | value (v : Nat) (r : Run) (s : State)
  | waits (r : Run) (s : State)
  | fault (r : Run) (code : BitVec 12) (tval : Word)
deriving DecidableEq, Repr

/-- Reads bytes of a tile from memory for a load, noting POI (R139). -/
def State.readColumn (s : State) (r : Run) (x : Ext) (off n : Nat) (trap : Bool) : Column :=
  let a := x.base.toNat + off
  if !inExt x a n then .fault r 0x105 (BitVec.ofNat 64 a)
  else
    match s.runRead .me r a n trap false with
    | .fault c v => .fault r c v
    | .bytes bs p =>
      let r := s.tookValue .me r a n
      .value (leNat bs) (r.raise (raiseIf p Flag.poi)) (s.runNote .me r a n false)

/-- Takes bytes of a column or of its masks at a port, which are whole lane words; absent ones are zeros. -/
def State.portColumn (s : State) (r : Run) (code n : Nat) : Column :=
  match s.gatherWords code ((n + 7) / 8) r 200 with
  | .full v r s => .value v r s
  | .waits r s => .waits r s
  | .ended r s => .waits r s

/-- Holds the mask bytes of a column taken at `mm` until the column is written (R205). -/
def Run.keepMask (r : Run) (fromMm : Bool) (col mask : Nat) : Run :=
  { r with work := { r.work with counts := if fromMm then [(col, mask)] else [] } }

/-- Holds a column that has been read while its masks have not come. -/
def Run.keepColumn (r : Run) (col v : Nat) : Run :=
  { r with work := { r.work with counts := nset r.work.counts (128 + col) v } }

/-- The next column of a load: read before, or read now. -/
def State.loadColumn (s : State) (l : LoadSpec) (r : Run) (n : Nat) : Column :=
  match nget? r.work.counts (128 + n) with
  | some v => .value v r s
  | none =>
    if l.fromMw then s.portColumn r portMw l.colBytes else s.readColumn r l.ext (n * l.cstride) l.colBytes l.trap

/-- The mask bytes of a load's next column, all of them 0 for a dense one: held over a fault, taken at `mm`, or read. -/
def State.loadMask (s : State) (l : LoadSpec) (r : Run) (n bytes : Nat) : Column :=
  if !l.sparse then .value 0 r s
  else
    match nget? r.work.counts n with
    | some v => .value v r s
    | none =>
      if l.fromMm then s.portColumn r portMm bytes
      else
        match l.mext with
        | some x => s.readColumn r x (n * bytes) bytes l.trap
        | none => .value 0 r s

/-- A load's next column (R204): read, then its masks, which are checked (R205), and written to the shadow plane; after column 127 the
plane takes its scale and latch, the counters are rebuilt and a swap token follows, behind every row of the row commands ahead:
a load with SWAP ends once they have completed (R207; log 39, DEDUCED). -/
def State.loadStep (s : State) (l : LoadSpec) (r : Run) : State :=
  let n := r.work.i
  let k := reduction l.fmt l.sparse
  if n ≥ 128 && l.swap && (s.eng .me).runs.any (fun x => isRowCmd x.instr) then s.setRun .me r
  else if n ≥ 128 then
    let m := s.me
    let sh := { m.shadow with scales := [], scale := one32, scaleResp := [], sparse := l.sparse, latch := l.fmt }
    let m := { m with shadow := sh, hist := if l.hist then histOf sh else m.hist }
    let m := if l.swap then { m with pipe := m.pipe ++ [.token [] one32 []] } else m
    let m := if l.ip then { m with ipReads := m.ipReads.join (r.clock.release (cmdAgent r.id)) } else m
    (s.setMe m).complete .me r
  else
    let r := { r with upc := microPc 0 0 n 0 }
    match s.loadColumn l r n with
    | .waits r s => s.setRun .me r
    | .fault r c v => s.faultAt .me r c v
    | .value v r s =>
      match s.loadMask l r n (k / 8) with
      | .waits r s => s.setRun .me (r.keepColumn n v)
      | .fault r c v => s.faultAt .me r c v
      | .value mv r s =>
        match if l.sparse then badMask (k / 8) 0 mv else none with
        | some (g, b) =>
          let r := { r with upc := microPc 0 0 n g }
          s.faultAt .me (r.keepMask l.fromMm n mv) 0x123 (BitVec.ofNat 64 (n * 2 ^ 14 + g * 2 ^ 8 + b))
        | none =>
          let m := s.me
          let kept := cellsOf l.fmt v (if l.sparse then k / 2 else k)
          let cells := if l.sparse then placeKept (maskList (BitVec.ofNat 512 mv) k) kept else kept
          let sh := { m.shadow with
            cells := nset m.shadow.cells n cells
            masks := if l.sparse then nset m.shadow.masks n (BitVec.ofNat 512 mv) else nerase m.shadow.masks n
            resp := m.shadow.resp.join r.work.resp }
          let r := { r with work := { r.work with i := n + 1, counts := [] } }
          (s.setMe { m with shadow := sh }).setRun .me r

/-- A load that starts sets the shadow latch to NONE for its whole run (R204). -/
def State.loadCmd (s : State) (i : Instr) (l : LoadSpec) : Out :=
  match s.resumeMe i with
  | none => .next s
  | some (r, s) =>
    let s := if r.work.checked then s else s.setMe { s.me with shadow := { s.me.shadow with latch := 0, resp := [] } }
    .next (s.loadStep l { r with work := { r.work with checked := true } })

/-- ME_WLD (R204). -/
def execMeWld (c : WldCmd) (s : State) : Out := s.loadCmd (.meWld c) (wldSpec c)

/-- ME_SPW (R204). -/
def execMeSpw (c : SpwCmd) (s : State) : Out := s.loadCmd (.meSpw c) (spwSpec c)

/-! ### Tokens (R206, R207) -/

/-- The 128 scales that 512 bytes hold. -/
def scalesOf (bs : List Byte) : NMap (BitVec 32) :=
  (List.range 128).map fun n => (n, BitVec.ofNat 32 (leNat ((bs.drop (4 * n)).take 4)))

/-- ME_SCL: places a token with one scale, or with 128 read under TRAP (R206). -/
def execMeScl (c : SclCmd) (s : State) : Out :=
  match s.resumeMe (.meScl c) with
  | none => .next s
  | some (r, s) =>
    match c.ext with
    | none =>
      let m := s.me
      .next ((s.setMe { m with pipe := m.pipe ++ [.token [] c.scale []] }).complete .me r)
    | some x =>
      match s.runRead .me r x.base.toNat 512 true false with
      | .fault code v => .next (s.faultAt .me r code v)
      | .bytes bs _ =>
        let r := s.tookValue .me r x.base.toNat 512
        let s := s.runNote .me r x.base.toNat 512 false
        let m := s.me
        .next ((s.setMe { m with pipe := m.pipe ++ [.token (scalesOf bs) 0 r.work.resp] }).complete .me r)

/-- SWAP_TOKEN_PASS: the token at the head of the pipeline swaps the planes if a load has completed, and sets the active
scales (R207). -/
def execSwapTokenPass (s : State) : Out :=
  let m := s.me
  match m.pipe with
  | .token scales scale resp :: rest =>
    let (a, b) := if m.shadow.latch ≠ 0 then (m.shadow, { m.active with latch := 0 }) else (m.active, m.shadow)
    .next (s.setMe { m with active := { a with scales := scales, scale := scale, scaleResp := resp }, shadow := b, pipe := rest })
  | _ => .next s

/-! ### Banks and rows (R208-R212, R215) -/

/-- ME_ACC (R208): waits while the bank retires; an open bank is ME_BANK (R209). -/
def execMeAcc (c : AccCmd) (s : State) : Out :=
  match s.resumeMe (.meAcc c) with
  | none => .next s
  | some (r, s) =>
    let m := s.me
    let k := m.bank c.bank
    match k.state with
    | .retiring => .next (s.setRun .me r)
    | .opened => .next (s.faultAt .me r 0x132 (BitVec.ofNat 64 c.bank.toNat))
    | .free =>
      let n := c.nrows.toNat + 1
      let v := match c.initv with | some x => x | none => 0
      let rows := if c.init = 1 then k.rows
        else (List.range n).foldl (fun rs i =>
          if v = 0 then nerase rs i else nset rs i (List.replicate 128 v)) k.rows
      let resps := if c.init = 1 then k.resps else (List.range n).foldl nerase k.resps
      let k := { k with
        resps := resps, state := .opened, tag := r.sect, nrows := n, int := c.int, sat := c.sat, depth := 0, rows := rows }
      .next ((s.setMe (m.setBank c.bank k)).complete .me r)

/-- Whether rows of a command are still in the pipeline. -/
def Matrix.inPipe (m : Matrix) (cmd : Nat) : Bool :=
  m.pipe.any fun p => match p with | .row _ _ _ _ _ c _ => c = cmd | .token _ _ _ => false

/-- Fires a row into an accumulator row: the depth bound (R215), then the pipeline. -/
def State.fire (s : State) (r : Run) (bank : Bool) (row : Nat) (afmt : BitVec 4) (a : List MCell) (src : PipeSrc)
    (resp : Clock) : Option State :=
  let m := s.me
  let k := m.bank bank
  if k.depth ≥ 256 * s.dcap then none
  else
    let m := m.setBank bank { k with depth := k.depth + 1 }
    some (s.setMe { m with pipe := m.pipe ++ [.row bank row afmt a src r.id resp] })

/-- The end of a row command: it completes once its last row has been accumulated (R202). -/
def State.rowsDone (s : State) (r : Run) (codes : List Nat) : State :=
  if s.me.inPipe r.id then s.setRun .me r
  else (codes.foldl (fun s c => s.dropEnd c) s).complete .me r

/-- `lx.tval` of ME_FORMAT (R226). -/
def formatTval (latch afmt : BitVec 4) : Word := BitVec.ofNat 64 (latch.toNat * 16 + afmt.toNat)

/-- One row of `me.row` (R211). -/
def State.rowStep (s : State) (c : RowCmd) (r : Run) : State :=
  let m := s.me
  let j := r.work.i
  if r.work.finishing || j > c.count.toNat then
    let codes := if r.work.finishing then [] else [portMa]
    s.rowsDone r codes
  else if m.tokenInPipe then s.setRun .me r
  else if (m.bank c.bank).state ≠ .opened then s.faultAt .me r 0x132 (BitVec.ofNat 64 c.bank.toNat)
  else
    let r := { r with upc := microCount j }
    let k := reduction m.active.latch m.active.sparse
    if !pairs m.active.latch c.afmt then s.faultAt .me r 0x130 (formatTval m.active.latch c.afmt)
    else
      match s.gatherWords portMa (runBits c.afmt k / 64) r 200 with
      | .waits r s => s.setRun .me r
      | .ended r s => s.setRun .me { r.raise Flag.len with work := { r.work with finishing := true } }
      | .full v r s =>
        let step := match c.rstep with | some x => x.toNat | none => 1
        let row := (c.base.toNat + j * step) % 256
        let r' := { r with work := { r.work with i := j + 1, complete := false, finishing := r.work.complete, resp := [] } }
        let r' := if r.work.complete then r'.raise Flag.len else r'
        let held := { r with work := { r.work with held := wordsOf (runBits c.afmt k / 64) (leBytes (runBits c.afmt k / 8) v) |>.reverse } }
        if row ≥ (m.bank c.bank).nrows then s.faultAt .me held 0x131 (BitVec.ofNat 64 row)
        else
          match s.fire r c.bank row c.afmt (cellsOf c.afmt v k) .plane r.work.resp with
          | some s => s.setRun .me r'
          | none => s.faultAt .me held 0x134 (BitVec.ofNat 64 c.bank.toNat)

/-- ME_ROW (R211). -/
def execMeRow (c : RowCmd) (s : State) : Out :=
  match s.resumeMe (.meRow c) with
  | none => .next s
  | some (r, s) => .next (s.rowStep c r)

/-- The index a `me.gath` holds for its row: 0 none taken, v + 1 an index. -/
def Run.heldIndex (r : Run) : Nat := nget 0 r.work.counts 0

/-- The ports whose next END a `me.gath` that has no more to fire consumes (R212): both after its last row; `mi` where `ma` has
ended; where `mi` has, which `work.j` notes, `ma` if row COUNT was read there, and else none. -/
def Run.endCodes (r : Run) : List Nat :=
  if !r.work.finishing then [portMa, portMi]
  else match r.work.j with | 0 => [portMi] | 1 => [] | _ => [portMa]

/-- One row of `me.gath` (R211, R212): the row at `ma`, then its index at `mi`; both are kept over a fault. -/
def State.gathStep (s : State) (c : GathCmd) (r : Run) : State :=
  let m := s.me
  let j := r.work.i
  if r.work.finishing || j > c.count.toNat then s.rowsDone r r.endCodes
  else if m.tokenInPipe then s.setRun .me r
  else if (m.bank c.bank).state ≠ .opened then s.faultAt .me r 0x132 (BitVec.ofNat 64 c.bank.toNat)
  else
    let r := { r with upc := microCount j }
    let k := reduction m.active.latch m.active.sparse
    if !pairs m.active.latch c.afmt then s.faultAt .me r 0x130 (formatTval m.active.latch c.afmt)
    else
      match s.gatherWords portMa (runBits c.afmt k / 64) r 200 with
      | .waits r s => s.setRun .me r
      | .ended r s => s.setRun .me { r.raise Flag.len with work := { r.work with finishing := true } }
      | .full v r s =>
        let w := if c.iw then 32 else 16
        let keep := { r with work := { r.work with held := wordsOf (runBits c.afmt k / 64) (leBytes (runBits c.afmt k / 8) v) |>.reverse } }
        let index : IndexRead := if r.heldIndex ≠ 0 then .value (r.heldIndex - 1) s else s.nextIndex s.tile portMi w 200
        let taken := if r.heldIndex ≠ 0 then [] else s.indexResp s.tile portMi w 200
        match index with
        | .waits s => s.setRun .me keep
        | .ended s =>
          let r := r.gained taken
          let all := j = c.count.toNat && !r.work.complete
          s.setRun .me { r.raise Flag.len with
            work := { r.work with finishing := true, complete := false, j := if all then 2 else 1 } }
        | .value idx s =>
          let r := r.gained taken
          let keep := { keep with clock := r.clock, work := { keep.work with resp := r.work.resp } }
          let r' := { r with
            work := { r.work with
              i := j + 1, complete := false, finishing := r.work.complete, counts := [], resp := [] } }
          let r' := if r.work.complete then r'.raise Flag.len else r'
          let keep := { keep with work := { keep.work with counts := [(0, idx + 1)] } }
          let bias : Int := match c.ibias with | some b => b.toInt | none => 0
          let row : Int := c.base.toNat + idx + bias
          if idx = 2 ^ w - 1 then s.setRun .me r'
          else if row < 0 || row ≥ (m.bank c.bank).nrows then
            s.faultAt .me keep 0x131 ((BitVec.ofInt 32 row).setWidth 64)
          else
            match s.fire r c.bank row.toNat c.afmt (cellsOf c.afmt v k) .plane r.work.resp with
            | some s => s.setRun .me r'
            | none => s.faultAt .me keep 0x134 (BitVec.ofNat 64 c.bank.toNat)

/-- ME_GATH (R211). -/
def execMeGath (c : GathCmd) (s : State) : Out :=
  match s.resumeMe (.meGath c) with
  | none => .next s
  | some (r, s) => .next (s.gathStep c r)

/-- ACCUMULATOR_WRITE: the row at the head of the pipeline is added into its accumulator row (R198, R211), its flags to
the command that fired it. -/
def execAccumulatorWrite (s : State) : Out :=
  let m := s.me
  match m.pipe with
  | .row bank row afmt a src cmd resp :: rest =>
    let (w, wresp) := match src with
      | .plane => (m.active.weights, m.active.resp)
      | .tile fmt cols masks => ({ fmt := fmt, cells := cols, masks := masks, k := 128 }, [])
    let k := m.bank bank
    let (acc, f) := fireRow w k.sat afmt a (k.row row)
    let seen := (Clock.join (nget [] k.resps row) resp).join wresp
    let m := { m.setBank bank { k with rows := nset k.rows row acc, resps := nset k.resps row seen } with pipe := rest }
    let s := s.setMe m
    .next (s.setEng .me ((s.eng .me).modRun cmd fun r => r.raise f))
  | _ => .next s

/-! ### Retirement (R213, R214) -/

/-- The format of an OFMT, none for the integers. -/
def ofmtFloat (o : BitVec 3) : Option Fmt :=
  match o.toNat with
  | 0 => some .fp32 | 1 => some .bf16 | 2 => some .fp16 | 4 => some .e4m3 | 5 => some .e5m2 | _ => none

/-- The width of an OFMT. -/
def ofmtWidth (o : BitVec 3) : Nat :=
  match o.toNat with
  | 0 | 3 => 32
  | 1 | 2 => 16
  | _ => 8

/-- The product of a value and a scale by R175's rules for special values. -/
def scaleProduct (v s : Val) : Val × Flags :=
  let snan := raiseIf (v.isSnan || s.isSnan) Flag.nv
  if v.isNan || s.isNan then (.nan false, snan)
  else if (v.isInf && s.isZero) || (v.isZero && s.isInf) then (.nan false, Flag.nv ||| Flag.nf)
  else (exactProduct v s, 0)

/-- One element retired (R214). -/
def retireElem (c : EndCmd) (int : Bool) (scale x : BitVec 32) : Nat × Flags :=
  let w := ofmtWidth c.ofmt
  let r : Rounding := { rnd := rndOf c.rnd, sat := c.sat }
  if int && (c.ofmt = 3 || c.ofmt = 6) then
    let i := x.toInt
    let hi : Int := 2 ^ (w - 1) - 1
    let lo : Int := -(2 ^ (w - 1))
    if c.sat && i > hi then (hi.toNat, Flag.sat)
    else if c.sat && i < lo then ((lo % 2 ^ w).toNat, Flag.sat)
    else ((i % 2 ^ w).toNat, 0)
  else
    let v := if int then valOfInt x.toInt else Fmt.fp32.decode false x.toNat
    let (v, f) := if c.noscl then (v, 0) else scaleProduct v (Fmt.fp32.decode false scale.toNat)
    let (b, g) := match ofmtFloat c.ofmt with
      | some fm => fm.convert r v
      | none => toInteger true w r v
    (b, f ||| g)

/-- Elements packed into lane words by R39: `per` elements of `w` bits each. -/
def packLanes (w per : Nat) : Nat → List Nat → List Word
  | 0, _ => []
  | n + 1, es =>
    BitVec.ofNat 64 ((es.take per).foldr (fun e x => e + 2 ^ w * x) 0) :: packLanes w per n (es.drop per)

/-- The lane words of a retired row, with its flags. -/
def retireRow (c : EndCmd) (k : Bank) (scales : NMap (BitVec 32)) (scale : BitVec 32) (r : Nat) : List Word × Flags :=
  let es := ((k.row r).zip (List.range 128)).map fun p =>
    retireElem c k.int (nget scale scales p.2) p.1
  let w := ofmtWidth c.ofmt
  (packLanes w (64 / w) (2 * w) (es.map Prod.fst), es.foldl (fun f e => f ||| e.2) 0)

/-- One step of `me.end` (R209, R213, R214): it starts once no earlier row of its bank and no token is in the pipeline,
taking the active scales; then one packet at a time at `mc`; it completes when the last has been taken there. -/
def State.endStep (s : State) (c : EndCmd) (r : Run) : State :=
  let m := s.me
  let k := m.bank c.bank
  let busy := m.pipe.any fun p => match p with | .row b _ _ _ _ _ _ => b = c.bank | .token _ _ _ => true
  if !r.work.startSent then
    if k.state ≠ .opened then s.faultAt .me r 0x132 (BitVec.ofNat 64 c.bank.toNat)
    else
      let s := s.setMe (m.setBank c.bank { k with state := .retiring })
      s.setRun .me { r with work := { r.work with startSent := true } }
  else if !r.work.checked then
    if busy then s.setRun .me r
    else
      let scales := (List.range 128).map fun n => (n, (nget m.active.scale m.active.scales n).toNat)
      s.setRun .me { r with
        work := { r.work with
          checked := true, counts := scales, resp := if c.noscl then [] else m.active.scaleResp
          i := if c.drop then k.nrows else 0 } }
  else if r.work.i ≥ k.nrows then
    if c.drop || (s.point s.tile portMc).buf.isEmpty then
      (s.setMe (m.setBank c.bank { k with state := .free })).complete .me r
    else s.setRun .me r
  else
    let scales := r.work.counts.map fun p => (p.1, BitVec.ofNat 32 p.2)
    let (lanes, f) := retireRow c k scales 0 r.work.i
    let per := lanes.length / 8
    let last := r.work.j + 1 = per
    match s.sendMc ((lanes.drop (8 * r.work.j)).take 8) (last && r.work.i + 1 = k.nrows)
        (r.work.resp.join (nget [] k.resps r.work.i)) with
    | none => s.setRun .me r
    | some s =>
      let r := r.raise f
      s.setRun .me { r with
        work := { r.work with i := if last then r.work.i + 1 else r.work.i, j := if last then 0 else r.work.j + 1 } }

/-- ME_END (R214). -/
def execMeEnd (c : EndCmd) (s : State) : Out :=
  match s.resumeMe (.meEnd c) with
  | none => .next s
  | some (r, s) => .next (s.endStep c r)

/-! ### Recurrences and scans (R216, R217) -/

/-- The carry register as a list. -/
def Matrix.carryRow (m : Matrix) : List (BitVec 32) := (List.range 128).map fun n => nget 0 m.carry n

/-- Sets the carry register. -/
def Matrix.setCarry (m : Matrix) (c : List (BitVec 32)) : Matrix :=
  { m with carry := ((List.range 128).zip c).filter fun p => p.2 ≠ 0 }

/-- The 128 FP32 elements that 64 lane words hold. -/
def fp32Row (v : Nat) : List (BitVec 32) := (List.range 128).map fun n => BitVec.ofNat 32 (v / 2 ^ (32 * n))

/-- The carry converted on the delay node to the active latch, under RNE with saturate (R217): element by element, or
into pleat blocks; positions above 127 are zero. -/
def delayNode (latch : BitVec 4) (k : Nat) (c : List (BitVec 32)) : List MCell × Flags :=
  let r : Rounding := { sat := true }
  let vals := c.map fun x => Fmt.fp32.decode false x.toNat
  let pad := fun (l : List MCell) => l ++ List.replicate (k - l.length) { bits := 0 }
  if plBits latch ≠ 0 then
    let blocks := (List.range 8).map fun b =>
      plPack r (plBits latch) ((vals.drop (16 * b)).take 16 |>.map fun v => match v with | .zero _ => .zero false | v => v)
        { gen := 1, flags := 0 }
    (pad (blocks.flatMap fun p => cellsOf latch p.1 16), blocks.foldl (fun f p => f ||| p.2.flags) 0)
  else
    let f : Fmt := match latch.toNat with | 4 => .e4m3 | 5 => .e5m2 | 7 => .bf16 | _ => .fp16
    let es := vals.map fun v => f.convert r v
    (pad (es.map fun e => { bits := BitVec.ofNat 16 e.1 }), es.foldl (fun g e => g ||| e.2) 0)

/-- The next logical tile of the acting tile's region in the cluster's tile chain, if any (R216). -/
def State.nextInChain (s : State) : Option Nat :=
  let rank := rankOf (s.tileEntry s.tile).lcoord
  if (rank + 1) % 24 = 0 then none else nget? (s.places s.tile) (rank + 1)

/-- The eight packets of an FP32 row. -/
def rowPacket (c : List (BitVec 32)) (j : Nat) : List Word :=
  (packLanes 32 2 64 (c.map BitVec.toNat)).drop (8 * j) |>.take 8

/-- One step of a recurrence or a scan (R217). `work.k` is the phase: 0 the carry, 1 the inputs, 2 the packets of h, 3 the
chain. -/
def State.recStep (s : State) (scan : Bool) (c : MeRecCmd) (r : Run) : State :=
  let m := s.me
  let w := r.work
  let goto := fun (s : State) (r : Run) (k : Nat) => s.setRun .me { r with work := { r.work with k := k, j := 0 } }
  if w.k = 0 then
    if c.cin = 1 then
      let m := m.setCarry (List.replicate 128 (match c.initv with | some v => v | none => 0))
      goto (s.setMe { m with carryResp := [] }) r 1
    else if c.cin = 2 then
      match s.gatherWords portMx 64 r 200 with
      | .waits r s => s.setRun .me r
      | .ended r s => goto s { r.raise Flag.len with work := { r.work with finishing := true } } 3
      | .full v r s =>
        let s := s.setMe { s.me.setCarry (fp32Row v) with carryResp := r.work.resp }
        let r := { r with work := { r.work with resp := [] } }
        if r.work.complete then goto s { r.raise Flag.len with work := { r.work with finishing := true } } 3 else goto s r 1
    else goto s r 1
  else if w.k = 1 then
    let r := { r with upc := microCount w.i }
    let k := reduction m.active.latch m.active.sparse
    if m.tokenInPipe || !m.pipe.isEmpty then s.setRun .me r
    else if m.active.latch = 0 || (!scan && m.active.latch = 6) || (scan && !pairs m.active.latch c.afmt) then
      s.faultAt .me r 0x130 (formatTval m.active.latch c.afmt)
    else
      let src := if scan then s.gatherWords portMa (runBits c.afmt k / 64) r 200 else s.gatherWords portMx 64 r 200
      match src with
      | .waits r s => s.setRun .me r
      | .ended r s =>
        goto (if scan && c.cin = 2 then s.dropEnd portMx else s)
          { r.raise Flag.len with work := { r.work with finishing := true } } 3
      | .full v r s =>
        let m := s.me
        let seen := (m.carryResp.join r.work.resp).join m.active.resp
        let (a, f0, base, afmt) :=
          if scan then (cellsOf c.afmt v k, 0, m.carryRow, c.afmt)
          else
            let (a, f) := delayNode m.active.latch k m.carryRow
            (a, f, fp32Row v, m.active.latch)
        let (h, f) := fireRow m.active.weights false afmt a base
        let r := r.raise (f ||| f0 ||| raiseIf r.work.complete Flag.len)
        let r := { r with
          work := { r.work with i := w.i + 1, finishing := r.work.complete, complete := false, resp := [] } }
        goto (s.setMe { m.setCarry h with carryResp := seen }) r 2
  else if w.k = 2 then
    let final := w.finishing || w.i > c.t.toNat
    match s.sendMc (rowPacket m.carryRow w.j) (w.j = 7 && w.i > c.t.toNat) m.carryResp with
    | none => s.setRun .me r
    | some s =>
      if w.j = 7 then
        if final then
          let s := if w.finishing then s else s.dropEnd (if scan then portMa else portMx)
          let s := if scan && c.cin = 2 then s.dropEnd portMx else s
          goto s r 3
        else goto s r 1
      else s.setRun .me { r with work := { w with j := w.j + 1 } }
  else
    match if c.chain then s.nextInChain else none with
    | none => s.complete .me r
    | some t =>
      let pk : Packet := { lanes := rowPacket m.carryRow w.j, pred := BitVec.allOnes 8, sid := 0, resp := m.carryResp }
      match s.enter t portMx pk with
      | none => s.setRun .me r
      | some s => if w.j = 7 then s.complete .me r else s.setRun .me { r with work := { w with j := w.j + 1 } }

/-- ME_REC_REC (R217). -/
def execMeRecRec (c : MeRecCmd) (s : State) : Out :=
  match s.resumeMe (.meRecRec c) with
  | none => .next s
  | some (r, s) => .next (s.recStep false c r)

/-- ME_REC_SCAN (R217). -/
def execMeRecScan (c : MeRecCmd) (s : State) : Out :=
  match s.resumeMe (.meRecScan c) with
  | none => .next s
  | some (r, s) => .next (s.recStep true c r)

/-! ### Drop and grow (R221, R222) -/

/-- The magnitude rank of R222 as an integer that orders it: NaN above infinity above finite values. -/
def absKey (f : Fmt) (b : Nat) : Nat :=
  let v := b % 2 ^ (f.width - 1)
  match f.decode false b with
  | .nan _ => 2 ^ f.width
  | _ => v

/-- The rank of a weight of a dg format. -/
def weightKey (fmt : BitVec 4) (b : Nat) : Nat :=
  match fmt.toNat with
  | 4 => absKey .e4m3 b
  | 5 => absKey .e5m2 b
  | 7 => absKey .bf16 b
  | 8 => absKey .fp16 b
  | _ => (intOfBits true 8 b).natAbs

/-- Inserts into a list sorted by rank, the lower position first among equals. -/
def insertBy (le : Nat × Nat → Nat × Nat → Bool) (x : Nat × Nat) : List (Nat × Nat) → List (Nat × Nat)
  | [] => [x]
  | y :: t => if le x y then x :: y :: t else y :: insertBy le x t

/-- The positions of the `k` first by an order, of pairs of rank and position. -/
def firstBy (le : Nat × Nat → Nat × Nat → Bool) (k : Nat) (l : List (Nat × Nat)) : List Nat :=
  ((l.foldl (fun acc x => (insertBy le x acc).take k) []).map Prod.snd)

/-- The first key of a drop-and-grow that races, as its address. -/
def State.raceAddr (s : State) (r : Run) (writes : List (Nat × Byte)) : Option Nat :=
  (lfind (fun (q : Nat × Byte) => match s.runKey .me r q.1 with
    | some k => (firstRace s r.clock (cmdAgent r.id) [k] true false).isSome
    | none => false) writes).map Prod.fst

/-- The choice of R222 and its writes, with the weights `t` and the gradients `v`. -/
def State.dgWrite (s : State) (c : DgCmd) (r : Run) (t v : Nat) : State :=
  let es := elemBytes c.fmt
  let tile := 16384 * es
  let wOf := fun (p : Nat) => t / 2 ^ (8 * es * p) % 2 ^ (8 * es)
  let mOf := fun (p : Nat) => t.testBit (8 * tile + p)
  let gOf := fun (p : Nat) => v / 2 ^ (32 * p) % 2 ^ 32
  let gmin := match c.gmin with | some g => if (Fmt.fp32.decode false g.toNat).neg then 0 else absKey .fp32 g.toNat | none => 0
  let ps := List.range 16384
  let act := (ps.filter mOf).map fun p => (weightKey c.fmt (wOf p), p)
  let idle := (ps.filter fun p => !mOf p && absKey .fp32 (gOf p) ≥ gmin).map fun p => (absKey .fp32 (gOf p), p)
  let k := c.kcnt.toNat
  let drop := firstBy (fun x y => x.1 < y.1 || (x.1 = y.1 && x.2 ≤ y.2)) k act
  let grow := firstBy (fun x y => x.1 > y.1 || (x.1 = y.1 && x.2 ≤ y.2)) k idle
  let changed := drop ++ grow
  let maskByte := fun (b : Nat) =>
    (List.range 8).foldl (fun x i =>
      let p := 8 * b + i
      if (mOf p && !drop.contains p) || grow.contains p then x + 2 ^ i else x) 0
  let base := c.ext.base.toNat
  let zeros := fun (p : Nat) => (List.range es).filter fun i => wOf p / 2 ^ (8 * i) % 256 ≠ 0
  let writes := (changed.flatMap fun p => (zeros p).map fun i => (base + es * p + i, (0 : Byte)))
    ++ ((changed.map (· / 8)).eraseDups.map fun b => (base + tile + b, BitVec.ofNat 8 (maskByte b)))
  match s.raceAddr r writes with
  | some a => s.faultAt .me { r with work := { r.work with held := (wordsOf 8192 (leBytes 65536 v)).reverse } } 0x201 (BitVec.ofNat 64 a)
  | none =>
    let cells := writes.filterMap fun q => (s.runKey .me r q.1).map fun x => (x, q.2)
    let s := s.write r.clock (cmdAgent r.id) cells false false
    let cellAt := fun (p : Nat) => ({ bits := BitVec.ofNat 16 (wOf p) } : MCell)
    let hist := drop.foldl (fun h p => histDrop s.ticks h (histBin c.fmt (cellAt p))) s.me.hist
    let hist := grow.foldl (fun h _ => histAdd h 0) hist
    ((s.setMe { s.me with hist := hist }).dropEnd portMa).complete .me r

/-- ME_DG (R222): the tile is read first and held; then the gradients gather at `ma`; then one step chooses and writes. -/
def State.dgStep (s : State) (c : DgCmd) (r : Run) : State :=
  match nget? r.work.counts 0 with
  | none =>
    match s.readColumn r c.ext 0 (16384 * elemBytes c.fmt + 2048) c.pois with
    | .waits r s => s.setRun .me r
    | .fault r code tval => s.faultAt .me r code tval
    | .value t r s => s.setRun .me { r with work := { r.work with counts := [(0, t)] } }
  | some t =>
    match s.gatherWords portMa 8192 r 9000 with
    | .waits r s => s.setRun .me r
    | .ended r s => s.complete .me (r.raise Flag.len)
    | .full v q u =>
      if (s.runKeys .me r c.ext.base.toNat c.ext.bytes).any fun ks => ks.any (s.held s.tile) then s.setRun .me r
      else if q.work.complete then u.complete .me (q.raise Flag.len)
      else u.dgWrite c q t v

/-- ME_DG (R222). -/
def execMeDg (c : DgCmd) (s : State) : Out :=
  match s.resumeMe (.meDg c) with
  | none => .next s
  | some (r, s) => .next (s.dgStep c r)

end Sys2Proof.Machine
end

