-- ==== Sys2Proof/Machine/Contract.lean ====
section
/-! DEFINITION. Contractions: the parameter block and its checks (R259-R262), and what C comes to (R263). -/

namespace Sys2Proof.Machine

open Sys2Proof

/-! ### The parameter block (R259, R260) -/

/-- A field of a block word. -/
def wordField (w : Word) (hi lo : Nat) : Nat := w.toNat / 2 ^ lo % 2 ^ (hi - lo + 1)

/-- An operand descriptor of R260. -/
structure Operand where
  kind : Nat
  efmt : BitVec 4
  iw : Nat
  blk : Nat
  lets : List Nat
  nnz : Nat
  vbase : Nat
  vlen : Nat
  ibase : Nat
  ilen : Nat
  pbase : Nat
  plen : Nat
  tid : BitVec 24
  ld : Nat
  clean : Bool
deriving DecidableEq, Repr

/-- Reads an operand descriptor. -/
def operandOf (ws : List Word) : Operand :=
  let w := lget 0 ws 0
  let rank := wordField w 49 48 + 1
  let all := [wordField w 47 45, wordField w 44 42, wordField w 41 39, wordField w 38 36]
  { kind := wordField w 63 60, efmt := BitVec.ofNat 4 (wordField w 59 56), iw := wordField w 55 54
    blk := 2 ^ (wordField w 53 51 + 2), lets := all.take rank, nnz := wordField w 31 0
    vbase := (lget 0 ws 1).toNat, vlen := wordField (lget 0 ws 2) 39 0, ibase := (lget 0 ws 3).toNat
    ilen := wordField (lget 0 ws 4) 39 0, pbase := (lget 0 ws 5).toNat, plen := wordField (lget 0 ws 6) 39 0
    tid := BitVec.ofNat 24 (wordField (lget 0 ws 7) 63 40), ld := wordField (lget 0 ws 7) 39 0
    clean := wordField w 50 50 = 0 && wordField w 35 32 = 0 && (all.drop rank).all (· = 0)
      && wordField (lget 0 ws 2) 63 40 = 0 && wordField (lget 0 ws 4) 63 40 = 0 && wordField (lget 0 ws 6) 63 40 = 0 }

/-- A parameter block. -/
structure ContractBlock where
  version : Nat
  nlet : Nat
  acc : Bool
  sat : Bool
  rnd : Nat
  zero : Bool
  dims : List Nat
  a : Operand
  b : Operand
  c : Operand
deriving DecidableEq, Repr

/-- Reads the 32 words of a parameter block. -/
def contractBlock (ws : List Word) : ContractBlock :=
  let w := lget 0 ws 0
  { version := wordField w 63 56, nlet := wordField w 55 52, acc := w.getLsbD 51, sat := w.getLsbD 50, rnd := wordField w 49 47
    zero := wordField w 46 0 = 0 && ((ws.drop 5).take 3).all (· = 0)
    dims := ((ws.drop 1).take 4).flatMap fun d => [wordField d 31 0, wordField d 63 32]
    a := operandOf ((ws.drop 8).take 8), b := operandOf ((ws.drop 16).take 8), c := operandOf ((ws.drop 24).take 8) }

/-! ### Layouts (R261) -/

/-- The size of a letter. -/
def dimOf (dims : List Nat) (l : Nat) : Nat := lget 1 dims l

/-- The product of the sizes of letters. -/
def sizeOf (dims ls : List Nat) : Nat := ls.foldl (fun n l => n * dimOf dims l) 1

/-- The bytes of an index. -/
def Operand.indexBytes (o : Operand) : Nat := 2 * 2 ^ o.iw

/-- The bytes that `n` elements side by side take: whole blocks of a PL format; an OFMT of R213 for C. -/
def Operand.runBytes (o : Operand) (isC : Bool) (n : Nat) : Nat :=
  if isC then n * ofmtWidth (o.efmt.setWidth 3) / 8
  else if plBits o.efmt ≠ 0 then (n + 15) / 16 * plBlock o.efmt / 8
  else n * elemBytes o.efmt

/-- The innermost letter. -/
def Operand.inner (o : Operand) : Nat := lget 0 o.lets (o.lets.length - 1)

/-- The dense runs of an operand along its innermost letter: for each combination of the outer letters, outermost first, where it
begins. LD is the stride of the outermost letter, which a rank of 1 does not have (log entry 22). -/
def Operand.runStarts (o : Operand) (dims : List Nat) (isC : Bool) : List Nat :=
  let run := o.runBytes isC (dimOf dims o.inner)
  match o.lets with
  | l :: (rest@(_ :: _)) =>
    let between := sizeOf dims (rest.take (rest.length - 1))
    (List.range (dimOf dims l)).flatMap fun i =>
      (List.range between).map fun j => (if o.ld = 0 then i * between * run else i * o.ld) + j * run
  | _ => [0]

/-- The blocks of a block-sparse operand along a letter. -/
def Operand.blocks (o : Operand) (dims : List Nat) (l : Nat) : Nat := (dimOf dims l + o.blk - 1) / o.blk

/-- The rows that an operand's pointers run over: rows of CSR, columns of CSC, block rows. -/
def Operand.pointerRows (o : Operand) (dims : List Nat) : Nat :=
  match o.kind with
  | 1 => dimOf dims (lget 0 o.lets 0)
  | 2 => dimOf dims (lget 0 o.lets 1)
  | _ => o.blocks dims (lget 0 o.lets 0)

/-- What an operand's indices of R261 run over: columns of CSR, rows of CSC, block columns. -/
def Operand.indexRows (o : Operand) (dims : List Nat) : Nat :=
  match o.kind with
  | 1 => dimOf dims (lget 0 o.lets 1)
  | 2 => dimOf dims (lget 0 o.lets 0)
  | _ => o.blocks dims (lget 0 o.lets 1)

/-- The letter along which the groups of eight of a four-of-eight operand run: the innermost that C lacks, else the innermost. -/
def Operand.groupLetter (o : Operand) (c : Operand) : Nat :=
  match (o.lets.filter fun l => !c.lets.contains l).getLast? with | some l => l | none => o.inner

/-- The columns of a four-of-eight operand, and the groups of eight in each. -/
def Operand.columns (o : Operand) (dims : List Nat) (c : Operand) : Nat × Nat :=
  let l := o.groupLetter c
  (sizeOf dims (o.lets.filter (· ≠ l)), (dimOf dims l + 7) / 8)

/-- The bytes that an operand needs for its dimensions and NNZ: values, indices (R262). For blocks NNZ counts the elements of the stored
blocks (log entry 22). -/
def Operand.needs (o : Operand) (dims : List Nat) (isC : Bool) (c : Operand) : Nat × Nat :=
  match o.kind with
  | 0 => (((o.runStarts dims isC).foldl max 0) + o.runBytes isC (dimOf dims o.inner), 0)
  | 1 | 2 => (o.runBytes isC o.nnz, o.nnz * o.indexBytes)
  | 3 => (o.runBytes isC o.nnz, 2 * o.nnz * o.indexBytes)
  | 4 => (o.runBytes isC o.nnz, (o.nnz + o.blk * o.blk - 1) / (o.blk * o.blk) * o.indexBytes)
  | _ => let (cols, groups) := o.columns dims c; (cols * o.runBytes isC (4 * groups), cols * groups)

/-- Whether an operand's lengths are too short, or its pointer length is wrong (R262). -/
def shortOperand (dims : List Nat) (isC : Bool) (c o : Operand) : Bool :=
  let (v, i) := o.needs dims isC c
  o.vlen < v || o.ilen < i
    || ((o.kind = 1 || o.kind = 2 || o.kind = 4) && o.plen ≠ (o.pointerRows dims + 1) * o.indexBytes)

/-- Whether two byte ranges meet. -/
def rangesMeet (a n b m : Nat) : Bool := 0 < n && 0 < m && a < b + m && b < a + n

/-- Whether a parameter block is defective (R259, R260, R262). -/
def contractDefect (ws : List Word) : Bool :=
  let k := contractBlock ws
  let (a, b, c) := (k.a, k.b, k.c)
  let fmtOk := fun (o : Operand) => 1 ≤ o.efmt.toNat && o.efmt.toNat ≤ 9
  let pair := fun (x y : Operand) => x.efmt ≠ 9 && pairs x.efmt y.efmt
  k.version ≠ 1 || k.nlet < 2 || k.nlet > 8 || k.rnd > 4 || !k.zero
    || (List.range k.nlet).any (fun l => lget 0 k.dims l = 0)
    || !a.clean || !b.clean || !c.clean || a.kind > 5 || b.kind > 5 || a.iw = 3 || b.iw = 3 || c.iw = 3
    || !fmtOk a || !fmtOk b || c.efmt.toNat > 6
    || (a.lets ++ b.lets ++ c.lets).any (fun l => l ≥ k.nlet)
    || (a.lets ++ b.lets).any (fun l => !c.lets.contains l && !(a.lets.contains l && b.lets.contains l))
    || c.lets.any (fun l => a.lets.contains l == b.lets.contains l)
    || [a, b].any (fun o => 1 ≤ o.kind && o.kind ≤ 4 && o.lets.length ≠ 2)
    || [a, b].any (fun o => o.kind = 4 && o.blk > 128)
    || c.kind ≠ 0
    || (a.kind ≠ 0 && b.kind ≠ 0)
    || [a, b].any (fun o => plBits o.efmt ≠ 0 && o.kind ≠ 0 && o.kind ≠ 5)
    || !(pair a b || pair b a)
    || shortOperand k.dims false c a || shortOperand k.dims false c b || shortOperand k.dims true c c
    || [a, b].any (fun o =>
      rangesMeet c.vbase c.vlen o.vbase o.vlen || rangesMeet c.vbase c.vlen o.ibase o.ilen
        || rangesMeet c.vbase c.vlen o.pbase o.plen)

/-! ### Elements (R261) -/

/-- The letters of a set of positions: a value for each, by letter. -/
abbrev Indices := NMap Nat

/-- A letter's index. -/
def Indices.at (ix : Indices) (l : Nat) : Nat := nget 0 ix l

/-- All combinations of the indices of letters, outermost first. -/
def combinations (dims : List Nat) : List Nat → List Indices
  | [] => [[]]
  | l :: ls => (List.range (dimOf dims l)).flatMap fun i => (combinations dims ls).map fun ix => nset ix l i

/-- The position of indices among the combinations of letters. -/
def linearOf (dims : List Nat) (ls : List Nat) (ix : Indices) : Nat := ls.foldl (fun n l => n * dimOf dims l + ix.at l) 0

/-- Element `i` of a run of elements at an address, as `rd` reads memory. -/
def readCell (rd : Nat → Nat → Nat) (fmt : BitVec 4) (base i : Nat) : MCell :=
  let (n, k) := if plBits fmt ≠ 0 then (16, plBlock fmt / 8) else (1, elemBytes fmt)
  lget { bits := 0 } (cellsOf fmt (rd (base + i / n * k) k) n) (i % n)

/-- The address where the dense run of indices begins. -/
def Operand.runAt (o : Operand) (dims : List Nat) (isC : Bool) (ix : Indices) : Nat :=
  o.vbase + lget 0 (o.runStarts dims isC) (linearOf dims (o.lets.take (o.lets.length - 1)) ix)

/-- Index `j` of an operand's index array, and of its pointers. -/
def Operand.index (o : Operand) (rd : Nat → Nat → Nat) (j : Nat) : Nat := rd (o.ibase + j * o.indexBytes) o.indexBytes
def Operand.pointer (o : Operand) (rd : Nat → Nat → Nat) (j : Nat) : Nat := rd (o.pbase + j * o.indexBytes) o.indexBytes

/-- The stored position of an index within a row that the pointers name. -/
def Operand.stored (o : Operand) (rd : Nat → Nat → Nat) (row i : Nat) : Option Nat :=
  let lo := o.pointer rd row
  lfind (fun j => o.index rd j = i) (rangeFrom lo (o.pointer rd (row + 1) - lo))

/-- The element of an operand at some indices; none where it is absent. -/
def Operand.cell (o : Operand) (dims : List Nat) (c : Operand) (rd : Nat → Nat → Nat) (ix : Indices) : Option MCell :=
  let x := ix.at (lget 0 o.lets 0)
  let y := ix.at (lget 0 o.lets 1)
  let value := readCell rd o.efmt o.vbase
  match o.kind with
  | 0 => some (readCell rd o.efmt (o.runAt dims false ix) (ix.at o.inner))
  | 1 => (o.stored rd x y).map value
  | 2 => (o.stored rd y x).map value
  | 3 => (lfind (fun j => o.index rd (2 * j) = x && o.index rd (2 * j + 1) = y) (List.range o.nnz)).map value
  | 4 =>
    (o.stored rd (x / o.blk) (y / o.blk)).map fun j => value (j * o.blk * o.blk + x % o.blk * o.blk + y % o.blk)
  | _ =>
    let l := o.groupLetter c
    let (_, groups) := o.columns dims c
    let col := linearOf dims (o.lets.filter (· ≠ l)) ix
    let k := ix.at l
    let mask := rd (o.ibase + col * groups + k / 8) 1
    if mask.testBit (k % 8) then
      let before := ((List.range (k % 8)).filter fun i => mask.testBit i).length
      some (readCell rd o.efmt (o.vbase + col * o.runBytes false (4 * groups)) (k / 8 * 4 + before))
    else none

/-- The bytes that an operand's elements and index arrays stand in, as runs. -/
def Operand.ranges (o : Operand) (dims : List Nat) (isC : Bool) (c : Operand) (rd : Nat → Nat → Nat) : List (Nat × Nat) :=
  let ptr := [(o.pbase, (o.pointerRows dims + 1) * o.indexBytes)]
  let (v, i) := o.needs dims isC c
  match o.kind with
  | 0 => (o.runStarts dims isC).map fun p => (o.vbase + p, o.runBytes isC (dimOf dims o.inner))
  | 1 | 2 => [(o.vbase, v), (o.ibase, i)] ++ ptr
  | 4 =>
    let n := o.pointer rd (o.pointerRows dims)
    [(o.vbase, o.runBytes isC (n * o.blk * o.blk)), (o.ibase, n * o.indexBytes)] ++ ptr
  | _ => [(o.vbase, v), (o.ibase, i)]

/-- A defect of an operand's index arrays, as the fault that the command which meets it raises (R262): an index or a pointer that names
nothing of the operand is ENG_BOUND, a mask of R201 without four bits MALFORMED_MASK (R205). -/
def Operand.indexFault (o : Operand) (dims : List Nat) (c : Operand) (rd : Nat → Nat → Nat) : Option (BitVec 12 × Word) :=
  let bound := fun (a : Nat) => ((0x105 : BitVec 12), BitVec.ofNat 64 a)
  let ib := o.indexBytes
  let badPtr := fun (n : Nat) => (lfind (fun j =>
    o.pointer rd j > o.pointer rd (j + 1) || o.pointer rd (j + 1) > n) (List.range (o.pointerRows dims))).map fun j =>
      bound (o.pbase + (j + 1) * ib)
  let badIndex := fun (n lim : Nat) => (lfind (fun j => o.index rd j ≥ lim) (List.range n)).map fun j => bound (o.ibase + j * ib)
  match o.kind with
  | 0 => none
  | 1 | 2 => match badPtr o.nnz with | some f => some f | none => badIndex o.nnz (o.indexRows dims)
  | 3 =>
    (lfind (fun j => o.index rd (2 * j) ≥ dimOf dims (lget 0 o.lets 0) || o.index rd (2 * j + 1) ≥ dimOf dims (lget 0 o.lets 1))
      (List.range o.nnz)).map fun j => bound (o.ibase + 2 * j * ib)
  | 4 =>
    let n := min (o.ilen / ib) (o.vlen / (o.runBytes false (o.blk * o.blk)))
    match badPtr n with
    | some f => some f
    | none => badIndex (o.pointer rd (o.pointerRows dims)) (o.indexRows dims)
  | _ =>
    let (cols, groups) := o.columns dims c
    (lfind (fun p => (badMask 1 0 (rd (o.ibase + p) 1)).isSome) (List.range (cols * groups))).map fun p =>
      (0x123, BitVec.ofNat 64 (p / groups * 2 ^ 14 + p % groups * 2 ^ 8 + rd (o.ibase + p) 1))

/-! ### The sum and C (R263) -/

/-- A list in pieces of at most sixteen. -/
def sixteens : Nat → List α → List (List α)
  | 0, _ => []
  | n + 1, l => if l.isEmpty then [] else l.take 16 :: sixteens n (l.drop 16)

/-- The groups in which the array takes `n` reduction positions: the microcode's choice (R263), in ascending order of position (R51). -/
def contractGroups (ws : List Word) (n : Nat) : List (List Nat) :=
  let key := Config.contractGroup ws
  let keys := ((List.range n).map key).eraseDups
  keys.flatMap fun g => sixteens n ((List.range n).filter fun p => key p = g)

/-- Whether a contraction sums integers (R200). -/
def ContractBlock.isInt (k : ContractBlock) : Bool := k.a.efmt = 6 || k.a.efmt = 9

/-- One group of products into the accumulator of an element (R47, R48); an absent element contributes nothing. -/
def ContractBlock.group (k : ContractBlock) (acc : BitVec 32) (ps : List (Option MCell × Option MCell)) : BitVec 32 × Flags :=
  let kept := ps.filterMap fun p => match p.1, p.2 with | some x, some y => some (x, y) | _, _ => none
  if k.isInt then
    accGroupInt k.sat acc (kept.foldl (fun x p => x + cellInt k.a.efmt p.1 * cellInt k.b.efmt p.2) 0)
  else accGroup k.sat acc (kept.map fun p => (cellVal k.a.efmt p.1, cellVal k.b.efmt p.2))

/-- The value that an element of C holds. -/
def ofmtVal (o : BitVec 4) (b : Nat) : Val :=
  match ofmtFloat (o.setWidth 3) with
  | some f => f.decode false b
  | none => valOfInt (intOfBits true (ofmtWidth (o.setWidth 3)) b)

/-- The sum of an accumulator and an element of C, each held exactly (R175, R263). -/
def plusValue (rdn : Bool) (a b : Val) : Val × Flags :=
  if a.isNan || b.isNan then (.nan false, raiseIf (a.isSnan || b.isSnan) Flag.nv)
  else match sumOf rdn [a, b] with | some v => (v, 0) | none => (.nan false, Flag.nv ||| Flag.nf)

/-- An element of C from the sum and from what stood there, rounded once by RND and SAT (R213, R214, R263). -/
def ContractBlock.result (k : ContractBlock) (sum : BitVec 32) (old : Nat) : Nat × Flags :=
  let o := k.c.efmt.setWidth 3
  let w := ofmtWidth o
  let r : Rounding := { rnd := rndOf (BitVec.ofNat 3 k.rnd), sat := k.sat }
  if k.isInt && (ofmtFloat o).isNone then
    let i := sum.toInt + (if k.acc then intOfBits true w old else 0)
    if k.sat && i > 2 ^ (w - 1) - 1 then (2 ^ (w - 1) - 1, Flag.sat)
    else if k.sat && i < -(2 ^ (w - 1)) then (2 ^ (w - 1), Flag.sat)
    else ((i % 2 ^ w).toNat, 0)
  else
    let v := if k.isInt then valOfInt sum.toInt else Fmt.fp32.decode false sum.toNat
    let (v, f) := if k.acc then plusValue (r.rnd = .rdn) v (ofmtVal k.c.efmt old) else (v, 0)
    let (b, g) := match ofmtFloat o with | some fm => fm.convert r v | none => toInteger true w r v
    (b, f ||| g)

/-- The letters that A and B share and C lacks. -/
def ContractBlock.contracted (k : ContractBlock) : List Nat := (k.a.lets.filter fun l => !k.c.lets.contains l).eraseDups

/-- The elements of C as cells at their addresses, with the flags raised (R259, R263). -/
def ContractBlock.elements (k : ContractBlock) (ws : List Word) (rd : Nat → Nat → Nat) : List (Nat × Byte) × Flags :=
  let sums := combinations k.dims k.contracted
  let groups := contractGroups ws sums.length
  (combinations k.dims k.c.lets.eraseDups).foldl (fun (out : List (Nat × Byte) × Flags) ix =>
    let ps := sums.map fun t =>
      let all := t.foldl (fun (m : Indices) p => nset m p.1 p.2) ix
      (k.a.cell k.dims k.c rd all, k.b.cell k.dims k.c rd all)
    let (acc, f) := groups.foldl (fun (x : BitVec 32 × Flags) g =>
      let (v, fl) := k.group x.1 (g.map fun p => lget (none, none) ps p)
      (v, x.2 ||| fl)) (0, 0)
    let n := ofmtWidth (k.c.efmt.setWidth 3) / 8
    let at_ := k.c.runAt k.dims true ix + ix.at k.c.inner * n
    let (b, g) := k.result acc (if k.acc then rd at_ n else 0)
    (out.1 ++ cellsFrom at_ (leBytes n b), out.2 ||| f ||| g)) ([], 0)

/-! ### Memory (R263, R288) -/

/-- The memory key of an address that a context of the acting tile's region names. -/
def State.contractKey (s : State) (a : Nat) : Option Nat :=
  if isScratchAddr a then logicalKey (s.places s.tile) a
  else match s.regionAt s.tile with | some r => s.vaKey r.space a | none => none

/-- One address of each page of device memory that a contraction writes C through, with the start of the run of C that it stands for. -/
def contractPages (ws : List Word) : List (Nat × Nat) :=
  let k := contractBlock ws
  (k.c.ranges k.dims true k.c fun _ _ => 0).flatMap fun p =>
    if p.2 = 0 || isScratchAddr p.1 then []
    else (List.range (p.2 / 65536 + 2)).map fun i => (min (p.1 + i * 65536) (p.1 + p.2 - 1), p.1)

/-- The first page of C that is not mapped with W, as the walk of its extent meets it (R331): its first byte, or the start of C there. -/
def State.contractBarred (s : State) (ws : List Word) : Option Word :=
  match s.regionAt s.tile with
  | none => none
  | some r =>
    (lfind (fun p : Nat × Nat => match s.walk r.space p.1 with | .page _ w _ _ => !w | .moving _ => false | _ => true)
      (contractPages ws)).map fun p => BitVec.ofNat 64 (max (p.1 / 65536 * 65536) p.2)

/-- The pages that a contraction writes C through, dirty (R331). -/
def State.contractDirty (s : State) (ws : List Word) : State :=
  match s.regionAt s.tile with
  | none => s
  | some r => { s with mem := memPut s.mem ((contractPages ws).flatMap fun p => s.dirtyCells r.space p.1 1) }

/-- What the end of a contraction comes to. -/
inductive ContractEnd
  | waits
  | fault (code : BitVec 12) (tval : Word)
  | done (flags : Flags) (clock : Clock) (s : State)
deriving DecidableEq, Repr

/-- The addresses of runs of bytes. -/
def runAddrs (rs : List (Nat × Nat)) : List Nat := rs.flatMap fun p => rangeFrom p.1 p.2

/-- Reads bytes of operands as a contraction does: none where all may be read, else the wait or the fault. -/
def State.contractReads (s : State) (clock : Clock) (agent : Nat) (addrs : List Nat) (write : Bool) : Option ContractEnd :=
  match lfind (fun a => (s.contractKey a).isNone) addrs with
  | some a => some (.fault 0x105 (BitVec.ofNat 64 a))
  | none =>
    let keyed := addrs.filterMap fun a => (s.contractKey a).map fun k => (k, a)
    let keys := keyed.map Prod.fst
    let named := fun (k : Nat) => match lfind (fun p : Nat × Nat => p.1 = k) keyed with | some p => p.2 | none => 0
    if keys.any (s.held s.tile) then some .waits
    else
      match if write then none else firstPoison s keys, firstRace s clock agent keys write false with
      | some k, _ => some (.fault 0x110 (sectorAddr (named k)))
      | none, some k => some (.fault 0x201 (BitVec.ofNat 64 (named k)))
      | none, none => none

/-- C takes its values (R263), as the work of the last section of an expansion: A, B and, with ACC, C are read, and C is written. -/
def State.contraction (s : State) (j : Contraction) (clock : Clock) : ContractEnd :=
  let k := contractBlock j.block
  let agent := cmdAgent j.cmd
  let rd := fun (a n : Nat) => leNat ((rangeFrom a n).map fun x => match s.contractKey x with | some y => memGet s.mem y | none => 0)
  let index := fun (o : Operand) => if o.kind = 0 then none else o.indexFault k.dims k.c rd
  let pointers := fun (o : Operand) =>
    if o.kind = 0 then [] else runAddrs [(o.ibase, o.ilen), (o.pbase, o.plen)]
  let reads := runAddrs (k.a.ranges k.dims false k.c rd ++ k.b.ranges k.dims false k.c rd
    ++ (if k.acc then k.c.ranges k.dims true k.c rd else []))
  match s.contractReads clock agent (pointers k.a ++ pointers k.b) false with
  | some r => r
  | none =>
    match index k.a, index k.b with
    | some f, _ => .fault f.1 f.2
    | none, some f => .fault f.1 f.2
    | none, none =>
      match s.contractReads clock agent reads false with
      | some r => r
      | none =>
        let (cells, flags) := k.elements j.block rd
        match s.contractReads clock agent (cells.map Prod.fst) true with
        | some r => r
        | none =>
          let keys := (reads ++ pointers k.a ++ pointers k.b).filterMap s.contractKey
          let s := noteRead s clock agent keys false
          let put := cells.filterMap fun p => (s.contractKey p.1).map fun x => (x, p.2)
          .done flags (clock.release agent) (s.write clock agent put false false)

end Sys2Proof.Machine
end

