-- ==== Sys2Proof/Machine/Enqueue.lean ====
section
/-! DEFINITION. Feeding the engines: pushes of words and headers with their checks and translation (R63, R94-R97, R224,
R331-R334), queue status (R98), forks (R99-R102), contractions (R116, R259-R263), flag gathering (R117, R118). -/

namespace Sys2Proof.Machine

open Sys2Proof

/-! ### Extents at a push -/

/-- What the translation of an extent comes to (R95, R331). -/
inductive Translated
  | ready (frames : List Frame) (s : State)
  | walk
  | stall
  | trap (code : BitVec 12) (tval : Word)
deriving DecidableEq, Repr

/-- The address space of the acting tile's region. -/
def State.spaceHere (s : State) : Nat := match s.regionAt s.tile with | some r => r.space | none => 0

/-- Sets D of a leaf that is written through (R331), in its table and as cached; a walk leaves its pointers in the walk cache (R332). -/
def State.useLeaf (s : State) (wr : Bool) (e : TlbEntry) : State :=
  let set := wr && !e.d
  let e := if set then { e with d := true } else e
  let t := s.tileAt s.tile
  let passed := match tlbFind t.tlb e.space e.frame.va, nget? s.spaces e.space with
    | none, some root => walkPtrs s.mem e.space e.frame.va root pageLevels
    | _, _ => []
  let s := s.setTile s.tile { t with tlb := tlbFill t.tlb e, walkCache := walkFill t.walkCache passed }
  if set then { s with mem := memPutNat s.mem e.pte 1 (memNat s.mem e.pte 1 ||| 0x10) } else s

/-- Raises the pins of an extent's pages (R333). -/
def State.pin (s : State) (space : Nat) (frames : List Frame) : State :=
  let t := s.tileAt s.tile
  s.setTile s.tile { t with pins := frames.foldl (fun ps f => raisePin ps space f.va) t.pins }

/-- Translates an extent for the acting tile (R95, R331-R333): its pages in ascending order, then their count, then room
in the pin table. -/
def State.translateFor (s : State) (walked wr : Bool) (base len : Nat) : Translated :=
  let t := s.tileAt s.tile
  match s.translateExtent t walked s.spaceHere base len wr with
  | .miss => .walk
  | .moving => .walk
  | .unmapped va => .trap 0x020 (BitVec.ofNat 64 va)
  | .ok leaves =>
    let fresh := leaves.filter fun e => !t.pins.any fun p => p.space = s.spaceHere && p.va = e.frame.va
    if leaves.length > 16 then .trap 0x017 (BitVec.ofNat 64 base)
    else if t.pins.length + fresh.length > 1024 then .stall
    else .ready (leaves.map (·.frame)) (leaves.foldl (fun s e => s.useLeaf wr e) s)

/-- Whether a command writes through its extent number `n` (R331). -/
def writtenThrough (e : Engine) (lead : EngineWord) (n : Nat) : Bool :=
  match e, lead.op.toNat with
  | .se, 1 => fB lead 83
  | .se, 2 => fB lead 83
  | .ce, 1 => n = 1
  | .ce, 2 => true
  | .ae, 5 => true
  | .me, 11 => true
  | .sa, 2 => true
  | .sa, 3 => n = 1
  | .sa, _ => true
  | .ne, 1 => n = 1
  | .ne, 2 => n = 0
  | .ne, 3 => true
  | .ne, 4 => true
  | .ne, 7 => true
  | .tk, 2 => !fB lead 75
  | .tk, 3 => true
  | .tk, 4 => !fB lead 75
  | _, _ => false

/-- The base check of R63: a reserved space, or a scratchpad address that R33 calls invalid. -/
def State.badBase (s : State) (base : Nat) : Bool :=
  if isScratchAddr base then (logicalKey (s.places s.tile) base).isNone else base / 2 ^ 56 ≠ 0

/-! ### The overlap check (R224) -/

/-- The lead word beside each extent of the commands that an engine has enqueued and not completed. -/
def EngineSt.liveExts (g : EngineSt) : List (EngineWord × Ext) :=
  let lead := fun (c : Nat) => match lfind (fun q => q.cmd = c) g.queue with | some q => q.word | none => 0
  (g.queue.filter (fun q => q.word.op ≠ 0xFF && q.word.isExt)).map (fun q => (lead q.cmd, extOf q.word))
    ++ g.runs.flatMap fun r =>
      match encodeCmd r.instr with
      | some (_, ws) => (extsOf ws).map fun x => (lget 0 ws 0, x)
      | none => []

/-- Whether an ME command's extents are multiplicands. -/
def isMultiplicand (lead : EngineWord) : Bool :=
  let op := lead.op.toNat
  op = 1 || op = 8 || op = 9 || op = 10 || op = 11

/-- Whether an ME command permits the overlap in place. -/
def inPlace (lead : EngineWord) : Bool :=
  match lead.op.toNat with
  | 1 | 8 => fB lead 77
  | 9 => fB lead 78
  | _ => false

/-- Whether an SE command's extent is a result: a write stream from `mc`. -/
def isResult (lead : EngineWord) : Bool :=
  let op := lead.op.toNat
  (op = 1 || op = 2) && fB lead 83 && fF lead 78 5 = 0x15

/-- Whether a new extent overlaps one of the other kind without permission (R224). -/
def State.operandOverlap (s : State) (e : Engine) (lead : EngineWord) (x : Ext) : Bool :=
  match e with
  | .me => isMultiplicand lead && !inPlace lead && (s.eng .se).liveExts.any fun p => isResult p.1 && overlap x p.2
  | .se =>
    isResult lead && (s.eng .me).liveExts.any fun p => isMultiplicand p.1 && !inPlace p.1 && overlap x p.2
  | _ => false

/-! ### Pushing -/

/-- The maps that are LOST and that no queued `tk.free` names (R283). -/
def State.lostMaps (s : State) : List Nat :=
  let freed := ((s.eng .tk).queue.filter fun q => q.word.op = 6).map fun q => (fF q.word 76 4).toNat
  (List.range 16).filter fun m => (nget {} (s.tileAt s.tile).maps m).state = .lost && !freed.contains m

/-- What the commands' own checks read. -/
def State.checkEnv (s : State) : CheckEnv :=
  { cluster := s.ownCluster, ranks := (s.places s.tile).map Prod.fst, chainLast := s.nextInChain.isNone
    lost := s.lostMaps }

/-- Whether a fork's claim is on the queue: its program call queued or its program in fetch (R100). -/
def EngineSt.forked (g : EngineSt) : Bool := g.program.isSome || g.queue.any (fun q => q.word.op = 0xFE)

/-- Whether a push by a context stalls for the queue (R22, R94, R100). -/
def EngineSt.busyFor (g : EngineSt) (owner : Nat) : Bool := g.queue.length ≥ 64 || g.claimedByOther owner || g.forked

/-- What a push comes to. -/
inductive Pushed
  | stall
  | walk
  | trap (code : BitVec 12) (tval : Word)
  | done (s : State)
deriving DecidableEq, Repr

/-- The offered word enters the queue (R63, R94): a lead word opens a command of its own, the last one of the section ends
the claim. -/
def State.pushWord (s : State) (e : Engine) (w : EngineWord) (frames : Option (List Frame)) : State :=
  let s := s.release
  let g := s.eng e
  match g.unfinished s.key with
  | none => s
  | some q =>
    let o : OpenCmd := match g.opened with
      | some o => o
      | none => { op := w.op, last := 0, exts := 0, words := [], cmd := s.nextAgent }
    let s := if g.opened.isNone then { s with nextAgent := s.nextAgent + 1 } else s
    let o := { o with
      last := w.widx.toNat, exts := if w.isExt then o.exts + 1 else o.exts, words := o.words ++ [w] }
    let g := { g with
      queue := g.queue ++ [({ word := w, sect := q.num, cmd := o.cmd, begun := s.ctx.clock } : QWord)]
      opened := if w.last then none else some o
      claim := if q.left = 1 then none else g.claim }
    let g := g.modSect q.num fun (q : Sect) => { q with left := q.left - 1 }
    match frames with
    | none => s.setEng e g
    | some fs =>
      let x := extOf w
      let entry : ExtEntry :=
        { base := x.base, len := x.bytes, frames := fs, tag := o.cmd, space := s.spaceHere }
      let g := match g.freeExtent with
        | some i => { g with extents := nset g.extents i entry }
        | none => g
      (s.setEng e g).pin s.spaceHere fs

/-- Offers a word to an engine's queue (R63, R94, R95): the stalls, the checks in their order, the translation. -/
def State.offer (s : State) (e : Engine) (w : EngineWord) (walked : Bool) : Pushed :=
  let g := s.eng e
  let tval : Word := (w.extractLsb' 64 32).setWidth 64
  let x := extOf w
  let deviceExt := w.isExt && !isScratchAddr x.base.toNat
  if g.busyFor s.key || (deviceExt && g.freeExtent.isNone) then .stall
  else
    match g.unfinished s.key with
    | none => .trap 0x013 tval
    | some q =>
      let o : Offer := { ws := (match g.opened with | some c => c.words | none => []) ++ [w] }
      match sequenceDefect e o (q.left = 1) with
      | some c => .trap c tval
      | none =>
        match firstDefect (cmdChecks s.checkEnv e o) with
        | some c => .trap c tval
        | none =>
          if !w.isExt then .done (s.pushWord e w none)
          else if extTooLong x then .trap 0x016 tval
          else if s.badBase x.base.toNat then .trap 0x020 x.base
          else if s.operandOverlap e o.lead x then .trap 0x023 x.base
          else if !deviceExt then .done (s.pushWord e w none)
          else
            match s.translateFor walked (writtenThrough e o.lead o.extNo) x.base.toNat x.bytes with
            | .walk => .walk
            | .stall => .stall
            | .trap c v => .trap c v
            | .ready fs s => .done (s.pushWord e w (some fs))

/-- The dependency checks of a header (R62). -/
def State.depsInRange (s : State) (e : Engine) (deps : BitVec 54) : Bool :=
  (depsOf e deps).all fun p => reached (s.eng p.1).enq p.2

/-- Adds a section to an engine: the next number, the header in the queue (R61). -/
def EngineSt.addSect (g : EngineSt) (owner : Nat) (payload : Word) (kind : SectKind) (prog : Option Nat)
    (begun : Clock) : EngineSt :=
  let n := nextSect g.enq
  let header := mkWord 0xFF true 0 0 payload
  { g with
    queue := g.queue ++ [{ word := header, sect := n, cmd := 0, begun := begun }]
    enq := n
    pusher := some owner
    forks := nerase g.forks n.toNat
    results := nerase g.results n.toNat
    sects := g.sects ++ [{
      num := n, owner := owner, len := (payload.extractLsb' 54 10).toNat, left := (payload.extractLsb' 54 10).toNat
      deps := payload.extractLsb' 0 54, kind := kind, begun := begun, prog := prog }] }

/-- Offers a header to an engine's queue (R63, R96). -/
def State.offerHeader (s : State) (e : Engine) (payload : Word) (kind : SectKind) : Pushed :=
  let g := s.eng e
  if g.busyFor s.key || g.sects.length ≥ 255 then .stall
  else if g.opened.isSome || (g.unfinished s.key).isSome then .trap 0x012 payload
  else if payload.extractLsb' 54 10 = 0 then .trap 0x014 payload
  else if !s.depsInRange e (payload.extractLsb' 0 54) then .trap 0x015 payload
  else
    let s := s.release
    let g := (s.eng e).addSect s.key payload kind none s.ctx.clock
    .done (s.setEng e { g with claim := some { owner := s.key, slot := BitVec.ofNat 2 (s.slot + 1) } })

/-- What an instruction does with the answer to a push: it waits, traps, or goes on. -/
def State.afterPush (s : State) (i : Instr) (p : Pushed) (k : State → State) : State :=
  match p with
  | .stall => s.wait i
  | .walk => (s.wait i).setCtx { (s.wait i).ctx with walk := some s.ctx.pc }
  | .trap c v => s.trap c v
  | .done t => k t

/-- A push by `enq` with bit 87 forced (R94). -/
def State.enqueue (s : State) (i : Instr) (e : Engine) (rd rs1 rs2 : Reg) (last walked : Bool) : State :=
  let high : BitVec 32 := (s.reg rs2).setWidth 32
  let w : EngineWord := high ++ s.reg rs1
  let w := if last then w ||| (1 : EngineWord) <<< 87 else w &&& ~~~((1 : EngineWord) <<< 87)
  s.afterPush i (s.offer e w walked) fun t => t.finish rd (BitVec.ofNat 64 (t.eng e).free)

/-- ENQ (R94). -/
def execEnq (e : Engine) (rd rs1 rs2 : Reg) (s : State) : Out :=
  .next (s.enqueue (.enq e rd rs1 rs2) e rd rs1 rs2 false false)

/-- ENQ_L (R94). -/
def execEnqL (e : Engine) (rd rs1 rs2 : Reg) (s : State) : Out :=
  .next (s.enqueue (.enqL e rd rs1 rs2) e rd rs1 rs2 true false)

/-- SECT (R96). -/
def execSect (e : Engine) (rd rs1 : Reg) (s : State) : Out :=
  .next (s.afterPush (.sect e rd rs1) (s.offerHeader e (s.reg rs1) .pushed) fun t =>
    t.finish rd ((t.eng e).enq.setWidth 64))

/-- QCANCEL (R97): the sections of this context from n to ENQ, those of `flg.gather` left out; a cancel that reaches a
program reaches every section fetched from it that has not started (R100). -/
def execQcancel (e : Engine) (rd rs1 : Reg) (s : State) : Out :=
  let g := s.eng e
  let n : BitVec 9 := (s.reg rs1).setWidth 9
  if n = 0 || !reached g.enq n then .next (s.finish rd 0)
  else
    let mine := g.sects.filter fun q => dist g.enq q.num ≤ dist g.enq n && q.owner = s.key && q.kind ≠ .gather
    let progs := mine.filterMap (·.prog)
    let mine := g.sects.filter fun q =>
      mine.contains q || (q.kind = .fetched && !q.started && match q.prog with | some c => progs.contains c | none => false)
    let (t, words) := s.cancelSects s.tile e (mine.map (·.num)) 0
    .next (t.finish rd (BitVec.ofNat 64 words))

/-- The status word of R98. -/
def EngineSt.statusWord (g : EngineSt) (status : Nat) : Word :=
  let claim := match g.claim with | some c => c.slot.toNat | none => 0
  let csect := match g.current with | some c => c.1.toNat | none => 0
  let cop := match g.current with | some c => c.2.1 | none => 0
  BitVec.ofNat 64 (g.free * 2 ^ 40 + g.extents.length * 2 ^ 34 + claim * 2 ^ 32 + csect * 2 ^ 23 + cop * 2 ^ 15 + status)

/-- QSTAT (R98). -/
def execQstat (e : Engine) (rd : Reg) (sel : Bool) (s : State) : Out :=
  let g := s.eng e
  .next (s.finish rd (if sel then g.statusWord (s.engineStatus s.tile e) else g.upc))

/-! ### Forks (R99-R102) -/

/-- What reading words of a block in scratchpad comes to: the words, or the trap of R86 with the address. -/
inductive Block
  | words (ws : List Word) (s : State)
  | trap (code : BitVec 12) (tval : Word)
deriving DecidableEq, Repr

/-- Reads `n` doublewords from an address, each a plain load. -/
def State.readBlock (s : State) (addr : Word) : Nat → Block
  | 0 => .words [] s
  | n + 1 =>
    match s.checkLoad addr 8 false with
    | .trap c => .trap c addr
    | .at_ k =>
      let w := BitVec.ofNat 64 (s.loadNat k 8)
      match (noteRead s s.ctx.clock (ctxAgent s.key) (rangeFrom k 8) false).readBlock (addr + 8) n with
      | .words ws t => .words (w :: ws) t
      | .trap c v => .trap c v

/-- Reads a block whose base must be aligned to `align` bytes (R92, R99, R117, R259). -/
def State.readAligned (s : State) (addr : Word) (align n : Nat) : Block :=
  if addr.toNat % align ≠ 0 then .trap 0x002 addr else s.readBlock addr n

/-- The masked engines in ascending id. -/
def maskedEngines (mask : Word) : List Engine := allEngines.filter fun e => mask.getLsbD e.id

/-- The programs of a fork block: address and entries. -/
def forkPrograms : List Word → List (Word × Word)
  | a :: c :: t => (a, c) :: forkPrograms t
  | _ => []

/-- Whether a fork block is defective (R99, R100 step 1). -/
def forkDefect (ws : List Word) : Bool :=
  match ws with
  | base :: len :: rest =>
    len.toNat = 0 || len.toNat ≥ 2 ^ 40
      || (forkPrograms rest).any fun p =>
        p.2.toNat = 0 || p.2.toNat ≥ 2 ^ 16 || p.1.toNat % 4 ≠ 0 || p.1.toNat < base.toNat
          || p.1.toNat + 12 * p.2.toNat > base.toNat + len.toNat
  | _ => true

/-- The header of a fork section: LENGTH 1, no dependencies. -/
def forkHeader : Word := 1 <<< 54

/-- Pushes the fork section and the program call on one engine, with the data extent (R100 steps 4 and 5). -/
def State.pushFork (s : State) (e : Engine) (base : Word) (len : Nat) (frames : List Frame) (p : Word × Word) :
    State :=
  let cmd := s.nextAgent
  let clock := s.ctx.clock
  let s := { s with nextAgent := cmd + 1 }
  let g := (s.eng e).addSect s.key forkHeader .fork (some cmd) clock
  let g := g.modSect g.enq fun q => { q with left := 0 }
  let call := mkWord 0xFE true 0 ((0 : BitVec 4) ++ p.2.setWidth 16) p.1
  let entry : ExtEntry := { base := base, len := len, frames := frames, tag := cmd, space := s.spaceHere }
  let g := { g with
    queue := g.queue ++ [{ word := call, sect := g.enq, cmd := cmd, begun := clock }]
    claim := some { owner := s.key, slot := BitVec.ofNat 2 (s.slot + 1) }
    extents := match g.freeExtent with | some i => nset g.extents i entry | none => g.extents }
  (s.setEng e g).pin s.spaceHere frames

/-- The section tag of R101. -/
def sectTag (ps : List (Engine × BitVec 9)) : Word :=
  BitVec.ofNat 64 (ps.foldl (fun t p => t + p.2.toNat * 2 ^ (9 * p.1.id)) 0)

/-- A fork that has passed its checks (R100 steps 3 to 6). -/
def State.forkPush (s : State) (i : Instr) (rd : Reg) (walked : Bool) (es : List Engine) (ws : List Word) : State :=
  let base := lget 0 ws 0
  let len := (lget 0 ws 1).toNat
  let room := es.all fun e =>
    let g := s.eng e
    g.queue.length ≤ 62 && !g.claimedByOther s.key && !g.forked && g.freeExtent.isSome && g.sects.length < 255
  if !room then s.wait i
  else if s.badBase base.toNat then s.trap 0x020 base
  else
    let push := fun (t : State) (fs : List Frame) =>
      let t := t.release
      let t := (es.zip (forkPrograms (ws.drop 2))).foldl (fun t p => t.pushFork p.1 base len fs p.2) t
      t.finish rd (sectTag (es.map fun e => (e, (t.eng e).enq)))
    if isScratchAddr base.toNat then push s []
    else
      match s.translateFor walked true base.toNat len with
      | .walk => (s.wait i).setCtx { (s.wait i).ctx with walk := some s.ctx.pc }
      | .stall => s.wait i
      | .trap c v => s.trap c v
      | .ready fs t => push t fs

/-- A fork (R100). -/
def State.fork (s : State) (rd rs1 rs2 : Reg) (walked : Bool) : State :=
  let mask := s.reg rs2
  let addr := s.reg rs1
  let es := maskedEngines mask
  if mask.extractLsb' 0 7 = 0 then s.finish rd 0
  else if mask.toNat / 128 ≠ 0 then s.trap 0x018 addr
  else
    match s.readAligned addr 16 (2 + 2 * es.length) with
    | .trap c v => s.trap c v
    | .words ws t =>
      if forkDefect ws then s.trap 0x018 addr
      else if es.any (fun e => ((s.eng e).unfinished s.key).isSome) then s.trap 0x012 forkHeader
      else t.forkPush (.fork rd rs1 rs2) rd walked es ws

/-- FORK (R100). -/
def execFork (rd rs1 rs2 : Reg) (s : State) : Out := .next (s.fork rd rs1 rs2 false)

/-- The sections that a tag names (R101). -/
def tagSects (tag : Word) : List (Engine × BitVec 9) :=
  (allEngines.map fun e => (e, (tag >>> (9 * e.id)).setWidth 9)).filter fun p => p.2 ≠ 0

/-- The sections that an `rdv` awaits on an engine for one it names: that, and the last its program fetched (R102). -/
def EngineSt.awaited (g : EngineSt) (n : BitVec 9) : List (BitVec 9) :=
  match nget? g.forks n.toNat with
  | some m => [n, m]
  | none => [n]

/-- Whether every section of a tag is done (R102). -/
def State.tagDone (s : State) (tag : Word) : Bool :=
  (tagSects tag).all fun p => let g := s.eng p.1; (g.awaited p.2).all fun n => reached g.ret n

/-- The retired section of a number. -/
def EngineSt.retiredOf (g : EngineSt) (n : BitVec 9) : Option Retired := lfind (fun r => r.num = n) g.retired.reverse

/-- An `rdv` (R102): the mask of the engines with an awaited section retired CANCELLED; an acquire of what they did. -/
def State.rdv (s : State) (rd rs1 : Reg) : State :=
  let tag := s.reg rs1
  if !s.tagDone tag then s.wait (.rdv rd rs1)
  else
    let found := (tagSects tag).map fun p => (p.1, ((s.eng p.1).awaited p.2).filterMap (s.eng p.1).retiredOf)
    let mask := found.foldl (fun m p => if p.2.any (·.cancelled) then m + 2 ^ p.1.id else m) 0
    let seen : Clock := found.foldl (fun (c : Clock) p => p.2.foldl (fun (c : Clock) r => c.join r.seen) c) []
    (s.join seen).finish rd (BitVec.ofNat 64 mask)

/-- RDV (R102). -/
def execRdv (rd rs1 : Reg) (s : State) : Out := .next (s.rdv rd rs1)

/-- RDV_RETURN: a waiting `rdv` returns once every named section is done (R102). -/
def execRdvReturn (s : State) : Out :=
  match s.ctx.waiting with
  | some (.rdv rd rs1) => if s.tagDone (s.reg rs1) then .next (s.rdv rd rs1) else .next s
  | _ => .next s

/-! ### Contractions (R116, R259-R263) -/

/-- Headers with LENGTH as many as the words that follow on their engine up to its next header (R60); a header without one is left out. -/
def withLengths : List (Engine × Bool × EngineWord) → List (Engine × Bool × EngineWord)
  | [] => []
  | (e, true, w) :: t =>
    let n := ((t.takeWhile fun p => !(p.1 = e && p.2.1)).filter fun p => p.1 = e).length
    if n = 0 then withLengths t
    else (e, true, (w &&& ~~~((0x3FF : EngineWord) <<< 54)) ||| (BitVec.ofNat 96 (n % 1024) <<< 54)) :: withLengths t
  | p :: t => p :: withLengths t

/-- The section of one `nop` on the CE, where the microcode pushes nothing else. -/
def nopSection : List (Engine × Bool × EngineWord) := [(.ce, true, 1 <<< 54), (.ce, false, mkWord 0x00 true 0 0 0)]

/-- The words that the microcode pushes for a block, of what `Config.expansion` lists: on the SE, ME, AE, CE and SA queues alone, at
least one section, each with its words, and each `me.pat` under the TID of the sparse operand (R260, R263). -/
def contractPushes (ws : List Word) : List (Engine × Bool × EngineWord) :=
  let k := contractBlock ws
  let tid : EngineWord := (if k.b.kind ≠ 0 then k.b.tid else k.a.tid).setWidth 96
  let named := fun (e : Engine) (w : EngineWord) =>
    if e = .me && w.op = 0x09 && w.widx = 0 then (w &&& ~~~((0xFFFFFF : EngineWord) <<< 40)) ||| (tid <<< 40) else w
  let all := withLengths ((Config.expansion ws).filterMap fun p =>
    match Engine.ofId p.1 with
    | some e => if [Engine.se, .me, .ae, .ce, .sa].contains e then some (e, p.2.1, if p.2.1 then p.2.2 else named e p.2.2) else none
    | none => none)
  if all.any fun p => p.2.1 then all else nopSection

/-- The pushes of an expansion from position `j` on (R116, R263): they belong to the issuing context; a stall keeps the
position, a trap reaches the context at the `contract`, the end gives the tag. C is due when the sections have retired. -/
def State.expand (s : State) (rd rs1 : Reg) (walked : Bool) (ws : List Word) :
    List (Engine × Bool × EngineWord) → Nat → Word → List (Engine × BitVec 9) → State
  | [], _, tag, _ =>
    let t := s.tileAt s.tile
    let job : Contraction := { block := ws, owner := s.key, tag := tag, cmd := s.nextAgent, clock := s.ctx.clock }
    let s := { s with nextAgent := s.nextAgent + 1 }.setTile s.tile { t with contractions := t.contractions ++ [job] }
    (s.setCtx { s.ctx with expanding := none }).finish rd tag
  | (e, header, w) :: rest, j, tag, made =>
    let hold := fun (s : State) => s.setCtx { s.ctx with
      expanding := some { pc := s.ctx.pc, pushed := j, tag := tag, block := ws, made := made } }
    match if header then s.offerHeader e (w.setWidth 64) .pushed else s.offer e w walked with
    | .stall => hold (s.wait (.contract rd rs1))
    | .walk =>
      let s := hold (s.wait (.contract rd rs1))
      s.setCtx { s.ctx with walk := some s.ctx.pc }
    | .trap c v => (s.setCtx { s.ctx with expanding := none }).trap c v
    | .done t =>
      let sh := 9 * e.id
      let tag := if header then
          (tag &&& ~~~((511 : Word) <<< sh)) ||| ((t.eng e).enq.setWidth 64 <<< sh)
        else tag
      t.expand rd rs1 walked ws rest (j + 1) tag (if header then made ++ [(e, (t.eng e).enq)] else made)

/-- A `contract` (R116): barred in context F (R119); the block is read and checked, and the pages that C is written through are walked as
an extent's are (R331), then context F expands it. -/
def State.contract (s : State) (rd rs1 : Reg) (walked : Bool) : State :=
  if s.slot = 2 then s.trap 0x001 (instrBits (.contract rd rs1))
  else
    match s.ctx.expanding with
    | some x => s.expand rd rs1 walked x.block ((contractPushes x.block).drop x.pushed) x.pushed x.tag x.made
    | none =>
      match s.readAligned (s.reg rs1) 64 32 with
      | .trap c v => s.trap c v
      | .words ws t =>
        if contractDefect ws then s.trap 0x01C (s.reg rs1)
        else
          match t.contractBarred ws with
          | some va => s.trap 0x020 va
          | none => (t.contractDirty ws).expand rd rs1 walked ws (contractPushes ws) 0 0 []

/-- CONTRACT (R116). -/
def execContract (rd rs1 : Reg) (s : State) : Out := .next (s.contract rd rs1 false)

/-! ### Flag gathering (R117, R118) -/

/-- Whether a gather descriptor is defective (R117). -/
def State.gatherDefect (s : State) (ws : List Word) : Bool :=
  let w := lget 0 ws 0
  let part := wordField w 47 32
  let cell := lget 0 ws 1
  wordField w 63 48 ≠ 0 || part = 0 || part > 4096 || wordField w 15 4 ≠ 0 || lget 0 ws 2 ≠ 0 || lget 0 ws 3 ≠ 0
    || cell.toNat % 16 ≠ 0
    || (match logicalKey (s.places s.tile) cell.toNat with
      | some k => !isScratchAddr cell.toNat || !s.keyInScope s.tile k (wordField w 3 0)
      | none => true)

/-- The words of the `ne.flag` that `flg.gather` pushes (R249). -/
def flagWords (v desc : Word) : List EngineWord :=
  [mkWord 0x05 false 0 0 v, mkWord 0x05 true 1 ({ gran := 0, len := 31, base := desc } : Ext).f desc]

/-- Pushes the section of one `ne.flag` (R118 step 3), and sets the gather-pending bit with the pc and the section. -/
def State.pushGather (s : State) (v desc : Word) : State :=
  let s := s.release
  let cmd := s.nextAgent
  let s := { s with nextAgent := cmd + 1 }
  let clock := s.ctx.clock
  let g := (s.eng .ne).addSect s.key (2 <<< 54) .gather none clock
  let g := g.modSect g.enq fun q => { q with left := 0 }
  let g := { g with
    queue := g.queue ++ (flagWords v desc).map fun w => { word := w, sect := g.enq, cmd := cmd, begun := clock } }
  let keep := match s.ctx.gather with | some p => some p | none => some (s.ctx.pc, g.enq)
  (s.setEng .ne g).setCtx { s.ctx with gather := keep, gatherNow := some g.enq }

/-- The return of a `flg.gather` whose round has completed (R118 steps 4 and 5), else it waits. -/
def State.gatherReturn (s : State) (i : Instr) (rd : Reg) (n : BitVec 9) : State :=
  let g := s.eng .ne
  match nget? g.results n.toNat with
  | none => s.wait i
  | some (v, seen) =>
    let s := s.setEng .ne { g with results := nerase g.results n.toNat }
    let pending := match s.ctx.gather with | some (pc, m) => if pc = s.ctx.pc then none else some (pc, m) | none => none
    let s := (s.setCtx { s.ctx with gather := pending, gatherNow := none }).join seen
    s.finish rd v

/-- The section that the `flg.gather` at the acting context's pc has pushed before (R118). -/
def State.gatherBegun (s : State) : Option (BitVec 9) :=
  match s.ctx.gatherNow, s.ctx.gather with
  | some n, _ => some n
  | none, some (pc, n) => if pc = s.ctx.pc then some n else none
  | none, none => none

/-- A `flg.gather` (R118); barred in context F (R119). -/
def State.flgGather (s : State) (rd rs1 rs2 : Reg) : State :=
  let i : Instr := .flgGather rd rs1 rs2
  if s.slot = 2 then s.trap 0x001 (instrBits i)
  else
    match s.gatherBegun with
    | some n => s.gatherReturn i rd n
    | none =>
      let desc := s.reg rs2
      match s.readAligned desc 16 4 with
      | .trap c v => s.trap c v
      | .words ws t =>
        let g := s.eng .ne
        if s.gatherDefect ws then s.trap 0x01D desc
        else if (g.unfinished s.key).isSome then s.trap 0x012 (2 <<< 54)
        else if g.busyFor s.key || g.queue.length > 61 || g.sects.length ≥ 255 then s.wait i
        else (t.pushGather (s.reg rs1) desc).wait i

/-- FLG_GATHER (R118). -/
def execFlgGather (rd rs1 rs2 : Reg) (s : State) : Out := .next (s.flgGather rd rs1 rs2)

/-- FLG_GATHER_RETURN: a waiting `flg.gather` returns the OR of its round (R118). -/
def execFlgGatherReturn (s : State) : Out :=
  match s.ctx.waiting with
  | some (.flgGather rd rs1 rs2) => .next (s.flgGather rd rs1 rs2)
  | _ => .next s

/-! ### Stalls that end -/

/-- ENQ_STALL_END: a stalled push is tried again from its start (R88, R94, R96, R100, R116, R118). -/
def execEnqStallEnd (s : State) : Out :=
  match s.ctx.waiting with
  | some (.enq e rd rs1 rs2) => .next (s.enqueue (.enq e rd rs1 rs2) e rd rs1 rs2 false false)
  | some (.enqL e rd rs1 rs2) => .next (s.enqueue (.enqL e rd rs1 rs2) e rd rs1 rs2 true false)
  | some (.sect e rd rs1) => execSect e rd rs1 s
  | some (.fork rd rs1 rs2) => .next (s.fork rd rs1 rs2 false)
  | some (.contract rd rs1) => .next (s.contract rd rs1 false)
  | some (.flgGather rd rs1 rs2) => .next (s.flgGather rd rs1 rs2)
  | _ => .next s

/-- TRANSLATION_WALK_END: the walk of the push that stands waiting for it has ended; the push is checked again with the
tables read (R331, R332). -/
def execTranslationWalkEnd (s : State) : Out :=
  match s.ctx.walk, s.ctx.waiting with
  | some _, some (.enq e rd rs1 rs2) => .next (s.enqueue (.enq e rd rs1 rs2) e rd rs1 rs2 false true)
  | some _, some (.enqL e rd rs1 rs2) => .next (s.enqueue (.enqL e rd rs1 rs2) e rd rs1 rs2 true true)
  | some _, some (.fork rd rs1 rs2) => .next (s.fork rd rs1 rs2 true)
  | some _, some (.contract rd rs1) => .next (s.contract rd rs1 true)
  | _, _ => .next s

end Sys2Proof.Machine
end

