-- ==== Sys2Proof/Machine/Programs.lean ====
section
/-! DEFINITION. Sections and forked programs at the engines: a header's entry (R61), starts (R62), retirement (R17, R21,
R132), program calls and fetches (R58, R64, R100). -/

namespace Sys2Proof.Machine

open Sys2Proof

/-! ### Program fetch (R64, R100) -/

/-- The command that a program's fetches and its data extent belong to. -/
def Program.run (p : Program) (e : Engine) : Run :=
  { id := p.cmd, instr := .programFetch e, sect := p.fork, owner := p.owner, clock := p.begun, prog := some p.cmd }

/-- Bits [95:64] of a program's call word (R59). -/
def Program.callHigh (p : Program) : Word :=
  ((mkWord 0xFE true 0 ((0 : BitVec 4) ++ BitVec.ofNat 16 p.count) p.addr).extractLsb' 64 32).setWidth 64

/-- The engine stops FAULTED at the entry that its program is fetching (R64). A defective header, or a word outside any section, is of no
numbered section: SECT is that of the last section fetched, before the first that of the fork (log entry 83). -/
def State.fetchFault (s : State) (e : Engine) (p : Program) (idx : Nat) (widx : BitVec 2) (code : BitVec 12)
    (tval : Word) : State :=
  if code = heldCode then s
  else s.engineFault s.tile e p.owner none
    { engine := e, code := code, sect := if p.sect = 0 then p.fork else p.sect, widx := widx
      upc := microPc 0 0 0 idx, tval := tval }

/-- The section that a program is in the middle of, if its words are not all fetched. -/
def EngineSt.fetching (g : EngineSt) (p : Program) : Option Sect :=
  match g.sect? p.sect with
  | some q => if q.kind = .fetched && q.left ≠ 0 then some q else none
  | none => none

/-- The program after an entry: its claim ends with the last entry, unless it ends inside a section or a command. -/
def EngineSt.advance (g : EngineSt) (p : Program) : EngineSt :=
  let p := { p with next := p.next + 1 }
  if p.next = p.count && (g.fetching p).isNone && p.opened.isEmpty then { g with program := none, claim := none }
  else { g with program := some p }

/-- A fetched header enters the engine (R61, R64); its dependencies are checked as it enters (R62). -/
def State.fetchHeader (s : State) (e : Engine) (p : Program) (w : EngineWord) : State :=
  let g := s.eng e
  let fault := s.fetchFault e p p.next 0
  if (g.fetching p).isSome || !p.opened.isEmpty || !w.last || w.widx ≠ 0 || w.o.extractLsb' 54 10 = 0 then
    fault 0x103 w.o
  else if w.f ≠ 0 then fault 0x102 w.o
  else if g.queue.length ≥ 64 || g.sects.length ≥ 255 then s
  else if !s.depsInRange e (w.o.extractLsb' 0 54) then fault 0x104 w.o
  else
    let g := g.addSect p.owner w.o .fetched (some p.cmd) p.begun
    let g := { g with forks := nset g.forks p.fork.toNat g.enq }
    s.setEng e (g.advance { p with sect := g.enq })

/-- The fault of a fetched word whose own checks fail (R64): a LOST map has a code of its own. -/
def fetchCode (lost : List Nat) (lead : EngineWord) (code : BitVec 12) (high : Word) : BitVec 12 × Word :=
  if code = 0x026 then
    let m := (fF lead 76 4).toNat
    (0x161, BitVec.ofNat 64 (if lost.contains m then m else (fF lead 71 5).toNat))
  else if code = 0x010 then (0x101, high)
  else if code = 0x012 then (0x103, high)
  else (0x102, high)

/-- Whether a fetched extent lies outside what R64 allows: the program's data extent, or R33; one longer than 2^40 - 1 bytes, for which
R64 names no code, is so too (log entry 17). -/
def State.fetchedOutside (s : State) (e : Engine) (p : Program) (x : Ext) : Bool :=
  extTooLong x
    || (if isScratchAddr x.base.toNat then s.badBase x.base.toNat
        else !((s.eng e).extents.any fun q =>
          q.2.tag = p.cmd && q.2.base.toNat ≤ x.base.toNat && x.base.toNat + x.bytes ≤ q.2.base.toNat + q.2.len))

/-- A fetched command word is checked and enters the queue (R64). -/
def State.fetchCmdWord (s : State) (e : Engine) (p : Program) (w : EngineWord) : State :=
  let g := s.eng e
  let high : Word := (w.extractLsb' 64 32).setWidth 64
  let widx : BitVec 2 := BitVec.ofNat 2 p.opened.length
  let fault := s.fetchFault e p p.next widx
  match g.fetching p with
  | none => fault (if w.op = 0xFE then 0x101 else 0x103) high
  | some q =>
    let o : Offer := { ws := p.opened ++ [w] }
    let defect := match sequenceDefect e o (q.left = 1) with
      | some c => some c
      | none => firstDefect (cmdChecks s.checkEnv e o)
    match defect with
    | some c => let f := fetchCode s.checkEnv.lost o.lead c high; fault f.1 f.2
    | none =>
      if w.isExt && s.fetchedOutside e p (extOf w) then fault 0x105 w.o
      else if g.queue.length ≥ 64 then s
      else
        let first := p.opened.isEmpty
        let cmd := if first then s.nextAgent else match g.queue.getLast? with | some l => l.cmd | none => 0
        let s := if first then { s with nextAgent := s.nextAgent + 1 } else s
        let entry : QWord := { word := w, sect := q.num, cmd := cmd, begun := p.begun }
        let g := { g with queue := if q.discard then g.queue else g.queue ++ [entry] }
        let g := g.modSect q.num fun (q : Sect) => { q with left := q.left - 1 }
        s.setEng e (g.advance { p with opened := if w.last then [] else p.opened ++ [w] })

/-- Fetches the entry that an engine's program stands at (R58, R64). -/
def State.fetchEntry (s : State) (e : Engine) (headerOnly : Bool) : State :=
  let g := s.eng e
  match g.program with
  | none => s
  | some p =>
    if g.fault.isSome || s.unitStops e none then s
    else if p.next ≥ p.count then s.fetchFault e { p with sect := 0 } 0 0 0x103 p.callHigh
    else
      let a := p.addr.toNat + 12 * p.next
      match s.runRead e (p.run e) a 12 true false with
      | .fault c v => s.fetchFault e p p.next 0 c v
      | .bytes bs _ =>
        let w : EngineWord := BitVec.ofNat 96 (leNat bs)
        let t := s.runNote e (p.run e) a 12 false
        if w.op = 0xFF then t.fetchHeader e p w
        else if headerOnly then s
        else t.fetchCmdWord e p w

/-- PROGRAM_FETCH: an engine fetches and checks one program entry (R64). -/
def execProgramFetch (e : Engine) (s : State) : Out := .next (s.fetchEntry e false)

/-- SECTION_HEADER: a header fetched from a program enters the engine and takes the next number (R61); one that `sect`
pushes takes it in SECT. -/
def execSectionHeader (e : Engine) (s : State) : Out := .next (s.fetchEntry e true)

/-- PROGRAM_CALL: the call at the head of the queue begins its program's fetch (R100). -/
def execProgramCall (e : Engine) (count : BitVec 16) (addr : Word) (s : State) : Out :=
  match s.startRun e (.programCall e count addr) with
  | none => .next s
  | some (r, s) =>
    let g := s.eng e
    let p : Program :=
      { addr := addr, count := count.toNat, next := 0, fork := r.sect, owner := r.owner, cmd := r.id, begun := r.clock }
    .next (s.setEng e { g with runs := ldrop (fun x => x.id = r.id) g.runs, program := some p })


/-! ### Sections -/

/-- Whether a section's dependencies are satisfied (R62). -/
def State.depsSatisfied (s : State) (e : Engine) (deps : BitVec 54) : Bool :=
  (depsOf e deps).all fun p => reached (s.eng p.1).ret p.2

/-- What the sections that satisfy a section's dependencies have seen (R295). -/
def State.depsSeen (s : State) (e : Engine) (deps : BitVec 54) : Clock :=
  (depsOf e deps).foldl (fun (c : Clock) p =>
    match (s.eng p.1).retiredOf p.2 with
    | some r => c.join r.seen
    | none => c.join (s.eng p.1).seen) []

/-- SECTION_START: the section whose header stands at the head of the queue starts (R62); the header leaves the queue. -/
def execSectionStart (e : Engine) (s : State) : Out :=
  let g := s.eng e
  match g.queue with
  | [] => .next s
  | w :: rest =>
    match g.sect? w.sect with
    | none => .next s
    | some q =>
      if w.word.op ≠ 0xFF || g.fault.isSome || s.unitStops e none || q.started || q.cancelled || !s.depsSatisfied e q.deps then .next s
      else
        let seen := s.depsSeen e q.deps
        let g := ({ g with queue := rest } : EngineSt).modSect q.num fun q =>
          { q with started := true, begun := q.begun.join seen }
        .next (s.setEng e g)


/-- The oldest section of an engine retires (R17, R21, R97, R132): RET moves, its flags reach its context, the extents of its program
are released after the program's last section (R100). -/
def State.retire (s : State) (e : Engine) (q : Sect) (rest : List Sect) : State :=
  let g := s.eng e
  let seen := g.seen.join q.seen
  let r : Retired := { num := q.num, cancelled := q.cancelled, seen := seen }
  let g := { g with
    queue := g.queue.filter fun w => !(w.word.op = 0xFF && w.sect = q.num)
    ret := q.num, seen := seen, sects := rest, done := nset g.done q.owner (Clock.join (nget [] g.done q.owner) q.seen)
    retired := (g.retired ++ [r]).drop (g.retired.length + 1 - 255) }
  let s := s.setEng e g
  let s := match q.prog with
    | some c =>
      if rest.any (fun x => x.prog = some c) then s
      else s.setTile s.tile ((s.tileAt s.tile).releaseCmd e c)
    | none => s
  s.orFlags q.owner q.flags

/-- What the sections of a tag have seen, and whether one of them retired CANCELLED. -/
def State.tagSeen (s : State) (tag : Word) : Clock × Bool :=
  let found := (tagSects tag).filterMap fun p => (s.eng p.1).retiredOf p.2
  (found.foldl (fun (c : Clock) r => c.join r.seen) [], found.any (·.cancelled))

/-- The contractions that end when a section retires as the last of theirs (R263): C takes its values as that section's work. One of whose
sections was cancelled ends with C as it stands. -/
def State.endContractions (s : State) (after : State) (q : Sect) : List Contraction → ContractEnd
  | [] => .done q.flags q.seen s
  | j :: js =>
    let (seen, gone) := after.tagSeen j.tag
    if gone then s.endContractions after q js
    else
      match s.contraction j ((j.clock.join seen).join q.seen) with
      | .done f c s => s.endContractions after { q with flags := q.flags ||| f, seen := q.seen.join c } js
      | r => r

/-- SECTION_RETIRE: the oldest section of an engine, complete, retires, and C of each contraction that it ends is written (R263). A fault
met there stops the engine before the section retires (R262). -/
def execSectionRetire (e : Engine) (s : State) : Out :=
  match (s.eng e).sects with
  | [] => .next s
  | q :: rest =>
    if !(s.eng e).complete q then .next s
    else
      let after := s.retire e q rest
      let all := (s.tileAt s.tile).contractions
      match all.filter (fun j => after.tagDone j.tag) with
      | [] => .next after
      | due =>
        if (s.eng e).fault.isSome then .next s
        else
          match s.endContractions after q due with
          | .waits => .next s
          | .fault c v =>
            .next (s.engineFault s.tile e q.owner none
              { engine := e, code := c, sect := q.num, widx := 0, upc := 0, tval := v })
          | .done f c t =>
            let t := t.retire e { q with flags := f, seen := c } rest
            .next (t.setTile t.tile { t.tileAt t.tile with contractions := all.filter fun j => !due.contains j })

end Sys2Proof.Machine
end

