-- ==== Sys2Proof/Machine/Stream.lean ====
section
/-! DEFINITION. The stream engine (06_stream_engine.md): patterns, requests, deliveries, write streams, recurrences,
multicasts, gates and barriers. -/

namespace Sys2Proof.Machine

open Sys2Proof

/-! ### Dimensions (R125) -/

/-- The counts and strides of the dimensions 0 to 2 (R125); an absent one has count 1 and stride 0. -/
def dimsOf : Instr → List (Nat × Int)
  | .seAff c =>
    (c.n0.toNat + 1, c.s0.toInt) :: (c.dims.map fun d => (d.n.toNat + 1, d.s.toInt))
  | .seMcast c =>
    (c.n0.toNat + 1, c.s0.toInt) ::
      (match c.tail with | some (_, some d) => [(d.n.toNat + 1, d.s.toInt)] | _ => [])
  | _ => []

/-- Offset of the first element in elements (R125). -/
def offOf : Instr → Nat
  | .seAff c => c.off.toNat
  | .seMcast c => c.off.toNat
  | _ => 0

/-- The null index of a width (R128). -/
def nullIndex (w : Nat) : Nat := 2 ^ w - 1

/-- The index width of an indirect stream. -/
def indWidth (c : IndCmd) : Nat := 16 * 2 ^ c.iw.toNat

/-- Elements per index. -/
def indRowLen (c : IndCmd) : Nat := c.rowlen.toNat + 1

/-- The address of element `j` of the row that an index names (R128). -/
def indAddr (c : IndCmd) (v j : Nat) : Int :=
  let es : Nat := 2 ^ c.esize.toNat
  let rs : Nat := match c.tail with | some (r, _) => r.toNat | none => indRowLen c * es
  let bias : Int := match c.tail with | some (_, some b) => b.toInt | _ => 0
  (c.ext.base.toNat : Int) + ((v : Int) + bias) * rs + (j * es : Nat)

/-- An element of a stream: its address, none where its row's index is null; its micro-PC. -/
structure Element where
  addr : Option Int
  upc : Word
deriving DecidableEq, Repr

/-- Element `n` of a stream (R126, R128, R130); `rows` holds the indices taken, by row. -/
def elementOf (i : Instr) (rows : NMap Nat) (n : Nat) : Element :=
  match i with
  | .seInd c =>
    let k := n / indRowLen c
    let j := n % indRowLen c
    let v := nget 0 rows k
    { addr := if v = nullIndex (indWidth c) then none else some (indAddr c v j), upc := microPc 0 (k / 2 ^ 16) k j }
  | _ =>
    let ds := dimsOf i
    let es := match patternOf i with | some p => p.es | none => 1
    let base := match patternOf i with | some p => p.ext.base.toNat | none => 0
    let n0 := (lget (1, 0) ds 0).1
    let n1 := (lget (1, 0) ds 1).1
    let i0 := n % n0
    let i1 := n / n0 % n1
    let i2 := n / n0 / n1
    { addr := some ((base : Int) + (offOf i * es : Nat) + i0 * (lget (1, 0) ds 0).2 + i1 * (lget (1, 0) ds 1).2
        + i2 * (lget (1, 0) ds 2).2)
      upc := microPc i2 i1 i0 0 }

/-- The elements of a stream as far as they are known: all of an affine one; those of the rows whose index has been taken;
and whether no more will come. -/
def Run.total (r : Run) : Nat × Bool :=
  match r.instr with
  | .seInd c =>
    (r.work.k * indRowLen c, r.work.complete || r.work.k = c.nidx.toNat + 1)
  | i => (((dimsOf i).map Prod.fst).foldl (· * ·) 1, true)

/-! ### Slots and points (R121, R132) -/

/-- Streams in progress. -/
def EngineSt.streams (g : EngineSt) : Nat := (g.runs.filter Run.isStream).length

/-- The take points that a stream wants: of a write stream its port, of a recurrence its source, of an indirect stream its
index source (R121, R128). -/
def takePoints (i : Instr) : List Nat :=
  let data := match i with
    | .seRec c => [c.src.toNat]
    | _ => match patternOf i with | some p => if p.write then [p.port.toNat] else [] | none => []
  match i with
  | .seInd c => (if c.iport then 8 + (c.isrc.toNat % 8) else channel c.isrc) :: data
  | _ => data

/-- The index source of an indirect stream. -/
def indSource (c : IndCmd) : Nat := if c.iport then 8 + c.isrc.toNat % 8 else channel c.isrc

/-- Whether a stream may take at a point: the first of its SE that wants it, and no other command holds it (R121). -/
def State.mayTake (s : State) (id code : Nat) : Bool :=
  (match lfind (fun r => (takePoints r.instr).contains code) (s.eng .se).runs with
    | some r => r.id = id
    | none => false)
    && (match (s.point s.tile code).taker with | some t => t = id | none => true)

/-- Holds a take point. -/
def State.hold (s : State) (id code : Nat) : State :=
  s.setPoint s.tile code { s.point s.tile code with taker := some id }

/-! ### Starting (R132, R138) -/

/-- Whether the SE may start its next command: no `se.bar` in progress, and a slot for a stream. -/
def State.seMayStart (s : State) (stream : Bool) : Bool :=
  let g := s.eng .se
  !(g.runs.any fun r => match r.instr with | .seBar _ => true | _ => false) && (!stream || g.streams < 32)

/-- Starts a stream. -/
def State.startStream (s : State) (i : Instr) : State :=
  if !s.seMayStart true then s
  else match s.startRun .se i with | some (_, t) => t | none => s

/-- SE_AFF: an affine stream starts (R126). -/
def execSeAff (c : AffCmd) (s : State) : Out := .next (s.startStream (.seAff c))

/-- SE_IND: an indirect stream starts (R128). -/
def execSeInd (c : IndCmd) (s : State) : Out := .next (s.startStream (.seInd c))

/-- SE_REC: a recurrence starts (R129). -/
def execSeRec (c : RecCmd) (s : State) : Out := .next (s.startStream (.seRec c))

/-- SE_MCAST: a multicast starts (R130). -/
def execSeMcast (c : McastCmd) (s : State) : Out := .next (s.startStream (.seMcast c))

/-- SE_BAR: a barrier command starts; nothing behind it starts before it completes (R138). -/
def execSeBar (c : BarCmd) (s : State) : Out :=
  if !s.seMayStart false then .next s
  else match s.startRun .se (.seBar c) with | some (_, t) => .next t | none => .next s

/-- The stream id of a stream. -/
def sidOf (i : Instr) : Option (BitVec 9) :=
  match i with
  | .seRec c => some c.sid
  | _ => match patternOf i with | some p => some p.sid | none => none

/-- A gate command (R136): it acts on every started stream with its SID, and completes as it starts. -/
def State.seGate (s : State) (i : Instr) (sid : BitVec 9) (f : Work → Work) : State :=
  if !s.seMayStart false then s
  else
    match s.startRun .se i with
    | none => s
    | some (r, s) =>
      let g := s.eng .se
      let g := { g with runs := g.runs.map fun x =>
        if x.id ≠ r.id && sidOf x.instr = some sid then { x with work := f x.work } else x }
      (s.setEng .se g).complete .se r

/-- SE_GATE_PAUSE (R136). -/
def execSeGatePause (sid : BitVec 9) (s : State) : Out :=
  .next (s.seGate (.seGatePause sid) sid fun w => { w with paused := true })

/-- SE_GATE_RESUME (R136). -/
def execSeGateResume (sid : BitVec 9) (s : State) : Out :=
  .next (s.seGate (.seGateResume sid) sid fun w => { w with paused := false })

/-- SE_GATE_FINISH (R137). -/
def execSeGateFinish (sid : BitVec 9) (s : State) : Out :=
  .next (s.seGate (.seGateFinish sid) sid fun w => { w with finishing := true, paused := false })

/-! ### Reading ahead (R135) -/

/-- Elements to a packet (R122). -/
def Pattern.perPacket (p : Pattern) : Nat := p.pkt * (8 / p.es)

/-- Whether a fault at element `n` is due: everything that makes a packet before it has been delivered (log entry 23). -/
def Run.due (r : Run) (p : Pattern) (n : Nat) : Bool := n < r.work.j + p.perPacket

/-- The index source has ended: no further row comes. -/
def Run.noMore (r : Run) : Run := { r with work := { r.work with complete := true } }

/-- Takes the index of the next row of an indirect stream (R128): whether it has come, and what then stands. -/
def State.takeIndex (s : State) (r : Run) (c : IndCmd) : Bool × Run × State :=
  let code := indSource c
  if !s.mayTake r.id code then (false, r, s)
  else
    let r' := { r with clock := r.clock.join (s.indexResp s.tile code (indWidth c) 40) }
    match s.nextIndex s.tile code (indWidth c) 40 with
    | .waits t => (false, r, if t.point t.tile code = s.point s.tile code then s else t.hold r.id code)
    | .ended t => (true, (r'.raise Flag.len).noMore, t.hold r.id code)
    | .value v t =>
      (true, { r' with work := { r'.work with counts := nset r'.work.counts r'.work.k v, k := r'.work.k + 1 } }, t.hold r.id code)

/-- How many elements from `n` on lie whole in the 64-byte block `blk` and inside the extent, at most `fuel`, before `stop`. -/
def coalesce (r : Run) (p : Pattern) (blk : Int) (stop : Nat) : Nat → Nat → Nat
  | 0, _ => 0
  | fuel + 1, n =>
    if n ≥ stop then 0
    else
      match (elementOf r.instr r.work.counts n).addr with
      | none => 0
      | some a =>
        if inExt p.ext a p.es && a / 64 = blk && (a + p.es - 1) / 64 = blk then coalesce r p blk stop fuel (n + 1) + 1 else 0

/-- Issues the next request of a read stream, or passes over a row of a null index (R128, R135). -/
def State.issueRequest (s : State) (r : Run) (p : Pattern) : State :=
  let (total, final) := r.total
  let n := r.work.i
  if n ≥ total then
    match r.instr with
    | .seInd c =>
      if final then s
      else match s.takeIndex r c with | (true, r, t) => t.setRun .se r | (false, _, t) => t
    | _ => s
  else
    let e := elementOf r.instr r.work.counts n
    let r := { r with upc := e.upc }
    match e.addr with
    | none =>
      let next := match r.instr with
        | .seInd c => (n / indRowLen c + 1) * indRowLen c
        | _ => n + 1
      s.setRun .se { r with work := { r.work with i := next } }
    | some a =>
      if !inExt p.ext a p.es then
        if r.due p n then s.faultAt .se r 0x105 (BitVec.ofInt 64 a) else s
      else
        let m := max 1 (coalesce r p (a / 64) total 64 n)
        let q : Req := { id := n, first := n, count := m }
        s.setRun .se { r with work := { r.work with i := n + m, reqs := r.work.reqs ++ [q] } }

/-- STREAM_REQUEST_ISSUE: a started read stream issues its next request within its limits (R135); a paused or finishing
one issues none (R136, R137). -/
def execStreamRequestIssue (slot : Nat) (s : State) : Out :=
  match s.runOf .se slot with
  | none => .next s
  | some r =>
    match patternOf r.instr with
    | none => .next s
    | some p =>
      let all := (((s.eng .se).runs.map fun x => x.work.reqs.length).foldl (· + ·) 0)
      if p.write || r.work.paused || r.work.finishing || r.work.reqs.length ≥ 64 || all ≥ 256 then .next s
      else .next (s.issueRequest r p)

/-- The value that a poisoned element reads as under ZERO (R139): zero bytes, the null index at an index channel. -/
def poisonValue (p : Pattern) : Nat := if p.port = 0x1E then 2 ^ (8 * p.es) - 1 else 0

/-- Reads the elements of a request in order; the first that faults stays with the request (R134, R139, R304). -/
def State.returnElements (s : State) (r : Run) (p : Pattern) (id : Nat) : Nat → Nat → State
  | 0, _ =>
    s.setRun .se { r with work := { r.work with
      reqs := lmod (fun q => q.id = id) (fun q => { q with returned := true }) r.work.reqs } }
  | m + 1, n =>
    match (elementOf r.instr r.work.counts n).addr with
    | none => s
    | some a =>
      match s.runRead .se r a.toNat p.es p.trap false with
      | .fault c v =>
        let s := s.setRun .se r
        if (s.eng .se).fault.isNone && r.due p n then
          s.faultAt .se { r with
            upc := (elementOf r.instr r.work.counts n).upc, work := { r.work with owns := [n] } } c v
        else
          s.setRun .se { r with work := { r.work with
            reqs := lmod (fun q => q.id = id) (fun q => { q with stuck := true }) r.work.reqs } }
      | .bytes bs bad =>
        let v := if bad then poisonValue p else leNat bs
        let r := (s.took .se r a.toNat p.es).raise (raiseIf bad Flag.poi)
        let r := { r with work := { r.work with
          got := nset r.work.got n (BitVec.ofNat 64 v), owns := r.work.owns.filter (· ≠ n) } }
        (s.runNote .se r a.toNat p.es false).returnElements r p id m (n + 1)

/-- The elements of a stream that it will still send or store: a stopped one, those it has requested (R137), and after a fault that
is not retried those before the element that faulted (R311). -/
def Run.limit (r : Run) : Nat × Bool :=
  let (total, final) := r.total
  let asked := if r.work.finishing then min total r.work.i else total
  (match r.work.halted, r.work.owns with | true, n :: _ => min asked n | _, _ => asked, final || r.work.finishing)

/-- The data of a stream's request return; elements read before are not read again, and behind a fault that is not retried none is
read. -/
def State.streamReturn (s : State) (slot req : Nat) : State :=
  match (s.eng .se).run? slot with
  | none => s
  | some r =>
    match patternOf r.instr, lfind (fun q => q.id = req) r.work.reqs with
    | some p, some q =>
      if q.returned then s
      else
        let read := ((List.range q.count).takeWhile fun j => (nget? r.work.got (q.first + j)).isSome).length
        let stop := if r.work.halted then min (q.first + q.count) (max (q.first + read) r.limit.1) else q.first + q.count
        s.returnElements r p req (stop - (q.first + read)) (q.first + read)
    | _, _ => s

/-! ### Delivery (R121, R122, R130, R137) -/

/-- The elements `n` to `n + m - 1` of a stream, if they have come: a row of a null index gives zeros. -/
def Run.elements (r : Run) (n m : Nat) : Option (List Nat) :=
  (List.range m).foldr (fun j acc =>
    match acc with
    | none => none
    | some vs =>
      match (elementOf r.instr r.work.counts (n + j)).addr with
      | none => some (0 :: vs)
      | some _ =>
        match nget? r.work.got (n + j) with
        | some v => some (v.toNat :: vs)
        | none => none) (some [])

/-- Elements packed into lane words of 64 bits, the last filled with zero elements (R122). -/
def packElems (w per : Nat) (vs : List Nat) : Nat → List Word
  | 0 => []
  | fuel + 1 =>
    if vs.isEmpty then []
    else
      BitVec.ofNat 64 (((vs.take per).foldr (fun v acc => v % 2 ^ w + 2 ^ w * acc) 0)) ::
        packElems w per (vs.drop per) fuel

/-- What a read stream sends next: the packet, how many elements it holds, whether the stream has then sent its last. -/
structure Sending where
  packet : Packet
  count : Nat
  last : Bool
deriving DecidableEq, Repr

/-- The packet that a read stream sends next, if its elements have come (R122, R137). A stream that has no data packet sends END alone on
a marker-only packet, without START, for which R122 names the first packet and R71 the split: neither says that a marker-only END is
the first packet (log entry 83). -/
def Run.nextPacket (r : Run) (p : Pattern) : Option Sending :=
  let (total, final) := r.limit
  let per := p.perPacket
  let left := total - r.work.j
  if r.work.endSent then none
  else if left = 0 then
    if !final then none
    else if p.fin then
      some { packet := { lanes := [], pred := 0, sid := p.sid, marker := some .fin }, count := 0, last := true }
    else none
  else if left < per && !final then none
  else
    let m := min per left
    match r.elements r.work.j m with
    | none => none
    | some vs =>
      let lanes := packElems (8 * p.es) (8 / p.es) vs 8
      let start := p.start && !r.work.startSent
      let ends := final && left ≤ per
      let marker := if start then some Marker.start else if ends && p.fin then some .fin else none
      some {
        packet := { lanes := lanes, pred := BitVec.allOnes 8 >>> (8 - lanes.length), sid := p.sid, marker := marker }
        count := m, last := ends && (!p.fin || !start) }

/-- The tiles and points that a stream delivers to: its own tile, or those of TMASK (R130). -/
def State.targets (s : State) (r : Run) (p : Pattern) : List Nat :=
  match r.instr with
  | .seMcast c =>
    let here := s.ownCluster * 24
    let place := s.places s.tile
    match c.tail with
    | some (m, _) => (List.range 24).filterMap fun t => if m.getLsbD t then nget? place (here + t) else none
    | none => (List.range 24).filterMap fun t => nget? place (here + t)
  | _ => if p.write then [] else [s.tile]

/-- Delivers a packet to every target, or to none (R130). -/
def State.deliverAll (s : State) (r : Run) (code : Nat) (k : Packet) : List Nat → Delivery
  | [] => .done s
  | t :: ts =>
    match s.deliver t code r.id true k with
    | .done s => s.deliverAll r code k ts
    | d => d

/-- STREAM_DELIVERY: a read stream delivers its next packet (R121, R122, R130). -/
def execStreamDelivery (slot : Nat) (s : State) : Out :=
  match s.runOf .se slot with
  | none => .next s
  | some r =>
    match patternOf r.instr with
    | none => .next s
    | some p =>
      match if p.write then none else r.nextPacket p with
      | none => .next s
      | some d =>
        match s.deliverAll r (pointKey p.port p.sid) d.packet (s.targets r p) with
        | .waits => .next s
        | .wrongSid => .next (s.faultAt .se r 0x111 (BitVec.ofNat 64 (pointKey p.port p.sid)))
        | .done s =>
          let j := r.work.j + d.count
          let w := { r.work with
            j := j, startSent := true, endSent := d.last
            got := r.work.got.filter (fun e => e.1 ≥ j)
            reqs := r.work.reqs.filter (fun q => q.first + q.count > j) }
          .next (s.setRun .se { r with work := w })

/-! ### Write streams (R123, R126, R128, R131, R137) -/

/-- What one element or marker at a write stream comes to. -/
inductive Unpack
  | more (r : Run) (s : State)
  | stop (r : Run) (s : State)
  | fault (r : Run) (s : State) (code : BitVec 12) (tval : Word)
deriving DecidableEq, Repr

/-- The stream has stored or skipped its last element: the rest of the lane word is discarded, and a marker with no lane
word left before it; with END set the elements up to END are discarded with LEN (R123, R131). LEN is raised also where END rides on the
packet of the last element, which R131's second and third rows can both be read to cover (log entry 83). -/
def State.exhausted (s : State) (r : Run) (code : Nat) (fin : Bool) : Run × State :=
  let s := if (s.point s.tile code).bits ≠ 0 then s.pop s.tile code else s
  let headEnds := match (s.point s.tile code).item with
    | some (.mark m) => (s.point s.tile code).begun && m ≠ .whistle
    | _ => false
  let isEnd := (s.point s.tile code).item = some (.mark .fin)
  let s := if headEnds then s.pop s.tile code else s
  if fin then
    let r := r.raise Flag.len
    if headEnds && isEnd then ({ r with work := { r.work with endSent := true } }, s)
    else ({ r with work := { r.work with complete := true } }, s)
  else ({ r with work := { r.work with endSent := true } }, s)

/-- A write stream before it takes an element (R126, R128): the next row's index has come, and the element lies in the extent. A
stream whose index source has ended is done. -/
def State.nextPlace (s : State) (r : Run) (p : Pattern) : Unpack :=
  if r.work.complete then .more r s
  else
    let row : Bool × Run × State :=
      match r.instr with
      | .seInd c => if r.work.i ≥ r.total.1 then s.takeIndex r c else (true, r, s)
      | _ => (true, r, s)
    match row with
    | (false, r, s) => .stop r s
    | (true, r, s) =>
      if r.work.complete then .stop { r with work := { r.work with endSent := true } } s
      else
        let e := elementOf r.instr r.work.counts r.work.i
        let r := { r with upc := e.upc }
        match e.addr with
        | some a => if inExt p.ext a p.es then .more r s else .fault r s 0x105 (BitVec.ofInt 64 a)
        | none => .more r s

/-- Takes one element or marker at the take point of a write stream whose next place is known (R123, R131); a partly read lane word
with too few bits left for an element is passed over (R229). With END = 0 a marker is discarded and the stream runs to its last element,
as R131's first row has it; the listing of R423 reads otherwise (log entry 83). -/
def State.takeAt (s : State) (r : Run) (p : Pattern) (code : Nat) : Unpack :=
  match (s.fitHead s.tile code (8 * p.es)).peek s.tile code with
  | none => .stop r s
  | some (.mark m, s) =>
    let s := s.pop s.tile code
    let r := { r with work := { r.work with checked := (s.point s.tile code).begun } }
    if m = .fin && p.fin then .stop { r with work := { r.work with endSent := true } } s
    else .more r s
  | some (.lane _ _, t) =>
    if r.work.complete then
      let t := t.pop t.tile code
      .more { r with work := { r.work with checked := (t.point t.tile code).begun } } t
    else
      match s.takeElem s.tile code (8 * p.es) with
      | some (.value v present, after) =>
        let r := { r with clock := r.clock.join (s.elemResp s.tile code (8 * p.es)) }
        let w : Writing :=
          match (elementOf r.instr r.work.counts r.work.i).addr with
          | none => .done after
          | some a => if present then after.runWrite .se r a.toNat (leBytes p.es v) false false else .done after
        match w with
        | .fault c v => .fault r s c v
        | .done t =>
          let r := { r with work := { r.work with i := r.work.i + 1, checked := (t.point t.tile code).begun } }
          let (total, final) := r.total
          if final && r.work.i ≥ total then
            let (r, t) := t.exhausted r code p.fin
            .stop { r with work := { r.work with checked := (t.point t.tile code).begun && r.work.complete } } t
          else .more r t
      | _ => .stop r s

/-- One element or marker at the take point of a write stream, which it must be its turn to take. -/
def State.unpackOne (s : State) (r : Run) (p : Pattern) (code : Nat) : Unpack :=
  match s.nextPlace r p with
  | .more r s => if s.mayTake r.id code then (s.hold r.id code).takeAt r p code else .stop r s
  | u => u

/-- Unpacks what stands at the take point, up to the end of its first packet. -/
def State.unpack (s : State) (r : Run) (p : Pattern) (code : Nat) : Nat → State
  | 0 => s.setRun .se r
  | fuel + 1 =>
    match s.unpackOne r p code with
    | .stop r s => s.setRun .se r
    | .fault r s c v => s.faultAt .se r c v
    | .more r s => if r.work.checked then s.unpack r p code fuel else s.setRun .se r

/-- A stopped write stream ends: what it had read of a lane word goes, and the lane words behind stay (R123, R137). -/
def State.stopWrite (s : State) (r : Run) (code : Nat) : State :=
  let p := s.point s.tile code
  let s := if p.taker = some r.id && p.bits ≠ 0 then s.pop s.tile code else s
  s.setRun .se { r with work := { r.work with endSent := true } }

/-- WRITE_STREAM_UNPACK: a write stream takes a packet and stores its present elements (R123, R131); a paused one takes none
(R136), a finishing one stops at a packet boundary (R137), and one whose fault is not to be retried where it stands (R311). -/
def execWriteStreamUnpack (slot : Nat) (s : State) : Out :=
  match s.runOf .se slot with
  | none => .next s
  | some r =>
    match patternOf r.instr with
    | none => .next s
    | some p =>
      let code := p.port.toNat
      if !p.write || r.work.endSent || r.work.paused then .next s
      else if r.work.halted || (r.work.finishing && !r.work.checked) then .next (s.stopWrite r code)
      else .next (s.unpack r p code 72)

/-! ### Recurrences (R129) -/

/-- A packet of a recurrence on its way: what goes on, what stays at the source, the lane words it counts, and whether what stays is the
marker of the packet that goes on, which follows it on a packet of its own (R71). -/
structure Forward where
  packet : Packet
  rest : Option Packet
  count : Nat
  owed : Bool
deriving DecidableEq, Repr

/-- What a recurrence forwards of the packet at its source: the split of R129, START on the first packet delivered (R71
puts an END that cannot ride with it on a packet behind). -/
def forwardOf (c : RecCmd) (first : Bool) (forwarded : Nat) (k : Packet) : Forward :=
  let left := if c.nfwd = BitVec.allOnes 32 then k.count else c.nfwd.toNat - forwarded
  let n := min k.count left
  let mark := first && c.start
  let owed := k.count = n && mark && k.marker ≠ none && k.marker ≠ some .start
  let keep := k.count > n || owed
  let head := { k with lanes := k.lanes.take n, pred := k.pred &&& (BitVec.allOnes 8 >>> (8 - n)), sid := c.sid }
  let lead := if k.marker = some .start then some Marker.start else none
  if keep then
    { packet := { head with marker := if mark then some .start else lead }
      rest := some { k with
        lanes := k.lanes.drop n, pred := k.pred >>> n, marker := if k.marker = some .start then none else k.marker }
      count := n, owed := owed }
  else
    { packet := { head with marker := if mark && k.marker = none then some .start else k.marker }, rest := none, count := n
      owed := false }

/-- Notes that a recurrence has sent its first packet and counted its lane words; `checked` notes a marker owed behind it. -/
def Run.forwarded (r : Run) (f : Forward) : Run :=
  { r with
    upc := microCount (r.work.j + f.count), work := { r.work with j := r.work.j + f.count, startSent := true, checked := f.owed } }

/-- Whether a recurrence has forwarded all its lane words, with the marker of the last packet (R129). -/
def Run.forwardedAll (r : Run) (c : RecCmd) : Bool :=
  c.nfwd ≠ BitVec.allOnes 32 && r.work.j ≥ c.nfwd.toNat && !r.work.checked

/-- Forwards the packet at the source of a recurrence; at WHISTLE it forwards that and stops, leaving it at the source (R315). -/
def State.forwardHead (s : State) (r : Run) (c : RecCmd) : State :=
  let src := c.src.toNat
  match s.openHead s.tile src with
  | none => s
  | some s =>
    match (s.point s.tile src).buf with
    | [] => s
    | k :: t =>
      if k.marker = some .whistle then
        let dst := c.dst.toNat
        let s := if (s.tileAt s.tile).portWhistled dst then s else s.putWhistle s.tile dst
        s.setRun .se { r with work := { r.work with stopping := true } }
      else
        let f := forwardOf c (!r.work.startSent) r.work.j k
        match s.deliverAll r c.dst.toNat f.packet [s.tile] with
        | .waits => s
        | .wrongSid => s.faultAt .se r 0x111 (c.dst.setWidth 64)
        | .done s =>
          let p := s.point s.tile src
          let s := match f.rest with
            | some k' => s.setPoint s.tile src { p with buf := k' :: t, begun := true }
            | none => s.setPoint s.tile src { p with buf := t, begun := false, bits := 0 }
          let sentEnd := f.rest.isNone && k.marker = some .fin
          let s := if sentEnd && 8 ≤ src && src < 16 then s.countEnd s.tile src else s
          let r := r.forwarded f
          let past := if c.nfwd = BitVec.allOnes 32 then sentEnd else r.forwardedAll c
          (s.hold r.id src).setRun .se { r with work := { r.work with endSent := past } }

/-- RECURRENCE_FORWARD: a recurrence injects an initial lane word or forwards a packet (R129, R137); a paused one does neither
(R136). -/
def execRecurrenceForward (slot : Nat) (s : State) : Out :=
  match s.runOf .se slot with
  | none => .next s
  | some r =>
    match r.instr with
    | .seRec c =>
      if r.work.endSent || r.work.paused then .next s
      else if r.work.finishing && !r.work.checked then .next (s.setRun .se { r with work := { r.work with endSent := true } })
      else if r.work.i < c.ninit.toNat then
        let word := match c.init with | some v => v | none => 0
        let k : Packet := {
          lanes := [word], pred := 1, sid := c.sid
          marker := if c.start && !r.work.startSent then some .start else none }
        match s.deliverAll r c.dst.toNat k [s.tile] with
        | .waits => .next s
        | .wrongSid => .next (s.faultAt .se r 0x111 (c.dst.setWidth 64))
        | .done s => .next (s.setRun .se { r with work := { r.work with i := r.work.i + 1, startSent := true } })
      else if r.forwardedAll c then
        .next (s.setRun .se { r with work := { r.work with endSent := true } })
      else if !s.mayTake r.id c.src.toNat then .next s
      else .next (s.forwardHead r c)
    | _ => .next s

/-! ### Completion (R132) -/

/-- Whether a stream has done its last: the last packet accepted, the last element stored, the last lane word forwarded; a
read stream with nothing left to send and no END to send has. -/
def Run.streamDone (r : Run) : Bool :=
  r.work.endSent
    || (match patternOf r.instr with
      | some p =>
        !p.write && !p.fin && r.limit.2 && r.work.j ≥ r.limit.1
      | none => false)

/-- STREAM_COMPLETE: a stream that has done its last completes and frees its slot (R132); a paused one holds it (R136). -/
def execStreamComplete (slot : Nat) (s : State) : Out :=
  match s.runOf .se slot with
  | none => .next s
  | some r => if r.isStream && r.streamDone && !r.work.paused then .next (s.complete .se r) else .next s

/-! ### Barriers (R138) -/

/-- A barrier command completes: every later SE command follows it. -/
def State.barDone (s : State) (r : Run) : State :=
  let s := s.complete .se r
  let g := s.eng .se
  s.setEng .se { g with fence := g.fence.join g.last }

/-- The wait of a barrier command for a generation. -/
def State.barWaits (s : State) (c : BarCmd) (r : Run) (target : BitVec 16) : State :=
  let b := s.barrier s.tile c.bar.toNat
  if b.part = 0 then s.faultAt .se r 0x112 (c.bar.setWidth 64)
  else if barReached b.gen target then
    s.barDone { r with clock := s.acquire r.clock (b.met target) s.tile b.scope.toNat }
  else s.setRun .se r

/-- SE_BAR_DRAINED: a started `se.bar` with no earlier command in progress arrives, waits, and completes (R138). -/
def execSeBarDrained (s : State) : Out :=
  let g := s.eng .se
  match g.runs with
  | [r] =>
    match r.instr with
    | .seBar c =>
      if g.fault.isSome then .next s
      else
        let r := { r with clock := r.clock.join g.last }
        if c.arr && !r.work.startSent then
          let clock := r.clock.release (cmdAgent r.id)
          match (s.barrier s.tile c.bar.toNat).arrive c.count.toNat c.scope s.tile clock with
          | .unarmed => .next (s.faultAt .se r 0x112 (c.bar.setWidth 64))
          | .mismatch => .next (s.faultAt .se r 0x113 (c.bar.setWidth 64))
          | .arrived b gen =>
            let s := s.setBarrier s.tile c.bar.toNat b
            let r := { r with clock := clock, work := { r.work with startSent := true, k := gen.toNat } }
            let s := if c.wait then s.barWaits c r (gen + 1) else s.barDone r
            .next s.testWakes
        else if c.wait then
          .next (s.barWaits c r (if c.arr then BitVec.ofNat 16 (r.work.k + 1) else c.gen))
        else .next (s.barDone r)
    | _ => .next s
  | _ => .next s

end Sys2Proof.Machine
end

