-- ==== Sys2Proof/Machine/Dataflow.lean ====
section
/-! DEFINITION. The dataflow array and the array engine (07_array_model.md): links, firings, markers, invocations, and the
AE's commands. -/

namespace Sys2Proof.Machine

open Sys2Proof

/-! ### The array of a tile -/

/-- The array of the acting tile. -/
def State.dfa (s : State) : Dfa := (s.tileAt s.tile).dfa

/-- Writes the array of the acting tile. -/
def State.setDfa (s : State) (d : Dfa) : State := s.setTile s.tile { s.tileAt s.tile with dfa := d }

/-- An operation of a group with its PE. -/
structure GroupOp where
  pe : Nat
  op : PeOp
deriving DecidableEq, Repr

/-- The operations of a group: by slot, then by PE (R148); a `nop` does nothing. -/
def Dfa.groupOps (d : Dfa) (g : Nat) : List GroupOp :=
  match nget? d.groups g with
  | none => []
  | some grp =>
    (List.range 16).flatMap fun slot =>
      (d.ops.filter fun e => grp.mask.getLsbD e.1).filterMap fun e =>
        match e.2[slot]? with
        | some w => if (PeOp.ofWord w).opc = 0 then none else some { pe := e.1, op := PeOp.ofWord w }
        | none => none

/-- The link that a source selector of a PE reads. -/
def Dfa.source (d : Dfa) (pe sel : Nat) : Option Nat := findLink d.links fun l => l.isSource pe sel

/-- The link that a destination selector of a PE writes. -/
def Dfa.dest (d : Dfa) (pe sel : Nat) : Option Nat := findLink d.links fun l => l.isDest pe sel

/-- The group of a PE. -/
def Dfa.groupOf (d : Dfa) (pe : Nat) : Option Nat := (lfind (fun g => g.2.mask.getLsbD pe) d.groups).map Prod.fst

/-- Whether a link joins two PEs and holds nothing (R152). -/
def Link.zero (l : Link) : Bool := l.through && l.src < 0x20 && l.dst < 0x20

/-- Whether a link of no slots joins two PEs of one group: what it carries never leaves a firing, so markers do not stand there (log
entry 43). -/
def Dfa.inner (d : Dfa) (gi k : Nat) : Bool :=
  match nget? d.links k with
  | some l => l.zero && d.groupOf l.src.toNat = some gi && d.groupOf l.dst.toNat = some gi
  | none => false

/-- The data inputs of operations, in order, each once. -/
def Dfa.inputs (d : Dfa) (ops : List GroupOp) : List Nat :=
  (ops.flatMap fun o => (o.op.sources.filter isInput).filterMap fun c => d.source o.pe c).eraseDups

/-- The data destinations of operations, in order, each once. -/
def Dfa.dests (d : Dfa) (ops : List GroupOp) : List Nat :=
  (ops.filterMap fun o =>
    if !isCompare o.op.opc && isInput o.op.dst then d.dest o.pe o.op.dst else none).eraseDups

/-- The control input of a PE channel. -/
def Dfa.control (d : Dfa) (pe chan : Nat) : Option Nat :=
  (lfind (fun c => c.2.dst.toNat = pe && c.2.dchan.toNat = chan) d.ctrls).map Prod.fst

/-- The control channels that an operation names: its gate and C of `sel`. -/
def PeOp.channels (p : PeOp) : List Nat :=
  (if p.gate ≥ 0x30 then [p.gate - 0x30] else []) ++ (if p.opc = 0x18 then [p.c - 0x30] else [])

/-- The control inputs of operations, each once; none in place of one that no link feeds. -/
def Dfa.controls (d : Dfa) (ops : List GroupOp) : List (Option Nat) :=
  (ops.flatMap fun o => o.op.channels.map fun c => d.control o.pe c).eraseDups

/-! ### Heads (R149, R156) -/

/-- The packet at the head of a data input: of its link, or of the port buffer where the link holds nothing. -/
def State.linkHead (s : State) (k : Nat) : Option Packet :=
  match nget? s.dfa.links k with
  | none => none
  | some l => if l.through && l.src ≥ 0x20 then (s.point s.tile l.pointOfSrc).buf.head? else l.arrived.head?

/-- Writes what is left of the head packet of a data input. -/
def State.setLinkHead (s : State) (k : Nat) (rest : Option Packet) : State :=
  match nget? s.dfa.links k with
  | none => s
  | some l =>
    if l.through && l.src ≥ 0x20 then
      let p := s.point s.tile l.pointOfSrc
      s.setPoint s.tile l.pointOfSrc (match rest with
        | some r => { p with buf := r :: p.buf.drop 1, begun := true }
        | none => { p with buf := p.buf.drop 1, begun := false, bits := 0 })
    else
      s.setDfa { s.dfa with links := nset s.dfa.links k { l with
        arrived := match rest with | some r => r :: l.arrived.drop 1 | none => l.arrived.drop 1 } }

/-- What a data input presents. -/
inductive Head
  | nothing
  | part
  | mark (m : Marker)
deriving DecidableEq, Repr

/-- The head that a packet presents: START before its lane words, any other marker after them. -/
def headOf : Option Packet → Head
  | none => .nothing
  | some k =>
    if k.marker = some .start then .mark .start
    else if !k.lanes.isEmpty then .part
    else match k.marker with | some m => .mark m | none => .nothing

/-- The head of a data input. -/
def State.head (s : State) (k : Nat) : Head := headOf (s.linkHead k)

/-- A packet less its first part (R149). -/
def Packet.afterPart (k : Packet) : Option Packet :=
  let k' := { k with lanes := k.lanes.drop 4, pred := k.pred >>> 4 }
  if k'.lanes.isEmpty && k'.marker = none then none else some k'

/-- A packet less the marker that it presents. -/
def Packet.afterMark (k : Packet) : Option Packet :=
  let k' := { k with marker := none }
  if k'.lanes.isEmpty then none else some k'

/-- The lane words of a first part: absent beyond its count and where PRED is 0. -/
def Packet.part (k : Packet) : Lanes :=
  ([0, 1, 2, 3]).map fun i => match k.lanes[i]? with | some w => if k.pred.getLsbD i then some w else none | none => none

/-- Takes the head part of a data input away. -/
def State.takePart (s : State) (k : Nat) : State :=
  match s.linkHead k with
  | none => s
  | some p => s.setLinkHead k p.afterPart

/-- Takes the head marker of a data input away. -/
def State.takeMark (s : State) (k : Nat) : State :=
  match s.linkHead k with
  | none => s
  | some p => s.setLinkHead k p.afterMark

/-- Discards the lane-word parts at a data input until its head is no lane word (R156); the fuel bounds the parts. -/
def State.discardParts (s : State) (k : Nat) : Nat → State
  | 0 => s
  | fuel + 1 =>
    match s.head k, s.linkHead k with
    | .part, some p =>
      let n := (s.dfa.disc.toNat + min 4 p.lanes.length)
      let s := s.setLinkHead k p.afterPart
      (s.setDfa { s.dfa with disc := BitVec.ofNat 32 (min n (2 ^ 32 - 1)) }).discardParts k fuel
    | _, _ => s

/-! ### Sending (R152, R154) -/

/-- Whether a port's buffer takes these packets, one after the other. -/
def Point.takesAll (p : Point) (code : Nat) : List Packet → Bool
  | [] => true
  | k :: ks => match p.place code k with | some q => q.takesAll code ks | none => false

/-- Whether a link has free slots for the packets that an act sends over it. Where it never holds that many, an empty link takes them,
and those past its slots wait at its source (log entry 43). -/
def State.linkRoom (s : State) (k : Nat) (ps : List Packet) : Bool :=
  match nget? s.dfa.links k with
  | none => false
  | some l =>
    if !l.through then l.load = 0 || l.load + ps.length ≤ l.capacity
    else if l.dst ≥ 0x20 then (s.point s.tile l.pointOfDst).takesAll l.pointOfDst ps
    else l.arrived.isEmpty

/-- A packet sent over a link to an output port takes the port's SID. -/
def State.addressed (s : State) (l : Link) (p : Packet) : Packet :=
  if l.dst ≥ 0x20 then { p with sid := (s.portSt s.tile l.pointOfDst).sid } else p

/-- Sends a packet into a link; a link that holds nothing hands it to the port buffer, or shows it to its PE at once. -/
def State.send (s : State) (k : Nat) (p : Packet) : State :=
  match nget? s.dfa.links k with
  | none => s
  | some l =>
    let p := s.addressed l p
    if l.through && l.dst ≥ 0x20 then
      match (s.point s.tile l.pointOfDst).place l.pointOfDst p with
      | some q => s.setPoint s.tile l.pointOfDst q
      | none =>
        let q := s.point s.tile l.pointOfDst
        s.setPoint s.tile l.pointOfDst { q with buf := q.buf ++ [p] }
    else
      let l := if l.through then { l with arrived := l.arrived ++ [p] } else { l with transit := l.transit ++ [p] }
      s.setDfa { s.dfa with links := nset s.dfa.links k l }

/-- A marker-only packet of the array (R71, R157). -/
def markerPacket (m : Marker) : Packet := { lanes := [], pred := 0, sid := 0, marker := some m }

/-- Sends a marker on every data destination of a group, if each has room; WHISTLE takes no slot, and stands behind whatever a link
or buffer holds (R315). -/
def State.sendMarker (s : State) (g : Nat) (m : Marker) : Option State :=
  let ks := (s.dfa.dests (s.dfa.groupOps g)).filter fun k => !s.dfa.inner g k
  let p := markerPacket m
  if m = .whistle || ks.all fun k =>
      match nget? s.dfa.links k with | some l => s.linkRoom k [s.addressed l p] | none => false then
    some (ks.foldl (fun s k => s.send k p) s)
  else none

/-! ### Firings (R147-R151) -/

/-- A group of the acting tile. -/
def State.group (s : State) (g : Nat) : Option Group := nget? s.dfa.groups g

/-- Writes a group. -/
def State.setGroup (s : State) (g : Nat) (v : Group) : State := s.setDfa { s.dfa with groups := nset s.dfa.groups g v }

/-- The PEs of a group's mask. -/
def Group.pes (g : Group) : List Nat := (List.range 32).filter fun p => g.mask.getLsbD p

/-- The stage gates of a group, those of any of its PEs (R151). -/
def State.gates (s : State) (g : Group) : BitVec 8 :=
  match g.pes with | p :: _ => (nget {} s.dfa.pes p).sg | [] => 0

/-- Sets the stage gates of all PEs of a group. -/
def State.setGates (s : State) (g : Group) (v : BitVec 8) : State :=
  s.setDfa { s.dfa with pes := g.pes.foldl (fun m p => nmod {} m p fun q => { q with sg := v }) s.dfa.pes }

/-- Whether an operation is enabled in a firing with these stage gates (R151). -/
def enabledOp (g : Group) (sg : BitVec 8) (p : PeOp) : Bool :=
  if 8 ≤ p.gate && p.gate ≤ 15 then p.gate - 8 < g.s && sg.getLsbD (p.gate - 8) else g.s = 1 || sg.getLsbD 0

/-- The four lane words of a register. -/
def lanesOfReg (v : BitVec 256) : Lanes := ([0, 1, 2, 3]).map fun i => some (v.extractLsb' (64 * i) 64)

/-- A register with the enabled lane words of a result. -/
def mergeReg (v : BitVec 256) : Nat → Lanes → BitVec 256
  | _, [] => v
  | i, none :: t => mergeReg v (i + 1) t
  | i, some w :: t => mergeReg (putQuarters v i [w]) (i + 1) t

/-- IMM as an operand (R169). -/
def immOperand (p : PeOp) : Lanes :=
  let w := widthOfCode p.type
  let v : Nat :=
    match p.type.toNat with
    | 0 | 1 =>
      let f := match fmtOfCode p.type with | some f => f | none => Fmt.fp32
      -- BF16 is the top of FP32; a NaN keeps its bits as far as they go
      match Fmt.bf16.decode false p.imm.toNat with
      | .nan _ =>
        p.imm.toNat / 2 ^ 15 * 2 ^ (w - 1) + (2 ^ f.ebits - 1) * 2 ^ f.mbits + p.imm.toNat % 2 ^ 7 * 2 ^ (f.mbits - 7)
      | x => (f.convert {} x).1
    | 2 | 3 => p.imm.toNat
    | 4 | 5 => p.imm.toNat % 256
    | _ => if signedCode p.type then (p.imm.toInt % 2 ^ w).toNat else p.imm.toNat % 2 ^ w
  let lane := BitVec.ofNat 64 (joinLane w (List.replicate (64 / w) v))
  [some lane, some lane, some lane, some lane]

/-- The part that a firing reads at a data input: its lane words, its count, what comes before them (R149, R299). -/
structure Part where
  lanes : Lanes
  count : Nat
  resp : Clock
deriving DecidableEq, Repr

/-- What a firing carries: the parts read, the transfers taken, the packets and transfers to send, the first fault met; `twice` where a
link of no slots within it is written twice. -/
structure Firing where
  parts : NMap Part
  tokens : NMap (BitVec 8 × Clock)
  out : List (Nat × Packet) := []
  ctl : List (Nat × BitVec 8 × Clock) := []
  pes : NMap Pe
  flags : Flags := 0
  fault : Option Word := none
  twice : Bool := false
deriving DecidableEq, Repr

/-- An operand of an operation: its lane words, its count where it is a data input (R149), what comes before it (R299). -/
def operandAt (d : Dfa) (rb : BitVec 4) (f : Firing) (pe : Nat) (p : PeOp) (used : Bool) (sel : Nat) :
    Lanes × Option Nat × Clock :=
  let reg := nget {} f.pes pe
  if !used then ([], none, [])
  else if sel < 16 then
    let n := (BitVec.ofNat 4 sel + rb).toNat
    (lanesOfReg (nget 0 reg.v n), none, nget [] reg.resps n)
  else if sel < 32 then (lanesOfReg (nget 0 reg.c (sel - 16)), none, [])
  else if sel = 0x2C then (immOperand p, none, [])
  else if isInput sel then
    match (d.source pe sel).bind fun k => nget? f.parts k with
    | some q => (q.lanes, some q.count, q.resp)
    | none => ([none, none, none, none], some 0, [])
  else ([], none, [])

/-- The token transfer of a channel in a firing, and what comes before it. -/
def Firing.token (f : Firing) (d : Dfa) (pe chan : Nat) : BitVec 8 × Clock :=
  match d.control pe chan with
  | some i => nget (0, []) f.tokens i
  | none => (0, [])

/-- A packet that an operation sends over a link: out of the firing, or to an operation of the firing that reads the link. -/
def Firing.emit (f : Firing) (inner : List Nat) (k : Nat) (p : Packet) : Firing :=
  if inner.contains k then
    { f with
      parts := nset f.parts k { lanes := p.part, count := min 4 p.lanes.length, resp := p.resp }
      twice := f.twice || (nget? f.parts k).isSome }
  else { f with out := f.out ++ [(k, p)] }

/-- One operation of a firing, with the links of no slots that join operations of the firing; MALFORMED_MASK is noted (R193). -/
def fireOp (d : Dfa) (inner : List Nat) (f : Firing) (g : Group) (o : GroupOp) : Firing :=
  let p := o.op
  let (ua, ub, uc) := srcsUsed p.opc
  let (a, ka, ca) := operandAt d g.rb f o.pe p ua p.a
  let (b, kb, cb) := operandAt d g.rb f o.pe p ub p.b
  let (c, kc, cc) := operandAt d g.rb f o.pe p uc p.c
  let count := match omax (omax ka kb) kc with | some k => k | none => 4
  let gate := if p.gate ≥ 0x30 then f.token d o.pe (p.gate - 0x30) else (BitVec.allOnes 8, [])
  let pick := if p.opc = 0x18 then f.token d o.pe (p.c - 0x30) else (0, [])
  let resp := (((ca.join cb).join cc).join gate.2).join pick.2
  let en := ([0, 1, 2, 3]).map fun i => gate.1.getLsbD i
  let reg := nget {} f.pes o.pe
  let (r, draws) := peCompute
    { op := p, a := a, b := b, c := c, en := en, count := count, tokens := pick.1, pe := o.pe } true { gen := reg.gen, flags := 0 }
  let reg := { reg with gen := draws.gen }
  let f := { f with
    flags := f.flags ||| draws.flags, pes := nset f.pes o.pe reg
    fault := match f.fault with | some v => some v | none => r.fault }
  if isCompare p.opc then
    let chan := p.dst - 0x38
    let links := (d.ctrls.filter fun c => c.2.src.toNat = o.pe && c.2.chan.toNat = chan).map Prod.fst
    { f with ctl := match r.token with | some t => f.ctl ++ links.map (fun i => (i, t, resp)) | none => f.ctl }
  else if p.dst < 16 then
    let n := (BitVec.ofNat 4 p.dst + g.rb).toNat
    let old := if r.lanes.all Option.isSome then [] else nget [] reg.resps n
    { f with pes := nset f.pes o.pe { reg with
        v := nset reg.v n (mergeReg (nget 0 reg.v n) 0 r.lanes), resps := nset reg.resps n (Clock.join old resp) } }
  else
    match if isInput p.dst then d.dest o.pe p.dst else none with
    | none => f
    | some k =>
      -- a result of no lane word goes out as one absent lane word (log entry 25)
      let n := max 1 r.count
      let lanes := (r.lanes.take n).map fun l => match l with | some w => w | none => 0
      let pred := ((r.lanes.take n).zip (List.range n)).foldl
        (fun (m : Nat) q => if q.1.isSome then m + 2 ^ q.2 else m) 0
      f.emit inner k { lanes := lanes, pred := BitVec.ofNat 8 pred, sid := 0, resp := resp }

/-- The operation of a firing that comes next: the first whose PE has none before it left, and whose inputs inside the firing have been
written; and the others. -/
def nextOp (d : Dfa) (inner : List Nat) (f : Firing) : List Nat → List (Group × GroupOp) →
    Option ((Group × GroupOp) × List (Group × GroupOp))
  | _, [] => none
  | busy, x :: t =>
    let waits := (d.inputs [x.2]).any fun k => inner.contains k && (nget? f.parts k).isNone
    if busy.contains x.2.pe || waits then (nextOp d inner f (x.2.pe :: busy) t).map fun r => (r.1, x :: r.2)
    else some (x, t)

/-- The operations of a firing in order; none where one waits for ever. -/
def fireOps (d : Dfa) (inner : List Nat) : Nat → List (Group × GroupOp) → Firing → Option Firing
  | _, [], f => some f
  | 0, _ :: _, _ => none
  | fuel + 1, ops, f =>
    match nextOp d inner f [] ops with
    | none => none
    | some (x, rest) => fireOps d inner fuel rest (fireOp d inner f x.1 x.2)

/-- What an attempt of a group comes to. -/
inductive GroupStep
  | blocked
  | fault (code : BitVec 12) (tval : Word)
  | done (s : State)
deriving DecidableEq, Repr

/-- Whether a control link has free slots for the `n` transfers that a firing sends over it (R148, R155). Where it never holds that many,
an empty one takes them, as a link does (log entry 43). -/
def Ctrl.room (c : Ctrl) (n : Nat) : Bool :=
  let load := c.transit.length + c.arrived.length
  load = 0 || load + n ≤ c.slots

/-- A group in a firing: its number, its state, whether the firing is live, its stage gates in it (R151). -/
structure Member where
  gi : Nat
  g : Group
  live : Bool
  sg : BitVec 8
deriving DecidableEq, Repr

/-- A group as it would fire. -/
def State.member (s : State) (gi : Nat) (live : Bool) : Option Member :=
  (s.group gi).map fun g => { gi := gi, g := g, live := live, sg := (s.gates g <<< 1) ||| (if live then 1 else 0) }

/-- The operations enabled in a member's part of a firing. -/
def Member.ops (d : Dfa) (m : Member) : List GroupOp := (d.groupOps m.gi).filter fun o => enabledOp m.g m.sg o.op

/-- The data inputs that a member reads. -/
def Member.inputs (d : Dfa) (m : Member) : List Nat := if m.live then d.inputs (m.ops d) else []

/-- Whether a group is draining. -/
def State.isDraining (s : State) (gi : Nat) : Bool :=
  match s.group gi with | some g => (match g.phase with | .draining _ _ => true | _ => false) | none => false

/-- Whether a group fires along with another that it feeds over a link of no slots (R152): it is not cut, no marker stands at its
inputs, and it has draining firings left or is not draining. -/
def State.mayJoin (s : State) (gi : Nat) : Bool :=
  match s.group gi with
  | none => false
  | some g =>
    let heads := (s.dfa.inputs (s.dfa.groupOps gi)).map s.head
    !g.cut && (match g.phase with
      | .draining left _ => left ≠ 0 && !heads.contains (.mark .whistle)
      | _ => heads.all fun h => match h with | .mark _ => false | _ => true)

/-- The links of no slots that members read and that hold nothing, with the groups that feed them. -/
def State.fedBy (s : State) (ms : List Member) : List (Nat × Option Nat) :=
  (ms.flatMap fun m => m.inputs s.dfa).filterMap fun k =>
    match nget? s.dfa.links k with
    | some l => if l.zero && l.arrived.isEmpty then some (k, s.dfa.groupOf l.src.toNat) else none
    | none => none

/-- The groups that fire as one (R152): those that feed a member over a link of no slots join it. None where one cannot. -/
def State.members (s : State) : Nat → List Member → Option (List Member)
  | 0, _ => none
  | fuel + 1, ms =>
    match lfind (fun (k : Nat × Option Nat) => !(ms.any fun m => some m.gi = k.2)) (s.fedBy ms) with
    | none => some ms
    | some (_, none) => none
    | some (_, some gi) =>
      if !s.mayJoin gi then none
      else match s.member gi (!s.isDraining gi) with | some m => s.members fuel (ms ++ [m]) | none => none

/-- A member after its firing (R150, R157). -/
def Member.after (m : Member) : Group :=
  { m.g with
    rb := m.g.rb - 1
    phase := match m.g.phase with | .draining left r => .draining (left - 1) r | _ => .inside }

/-- Takes the transfers of a firing and sends its own (R148, R155). -/
def moveTransfers (ctrls : NMap Ctrl) (taken : List Nat) (sent : List (Nat × BitVec 8 × Clock)) : NMap Ctrl :=
  let ctrls := taken.foldl (fun m i =>
    match nget? m i with
    | some l => nset m i { l with arrived := l.arrived.drop 1, resps := l.resps.drop 1 }
    | none => m) ctrls
  sent.foldl (fun m c =>
    match nget? m c.1 with
    | some l => nset m c.1 { l with transit := l.transit ++ [c.2.1], resps := l.resps ++ [c.2.2] }
    | none => m) ctrls

/-- One firing of a group (R148-R151, R157), with the groups that feed it over links of no slots (R152): inputs, transfers and
destinations are those of the operations enabled in it; all of it happens, or none. A firing that could begin and meets a malformed
mask writes nothing (R193). -/
def State.fireGroup (s : State) (gi : Nat) (live : Bool) : GroupStep :=
  let d := s.dfa
  match ((s.member gi live).map fun m => [m]).bind (s.members 9) with
  | none => .blocked
  | some ms =>
    let inner := (s.fedBy ms).map Prod.fst
    let ops := ms.flatMap fun m => (m.ops d).map fun o => (m.g, o)
    let ins := (ms.flatMap fun m => m.inputs d).filter fun k => !inner.contains k
    let ctls := d.controls (ops.map Prod.snd)
    let taken := ctls.filterMap id
    let ready := ins.all (fun k => s.head k = .part)
      && ctls.all (fun c => match c.bind fun i => nget? d.ctrls i with | some l => !l.arrived.isEmpty | none => false)
    if (d.groupOps gi).isEmpty || !ready then .blocked
    else
      let parts : NMap Part := ins.foldl (fun m k => match s.linkHead k with
        | some p => nset m k { lanes := p.part, count := min 4 p.lanes.length, resp := p.resp }
        | none => m) []
      let tokens : NMap (BitVec 8 × Clock) := taken.foldl (fun m i => match nget? d.ctrls i with
        | some l => nset m i (lget 0 l.arrived 0, lget [] l.resps 0)
        | none => m) []
      match fireOps d inner ops.length ops { parts := parts, tokens := tokens, pes := d.pes } with
      | none => .blocked
      | some f =>
        let room := (f.out.map Prod.fst).eraseDups.all fun k =>
          match nget? d.links k with
          | some l => s.linkRoom k ((f.out.filter fun o => o.1 = k).map fun o => s.addressed l o.2)
          | none => true
        let croom := (f.ctl.map Prod.fst).eraseDups.all fun i =>
          match nget? d.ctrls i with | some l => l.room (f.ctl.filter fun c => c.1 = i).length | none => true
        if !room || !croom || f.twice then .blocked
        else
          match f.fault with
          | some v => .fault 0x123 v
          | none =>
            let s := ins.foldl (fun s k => s.takePart k) s
            let s := s.setDfa { s.dfa with
              pes := f.pes, ctrls := moveTransfers s.dfa.ctrls taken f.ctl, pending := s.dfa.pending ||| f.flags }
            let s := f.out.foldl (fun s o => s.send o.1 o.2) s
            .done (ms.foldl (fun s m => (s.setGates m.g m.sg).setGroup m.gi m.after) s)

/-! ### Markers and invocations (R155-R157) -/

/-- Transfers that remain at a group's control inputs are discarded at the end of an invocation (R155). -/
def State.dropTransfers (s : State) (gi : Nat) : State :=
  let is := (s.dfa.controls (s.dfa.groupOps gi)).filterMap id
  s.setDfa { s.dfa with
    ctrls := is.foldl (fun m i => match nget? m i with
      | some l => nset m i { l with arrived := [], resps := l.resps.drop l.arrived.length }
      | none => m) s.dfa.ctrls }

/-- A group that has drained sends END and stands outside (R157). -/
def State.endInvocation (s : State) (gi : Nat) : GroupStep :=
  match s.group gi with
  | none => .blocked
  | some g =>
    match s.sendMarker gi .fin with
    | none => .blocked
    | some s =>
      let s := (s.setGates g 0).dropTransfers gi
      .done (s.setGroup gi { g with rb := 0, phase := .outside })

/-- Begins to drain (R157): S − 1 firings, none of which is due where S = 1. -/
def State.beginDrain (s : State) (gi : Nat) (g : Group) : State :=
  let s := s.setGroup gi { g with phase := .draining (g.s - 1) false }
  if g.s = 1 then match s.endInvocation gi with | .done t => t | _ => s else s

/-- All heads are markers of one kind: what the group does (R157). -/
def State.actMarker (s : State) (gi : Nat) (g : Group) (ins : List Nat) (m : Marker) : GroupStep :=
  let take := fun (s : State) => ins.foldl (fun s k => s.takeMark k) s
  match m with
  | .fin => .done ((take s).beginDrain gi g)
  | .start =>
    if g.phase = .inside then .done (s.beginDrain gi g)
    else
      match (take s).sendMarker gi .start with
      | none => .blocked
      | some s => .done ((s.setGates g 0).setGroup gi { g with rb := 0, phase := .inside })
  | m =>
    match (take s).sendMarker gi m with
    | none => .blocked
    | some s => .done s

/-- The code of an input in ARRAY_LENGTH: its port's endpoint code, or the selector of its side (R167). -/
def Link.inputCode (l : Link) : Nat := if l.src ≥ 0x20 then l.src.toNat else 0x28 + l.side.toNat

/-- Marker heads of a group, WHISTLE excepted (R156). -/
def State.alignMarkers (s : State) (gi : Nat) : GroupStep :=
  match s.group gi with
  | none => .blocked
  | some g =>
    let ins := (s.dfa.inputs (s.dfa.groupOps gi)).filter fun k => !s.dfa.inner gi k
    let heads := ins.map fun k => (k, s.head k)
    let marks := heads.filterMap fun h => match h.2 with | .mark .whistle => none | .mark m => some m | _ => none
    let parts := heads.filter fun h => h.2 = .part
    match marks with
    | [] => .blocked
    | m :: rest =>
      if marks.length = ins.length && rest.all (· = m) then s.actMarker gi g ins m
      else
        match parts with
        | (k, _) :: _ =>
          if g.strict then
            match nget? s.dfa.links k with
            | some l => .fault 0x120 (BitVec.ofNat 64 l.inputCode)
            | none => .blocked
          else
            let s := parts.foldl (fun s h => s.discardParts h.1 8) s
            .done (s.setDfa { s.dfa with pending := s.dfa.pending ||| Flag.len })
        | [] => if marks.length = ins.length then .fault 0x122 (BitVec.ofNat 64 gi) else .blocked

/-- One act of a group: it drains, meets markers, or fires. -/
def State.groupAct (s : State) (gi : Nat) : GroupStep :=
  match s.group gi with
  | none => .blocked
  | some g =>
    let ins := s.dfa.inputs (s.dfa.groupOps gi)
    if g.cut || ins.any (fun k => s.head k = .mark .whistle) then .blocked
    else
      match g.phase with
      | .draining left _ => if left = 0 then s.endInvocation gi else s.fireGroup gi false
      | _ =>
        if ins.any (fun k => match s.head k with | .mark _ => true | _ => false) then s.alignMarkers gi
        else s.fireGroup gi true

/-- The links of no slots from other groups at which a group has no packet, each with the group that would send one. -/
def State.sources (s : State) (gi : Nat) : List (Nat × Nat) :=
  (s.dfa.inputs (s.dfa.groupOps gi)).filterMap fun k =>
    match nget? s.dfa.links k with
    | some l =>
      if l.zero && l.arrived.isEmpty && !s.dfa.inner gi k then (s.dfa.groupOf l.src.toNat).map fun p => (k, p) else none
    | none => none

/-- The packets that stand on a link's destination side. -/
def State.shown (s : State) (k : Nat) : List Packet :=
  match nget? s.dfa.links k with | some l => l.arrived | none => []

/-- Shows packets at the destination of a link. -/
def State.show (s : State) (k : Nat) (ps : List Packet) : State :=
  match nget? s.dfa.links k with
  | some l => s.setDfa { s.dfa with links := nset s.dfa.links k { l with arrived := ps } }
  | none => s

/-- The producer of a link acts, unless the link has a packet already. -/
def State.produce (act : State → Nat → GroupStep) (s : Option State) (o : Nat × Nat) : Option State :=
  s.bind fun s =>
    if !(s.shown o.1).isEmpty then some s else match act s o.2 with | .done t => some t | _ => none

/-- One act of a group together with the groups that feed it over links of no slots (R152): each of those shows what it would send;
those whose packet the group takes act with it, the others wait. The fuel bounds the chain. -/
def State.act : Nat → State → Nat → GroupStep
  | 0, s, gi => s.groupAct gi
  | fuel + 1, s, gi =>
    let offers := (s.sources gi).filterMap fun o =>
      match s.act fuel o.2 with
      | .done t => if (t.shown o.1).isEmpty then none else some (o, t.shown o.1)
      | _ => none
    let offer := fun (s : State) (os : List ((Nat × Nat) × List Packet)) => os.foldl (fun s o => s.show o.1.1 o.2) s
    match (offer s offers).groupAct gi with
    | .done t =>
      let used := offers.filter fun o => (t.shown o.1.1).length < o.2.length
      let others := offers.filter fun o => !used.contains o
      match used.foldl (fun s o => State.produce (State.act fuel) s o.1) (some s) with
      | none => .blocked
      | some s =>
        match (offer s others).groupAct gi with
        | .done t => .done (others.foldl (fun t o => t.show o.1.1 []) t)
        | r => r
    | r => r

/-- Whether a link that holds nothing shows a packet; WHISTLE is no packet of it (R315). -/
def Link.shows (l : Link) : Bool := l.through && l.arrived.any fun p => p.marker ≠ some .whistle

/-- A packet on a link that holds nothing is taken by its PE's group in the same step, and so on along a chain (R152); where one is not,
the act that sent it waits. The fuel bounds the acts. -/
def State.push : Nat → State → GroupStep
  | 0, s => if s.dfa.links.any fun l => l.2.shows then .blocked else .done s
  | fuel + 1, s =>
    match lfind (fun l => l.2.shows) s.dfa.links with
    | none => .done s
    | some l =>
      match s.dfa.groupOf l.2.dst.toNat with
      | none => .blocked
      | some h =>
        match s.act 8 h with
        | .done t => if (t.shown l.1).length < l.2.arrived.length then t.push fuel else .blocked
        | r => r

/-- A group meets the markers at its inputs, those that groups would send it over links of no slots among them (R152, R156). -/
def State.meetMarkers (s : State) (gi : Nat) : GroupStep :=
  match s.alignMarkers gi with
  | .blocked => if (s.sources gi).isEmpty then .blocked else s.act 8 gi
  | r => r

/-! ### Faults of groups (R167) -/

/-- The `ae.inv` in progress, if any. -/
def EngineSt.invRun (g : EngineSt) : Option Run :=
  lfind (fun r => match r.instr with | .aeInv _ _ => true | _ => false) g.runs

/-- The context that a group's fault reaches with no `ae.inv` in progress: the pusher of the latest section, else home
context A, else B, if started and not ended. -/
def State.groupFaultOwner (s : State) : Option Nat :=
  match (s.eng .ae).pusher with
  | some k => some k
  | none =>
    let home := fun (slot : Nat) => s.keyAt s.tile slot
    match s.regionAt s.tile with
    | none => none
    | some r => lfind (fun k => r.starts.contains k && (s.ctxOf k).life = .live) [home 0, home 1]

/-- A group of the acting tile stops with a fault; the AE stops FAULTED (R167). -/
def State.groupFaults (s : State) (code : BitVec 12) (tval : Word) : State :=
  match (s.eng .ae).invRun with
  | some r => s.postFault s.tile .ae r code tval
  | none =>
    let f : EngFault := { engine := .ae, code := code, sect := 0, widx := 0, upc := 0, tval := tval }
    match s.groupFaultOwner with
    | some k => s.engineFault s.tile .ae k none f
    | none =>
      let s := s.setEng .ae { s.eng .ae with fault := some f, faultRun := none }
      s.flushRecords [{
        region := (s.tileEntry s.tile).region, ctx := none, loc := (s.lxTile s.tile 2).setWidth 32 ||| 0xC0000000
        trap := trapWord true 0 0 2 code, tval := tval, epc := 0, empc := 0, cycle := Config.cycleCount s.ticks
        info := false, seq := 0 }]

/-- Whether the groups of the acting tile may act. -/
def State.groupsRun (s : State) : Bool :=
  s.dfa.status = .loaded && !(s.eng .ae).groupFault && (s.tileAt s.tile).part ≠ .gated && !s.powerGated s.tile

/-- What a group's attempt leaves: its act with all that zero-slot links carry along, a fault, or nothing. -/
def State.afterGroup (s : State) (r : GroupStep) : State :=
  match r with
  | .blocked => s
  | .fault c v => s.groupFaults c v
  | .done t =>
    match t.push 64 with
    | .blocked => s
    | .fault c v => s.groupFaults c v
    | .done t => t

/-- Whether a group is in a phase for an event of its own. -/
def State.groupReady (s : State) (gi : Nat) : Bool :=
  s.groupsRun && (match s.group gi with
    | some g => !g.cut && !(s.dfa.inputs (s.dfa.groupOps gi)).any (fun k => s.head k = .mark .whistle)
    | none => false)

/-- GROUP_FIRING: a group fires (R147-R151). -/
def execGroupFiring (g : BitVec 3) (s : State) : Out :=
  let gi := g.toNat
  let mark := (s.dfa.inputs (s.dfa.groupOps gi)).any fun k => match s.head k with | .mark _ => true | _ => false
  if !s.groupReady gi || s.isDraining gi || mark then .next s else .next (s.afterGroup (s.fireGroup gi true))

/-- DRAINING_FIRING: a group makes a draining firing, and after the last one sends END (R157). -/
def execDrainingFiring (g : BitVec 3) (s : State) : Out :=
  let gi := g.toNat
  if !s.groupReady gi then .next s
  else
    match s.group gi with
    | some grp =>
      match grp.phase with
      | .draining 0 _ => .next (s.afterGroup (s.endInvocation gi))
      | .draining 1 _ =>
        let t := s.afterGroup (s.fireGroup gi false)
        match t.group gi with
        | some grp =>
          if grp.phase = .draining 0 false || grp.phase = .draining 0 true then .next (t.afterGroup (t.endInvocation gi))
          else .next t
        | none => .next t
      | .draining _ _ => .next (s.afterGroup (s.fireGroup gi false))
      | _ => .next s
    | none => .next s

/-- MARKER_HEAD: a group aligns the marker heads of its inputs and acts on them (R156, R157). -/
def execMarkerHead (g : BitVec 3) (s : State) : Out :=
  let gi := g.toNat
  if !s.groupReady gi || s.isDraining gi then .next s else .next (s.afterGroup (s.meetMarkers gi))

/-- SNAPSHOT: a group at one of whose inputs WHISTLE stands first forwards it and fires no more (R315). -/
def execSnapshot (g : BitVec 3) (s : State) : Out :=
  let gi := g.toNat
  match s.group gi with
  | none => .next s
  | some grp =>
    let ins := s.dfa.inputs (s.dfa.groupOps gi)
    if grp.cut || s.dfa.status ≠ .loaded || !(ins.any fun k => s.head k = .mark .whistle) then .next s
    else
      match s.sendMarker gi .whistle with
      | none => .next s
      | some t => .next (t.setGroup gi { grp with cut := true })

/-! ### Arrivals (R152, R154, R155) -/

/-- LINK_PACKET_ARRIVAL: a packet in transit on a link arrives at its PE, or enters its output port's buffer; with none in
transit, the packet at the head of an input port's buffer goes into the link. A group's fault holds them all (R167). -/
def execLinkPacketArrival (link : Nat) (s : State) : Out :=
  match nget? s.dfa.links link with
  | none => .next s
  | some l =>
    let held := (s.eng .ae).groupFault
    match l.transit with
    | p :: rest =>
      if held then .next s
      else if l.dst ≥ 0x20 then
        let b := s.point s.tile l.pointOfDst
        let q := if p.marker = some .whistle then some { b with buf := b.buf ++ [p] } else b.place l.pointOfDst p
        match q with
        | none => .next s
        | some q =>
          .next ((s.setPoint s.tile l.pointOfDst q).setDfa
            { s.dfa with links := nset s.dfa.links link { l with transit := rest } })
      else
        .next (s.setDfa { s.dfa with links := nset s.dfa.links link { l with
          transit := rest, arrived := l.arrived ++ [p] } })
    | [] => .next (if l.src < 0x20 || held then s else s.feed s.tile l.pointOfSrc 1)

/-- CONTROL_TRANSFER_ARRIVAL: a transfer in transit arrives (R155), unless a group's fault holds it (R167). -/
def execControlTransferArrival (link : Nat) (s : State) : Out :=
  match nget? s.dfa.ctrls link with
  | none => .next s
  | some c =>
    match c.transit with
    | [] => .next s
    | t :: rest =>
      if (s.eng .ae).groupFault then .next s
      else .next (s.setDfa { s.dfa with ctrls := nset s.dfa.ctrls link { c with
        transit := rest, arrived := c.arrived ++ [t] } })

/-! ### Array-engine commands (R159-R167) -/

/-- Whether nothing moves in the array (R159). -/
def State.quiescent (s : State) : Bool :=
  s.dfa.groups.all (fun g => g.2.phase = .outside)
    && s.dfa.links.all (fun l => l.2.transit.isEmpty && l.2.arrived.isEmpty)
    && s.dfa.ctrls.all (fun c => c.2.transit.isEmpty && c.2.arrived.isEmpty)
    && (rangeFrom 8 8).all fun p => (s.point s.tile p).buf.isEmpty

/-- Whether the AE may start a command (R159). -/
def State.aeMayStart (s : State) (i : Instr) : Bool :=
  let beside := match i with
    | .aeEnd _ | .aeEndFlush _ | .aeEndStart _ | .aeGateOpen _ | .aeGateClose _ => true
    | _ => false
  (s.eng .ae).runs.all fun r => beside && (match r.instr with | .aeInv _ _ => true | _ => false)

/-- A command of the AE completes: where no `ae.inv` is in progress, it takes the pending flags with it (R158). -/
def State.completeAe (s : State) (r : Run) : State :=
  if (s.eng .ae).invRun.isSome then s.complete .ae r
  else (s.setDfa { s.dfa with pending := 0 }).complete .ae (r.raise s.dfa.pending)

/-- A command of the AE as it starts or goes on. -/
def State.resumeAe (s : State) (i : Instr) : Option (Run × State) := s.resume .ae i (s.aeMayStart i)

/-- ENGINE_NOP: the command completes as it starts (R59); at the AE it starts and completes as a command of the AE does (R158, R159). -/
def execEngineNop (e : Engine) (s : State) : Out :=
  if e = .ae then
    match s.resumeAe (.engineNop .ae) with
    | none => .next s
    | some (r, s) => .next (s.completeAe r)
  else
    match s.startRun e (.engineNop e) with
    | none => .next s
    | some (r, s) => .next (s.complete e r)

/-- AE_CFG: a configuration load starts, and waits for the array to be quiescent (R161). -/
def execAeCfg (skip : Bool) (x : Ext) (s : State) : Out :=
  match s.resumeAe (.aeCfg skip x) with
  | none => .next s
  | some (r, s) => .next (s.setRun .ae r)

/-- Lane words that stand in the input port buffers. -/
def State.bufferedLanes (s : State) : Nat :=
  ((rangeFrom 0 8).map fun p => ((s.point s.tile p).buf.map Packet.count).foldl (· + ·) 0).foldl (· + ·) 0

/-- Sets the array from a checked image; packets in input port buffers are discarded (R26, R161). -/
def State.loadImage (s : State) (im : CfgImage) : State × Bool :=
  let any := (rangeFrom 0 8).any fun p => !(s.point s.tile p).buf.isEmpty
  let n := min (s.dfa.disc.toNat + s.bufferedLanes) (2 ^ 32 - 1)
  let s := (rangeFrom 0 16).foldl (fun s p =>
    s.setPoint s.tile p { s.point s.tile p with buf := [], begun := false, bits := 0 }) s
  (s.setDfa { s.dfa.load im with disc := BitVec.ofNat 32 n }, any)

/-- What the load in progress comes to, once the array is quiescent. -/
def State.cfgLoad (s : State) (r : Run) (skip : Bool) (x : Ext) : State :=
  let a := x.base.toNat
  let same :=
    if skip && s.dfa.status = .loaded && x.bytes ≥ 8 then
      match s.runRead .ae r a 8 true false with
      | .bytes bs _ =>
        let w : Word := BitVec.ofNat 64 (leNat bs)
        fld w 63 56 = 0xE0 && w.extractLsb' 0 32 = s.dfa.image
      | .fault _ _ => false
    else false
  if same then (s.runNote .ae r a 8 false).completeAe r
  else
    match s.runRead .ae r a x.bytes true false with
    | .fault c v => s.faultAt .ae r c v
    | .bytes bs _ =>
      let s := s.runNote .ae r a x.bytes false
      match checkImage x.bytes (wordsOf (x.bytes / 8) bs) with
      | .error (c, i) => s.faultNow .ae r c (BitVec.ofNat 64 i)
      | .ok im =>
        let (s, lost) := s.loadImage im
        s.completeAe (r.raise (raiseIf lost Flag.len))

/-- AE_CFG_LOAD: the load reads and checks its image and sets the array, or leaves it as it was (R161). -/
def execAeCfgLoad (s : State) : Out :=
  if (s.eng .ae).fault.isSome || !s.quiescent then .next s
  else
    match (s.eng .ae).runs with
    | r :: _ => match r.instr with | .aeCfg skip x => .next (s.cfgLoad r skip x) | _ => .next s
    | [] => .next s

/-- The output set of an `ae.inv` (R162): bound output ports by point. -/
def State.invSet (s : State) (om : BitVec 8) : List Nat :=
  (rangeFrom 8 8).filter fun p => (s.portSt s.tile p).bound && (om = 0 || om.getLsbD (p - 8))

/-- An `ae.inv` completes: it takes the pending flags (R158). -/
def State.invDone (s : State) (r : Run) : State :=
  let f := s.dfa.pending
  (s.setDfa { s.dfa with pending := 0 }).complete .ae (r.raise f)

/-- AE_INV: the count starts (R162); an empty set completes it at once. -/
def execAeInv (om : BitVec 8) (n : BitVec 16) (s : State) : Out :=
  match s.resumeAe (.aeInv om n) with
  | none => .next s
  | some (r, s) =>
    if r.work.checked then .next s
    else if s.dfa.status ≠ .loaded then .next (s.faultAt .ae r 0x121 (om.setWidth 64))
    else if (s.invSet om).isEmpty then .next (s.invDone r)
    else .next (s.setRun .ae { r with work := { r.work with checked := true } })

/-- The smallest count claimed among the ports of a set. -/
def Run.leastClaim (r : Run) (ports : List Nat) : Nat := leastOf (ports.map fun p => nget 0 r.work.counts p)

/-- END_CLAIM: the `ae.inv` in progress claims one END counted at one of its ports, and completes at N (R162). -/
def execEndClaim (s : State) : Out :=
  match (s.eng .ae).invRun with
  | none => .next s
  | some r =>
    match r.instr with
    | .aeInv om n =>
      let total := n.toNat + 1
      let ports := s.invSet om
      let due := fun p => nget 0 r.work.counts p < total && (s.portSt s.tile p).ends ≠ 0
      match if (s.eng .ae).fault.isSome || !r.work.checked then none else lfind due ports with
      | none => .next s
      | some p =>
        let q := s.portSt s.tile p
        let s := s.setDfa { s.dfa with ports := nset s.dfa.ports p { q with ends := q.ends - 1 } }
        let r := { r with work := { r.work with counts := nmod 0 r.work.counts p (· + 1) } }
        let r := { r with upc := microCount (r.leastClaim ports) }
        if r.leastClaim ports ≥ total then .next (s.invDone r) else .next (s.setRun .ae r)
    | _ => .next s

/-- The ports that a mask names, in order. -/
def maskPorts (n : Nat) (m : Nat) : List Nat := (List.range n).filter fun i => m.testBit i

/-- Places markers into the ports that still want one, in ascending order (R163). -/
def State.placeMarkers (s : State) (r : Run) (m : Marker) : List Nat → State
  | [] => s.completeAe r
  | p :: ps =>
    let k : Packet := { lanes := [], pred := 0, sid := (s.portSt s.tile p).sid, marker := some m }
    if (s.pointHolder s.tile p).isSome then s.setRun .ae r
    else
      match s.enter s.tile p k with
      | none => s.setRun .ae r
      | some s => s.placeMarkers { r with work := { r.work with i := r.work.i + 1 } } m ps

/-- `ae.end` of any kind (R163). -/
def State.aeEndStep (s : State) (i : Instr) (m : Marker) (im : BitVec 8) : Out :=
  match s.resumeAe i with
  | none => .next s
  | some (r, s) =>
    let ports := maskPorts 8 im.toNat
    if s.dfa.status ≠ .loaded || ports.any (fun p => !(s.portSt s.tile p).bound) then
      .next (s.faultAt .ae r 0x121 (im.setWidth 64))
    else .next (s.placeMarkers r m (ports.drop r.work.i))

/-- AE_END (R163). -/
def execAeEnd (im : BitVec 8) (s : State) : Out := s.aeEndStep (.aeEnd im) .fin im

/-- AE_END_FLUSH (R163). -/
def execAeEndFlush (im : BitVec 8) (s : State) : Out := s.aeEndStep (.aeEndFlush im) .flush im

/-- AE_END_START (R163). -/
def execAeEndStart (im : BitVec 8) (s : State) : Out := s.aeEndStep (.aeEndStart im) .start im

/-- `ae.gate` (R164). -/
def State.aeGateStep (s : State) (i : Instr) (act : Bool) (pm : BitVec 16) : Out :=
  match s.resumeAe i with
  | none => .next s
  | some (r, s) =>
    if s.dfa.status ≠ .loaded then .next (s.faultAt .ae r 0x121 (pm.setWidth 64))
    else
      let ports := (maskPorts 16 pm.toNat).foldl (fun m p => nmod {} m p fun q => { q with gate := act }) s.dfa.ports
      .next ((s.setDfa { s.dfa with ports := ports }).completeAe r)

/-- AE_GATE_OPEN (R164). -/
def execAeGateOpen (pm : BitVec 16) (s : State) : Out := s.aeGateStep (.aeGateOpen pm) true pm

/-- AE_GATE_CLOSE (R164). -/
def execAeGateClose (pm : BitVec 16) (s : State) : Out := s.aeGateStep (.aeGateClose pm) false pm

/-- The number whose bit i says that a test holds of i. -/
def bitsWhere (n : Nat) (p : Nat → Bool) : Nat := (List.range n).foldl (fun m i => if p i then m + 2 ^ i else m) 0

/-- The record of R165. -/
def State.aeRecord (s : State) : List Byte :=
  let d := s.dfa
  let st := match d.status with | .unconfigured => 0 | .loading => 1 | .loaded => 2
  let opened := bitsWhere 8 fun g => match nget? d.groups g with | some x => x.phase ≠ .outside | none => false
  let gates := bitsWhere 16 fun p => (nget {} d.ports p).gate
  let busy := bitsWhere 16 fun p => !(s.point s.tile p).buf.isEmpty
  leBytes 8 (st * 2 ^ 56 + opened * 2 ^ 32 + d.image.toNat) ++ leBytes 8 (d.invoc.toNat * 2 ^ 32 + d.disc.toNat)
    ++ leBytes 8 (gates * 2 ^ 16 + busy) ++ leBytes 8 d.pending.toNat

/-- AE_STAT (R165). -/
def execAeStat (c : StatCmd) (s : State) : Out :=
  match s.resumeAe (.aeStat c) with
  | none => .next s
  | some (r, s) =>
    if c.wait && !s.quiescent then .next (s.setRun .ae r)
    else
      let fin := fun (s : State) =>
        let s := if c.clr then s.setDfa { s.dfa with invoc := 0, disc := 0 } else s
        s.completeAe r
      match c.ext with
      | none => .next (fin s)
      | some x =>
        match s.runWrite .ae r x.base.toNat s.aeRecord false false with
        | .fault c v => .next (s.faultAt .ae r c v)
        | .done s => .next (fin s)

end Sys2Proof.Machine
end

