-- ==== Sys2Proof/Machine/Scatter.lean ====
section
/-! DEFINITION. The scatter-accumulate engine (R228-R238, R254): feeds, atomic updates and their responses, hash tables. -/

namespace Sys2Proof.Machine

open Sys2Proof

/-! ### Feeds (R228, R229) -/

/-- The point that a feed code names. -/
def feedKey (f : BitVec 10) : Nat := if f.getLsbD 9 then 8 + f.toNat % 8 else channel (f.setWidth 9)

/-- Whether a command may take at its feeds: no other command holds one. -/
def State.feedsFree (s : State) (id : Nat) (codes : List Nat) : Bool :=
  codes.all fun c => match (s.point s.tile c).taker with | some t => t = id | none => true

/-- Holds the feeds of a command. -/
def State.holdFeeds (s : State) (id : Nat) (codes : List Nat) : State := codes.foldl (fun s c => s.hold id c) s

/-- The next element of a feed as a command reads it: the element, or that the feed has ended; the response it carries joins
what the command has seen (R299). None while it must wait. -/
def State.feedNext (s : State) (r : Run) (code w : Nat) : Option (Option Nat × Run × State) :=
  let r := { r with clock := r.clock.join (s.indexResp s.tile code w 64) }
  match s.nextIndex s.tile code w 64 with
  | .waits _ => none
  | .ended t => some (none, r, t)
  | .value v t => some (some v, r, t)

/-- What stands at feeds that hold no whole element for a command, or whose partner holds none: the absent lane words in front are gone
(R229). Each feed is named with its width. -/
def State.skipAbsent (s : State) (feeds : List (Nat × Nat)) : State :=
  feeds.foldl (fun s f => match s.nextIndex s.tile f.1 f.2 64 with | .waits t => t | _ => s) s

/-! ### Atomic updates (R231, R233) -/

/-- What an atomic update at the bank comes to. -/
inductive Update
  | done (old : Nat) (r : Run) (s : State)
  | fault (code : BitVec 12) (tval : Word)
deriving DecidableEq, Repr

/-- The releases at a key that an `xchg` or `cas` update leaves (R296): its own; any other update leaves none of that kind. -/
def exchangeRels (rels : List Rel) (tile : Nat) (clock : Clock) (exchange : Bool) : List Rel :=
  let rest := rels.filter (·.kind ≠ .exchange)
  if exchange then rest ++ [({ tile := tile, scope := 1, clock := clock, kind := .exchange } : Rel)] else rest

/-- An atomic update of `n` bytes (R231, R233): poison always stops it; an `xchg` or `cas` acquires the one it reads and
releases at scope 1 (R296). -/
def State.update (s : State) (e : Engine) (r : Run) (a n : Nat) (exchange : Bool) (f : Nat → Nat × Flags) : Update :=
  match s.runKeys e r a n with
  | none => .fault 0x105 (BitVec.ofNat 64 a)
  | some ks =>
    let k := ks.headD 0
    if ks.any (s.held s.tile) then .fault heldCode 0
    else if (firstPoison s ks).isSome then .fault 0x110 (sectorAddr a)
    else if (firstRace s r.clock (cmdAgent r.id) ks true true).isSome then .fault 0x201 (BitVec.ofNat 64 a)
    else
      let met := (nget [] s.rels k).filter (·.kind = .exchange)
      let clock := if exchange then s.acquire r.clock met s.tile 1 else r.clock
      let old := leNat (ks.map (memGet s.mem))
      let (new, fl) := f old
      let s := s.write clock (cmdAgent r.id) (ks.zip (leBytes n new)) true true
      let after := if exchange then clock.release (cmdAgent r.id) else clock
      let rels := exchangeRels (nget [] s.rels k) s.tile after exchange
      let s := { s with rels := if rels.isEmpty then nerase s.rels k else nset s.rels k rels }
      .done old ({ r with clock := after }.raise fl) s

/-- An atomic read of bytes by the SA, of a slot that a probe passes over. -/
def State.bankRead (s : State) (r : Run) (a n : Nat) : Update :=
  match s.runKeys .sa r a n with
  | none => .fault 0x105 (BitVec.ofNat 64 a)
  | some ks =>
    if ks.any (s.held s.tile) then .fault heldCode 0
    else if (firstPoison s ks).isSome then .fault 0x110 (sectorAddr a)
    else if (firstRace s r.clock (cmdAgent r.id) ks false true).isSome then .fault 0x201 (BitVec.ofNat 64 a)
    else .done (leNat (ks.map (memGet s.mem))) r (noteRead s r.clock (cmdAgent r.id) ks true)

/-- Combine of R231 for the operations that merge: 0 `add`, 1 `min`, 2 `max`, 3 `or`, 4 `and`, 5 `xor`; 6 is `xchg`. -/
def saCombine (aop : Nat) (type : BitVec 4) (sat : Bool) (old x : Nat) : Nat × Flags :=
  match aop, fmtOfCode type with
  | 0, some f => arith 1 f {} old x 0
  | 1, some f => minMax false f {} old x
  | 2, some f => minMax true f {} old x
  | 0, none => intArith 0x20 (signedCode type) (widthOfCode type) sat old x 0
  | 1, none => intArith 0x25 (signedCode type) (widthOfCode type) false old x 0
  | 2, none => intArith 0x26 (signedCode type) (widthOfCode type) false old x 0
  | 3, _ => (old ||| x, 0)
  | 4, _ => (old &&& x, 0)
  | 5, _ => (old ^^^ x, 0)
  | _, _ => (x, 0)

/-! ### `sa.op` (R230-R232) -/

/-- The operation of an atomic-update command. -/
structure SaSpec where
  instr : Instr
  aop : Nat
  c : SaOpCmd

/-- Element size in bytes. -/
def SaSpec.es (p : SaSpec) : Nat := widthOfCode p.c.type / 8

/-- Index width in bits. -/
def SaSpec.iw (p : SaSpec) : Nat := 16 * 2 ^ p.c.iw.toNat

/-- Feed code of the compare values. -/
def SaSpec.csrc (p : SaSpec) : Nat := match p.c.resp with | some q => feedKey q.csrc | none => 0

/-- The feeds of a command. -/
def SaSpec.feeds (p : SaSpec) : List Nat :=
  [feedKey p.c.isrc, feedKey p.c.vsrc] ++ (if p.aop = 7 then [p.csrc] else [])

/-- The feeds of a command with their widths. -/
def SaSpec.feedWidths (p : SaSpec) : List (Nat × Nat) :=
  p.feeds.zip [p.iw, 8 * p.es, 8 * p.es]

/-- The elements of the feeds for one update. -/
inductive Taken
  | waits
  | ended (r : Run) (s : State)
  | got (v x c : Nat) (r : Run) (s : State)
deriving DecidableEq, Repr

/-- Takes one element of each feed (R231); a feed that has ended ends the command, and what it took of the others stays
taken. -/
def State.takeUpdate (s : State) (p : SaSpec) (r : Run) : Taken :=
  match s.feedNext r (feedKey p.c.isrc) p.iw with
  | none => .waits
  | some (none, r, s) => .ended r s
  | some (some v, r, s) =>
    match s.feedNext r (feedKey p.c.vsrc) (8 * p.es) with
    | none => .waits
    | some (none, r, s) => .ended r s
    | some (some x, r, s) =>
      if p.aop ≠ 7 then .got v x 0 r s
      else
        match s.feedNext r p.csrc (8 * p.es) with
        | none => .waits
        | some (none, r, s) => .ended r s
        | some (some c, r, s) => .got v x c r s

/-- A response joins those that wait to be sent. -/
def Run.respond (r : Run) (aop : Nat) (old : Nat) : Run :=
  if aop ≥ 6 then { r with work := { r.work with held := r.work.held ++ [BitVec.ofNat 64 old] } } else r

/-- Delivers the responses held, eight lane words at most (R122, R231); END rides on the last packet. -/
def State.sendResponses (s : State) (p : SaSpec) (r : Run) (fin : Bool) : Delivery :=
  match p.c.resp with
  | none => .done s
  | some q =>
    let lanes := packElems (8 * p.es) (8 / p.es) (r.work.held.map (·.toNat)) 8
    s.deliver s.tile (pointKey q.rport q.rsid) r.id false {
      lanes := lanes, pred := BitVec.allOnes 8 >>> (8 - lanes.length), sid := q.rsid
      marker := if fin then some .fin else none, resp := r.clock }

/-- Responses that fill a packet. -/
def SaSpec.perPacket (p : SaSpec) : Nat := 8 * (8 / p.es)

/-- Adds an element to the groups of a window: those of one index are combined in stream order (R232). -/
def mergeInto (p : SaSpec) (v x : Nat) (fl : Flags) : List (Nat × Nat) → List (Nat × Nat) × Flags
  | [] => ([(v, x)], fl)
  | (w, y) :: t =>
    if w = v then
      let (z, f) := saCombine p.aop p.c.type p.c.sat y x
      ((w, z) :: t, fl ||| f)
    else
      let (t', f) := mergeInto p v x fl t
      ((w, y) :: t', f)

/-- A window of a command: the groups so far, the run and the state with their elements taken. -/
structure Window where
  groups : List (Nat × Nat)
  flags : Flags
  count : Nat
  r : Run
  s : State

/-- Takes up to `n` elements that have come into a window; a null index or an index outside the table closes it (R231, R232). -/
def takeWindow (p : SaSpec) : Nat → Window → Window
  | 0, w => w
  | n + 1, w =>
    if w.r.work.i + w.count > p.c.n.toNat then w
    else
      match w.s.takeUpdate p w.r with
      | .got v x _ r s =>
        let a : Int := p.c.ext.base.toNat + (v : Int) * p.es
        if v = nullIndex p.iw || !inExt p.c.ext a p.es then w
        else
          let (g, fl) := mergeInto p v x w.flags w.groups
          takeWindow p n { groups := g, flags := fl, count := w.count + 1, r := r, s := s }
      | _ => w

/-- Applies the groups of a window, one update each; none where one would fault. -/
def applyWindow (p : SaSpec) (r : Run) (s : State) : List (Nat × Nat) → Option (Run × State)
  | [] => some (r, s)
  | (v, x) :: t =>
    match s.update .sa r (p.c.ext.base.toNat + v * p.es) p.es false fun old => saCombine p.aop p.c.type p.c.sat old x with
    | .fault _ _ => none
    | .done _ r s => applyWindow p r s t

/-- Whether a command's elements may merge so that the result differs from one by one: the floating `add` (R232). -/
def SaSpec.merges (p : SaSpec) : Bool := !p.c.nomrg && p.aop ≤ 5 && (fmtOfCode p.c.type).isSome

/-- One element of an atomic-update command (R231). -/
def State.saElement (s : State) (p : SaSpec) (r : Run) : State :=
  let j := r.work.i
  let r := { r with upc := microCount j }
  match s.takeUpdate p r with
  | .waits => (s.skipAbsent p.feedWidths).setRun .sa r
  | .ended r s => s.setRun .sa { r.raise Flag.len with work := { r.work with complete := true } }
  | .got v x c r' t =>
    let next := fun (r : Run) => { r with work := { r.work with i := j + 1, complete := j = p.c.n.toNat } }
    if v = nullIndex p.iw then t.setRun .sa (next (r'.respond p.aop 0))
    else
      let a : Int := p.c.ext.base.toNat + (v : Int) * p.es
      if !inExt p.c.ext a p.es then s.faultAt .sa r 0x105 (BitVec.ofInt 64 a)
      else
        let f := fun old =>
          if p.aop = 7 then (if old = c then x else old, 0) else saCombine p.aop p.c.type p.c.sat old x
        match t.update .sa r' a.toNat p.es (p.aop ≥ 6) f with
        | .fault code v => s.faultAt .sa r code v
        | .done old r' t => t.setRun .sa (next (r'.respond p.aop old))

/-- A window of merged elements, where the choice takes more than one and none of them faults; else one element. -/
def State.saWindow (s : State) (p : SaSpec) (r : Run) : State :=
  if !p.merges then s.saElement p r
  else
    let (n, s) := s.choose
    if n % 64 = 0 then s.saElement p r
    else
      let w := takeWindow p (n % 64 + 1) { groups := [], flags := 0, count := 0, r := { r with upc := microCount r.work.i }, s := s }
      match applyWindow p w.r w.s w.groups with
      | some (r', t) =>
        if w.count = 0 then s.saElement p r
        else
          let i := r.work.i + w.count
          t.setRun .sa { r'.raise w.flags with work := { r'.work with i := i, complete := i > p.c.n.toNat } }
      | none => s.saElement p r

/-- One step of an atomic-update command: responses that fill a packet go out first; at the end the rest, with END. -/
def State.saStep (s : State) (p : SaSpec) (r : Run) : State :=
  let full := p.aop ≥ 6 && r.work.held.length ≥ p.perPacket
  if full || r.work.complete then
    let fin := r.work.complete && r.work.held.length ≤ p.perPacket
    match s.sendResponses p r fin with
    | .waits | .wrongSid => s.setRun .sa r
    | .done s =>
      if fin || p.aop < 6 then s.complete .sa r
      else s.setRun .sa { r with work := { r.work with held := r.work.held.drop p.perPacket } }
  else s.saWindow p r

/-- Runs an atomic-update command of the acting tile's SA (R254: one command in progress). -/
def State.saRun (s : State) (p : SaSpec) : Out :=
  match s.resume .sa p.instr (s.eng .sa).runs.isEmpty with
  | none => .next s
  | some (r, s) =>
    if !s.feedsFree r.id p.feeds then .next (s.setRun .sa r)
    else .next ((s.holdFeeds r.id p.feeds).saStep p r)

/-- SA_OP_ADD (R231). -/
def execSaOpAdd (c : SaOpCmd) (s : State) : Out := s.saRun { instr := .saOpAdd c, aop := 0, c := c }
/-- SA_OP_MIN (R231). -/
def execSaOpMin (c : SaOpCmd) (s : State) : Out := s.saRun { instr := .saOpMin c, aop := 1, c := c }
/-- SA_OP_MAX (R231). -/
def execSaOpMax (c : SaOpCmd) (s : State) : Out := s.saRun { instr := .saOpMax c, aop := 2, c := c }
/-- SA_OP_OR (R231). -/
def execSaOpOr (c : SaOpCmd) (s : State) : Out := s.saRun { instr := .saOpOr c, aop := 3, c := c }
/-- SA_OP_AND (R231). -/
def execSaOpAnd (c : SaOpCmd) (s : State) : Out := s.saRun { instr := .saOpAnd c, aop := 4, c := c }
/-- SA_OP_XOR (R231). -/
def execSaOpXor (c : SaOpCmd) (s : State) : Out := s.saRun { instr := .saOpXor c, aop := 5, c := c }
/-- SA_OP_XCHG (R231). -/
def execSaOpXchg (c : SaOpCmd) (s : State) : Out := s.saRun { instr := .saOpXchg c, aop := 6, c := c }
/-- SA_OP_CAS (R231). -/
def execSaOpCas (c : SaOpCmd) (s : State) : Out := s.saRun { instr := .saOpCas c, aop := 7, c := c }

/-! ### Hash tables (R234-R238) -/

/-- The key that marks an empty slot. -/
def emptyKey : Nat := 0xFFFFFFFF

/-- The value bits of a slot that a rehash empties: R238 names the key of an empty slot only (log entry 26). -/
def emptyValue (tick : Nat) : Nat := (Config.freeWord tick).toNat % 2 ^ 32

/-- The slot that a key is placed from, in a table of `size` slots (R234). -/
def hashSlot (mul key size : Nat) : Nat :=
  let m := if mul = 0 then 0x9E3779B1 else mul
  key * m % 2 ^ 32 / 2 ^ (32 - size.log2)

/-- Where a probe ends. -/
inductive Probe
  | slot (t : Nat) (empty : Bool) (r : Run) (s : State)
  | full (r : Run) (s : State)
  | fault (code : BitVec 12) (tval : Word)
deriving DecidableEq, Repr

/-- The linear probe of R236: up to sixteen slots, the first that holds the key or is empty. -/
def State.probe (s : State) (r : Run) (x : Ext) (key start : Nat) : Nat → Probe
  | 0 => .full r s
  | n + 1 =>
    let t := (start + (15 - n)) % (x.bytes / 8)
    match s.bankRead r (x.base.toNat + 8 * t) 8 with
    | .fault c v => .fault c v
    | .done v r s =>
      if v % 2 ^ 32 = key then .slot t false r s
      else if v % 2 ^ 32 = emptyKey then .slot t true r s
      else s.probe r x key start n

/-- What the insertion of a pair comes to. -/
inductive Insert
  | done (r : Run) (s : State)
  | full
  | fault (code : BitVec 12) (tval : Word)
deriving DecidableEq, Repr

/-- Inserts a key with its value: added into the slot that holds it, else put into the empty one (R236). -/
def State.insert (s : State) (r : Run) (x : Ext) (mul key val : Nat) : Insert :=
  match s.probe r x key (hashSlot mul key (x.bytes / 8)) 16 with
  | .full _ _ => .full
  | .fault c v => .fault c v
  | .slot t empty r s =>
    let f := fun (old : Nat) =>
      if empty then (key + 2 ^ 32 * val, 0)
      else
        let (v, fl) := arith 1 Fmt.fp32 {} (old / 2 ^ 32) val 0
        (key + 2 ^ 32 * v, fl)
    match s.update .sa r (x.base.toNat + 8 * t) 8 false f with
    | .fault c v => .fault c v
    | .done _ r s => .done r s

/-- The head of the key feed (R236). -/
inductive KeyHead
  | waits (s : State)
  | mark (m : Marker) (s : State)
  | key (v : Nat) (before after : State)
deriving DecidableEq, Repr

/-- The next key or row mark of the key feed: absent lane words and the other markers are passed over. `before` stands at the packet
that holds the key. -/
def State.keyHead (s : State) (code : Nat) : Nat → KeyHead
  | 0 => .waits s
  | fuel + 1 =>
    match (s.fitHead s.tile code 32).peek s.tile code with
    | none => .waits s
    | some (.lane _ false, s) => (s.pop s.tile code).keyHead code fuel
    | some (.mark .fin, s) => .mark .fin (s.pop s.tile code)
    | some (.mark .flush, s) => .mark .flush (s.pop s.tile code)
    | some (.mark _, s) => (s.pop s.tile code).keyHead code fuel
    | some (.lane _ true, s) =>
      match s.takeElem s.tile code 32 with
      | some (.value v _, t) => .key v s t
      | _ => .waits s

/-- The record of R237. -/
def hashRecord (row elem status key : Nat) : List Byte :=
  leBytes 8 (row % 2 ^ 32 * 2 ^ 32 + elem % 2 ^ 32) ++ leBytes 8 (status * 2 ^ 56 + key)

/-- Discards the commands behind a full hash table's in its section, as a cancel does (R97, R236). -/
def State.discardBehind (s : State) (r : Run) : State :=
  let g := s.eng .sa
  let gone := ((g.queue.filter fun w => w.sect = r.sect && w.word.op ≠ 0xFF).map (·.cmd)).eraseDups
  let pushing : Bool := match g.sect? r.sect with | some q => q.left ≠ 0 && q.kind = .pushed | none => false
  let g := { g with
    queue := g.queue.filter fun w => !(w.sect = r.sect && w.word.op ≠ 0xFF)
    claim := if pushing then none else g.claim
    opened := if pushing then none else g.opened }
  let g := g.modSect r.sect fun q =>
    { q with discard := true, left := if q.kind = .pushed then 0 else q.left }
  s.setTile s.tile (gone.foldl (fun t c => t.releaseCmd .sa c) ((s.tileAt s.tile).setEngine .sa g))

/-- A hash insertion that has come to its end: the record, then completion (R236, R237). -/
def State.hashEnd (s : State) (c : HashCmd) (r : Run) : State :=
  let key := (nget 0 r.work.counts 0)
  let close := fun (s : State) =>
    let s := if r.work.k = 1 then s.discardBehind r else s
    s.complete .sa r
  match c.rcd with
  | none => close s
  | some x =>
    match s.runWrite .sa r x.base.toNat (hashRecord r.work.j r.work.i r.work.k key) false false with
    | .fault code v => s.faultAt .sa r code v
    | .done s => close s

/-- Stops a hash insertion with a status (R236). -/
def Run.stopHash (r : Run) (status key : Nat) : Run :=
  { r with work := { r.work with complete := true, k := status, counts := [(0, key)] } }

/-- One turn of the loop of R236: `work.j` is the row, `work.i` the element. -/
def State.hashTurn (s : State) (c : HashCmd) (r : Run) : State :=
  let r := { r with upc := microCount r.work.i }
  match s.keyHead (feedKey c.ksrc) 64 with
  | .waits s => s.setRun .sa r
  | .mark .fin s => s.hashEnd c (r.stopHash 0 0)
  | .mark _ s => s.setRun .sa { r with work := { r.work with j := r.work.j + 1, i := 0 } }
  | .key k before after =>
    let advance := fun (r : Run) => { r with work := { r.work with i := r.work.i + 1 } }
    let resp := before.headResp before.tile (feedKey c.ksrc)
    match after.feedNext { r with clock := r.clock.join resp } (feedKey c.vsrc) 32 with
    | none => (s.skipAbsent [(feedKey c.vsrc, 32)]).setRun .sa r
    | some (none, _, t) =>
      let t := t.setPoint t.tile (feedKey c.ksrc) (before.point t.tile (feedKey c.ksrc))
      t.hashEnd c ((r.raise Flag.len).stopHash 2 0)
    | some (some v, r', t) =>
      if k = emptyKey then t.setRun .sa (advance r')
      else
        match t.insert r' c.ext (match c.hmul with | some m => m.toNat | none => 0) k v with
        | .fault code w => s.faultAt .sa r code w
        | .full => s.hashEnd c ((r.raise Flag.hov).stopHash 1 k)
        | .done r t => t.setRun .sa (advance r)

/-! Duplicate merging of a hash insertion (R232, R236) -/

/-- A window of a hash insertion: the keys so far with their sums, the run and the state with their pairs taken. -/
structure HashWindow where
  groups : List (Nat × Nat)
  flags : Flags
  count : Nat
  r : Run
  s : State

/-- Adds a pair to the groups of a window: the values of one key are added in stream order (R232). -/
def mergePair (k v : Nat) (fl : Flags) : List (Nat × Nat) → List (Nat × Nat) × Flags
  | [] => ([(k, v)], fl)
  | (j, x) :: t =>
    if j = k then
      let (z, f) := arith 1 Fmt.fp32 {} x v 0
      ((j, z) :: t, fl ||| f)
    else
      let (t', f) := mergePair k v fl t
      ((j, x) :: t', f)

/-- Takes up to `n` pairs that have come into a window; a marker of the keys, an empty key or the end of the values closes it. -/
def takeHashWindow (c : HashCmd) : Nat → HashWindow → HashWindow
  | 0, w => w
  | n + 1, w =>
    match w.s.keyHead (feedKey c.ksrc) 64 with
    | .key k before after =>
      let resp := before.headResp before.tile (feedKey c.ksrc)
      if k = emptyKey then w
      else
        match after.feedNext { w.r with clock := w.r.clock.join resp } (feedKey c.vsrc) 32 with
        | some (some v, r, t) =>
          let (g, fl) := mergePair k v w.flags w.groups
          takeHashWindow c n { groups := g, flags := fl, count := w.count + 1, r := r, s := t }
        | _ => w
    | _ => w

/-- Inserts the groups of a window; none where one finds no slot or would fault. -/
def insertWindow (c : HashCmd) (r : Run) (s : State) : List (Nat × Nat) → Option (Run × State)
  | [] => some (r, s)
  | (k, v) :: t =>
    match s.insert r c.ext (match c.hmul with | some m => m.toNat | none => 0) k v with
    | .done r s => insertWindow c r s t
    | _ => none

/-- A window of merged pairs, where the choice takes more than one and each finds its slot; else one turn. -/
def State.hashWindow (s : State) (c : HashCmd) (r : Run) : State :=
  let (n, s) := s.choose
  if n % 64 = 0 then s.hashTurn c r
  else
    let w := takeHashWindow c (n % 64 + 1)
      { groups := [], flags := 0, count := 0, r := { r with upc := microCount r.work.i }, s := s }
    match if w.count = 0 then none else insertWindow c w.r w.s w.groups with
    | some (r', t) => t.setRun .sa { r'.raise w.flags with work := { r'.work with i := r.work.i + w.count } }
    | none => s.hashTurn c r

/-- SA_HASH (R236). -/
def execSaHash (c : HashCmd) (s : State) : Out :=
  match s.resume .sa (.saHash c) (s.eng .sa).runs.isEmpty with
  | none => .next s
  | some (r, s) =>
    let feeds := [feedKey c.ksrc, feedKey c.vsrc]
    let r := if r.work.checked then r
      else { r with work := { r.work with checked := true, j := c.rbase.toNat, i := c.estart.toNat } }
    if r.work.complete then .next (s.hashEnd c r)
    else if !s.feedsFree r.id feeds then .next (s.setRun .sa r)
    else .next ((s.holdFeeds r.id feeds).hashWindow c r)

/-- One slot of a rehash (R238): `work.i` slots of the new table are empty, `work.j` slots of the old one are moved. -/
def State.rehashStep (s : State) (c : RehashCmd) (r : Run) : State :=
  let slots := c.new.bytes / 8
  let r := { r with upc := microCount r.work.j }
  if r.work.i < slots then
    match s.update .sa r (c.new.base.toNat + 8 * r.work.i) 8 false fun _ => (emptyValue s.ticks * 2 ^ 32 + emptyKey, 0) with
    | .fault code v => s.faultAt .sa r code v
    | .done _ r s => s.setRun .sa { r with work := { r.work with i := r.work.i + 1 } }
  else if r.work.j ≥ c.old.bytes / 8 then s.complete .sa r
  else
    match s.bankRead r (c.old.base.toNat + 8 * r.work.j) 8 with
    | .fault code v => s.faultAt .sa r code v
    | .done old r' t =>
      let key := old % 2 ^ 32
      let next := fun (r : Run) => { r with work := { r.work with j := r.work.j + 1 } }
      if key = emptyKey then t.setRun .sa (next r')
      else
        match t.probe r' c.new key (hashSlot c.hmul.toNat key slots) 16 with
        | .fault code v => s.faultAt .sa r code v
        | .full _ _ => s.faultAt .sa r 0x140 (BitVec.ofNat 64 key)
        | .slot i _ r' t =>
          match t.update .sa r' (c.new.base.toNat + 8 * i) 8 false fun _ => (old, 0) with
          | .fault code v => s.faultAt .sa r code v
          | .done _ r' t => t.setRun .sa (next r')

/-- SA_REHASH (R238). -/
def execSaRehash (c : RehashCmd) (s : State) : Out :=
  match s.resume .sa (.saRehash c) (s.eng .sa).runs.isEmpty with
  | none => .next s
  | some (r, s) => .next (s.rehashStep c r)

end Sys2Proof.Machine
end

