-- ==== Sys2Proof/Machine/Network.lean ====
section
/-! DEFINITION. The network engine (R239-R256): gathers and scatters of rows, collectives and their routers (R243-R250,
R368), tokens, external reads (R252, R253, R386). -/

namespace Sys2Proof.Machine

open Sys2Proof

/-- Runs an operation for a command of another tile. -/
def State.onTile (s : State) (t : Nat) (f : State → State) : State :=
  { f { s with tile := t } with tile := s.tile, slot := s.slot }

/-- Commands in progress: at most 16 (R254). -/
def State.neMayStart (s : State) : Bool := (s.eng .ne).runs.length < 16

/-! ### Rows (R239, R240) -/

/-- Lane words of a row. -/
def rowLanes (c : NeMoveCmd) : Nat := c.rowlw.toNat + 1

/-- Bytes of a row. -/
def rowBytes (c : NeMoveCmd) : Nat := 8 * rowLanes c

/-- Stride of the rows. -/
def rowStride (c : NeMoveCmd) : Nat := match c.rstride with | some v => v.toNat | none => rowBytes c

/-- Index width. -/
def rowIndexWidth (c : NeMoveCmd) : Nat := 16 * 2 ^ c.iw.toNat

/-- The address of an offset in the scratchpad of a logical tile (R33). -/
def tileAddr (rank off : Nat) : Nat :=
  0x80 * 2 ^ 56 + rank / 24 / 48 * 2 ^ 46 + rank / 24 % 48 * 2 ^ 40 + rank % 24 * 2 ^ 35 + off

/-- Where an index's row lies: its address, or a fault. -/
inductive RowAt
  | at_ (a : Nat)
  | fault (code : BitVec 12) (tval : Word)
deriving DecidableEq, Repr

/-- Whether an address lies within a scope set of the acting tile (R291). -/
def State.addrInScope (s : State) (a scope : Nat) : Bool :=
  if isScratchAddr a then
    match logicalKey (s.places s.tile) a with
    | some k => s.keyInScope s.tile k scope
    | none => false
  else true

/-- The row that an index names (R240). -/
def State.rowAt (s : State) (c : NeMoveCmd) (v : Nat) : RowAt :=
  let bounded := fun (a : Nat) =>
    if s.addrInScope a c.scope.toNat then RowAt.at_ a else .fault 0x150 (BitVec.ofNat 64 a)
  let base := c.ext.base.toNat
  if !c.shard then
    let a := base + v * rowStride c
    if inExt c.ext a (rowBytes c) then bounded a else .fault 0x105 (BitVec.ofNat 64 a)
  else
    let j := v / 2 ^ c.sh.toNat
    let o := base % 2 ^ 24 + v % 2 ^ c.sh.toNat * rowStride c
    match nget? (s.places s.tile) j with
    | none => .fault 0x150 (BitVec.ofNat 64 v)
    | some _ =>
      if o + rowBytes c > base % 2 ^ 24 + c.ext.bytes then .fault 0x105 (BitVec.ofNat 64 (tileAddr j o))
      else bounded (tileAddr j o)

/-! ### `ne.gath` (R241) -/

/-- The key of a row in the reorder buffer. -/
def robKey (run row : Nat) : Nat := run * 2 ^ 13 + row

/-- A row that has come back. -/
def State.robRow (s : State) (run row : Nat) : Option (List Word) := nget? (s.tileAt s.tile).rob (robKey run row)

/-- Puts a row into the reorder buffer. -/
def State.setRob (s : State) (run row : Nat) (ws : List Word) : State :=
  let t := s.tileAt s.tile
  s.setTile s.tile { t with rob := nset t.rob (robKey run row) ws }

/-- Takes a row out of the reorder buffer. -/
def State.dropRob (s : State) (run row : Nat) : State :=
  let t := s.tileAt s.tile
  s.setTile s.tile { t with rob := nerase t.rob (robKey run row) }

/-- Lane words that a gather has room for in the reorder buffer, or awaits there. -/
def Run.robUse (r : Run) : Nat :=
  match r.instr with
  | .neGath c => (r.work.i - r.work.k) * rowLanes c
  | _ => 0

/-- Whether the reorder buffer (256 KiB) has room for one more row and one more read may be outstanding (R363). -/
def State.robRoom (s : State) (c : NeMoveCmd) : Bool :=
  let g := s.eng .ne
  let used := (g.runs.map Run.robUse).foldl (· + ·) 0
  let reads := (g.runs.map fun r => r.work.counts.length).foldl (· + ·) 0
  used + rowLanes c ≤ 32768 && reads < 512

/-- Whether a gather or scatter has taken its last index. -/
def Run.indicesOver (r : Run) (c : NeMoveCmd) : Bool := r.work.complete || r.work.i > c.nidx.toNat

/-- The lane words that stand ready from row `k` on, until `want` of them. -/
def State.readyLanes (s : State) (run want : Nat) : Nat → Nat → List Word
  | 0, _ => []
  | fuel + 1, k =>
    match s.robRow run k with
    | none => []
    | some ws => if ws.length ≥ want then ws else ws ++ s.readyLanes run (want - ws.length) fuel (k + 1)

/-- Advances a gather past `n` lane words of its rows: rows used up leave the reorder buffer. -/
def State.passLanes (s : State) (r : Run) (lanes : Nat) : Nat → Nat → Run × State
  | 0, _ => (r, s)
  | fuel + 1, n =>
    let left := lanes - r.work.j
    if n < left then ({ r with work := { r.work with j := r.work.j + n } }, s)
    else
      let s := s.dropRob r.id r.work.k
      s.passLanes { r with work := { r.work with k := r.work.k + 1, j := 0 } } lanes fuel (n - left)

/-- What a gather sends next to its port: eight lane words, or the last ones; START on the first packet, END on the last, or
alone behind a first packet that is the last. -/
def State.gathPacket (s : State) (r : Run) (c : NeMoveCmd) : Option Packet :=
  let sid := c.mid.extractLsb' 1 9
  let left := (r.work.i - r.work.k) * rowLanes c - r.work.j
  let ws := ((s.readyLanes r.id (r.work.j + 8) 9 r.work.k).drop r.work.j).take 8
  if r.work.endSent then none
  else if r.indicesOver c && left = 0 then
    if c.b29 then some { lanes := [], pred := 0, sid := sid, marker := some .fin } else none
  else if ws.length = 8 || (r.indicesOver c && left ≤ 8 && ws.length = left) then
    let start := c.b30 && !r.work.startSent
    let fin := c.b29 && r.indicesOver c && ws.length = left
    some {
      lanes := ws, pred := BitVec.allOnes 8 >>> (8 - ws.length), sid := sid
      marker := if start then some .start else if fin then some .fin else none }
  else none

/-- Whether a gather has delivered or written everything. -/
def Run.gathDone (r : Run) (c : NeMoveCmd) : Bool :=
  r.indicesOver c && r.work.k ≥ r.work.i && (c.dmem || !c.b29 || r.work.endSent)

/-- Rows written to a packed extent carry what produced them to their readers (R299). -/
def State.markResponses (s : State) (keys : List Nat) (clock : Clock) : State :=
  let rel : Rel := { tile := s.tile, scope := 15, clock := clock, kind := .response }
  { s with rels := keys.foldl (fun m k => nmod [] m k (· ++ [rel])) s.rels }

/-- Delivers the next packet of a gather, or writes its next row (R241); none where nothing can be sent now. -/
def State.gathSend (s : State) (r : Run) (c : NeMoveCmd) : Option State :=
  let upTo := fun (n : Nat) => (r.part n).clock.release (cmdAgent r.id)
  if c.dmem then
    match c.ext1, s.robRow r.id r.work.k with
    | some x, some ws =>
      let a := x.base.toNat + r.work.k * rowBytes c
      let r := { r with upc := microCount r.work.k }
      match s.runWrite .ne (r.part r.work.k) a (ws.flatMap fun w => leBytes 8 w.toNat) false false with
      | .fault code v => some (s.faultAt .ne r code v)
      | .done t =>
        let t := match t.runKeys .ne r a (rowBytes c) with | some ks => t.markResponses ks (upTo r.work.k) | none => t
        some ((t.dropRob r.id r.work.k).setRun .ne { r with work := { r.work with k := r.work.k + 1 } })
    | _, _ => none
  else
    match s.gathPacket r c with
    | none => none
    | some p =>
      let last := r.work.k + (r.work.j + p.count - 1) / rowLanes c
      match s.deliver s.tile (pointKey c.port p.sid) r.id true { p with resp := upTo last } with
      | .waits => none
      | .wrongSid => some (s.faultAt .ne r 0x111 (c.port.setWidth 64))
      | .done t =>
        let (r, t) := t.passLanes r (rowLanes c) 10 p.count
        some (t.setRun .ne { r with work := { r.work with startSent := true, endSent := p.marker = some .fin } })

/-- A gather takes its next index and asks for its row (R240, R241); a null index gives a row of zeros with no access. -/
def State.gathTake (s : State) (r : Run) (c : NeMoveCmd) : State :=
  if r.indicesOver c || !s.robRoom c || !s.feedsFree r.id [feedKey c.isrc] then s.setRun .ne r
  else
    let s := s.holdFeeds r.id [feedKey c.isrc]
    let n := r.work.i
    match s.feedNext r (feedKey c.isrc) (rowIndexWidth c) with
    | none => (s.skipAbsent [(feedKey c.isrc, rowIndexWidth c)]).setRun .ne r
    | some (none, r, t) => t.setRun .ne { r.raise Flag.len with work := { r.work with complete := true } }
    | some (some v, r', t) =>
      let next := fun (r : Run) => { r with work := { r.work with i := n + 1 } }
      if v = nullIndex (rowIndexWidth c) then
        (t.setRob r.id n (List.replicate (rowLanes c) 0)).setRun .ne (next r')
      else
        match s.rowAt c v with
        | .fault code w => s.faultAt .ne { r with upc := microCount n } code w
        | .at_ a => t.setRun .ne (next { r' with work := { r'.work with counts := nset r'.work.counts n a } })

/-- NE_GATH (R241): delivers or writes what stands ready in index order, else takes the next index. -/
def execNeGath (c : NeMoveCmd) (s : State) : Out :=
  match s.resume .ne (.neGath c) s.neMayStart with
  | none => .next s
  | some (r, s) =>
    if r.gathDone c then .next (s.complete .ne r)
    else
      match s.gathSend r c with
      | some t => .next t
      | none => .next (s.gathTake r c)

/-- GATHER_REPLY: a row read returns into the reorder buffer (R241); replies in flight return whatever the engine's state
(R256), a reply that faults waits for the engine to run again. -/
def execGatherReply (slot row : Nat) (s : State) : Out :=
  match (s.eng .ne).run? slot with
  | none => .next s
  | some r =>
    match r.instr, nget? r.work.counts row with
    | .neGath c, some a =>
      match s.runRead .ne r a (rowBytes c) c.pois false with
      | .fault code v =>
        if (s.eng .ne).fault.isSome then .next s
        else .next (s.faultAt .ne { r with upc := microCount row } code v)
      | .bytes bs bad =>
        let r := ((s.took .ne r a (rowBytes c)).reached row).raise (raiseIf bad Flag.poi)
        let s := (s.runNote .ne (r.part row) a (rowBytes c) false).setRob r.id row (wordsOf (rowLanes c) bs)
        .next (s.setRun .ne { r with work := { r.work with counts := nerase r.work.counts row } })
    | _, _ => .next s

/-! ### `ne.scat` (R242) -/

/-- Collects the lane words of a scatter's row: `work.k` of them, the present ones in `work.got`. -/
inductive RowTaken
  | full (r : Run) (s : State)
  | waits (r : Run) (s : State)
  | ended (r : Run) (s : State)
  | fault (code : BitVec 12) (tval : Word)
deriving DecidableEq, Repr

/-- Takes lane words of a row from a feed; an absent one keeps its place (R229, R242). -/
def State.takeRow (s : State) (r : Run) (code n : Nat) : Nat → RowTaken
  | 0 => .waits r s
  | fuel + 1 =>
    if r.work.k ≥ n then .full r s
    else
      match (s.fitHead s.tile code 64).peek s.tile code with
      | none => .waits r s
      | some (.lane w present, s) =>
        let clock := if present then r.clock.join (s.headResp s.tile code) else r.clock
        let got := if present then nset r.work.got r.work.k w else r.work.got
        let r := { r with clock := clock, work := { r.work with got := got, k := r.work.k + 1 } }
        (s.pop s.tile code).takeRow r code n fuel
      | some (.mark .fin, s) => .ended r (s.pop s.tile code)
      | some (.mark _, s) => (s.pop s.tile code).takeRow r code n fuel

/-- Reads a packed row of a scatter from extent 1. -/
def State.readRow (s : State) (r : Run) (c : NeMoveCmd) (x : Ext) : RowTaken :=
  let a := x.base.toNat + r.work.i * rowBytes c
  match s.runRead .ne r a (rowBytes c) c.pois false with
  | .fault code v => .fault code v
  | .bytes bs bad =>
    let ws := wordsOf (rowLanes c) bs
    let got := (ws.zip (List.range ws.length)).map fun p => (p.2, p.1)
    let r := (s.took .ne r a (rowBytes c)).raise (raiseIf bad Flag.poi)
    let r := { r with work := { r.work with got := got, k := rowLanes c } }
    .full r (s.runNote .ne r a (rowBytes c) false)

/-- How far the write of a row has come: whole, or to a fault with what went before it applied. -/
inductive RowPut
  | done (r : Run) (s : State)
  | fault (r : Run) (s : State) (code : BitVec 12) (tval : Word)
deriving DecidableEq, Repr

/-- One lane word of a row as atomic `add`s from element `work.j` on (R231, R242), `per` elements a lane word. -/
def State.addLane (s : State) (r : Run) (type : BitVec 4) (a : Nat) (w : Word) (per : Nat) : Nat → RowPut
  | 0 => .done r s
  | n + 1 =>
    let e := r.work.j % per
    let es := 8 / per
    match s.update .ne r (a + e * es) es false fun old =>
      saCombine 0 type false old (w.toNat / 2 ^ (8 * es * e) % 2 ^ (8 * es)) with
    | .fault code v => .fault r s code v
    | .done _ r s =>
      let r := { r with work := { r.work with j := r.work.j + 1 } }
      if r.work.j % per = 0 then .done r s else s.addLane r type a w per n

/-- Writes the lane words of a row from `work.j` on, in order. -/
def State.putRow (s : State) (r : Run) (c : NeMoveCmd) (a : Nat) : Nat → RowPut
  | 0 => .done r s
  | fuel + 1 =>
    let per := if c.b30 then 64 / widthOfCode c.atype else 1
    let lane := r.work.j / per
    if lane ≥ rowLanes c then .done r s
    else
      match nget? r.work.got lane with
      | none => s.putRow { r with work := { r.work with j := (lane + 1) * per } } c a fuel
      | some w =>
        if c.b30 then
          match s.addLane r c.atype (a + 8 * lane) w per 8 with
          | .done r s => s.putRow r c a fuel
          | f => f
        else
          match s.runWrite .ne r (a + 8 * lane) (leBytes 8 w.toNat) false false with
          | .fault code v => .fault r s code v
          | .done s => s.putRow { r with work := { r.work with j := lane + 1 } } c a fuel

/-- The row of a scatter is done with. -/
def Run.rowOver (r : Run) : Run :=
  { r with work := { r.work with i := r.work.i + 1, j := 0, k := 0, got := [], counts := [] } }

/-- A scatter writes the row that it holds (R240, R242). -/
def State.scatWrite (s : State) (r : Run) (c : NeMoveCmd) (v : Nat) : State :=
  if v = nullIndex (rowIndexWidth c) then s.setRun .ne r.rowOver
  else
    let r := { r with upc := microCount r.work.i }
    match s.rowAt c v with
    | .fault code w => s.faultAt .ne r code w
    | .at_ a =>
      match s.putRow r c a (rowLanes c + 1) with
      | .done r s => s.setRun .ne r.rowOver
      | .fault r s code w => s.faultAt .ne r code w

/-- NE_SCAT (R242): the next index, its row, the write. -/
def execNeScat (c : NeMoveCmd) (s : State) : Out :=
  match s.resume .ne (.neScat c) s.neMayStart with
  | none => .next s
  | some (r, s) =>
    let feeds := feedKey c.isrc :: (if c.dmem then [] else [feedKey c.mid])
    if r.indicesOver c then .next (s.complete .ne r)
    else if !s.feedsFree r.id feeds then .next (s.setRun .ne r)
    else
      let s := s.holdFeeds r.id feeds
      let finish := fun (r : Run) => { r.raise Flag.len with work := { r.work with complete := true } }
      let index : Option (Option Nat × Run × State) := match nget? r.work.counts 0 with
        | some v => some (some v, r, s)
        | none => s.feedNext r (feedKey c.isrc) (rowIndexWidth c)
      match index with
      | none => .next ((s.skipAbsent [(feedKey c.isrc, rowIndexWidth c)]).setRun .ne r)
      | some (none, r, s) => .next (s.setRun .ne (finish r))
      | some (some v, r, s) =>
        let r := { r with work := { r.work with counts := [(0, v)] } }
        let row := match c.dmem, c.ext1 with
          | true, some x => if r.work.k = 0 then s.readRow r c x else .full r s
          | _, _ => s.takeRow r (feedKey c.mid) (rowLanes c) 64
        match row with
        | .waits r s => .next (s.setRun .ne r)
        | .ended r s => .next (s.setRun .ne (finish r))
        | .fault code w => .next ((s.setRun .ne r).faultAt .ne { r with upc := microCount r.work.i } code w)
        | .full r s => .next (s.scatWrite r c v)

end Sys2Proof.Machine
end

