-- ==== Sys2Proof/Machine/Collect.lean ====
section
/-! DEFINITION. Collectives: joining a round (R243, R244, R246), the routers' tree (R248, R368), results (R245, R247), flag
gathering (R249, R250), tokens (R251), external reads (R252, R253, R386). -/

namespace Sys2Proof.Machine

open Sys2Proof

/-! ### What a collective is -/

/-- The operation of a collective, from its command: 0 `sum`, 1 `min`, 2 `max` (R244). -/
inductive Collective
  | red (rop : Nat) (c : RedCmd)
  | smrg (c : SmrgCmd)
deriving DecidableEq, Repr

namespace Collective

/-- The collective of a command. -/
def of : Instr → Option Collective
  | .neRedSum c => some (.red 0 c)
  | .neRedMin c => some (.red 1 c)
  | .neRedMax c => some (.red 2 c)
  | .neSmrg c => some (.smrg c)
  | _ => none

/-- TYPE. -/
def type : Collective → BitVec 4 | .red _ c => c.type | .smrg c => c.type
/-- SAT. -/
def sat : Collective → Bool | .red _ c => c.sat | .smrg c => c.sat
/-- SCOPE. -/
def scope : Collective → Nat | .red _ c => c.scope.toNat | .smrg c => c.scope.toNat
/-- GID. -/
def gid : Collective → BitVec 16 | .red _ c => c.gid | .smrg c => c.gid
/-- Participants. -/
def part : Collective → Nat | .red _ c => c.part.toNat + 1 | .smrg c => c.part.toNat + 1
/-- The participant's extent. -/
def ext : Collective → Ext | .red _ c => c.ext | .smrg c => c.ext
/-- The root that a ROOTED reduction names (R244). -/
def root : Collective → Option Nat
  | .red _ c => if c.rooted then some (match c.root with | some v => v.toNat | none => 0) else none
  | .smrg _ => none
/-- Kinds whose rounds are counted apart (R243). -/
def kind : Collective → Nat | .red _ _ => 0 | .smrg _ => 1
/-- Size of an element in bytes. -/
def es (c : Collective) : Nat := widthOfCode c.type / 8
/-- What the first arrival of a round fixes (R243). -/
def params : Collective → List Nat
  | .red o c => [0, o, c.type.toNat, c.sat.toNat, c.ext.bytes, c.part.toNat, c.scope.toNat]
  | .smrg c => [1, c.type.toNat, c.sat.toNat, c.nwin.toNat, c.thr.toNat, c.part.toNat, c.scope.toNat]

end Collective

/-- The density threshold of a sorted merge, in pairs (R246, R248). -/
def denseAbove (c : SmrgCmd) : Nat := 256 * (if c.thr = 0 then 4 else c.thr.toNat)

/-- Input pairs. -/
def inputPairs (c : SmrgCmd) : Nat := match c.nin with | some v => v.toNat | none => 0

/-! ### Values (R245) -/

/-- A sum in a floating format: on overflow the largest finite value with SAT (R245). -/
def saturating (f : Fmt) (sat : Bool) (p : Nat × Flags) : Nat × Flags :=
  if sat && p.2 &&& Flag.of ≠ 0 then
    (f.maxFin (p.1.testBit (f.width - 1)), (p.2 &&& ~~~Flag.nf) ||| Flag.sat)
  else p

/-- An element as a contribution carries it: floating sums widened to FP32, a NaN canonical (R37), integers exact in 64 bits
(R245). -/
def widen (o : Collective) (b : Nat) : BitVec 64 × Flags :=
  match o, fmtOfCode o.type with
  | .red 0 _, some f =>
    let (v, fl) := Fmt.fp32.convert {} (f.decode false b)
    (BitVec.ofNat 64 v, fl)
  | _, some f =>
    let (v, fl) := f.convert {} (f.decode false b)
    (BitVec.ofNat 64 v, fl)
  | _, none => (BitVec.ofInt 64 (intOfBits (signedCode o.type) 32 b), 0)

/-- Two values combined by a router (R245). -/
def combine (o : Collective) (a b : BitVec 64) : BitVec 64 × Flags :=
  let fsum : Nat × Flags := saturating Fmt.fp32 o.sat (arith 1 Fmt.fp32 {} a.toNat b.toNat 0)
  match o, fmtOfCode o.type with
  | .red 0 _, some _ | .smrg _, some _ => (BitVec.ofNat 64 fsum.1, fsum.2)
  | .red 0 _, none | .smrg _, none => (a + b, 0)
  | .red k _, some f => let (v, fl) := minMax (k = 2) f {} a.toNat b.toNat; (BitVec.ofNat 64 v, fl)
  | .red k _, none => (BitVec.ofInt 64 (if k = 2 then max a.toInt b.toInt else min a.toInt b.toInt), 0)

/-- A value as it is delivered: rounded once to TYPE, wrapped or clamped (R245, R248). -/
def deliverValue (o : Collective) (a : BitVec 64) : Nat × Flags :=
  match o, fmtOfCode o.type with
  | .red 0 _, some f =>
    if f = Fmt.fp32 then (a.toNat, 0) else saturating f o.sat (f.convert {} (Fmt.fp32.decode false a.toNat))
  | .red 0 _, none | .smrg _, none => intWrite (signedCode o.type) 32 o.sat a.toInt
  | .red _ _, none => (a.toNat % 2 ^ 32, 0)
  | _, some _ => (a.toNat, 0)

/-! ### Joining a round (R243) -/

/-- The key of a participant's count of collectives of one kind on one GID. -/
def joinKey (region rank kind : Nat) (gid : BitVec 16) : Nat :=
  ((region * 2 ^ 21 + rank) * 2 + kind) * 2 ^ 16 + gid.toNat


/-- The contribution of a dense reduction (R244). -/
def denseContribution (o : Collective) (router : Nat) (bs : List Byte) : Contribution × Flags :=
  let n := bs.length / o.es
  let vs := (List.range n).map fun i => widen o (leNat ((bs.drop (i * o.es)).take o.es))
  ({ router := router, values := vs.map Prod.fst }, vs.foldl (fun f p => f ||| p.2) 0)

/-- The position of the first pair out of order or range (R246). -/
def badPair (limit : Nat) : Nat → Option Nat → List (Nat × Nat) → Option Nat
  | _, _, [] => none
  | n, prev, (i, _) :: t =>
    if i ≥ limit || (match prev with | some p => i ≤ p | none => false) then some n
    else badPair limit (n + 1) (some i) t

/-- The pairs at the start of an extent. -/
def pairsOf : Nat → List Byte → List (Nat × Nat)
  | 0, _ => []
  | n + 1, bs => (leNat (bs.take 4), leNat ((bs.drop 4).take 4)) :: pairsOf n (bs.drop 8)

/-- What a participant brings to its round, or the fault that stops it. -/
inductive Brought
  | data (c : Contribution) (fl : Flags) (read : Nat)
  | fault (code : BitVec 12) (tval : Word)
deriving DecidableEq, Repr

/-- Reads a participant's contribution (R243, R246). -/
def State.bring (s : State) (r : Run) (o : Collective) : Brought :=
  let router := s.tile / 24
  let n := match o with | .red _ c => c.ext.bytes | .smrg c => 8 * inputPairs c
  match s.runRead .ne r o.ext.base.toNat n true true with
  | .fault code v => .fault code v
  | .bytes bs _ =>
    match o with
    | .red _ _ => let (c, fl) := denseContribution o router bs; .data c fl n
    | .smrg c =>
      let ps := pairsOf (inputPairs c) bs
      match badPair ((c.nwin.toNat + 1) * 4096) 0 none ps with
      | some p => .fault 0x153 (BitVec.ofNat 64 p)
      | none =>
        let vs := ps.map fun p => (p.1, widen o p.2)
        .data { router := router, pairs := vs.map fun p => (p.1, p.2.1) } (vs.foldl (fun f p => f ||| p.2.2) 0) n

/-- The region of the acting tile, 0 with none. -/
def State.hereRegion (s : State) : Nat := (s.tileEntry s.tile).region

/-- A participant joins its round with its contribution (R243): a release at SCOPE. -/
def State.joinRound (s : State) (r : Run) (i : Instr) (o : Collective) (c : Contribution) (fl : Flags) (read : Nat) : State :=
  let key := joinKey s.hereRegion s.ownRank o.kind o.gid
  let k := nget 0 s.joins key
  let s := s.runNote .ne r o.ext.base.toNat read true
  let clock := r.clock.release (cmdAgent r.id)
  let rel : Rel := { tile := s.tile, scope := o.scope, clock := clock }
  let same := fun (q : Round) => q.region = s.hereRegion && q.gid = o.gid && q.number = k
    && (match Collective.of q.instr with | some p => p.kind = o.kind | none => false)
  let fresh : Round := { id := s.nextAgent, region := s.hereRegion, gid := o.gid, number := k, instr := i }
  let s := if s.rounds.any same then s else { s with rounds := s.rounds ++ [fresh], nextAgent := s.nextAgent + 1 }
  let rounds := lmod same (fun q => { q with
    members := q.members ++ [(s.tile, r.id)], rels := q.rels ++ [rel], parts := q.parts ++ [c], flags := q.flags ||| fl })
    s.rounds
  let s := { s with rounds := rounds, joins := nset s.joins key (k + 1) }
  s.setRun .ne { r with clock := clock, work := { r.work with startSent := true } }

/-- A collective command that has not joined its round yet (R243): its targets, its round's parameters, its contribution. -/
def State.contribute (s : State) (r : Run) (i : Instr) (o : Collective) : State :=
  let k := nget 0 s.joins (joinKey s.hereRegion s.ownRank o.kind o.gid)
  let rootBad : Bool := match o.root with
    | some v =>
      (match nget? (s.places s.tile) v with
      | some t => !s.inScope s.tile t o.scope
      | none => true)
    | none => false
  let first := lfind (fun (q : Round) => q.region = s.hereRegion && q.gid = o.gid && q.number = k
    && (match Collective.of q.instr with | some p => p.kind = o.kind | none => false)) s.rounds
  let differs : Bool := match first with
    | some q => (match Collective.of q.instr with | some p => p.params ≠ o.params | none => true)
    | none => false
  if !s.addrInScope o.ext.base.toNat o.scope then s.faultAt .ne r 0x150 o.ext.base
  else if rootBad then s.faultAt .ne r 0x150 (match o.root with | some v => BitVec.ofNat 64 v | none => 0)
  else if differs then s.faultAt .ne r 0x152 (o.gid.setWidth 64)
  else
    match s.bring r o with
    | .fault code v => s.faultAt .ne r code v
    | .data c fl n => s.joinRound (s.took .ne r o.ext.base.toNat n) i o c fl n

/-- Runs a collective command: the oldest of its kind in progress that has not joined joins, else the next starts. -/
def State.collective (s : State) (i : Instr) : Out :=
  match Collective.of i with
  | none => .next s
  | some o =>
    if (s.eng .ne).fault.isSome then .next s
    else
      match lfind (fun r => r.instr = i && !r.work.startSent) (s.eng .ne).runs with
      | some r => if s.unitStops .ne (some r) then .next s else .next (s.contribute r i o)
      | none =>
        if !s.neMayStart then .next s
        else
          match s.startRun .ne i with
          | none => .next s
          | some (r, s) => .next (s.contribute r i o)

/-- NE_RED_SUM (R244, R245). -/
def execNeRedSum (c : RedCmd) (s : State) : Out := s.collective (.neRedSum c)
/-- NE_RED_MIN (R244, R245). -/
def execNeRedMin (c : RedCmd) (s : State) : Out := s.collective (.neRedMin c)
/-- NE_RED_MAX (R244, R245). -/
def execNeRedMax (c : RedCmd) (s : State) : Out := s.collective (.neRedMax c)
/-- NE_SMRG (R246): the order of the pairs is checked before the contribution is sent. -/
def execNeSmrg (c : SmrgCmd) (s : State) : Out := s.collective (.neSmrg c)

/-! ### The tree (R366, R368) -/

/-- The next router from one cluster to another: first along x, then along y (R366). -/
def nextHop (c dst : Nat) : Nat :=
  if c % 8 < dst % 8 then c + 1 else if c % 8 > dst % 8 then c - 1
  else if c / 8 < dst / 8 then c + 8 else if c / 8 > dst / 8 then c - 8 else c

/-- Whether a router lies on the way from a cluster to the root. -/
def onWay (root v : Nat) : Nat → Nat → Bool
  | 0, c => c = v
  | fuel + 1, c => c = v || (c ≠ root && onWay root v fuel (nextHop c root))

/-- The root router of a round (R368): the cluster of ROOT, else of the participant of lowest rank. -/
def State.rootOf (s : State) (q : Round) (o : Collective) : Nat :=
  let place := match nget? s.regions q.region with | some r => r.place | none => []
  match o.root with
  | some v => nget 0 place v / 24
  | none =>
    match lfind (fun p => q.members.any fun m => m.1 = p.2) place with
    | some p => p.2 / 24
    | none => (match q.members with | m :: _ => m.1 / 24 | [] => 0)

/-- A list in an order that the choices name, its own where they name none (R51, R368). -/
def State.pickOrder {α : Type} (s : State) : Nat → List α → List α × State
  | 0, xs => (xs, s)
  | fuel + 1, xs =>
    match xs with
    | [] => ([], s)
    | x :: rest =>
      let (n, s) := s.choose
      let n := n % xs.length
      match xs.drop n with
      | y :: t =>
        let (ys, s) := s.pickOrder fuel (xs.take n ++ t)
        (y :: ys, s)
      | [] => let (ys, s) := s.pickOrder fuel rest; (x :: ys, s)

/-- The reduction of values in order. -/
def foldValues (o : Collective) : List (BitVec 64) → BitVec 64 × Flags
  | [] => (0, 0)
  | a :: t => t.foldl (fun (p : BitVec 64 × Flags) b => let (v, f) := combine o p.1 b; (v, p.2 ||| f)) (a, 0)

/-- The values that the inputs of a router bring for one place, combined in an order that timing decides. -/
def State.reduce (s : State) (o : Collective) (vs : List (BitVec 64)) : BitVec 64 × Flags × State :=
  let (vs, s) := s.pickOrder vs.length vs
  let (v, f) := foldValues o vs
  (v, f, s)

/-- Combines dense vectors element by element (R245). -/
def State.combineDense (s : State) (o : Collective) (ins : List (List (BitVec 64))) : Nat → Nat → List (BitVec 64) × Flags × State
  | 0, _ => ([], 0, s)
  | fuel + 1, e =>
    let (v, f, s) := s.reduce o (ins.map fun x => lget 0 x e)
    let (vs, g, s) := s.combineDense o ins fuel (e + 1)
    (v :: vs, f ||| g, s)

/-- Combines the pairs at the given indices (R248). -/
def State.combinePairs (s : State) (o : Collective) (ins : List (NMap (BitVec 64))) : List Nat → NMap (BitVec 64) × Flags × State
  | [] => ([], 0, s)
  | i :: rest =>
    let (v, f, s) := s.reduce o (ins.filterMap fun m => nget? m i)
    let (m, g, s) := s.combinePairs o ins rest
    ((i, v) :: m, f ||| g, s)

/-- The indices of a window that a list of pairs holds. -/
def inWindow (w : Nat) (m : NMap (BitVec 64)) : NMap (BitVec 64) := m.filter fun p => p.1 / 4096 = w

/-- A window of the merge (R248): sparse or dense, with +0 at the positions a dense one lacks. A −0 may turn +0 there, as
the choice says. At delivery a window of more pairs than its slot holds is dense (log entry 28). -/
def State.mergeWindow (s : State) (o : Collective) (c : SmrgCmd) (ins : List Contribution) (last : Bool) (w : Nat) :
    NMap (BitVec 64) × Bool × Flags × State :=
  let lists := ins.map fun p => inWindow w p.pairs
  let keys := lists.foldl (fun (m : NMap Unit) l => l.foldl (fun m p => nset m p.1 ()) m) []
  let (m, f, s) := s.combinePairs o lists (keys.map Prod.fst)
  let dense := ins.any (fun p => p.dense.contains w) || m.length > denseAbove c || lists.any (fun l => l.length > 2048)
    || (last && m.length > 2048)
  if !dense then (m, false, f, s)
  else
    let (n, s) := s.choose
    let clear := fun (v : BitVec 64) => if n % 2 = 1 && c.type = 1 && v = 0x80000000 then 0 else v
    ((rangeFrom (4096 * w) 4096).map fun i => (i, clear (nget 0 m i)), true, f, s)

/-- Merges every window. -/
def State.mergeWindows (s : State) (o : Collective) (c : SmrgCmd) (ins : List Contribution) (last : Bool) :
    List Nat → NMap (BitVec 64) × List Nat × Flags × State
  | [] => ([], [], 0, s)
  | w :: rest =>
    let (m, d, f, s) := s.mergeWindow o c ins last w
    let (ms, ds, g, s) := s.mergeWindows o c ins last rest
    (m ++ ms, if d then w :: ds else ds, f ||| g, s)

/-- The combination of a router's inputs (R245, R248). -/
def State.combineParts (s : State) (o : Collective) (ins : List Contribution) (last : Bool) : Contribution × Flags × State :=
  let count := (ins.map (·.count)).foldl (· + ·) 0
  match o with
  | .red _ c =>
    let n := c.ext.bytes / o.es
    let (vs, f, s) := s.combineDense o (ins.map (·.values)) n 0
    ({ router := 0, count := count, values := vs }, f, s)
  | .smrg c =>
    let (m, d, f, s) := s.mergeWindows o c ins last (List.range (c.nwin.toNat + 1))
    ({ router := 0, count := count, pairs := m, dense := d }, f, s)

/-- Whether a round stands still: the NE of a participant is stopped by a cut or with its clock (R256, R393). -/
def State.roundStops (s : State) (q : Round) : Bool :=
  q.members.any fun m => ({ s with tile := m.1 } : State).unitStops .ne none

/-- ROUTER_COMBINE: a router combines the contributions of its subtree once all have arrived and sends the result toward the
root; at the root it is the round's result (R368). -/
def execRouterCombine (round router : Nat) (s : State) : Out :=
  match lfind (fun (q : Round) => q.id = round) s.rounds with
  | none => .next s
  | some q =>
    match Collective.of q.instr with
    | none => .next s
    | some o =>
      let root := s.rootOf q o
      let here := q.parts.filter (·.router = router)
      let below := q.parts.any fun p => p.router ≠ router && onWay root router 16 p.router
      if q.done || q.members.length < o.part || here.isEmpty || below || s.roundStops q then .next s
      else
        let (c, f, s) := s.combineParts o here (router = root)
        let c := { c with router := if router = root then root else nextHop router root }
        let q := { q with
          parts := q.parts.filter (·.router ≠ router) ++ [c], flags := q.flags ||| f, done := router = root }
        .next { s with rounds := lmod (fun x => x.id = round) (fun _ => q) s.rounds }

/-! ### Results (R245, R247) -/

/-- The bytes of a window's slot (R247): header, zeros, pairs or values. -/
def windowBytes (o : Collective) (m : NMap (BitVec 64)) (dense : Bool) : List Byte × Flags :=
  let vs := m.map fun p => (p.1, deliverValue o p.2)
  let head := leBytes 8 ((if dense then 2 ^ 63 else 0) + m.length) ++ leBytes 56 0
  let body := vs.flatMap fun p => (if dense then [] else leBytes 4 p.1) ++ leBytes 4 p.2.1
  (head ++ body, vs.foldl (fun f p => f ||| p.2.2) 0)

/-- What is written at a participant: places and bytes; the flags of delivery. -/
def resultBytes (o own : Collective) (c : Contribution) : List (Nat × List Byte) × Flags :=
  let base := own.ext.base.toNat
  match o, own with
  | .red _ _, _ =>
    let vs := c.values.map (deliverValue o)
    ([(base, vs.flatMap fun p => leBytes o.es p.1)], vs.foldl (fun f p => f ||| p.2) 0)
  | .smrg d, .smrg w =>
    let off := base + 64 * ((inputPairs w * 8 + 63) / 64)
    let slots := (List.range (d.nwin.toNat + 1)).map fun k =>
      (off + 16448 * k, windowBytes o (inWindow k c.pairs) (c.dense.contains k))
    (slots.map fun p => (p.1, p.2.1), slots.foldl (fun f p => f ||| p.2.2) 0)
  | _, _ => ([], 0)

/-- Writes pieces of a result for a command. -/
def State.writePieces (s : State) (r : Run) : List (Nat × List Byte) → Writing
  | [] => .done s
  | (a, bs) :: t =>
    match s.runWrite .ne r a bs true false with
    | .fault code v => .fault code v
    | .done s => s.writePieces r t

/-- Whether a participant is a destination of the result. -/
def State.isDest (s : State) (q : Round) (o : Collective) (tile : Nat) : Bool :=
  match o.root with
  | none => true
  | some v => (match nget? s.regions q.region with | some r => nget? r.place v = some tile | none => false)

/-- Writes the result at one participant that does not hold it yet; a race there stops its NE, and the write is made again
after (R304). -/
def State.writeResult (s : State) (q : Round) (o : Collective) (c : Contribution) (m : Nat × Nat) : State :=
  if q.written.contains m.2 || !s.isDest q o m.1 then s
  else
    s.onTile m.1 fun s =>
      let note := fun (s : State) (f : Flags) => { s with
        rounds := lmod (fun (x : Round) => x.id = q.id) (fun x => { x with written := m.2 :: x.written, flags := x.flags ||| f })
          s.rounds }
      match (s.eng .ne).run? m.2 with
      | none => note s 0
      | some r =>
        let own := match Collective.of r.instr with | some w => w | none => o
        let (ps, f) := resultBytes o own c
        match s.writePieces r ps with
        | .done s => note s f
        | .fault code v => if (s.eng .ne).fault.isSome then s else s.faultAt .ne r code v

/-- Completes a participant's command: it acquires the contributions, with the round's flags (R243). -/
def State.finishMember (s : State) (q : Round) (o : Collective) (m : Nat × Nat) : State :=
  s.onTile m.1 fun s =>
    match (s.eng .ne).run? m.2 with
    | none => s
    | some r => s.complete .ne { r.raise q.flags with clock := s.acquire r.clock q.rels s.tile o.scope }

/-- COLLECTIVE_RESULT: the result of a round is written at its destinations; once every one holds it, every participant's
command completes (R245, R368). -/
def execCollectiveResult (round : Nat) (s : State) : Out :=
  match lfind (fun (q : Round) => q.id = round) s.rounds with
  | none => .next s
  | some q =>
    match Collective.of q.instr, q.parts, q.done && !s.roundStops q with
    | some o, [c], true =>
      let s := q.members.foldl (fun s m => s.writeResult q o c m) s
      match lfind (fun (x : Round) => x.id = round) s.rounds with
      | none => .next s
      | some q =>
        if q.members.all fun m => q.written.contains m.2 || !s.isDest q o m.1 then
          let s := q.members.foldl (fun s m => s.finishMember q o m) s
          .next { s with rounds := s.rounds.filter fun x => x.id ≠ round }
        else .next s
    | _, _, _ => .next s

/-! ### `ne.flag` (R249, R250) -/

/-- The fields of a gather cell's word 2 (R249). -/
structure Cell where
  acc0 : Word
  acc1 : Word
  round : Nat
  arr : Nat
  part : Nat
  scope : Nat
  gid : Nat
deriving DecidableEq, Repr

/-- The cell that 32 bytes hold. -/
def Cell.ofNat (n : Nat) : Cell :=
  { acc0 := BitVec.ofNat 64 n, acc1 := BitVec.ofNat 64 (n / 2 ^ 64), round := n / 2 ^ 168 % 2 ^ 24
    arr := n / 2 ^ 155 % 2 ^ 13, part := n / 2 ^ 142 % 2 ^ 13, scope := n / 2 ^ 138 % 16, gid := n / 2 ^ 192 % 2 ^ 16 }

/-- The bytes of a cell, as a number; its reserved fields are zero. -/
def Cell.toNat (c : Cell) : Nat :=
  c.acc0.toNat + c.acc1.toNat * 2 ^ 64 + c.scope % 16 * 2 ^ 138 + c.part % 2 ^ 13 * 2 ^ 142 + c.arr % 2 ^ 13 * 2 ^ 155
    + c.round % 2 ^ 24 * 2 ^ 168 + c.gid % 2 ^ 16 * 2 ^ 192

/-- The accumulator of a round. -/
def Cell.acc (c : Cell) (round : Nat) : Word := if round % 2 = 0 then c.acc0 else c.acc1

/-- Sets the accumulator of a round. -/
def Cell.setAcc (c : Cell) (round : Nat) (v : Word) : Cell :=
  if round % 2 = 0 then { c with acc0 := v } else { c with acc1 := v }

/-- An arrival at a cell (R250); none at a mismatch. -/
def Cell.arrive (c : Cell) (part scope gid : Nat) (v : Word) : Option Cell :=
  let c' : Cell := if c.arr = 0 then { c with part := part % 2 ^ 13, scope := scope, gid := gid } else c
  if c'.part ≠ part % 2 ^ 13 || c'.scope ≠ scope || c'.gid ≠ gid then none
  else
    let c' : Cell := { c'.setAcc c'.round (c'.acc c'.round ||| v) with arr := c'.arr + 1 }
    some (if c'.arr = c'.part then { c'.setAcc (c'.round + 1) 0 with round := (c'.round + 1) % 2 ^ 24, arr := 0 } else c')

/-- The descriptor of R117 as an `ne.flag` reads it. -/
structure FlagDesc where
  part : Nat
  gid : Nat
  scope : Nat
  cell : Word
deriving DecidableEq, Repr

/-- The descriptor that 32 bytes hold. -/
def FlagDesc.ofBytes (bs : List Byte) : FlagDesc :=
  let n := leNat bs
  { part := n / 2 ^ 32 % 2 ^ 16, gid := n / 2 ^ 16 % 2 ^ 16, scope := n % 16, cell := BitVec.ofNat 64 (n / 2 ^ 64) }

/-- The key of a cell, if the descriptor names one inside SCOPE (R117). -/
def State.cellKey (s : State) (d : FlagDesc) : Option Nat :=
  if d.cell.toNat % 16 ≠ 0 || !isScratchAddr d.cell.toNat then none
  else
    match logicalKey (s.places s.tile) d.cell.toNat, logicalKey (s.places s.tile) (d.cell.toNat + 31) with
    | some k, some _ => if s.keyInScope s.tile k d.scope then some k else none
    | _, _ => none

/-- Arrives at the cell in one atomic action (R250): the contribution is a release at SCOPE. -/
def State.flagArrive (s : State) (r : Run) (v : Word) (d : FlagDesc) (k : Nat) : State :=
  let ks := rangeFrom k 32
  let c := Cell.ofNat (memNat s.mem k 32)
  if ks.any (s.held s.tile) then s.setRun .ne r
  else if (firstPoison s ks).isSome then s.faultAt .ne r 0x110 (sectorAddr d.cell.toNat)
  else if (firstRace s r.clock (cmdAgent r.id) ks true true).isSome then s.faultAt .ne r 0x201 d.cell
  else
    match c.arrive d.part d.scope d.gid v with
    | none => s.faultAt .ne r 0x151 d.cell
    | some c' =>
      let s := s.write r.clock (cmdAgent r.id) (cellsFrom k (leBytes 32 c'.toNat)) true true
      let clock := r.clock.release (cmdAgent r.id)
      let rel : Rel := { tile := s.tile, scope := d.scope, clock := clock, kind := .arrival (BitVec.ofNat 32 c.round) }
      let fresh : Rel → Bool := fun x => match x.kind with
        | .arrival g => (BitVec.ofNat 32 c.round - g).toNat % 2 ^ 24 ≤ 1
        | _ => true
      let s := { s with rels := nset s.rels k ((nget [] s.rels k).filter fresh ++ [rel]) }
      s.setRun .ne { r with
        clock := clock
        work := { r.work with startSent := true, k := c.round, counts := [(1, d.scope), (2, d.cell.toNat)] } }

/-- The key of the gather cell that an `ne.flag` in progress has arrived at, wherever the region stands (R250, R256). -/
def State.flagCell (s : State) (r : Run) : Option Nat := logicalKey (s.places s.tile) (nget 0 r.work.counts 2)

/-- The end of a round for a participant that has arrived (R250): the OR goes to the `flg.gather` that pushed it (R118). -/
def State.flagResult (s : State) (r : Run) : State :=
  match s.flagCell r with
  | none => s
  | some k =>
    let c := Cell.ofNat (memNat s.mem k 32)
    if c.round = r.work.k then s
    else
      let ks := rangeFrom k 32
      let met := (nget [] s.rels k).filter fun x => x.kind = .arrival (BitVec.ofNat 32 r.work.k)
      let clock := s.acquire r.clock met s.tile (nget 0 r.work.counts 1)
      let cell := BitVec.ofNat 64 (nget 0 r.work.counts 2)
      if ks.any (s.held s.tile) then s.setRun .ne r
      else if (firstPoison s ks).isSome then s.faultAt .ne r 0x110 (sectorAddr cell.toNat)
      else if (firstRace s clock (cmdAgent r.id) ks false true).isSome then s.faultAt .ne r 0x201 cell
      else
        let s := noteRead s clock (cmdAgent r.id) ks true
        let g := s.eng .ne
        let gather : Bool := match g.sect? r.sect with | some q => q.kind = .gather | none => false
        let s := if gather then s.setEng .ne { g with results := nset g.results r.sect.toNat (c.acc r.work.k, clock) } else s
        s.complete .ne { r with clock := clock }

/-- Whether an `ne.flag` in progress can go on: it has not arrived yet, or its round has completed. -/
def State.flagReady (s : State) (r : Run) : Bool :=
  !r.work.startSent || match s.flagCell r with | some k => (Cell.ofNat (memNat s.mem k 32)).round ≠ r.work.k | none => false

/-- The `ne.flag` that acts: the oldest one equal to this that can go on, else the one at the head of the queue, so that two
participants of one tile with equal commands both arrive (R118). -/
def State.resumeFlag (s : State) (i : Instr) : Option (Run × State) :=
  if (s.eng .ne).fault.isSome then none
  else
    match lfind (fun r => r.instr = i && s.flagReady r) (s.eng .ne).runs with
    | some r => if s.unitStops .ne (some r) then none else some (r, s)
    | none => if s.neMayStart then s.startRun .ne i else none

/-- NE_FLAG (R249, R250): the arrival at the cell, then the wait for its round. -/
def execNeFlag (contribution : Word) (ext : Ext) (s : State) : Out :=
  match s.resumeFlag (.neFlag contribution ext) with
  | none => .next s
  | some (r, s) =>
    if r.work.startSent then .next (s.flagResult r)
    else
      match s.runRead .ne r ext.base.toNat 32 true false with
      | .fault code v => .next (s.faultAt .ne r code v)
      | .bytes bs _ =>
        let d := FlagDesc.ofBytes bs
        let r := s.took .ne r ext.base.toNat 32
        let s := s.runNote .ne r ext.base.toNat 32 false
        match s.cellKey d with
        | none => .next (s.faultAt .ne r 0x150 d.cell)
        | some k => .next (s.flagArrive r contribution d k)

/-! ### `ne.tok` (R251) -/

/-- NE_TOK (R251): once every earlier command of this NE has completed, one arrival of COUNT, a release at SCOPE. -/
def execNeTok (scope : BitVec 4) (count : BitVec 16) (addr : Word) (s : State) : Out :=
  match s.resume .ne (.neTok scope count addr) s.neMayStart with
  | none => .next s
  | some (r, s) =>
    match (s.eng .ne).runs with
    | first :: _ =>
      if first.id ≠ r.id then .next s
      else
        let r := { r with clock := r.clock.join (s.eng .ne).last }
        match logicalKey (s.places s.tile) addr.toNat with
        | none => .next (s.faultAt .ne r 0x150 addr)
        | some k =>
          if !s.keyInScope s.tile k scope.toNat then .next (s.faultAt .ne r 0x150 addr)
          else
            match s.runArrive r addr.toNat k count.toNat scope.toNat with
            | .fault code v => .next (s.faultAt .ne r code v)
            | .done s => .next (s.complete .ne { r with clock := r.clock.release (cmdAgent r.id) })
    | [] => .next s

/-! ### External reads (R252, R253, R386) -/

/-- Whether a grant entry holds a queue pair of a kind: 0 NVMe, 1 RDMA (R386, R387). -/
def State.granted (s : State) (entry kind : Nat) : Bool :=
  match nget? s.fmc.grants entry with
  | some p => (lget 0 p 2).toNat = kind
  | none => false

/-- An aperture of BAR4, of 4 GiB, for n bytes beside every live mapping, in steps of 4 KiB (R378, R386): the first that fits of offset 0 and
the ends of the mappings (log entry 29); none where none has room. -/
def State.aperture (s : State) (n : Nat) : Option Nat :=
  let free := fun (a : Nat) => a + n ≤ 2 ^ 32 && s.xrds.all fun p => p.aperture + p.len ≤ a || a + n ≤ p.aperture
  lfind free (0 :: s.xrds.map fun p => (p.aperture + p.len + 4095) / 4096 * 4096)

/-- The request of an external read under its grant (R252, R253, R387): a namespace is 1 where word 3 is absent, and the length of
an NVMe Read counts blocks of the LBA size. -/
def State.xrdRequest (s : State) (c : XrdCmd) (kind : Nat) : XrdRequest :=
  let grant := nget [] s.fmc.grants c.grant.toNat
  let field := fun (a n : Nat) => leNat ((grant.drop a).take n)
  let rdma : Bool := kind = 1
  { rdma := rdma, addr := c.addr, key := match c.tail with | some (_, k) => k | none => 1
    units := if rdma then c.dst.bytes else c.dst.bytes / 2 ^ field 52 1, limit := field 8 8, timeout := field 4 4 }

/-- Overwrites bytes of a list from an offset on, within its length. -/
def putAt (bs : List Byte) (off : Nat) (v : List Byte) : List Byte :=
  (List.range bs.length).map fun i => if off ≤ i && i < off + v.length then lget 0 v (i - off) else lget 0 bs i

/-- The bus address in BAR4 of an aperture. -/
def busAddr (aperture : Nat) : Nat := (Config.bar4Base.toNat + aperture) % 2 ^ 64

/-- The second data pointer of an NVMe Read (R386, log entry 85): none for one page, the second page for two, else a list of pages, whose
place the manual does not give. -/
def prp2 (aperture n : Nat) : Nat :=
  if n ≤ 4096 then 0 else if n ≤ 8192 then busAddr (aperture + 4096) else (Config.prpList aperture).toNat

/-- The 64-byte submission entry of an NVMe Read (R386, R387), laid out by the NVM Express specification (log entry 85): opcode 0x02 and the
command identifier, the namespace, the data pointers, the starting LBA, the number of blocks less one. -/
def nvmeEntry (id aperture n : Nat) (q : XrdRequest) : List Byte :=
  leBytes 4 (0x02 + id % 2 ^ 16 * 2 ^ 16) ++ leBytes 4 q.key.toNat ++ leBytes 16 0 ++ leBytes 8 (busAddr aperture)
    ++ leBytes 8 (prp2 aperture n) ++ leBytes 8 q.addr.toNat ++ leBytes 4 ((q.units - 1) % 2 ^ 16) ++ leBytes 12 0

/-- The send entry of an RDMA READ (R387): the grant's template with the remote address, the remote key, the length, the local address and the
request identifier at its offsets. -/
def rdmaEntry (payload : List Byte) (id aperture : Nat) (q : XrdRequest) : List Byte :=
  let put := fun (bs : List Byte) (field n v : Nat) => putAt bs (numAt payload field 1) (leBytes n v)
  let blank := (payload.drop 64).take (numAt payload 55 1)
  let e := blank ++ List.replicate (2 ^ numAt payload 53 1 - blank.length) 0
  put (put (put (put (put e 56 8 q.addr.toNat) 57 4 q.key.toNat) 58 4 q.units) 59 8 (busAddr aperture)) 60 8 id

/-- The entries of each queue of a pair (R387). -/
def QueuePair.depth (q : QueuePair) : Nat := numAt q.payload 48 4

/-- The reads that stand in a pair: posted with no completion yet, those whose timeout came first among them. -/
def State.outstanding (s : State) (pair : Nat) (q : QueuePair) : Nat :=
  (s.xrds.filter fun p => p.pair = pair && p.done.isNone).length + q.late.length

/-- The post of an external read in a queue pair and at an aperture. -/
def State.xrdPost (s : State) (r : Run) (c : XrdCmd) (kind : Nat) (q : QueuePair) (aperture : Nat) : XrdPost :=
  let req := s.xrdRequest c kind
  { id := s.nextAgent, tile := s.tile, cmd := r.id, request := req, aperture := aperture, len := c.dst.bytes, pair := c.grant.toNat
    slot := q.tail, rung := (q.tail + 1) % q.depth
    entry := if req.rdma then rdmaEntry q.payload s.nextAgent aperture req else nvmeEntry s.nextAgent aperture c.dst.bytes req }

/-- Posts an external read: its entry goes into the queue pair and SQDB is rung, and its destination is mapped into BAR4 until it is over
(R253, R386, R387). A read that finds the queue full or no aperture waits. -/
def State.postXrd (s : State) (r : Run) (c : XrdCmd) (kind : Nat) : State :=
  if !s.granted c.grant.toNat kind then s.faultAt .ne r 0x154 (c.grant.setWidth 64)
  else if !s.addrInScope c.dst.base.toNat c.scope.toNat then s.faultAt .ne r 0x150 c.dst.base
  else
    let q := nget {} s.fmc.pairs c.grant.toNat
    match s.aperture c.dst.bytes with
    | none => s
    | some a =>
      if s.outstanding c.grant.toNat q + 1 ≥ q.depth then s
      else
        let p := s.xrdPost r c kind q a
        let pairs := nset s.fmc.pairs c.grant.toNat { q with tail := p.rung }
        ({ s with xrds := s.xrds ++ [p], nextAgent := s.nextAgent + 1, fmc := { s.fmc with pairs := pairs } }).setRun .ne
          { r with work := { r.work with startSent := true } }

/-- The command of an external read. -/
def xrdOf : Instr → Option (XrdCmd × Nat)
  | .neXrdNvme c => some (c, 0)
  | .neXrdRdma c => some (c, 1)
  | _ => none

/-- STATUS of the record (R253): success and timeout as they are, an error in the range of its kind. -/
def xrdStatus (kind : Nat) (status : BitVec 16) (timeout : Bool) : Nat :=
  if timeout then 1 else if status = 0 then 0 else if kind = 0 then 0x1000 + status.toNat % 2 ^ 12 else 0x2000 + status.toNat % 2 ^ 8

/-- The record of R253. -/
def xrdRecord (status bytes : Nat) (addr : Word) : List Byte :=
  leBytes 8 (2 ^ 63 + status % 2 ^ 16 * 2 ^ 32 + bytes % 2 ^ 32) ++ leBytes 8 addr.toNat

/-- Writes the record of a completed read and applies its arrival (R253); the record is a release at SCOPE. -/
def State.xrdFinish (s : State) (r : Run) (c : XrdCmd) (p : XrdPost) (status : Nat) : State × Bool :=
  let scope := c.scope.toNat
  let hold := fun (s : State) (code : BitVec 12) (v : Word) (r : Run) =>
    (if (s.eng .ne).fault.isSome then s.setRun .ne r else s.faultAt .ne r code v, false)
  let close := fun (s : State) (r : Run) =>
    (({ s with xrds := s.xrds.filter fun x => x.id ≠ p.id }).complete .ne r, true)
  let arrive := fun (s : State) (r : Run) =>
    if !c.sywen then close s r
    else
      let off := match c.tail with | some (o, _) => o.toNat * 16 | none => 0
      let a := tileAddr s.ownRank off
      match logicalKey (s.places s.tile) a with
      | none => hold s 0x150 (BitVec.ofNat 64 a) r
      | some k =>
        match s.runArrive r a k 1 scope with
        | .fault code v => hold s code v r
        | .done s => close s { r with clock := r.clock.release (cmdAgent r.id) }
  if r.work.finishing then arrive s r
  else
    match s.runWrite .ne r c.rcd.base.toNat (xrdRecord status p.written c.addr) true false with
    | .fault code v => hold s code v r
    | .done s =>
      let clock := r.clock.release (cmdAgent r.id)
      let rel : Rel := { tile := s.tile, scope := scope, clock := clock, kind := .record }
      let ks := match s.runKeys .ne r (c.rcd.base.toNat + 7) 1 with | some ks => ks | none => []
      let s := { s with rels := ks.foldl (fun m k => nmod [] m k (· ++ [rel])) s.rels }
      arrive s { r with clock := clock, work := { r.work with finishing := true } }

/-- Adds the range from `a` to below `b` to ranges that ascend and do not touch. -/
def addRange (a b : Nat) : List (Nat × Nat) → List (Nat × Nat)
  | [] => [(a, b)]
  | (c, d) :: t =>
    if b < c then (a, b) :: (c, d) :: t
    else if d < a then (c, d) :: addRange a b t
    else addRange (min a c) (max b d) t

/-- Writes a peer's bytes to the destination of an external read; those that race wait until the NE's fault is resolved (R304). -/
def State.peerWrite (s : State) (p : XrdPost) (off : Nat) (bs : List Byte) : State :=
  let mod := fun (s : State) (f : XrdPost → XrdPost) => ({ s with xrds := lmod (fun (x : XrdPost) => x.id = p.id) f s.xrds } : State)
  match (s.eng .ne).run? p.cmd with
  | none => s
  | some r =>
    match xrdOf r.instr with
    | none => s
    | some (c, _) =>
      match s.runWrite .ne r (c.dst.base.toNat + off) bs false false with
      | .fault code v =>
        let s := mod s fun x => { x with waiting := x.waiting ++ [(off, bs)] }
        if (s.eng .ne).fault.isSome then s else s.faultAt .ne r code v
      | .done s => mod s fun x => { x with ranges := addRange off (off + bs.length) x.ranges }

/-- Makes the peers' writes that waited at the acting tile again, once its NE is not FAULTED. -/
def State.retryWrites (s : State) : State :=
  if (s.eng .ne).fault.isSome then s
  else
    (s.xrds.filter (·.tile = s.tile)).foldl (fun s p =>
      let s : State := { s with xrds := lmod (fun (x : XrdPost) => x.id = p.id) (fun x => { x with waiting := [] }) s.xrds }
      p.waiting.foldl (fun s w => s.peerWrite p w.1 w.2) s) s

/-- Writes the records of the acting tile's reads that have completed, in the order of their commands (R253). -/
def State.flushXrds (s : State) : Nat → State
  | 0 => s
  | fuel + 1 =>
    match lfind (fun (p : XrdPost) => p.tile = s.tile) s.xrds with
    | none => s
    | some p =>
      match (s.eng .ne).run? p.cmd, p.done with
      | some r, some st =>
        match xrdOf r.instr with
        | none => s
        | some (c, kind) =>
          let status := if st = 0xFFFF then 1 else xrdStatus kind st false
          if status = 0 && p.written < p.len then s
          else
            let (s, more) := s.xrdFinish r c p status
            if more then s.flushXrds fuel else s
      | none, _ => ({ s with xrds := s.xrds.filter fun x => x.id ≠ p.id }).flushXrds fuel
      | some _, none => s

/-- Runs an external read: it posts its request; posted, it goes on with records that a fault held back. -/
def State.xrd (s : State) (i : Instr) (c : XrdCmd) (kind : Nat) : Out :=
  if (s.eng .ne).fault.isSome then .next s
  else
    match lfind (fun r => r.instr = i && !r.work.startSent) (s.eng .ne).runs with
    | some r => .next (if s.unitStops .ne (some r) then s else s.postXrd r c kind)
    | none =>
      match if s.neMayStart then s.startRun .ne i else none with
      | some (r, s) => .next (s.postXrd r c kind)
      | none => let s := s.retryWrites; .next (s.flushXrds s.xrds.length)

/-- NE_XRD_NVME (R252, R253). -/
def execNeXrdNvme (c : XrdCmd) (s : State) : Out := s.xrd (.neXrdNvme c) c 0
/-- NE_XRD_RDMA (R252, R253). -/
def execNeXrdRdma (c : XrdCmd) (s : State) : Out := s.xrd (.neXrdRdma c) c 1

/-- Notes the status of a posted read and writes the records that can be written. -/
def State.xrdDone (s : State) (id : Nat) (st : BitVec 16) : State :=
  match lfind (fun (p : XrdPost) => p.id = id) s.xrds with
  | none => s
  | some p =>
    let p' := { p with done := match p.done with | some d => some d | none => some st }
    let s := { s with xrds := lmod (fun x => x.id = id) (fun _ => p') s.xrds }
    s.onTile p.tile fun s => s.flushXrds s.xrds.length

/-- Whether the grant of a pair is RDMA's. -/
def QueuePair.rdma (q : QueuePair) : Bool := numAt q.payload 2 1 = 1

/-- Whether a completion entry is fresh (R387): its phase tag, or its ownership bit, is that of this pass of the ring. -/
def QueuePair.fresh (q : QueuePair) (cqe : List Byte) : Bool :=
  if q.rdma then (numAt cqe (numAt q.payload 63 1) 1).testBit (numAt q.payload 3 1) = (q.phase = Config.firstOwnership)
  else (numAt cqe 14 1).testBit 0 = q.phase

/-- Whether a completion entry names a request: its command identifier, or its request identifier at CWRID. -/
def QueuePair.names (q : QueuePair) (cqe : List Byte) (id : Nat) : Bool :=
  if q.rdma then numAt cqe (numAt q.payload 62 1) 8 = id else numAt cqe 12 2 = id % 2 ^ 16

/-- The status in a completion entry: the byte at CSTAT, or SCT and SC of the status field (R253, R387). -/
def QueuePair.status (q : QueuePair) (cqe : List Byte) : BitVec 16 :=
  BitVec.ofNat 16 (if q.rdma then numAt cqe (numAt q.payload 61 1) 1 else numAt cqe 14 2 / 2 % 2 ^ 11)

/-- A pair once its next completion entry has been read: the head goes on, the other pass begins at the ring's end, and CQDB is rung. -/
def QueuePair.consumed (q : QueuePair) : QueuePair :=
  let head := (q.head + 1) % q.depth
  { q with head := head, phase := if head = 0 then !q.phase else q.phase, rung := head }

/-- XRD_COMPLETION: the peer writes a completion entry of a queue pair (R253, R387). A fresh one is read and completes the request that it
names, unless its timeout came first. -/
def execXrdCompletion (pair : Nat) (cqe : List Byte) (s : State) : Out :=
  match nget? s.fmc.pairs pair with
  | none => .next s
  | some q =>
    if !q.fresh cqe then .next s
    else
      let setPair := fun (s : State) (v : QueuePair) => ({ s with fmc := { s.fmc with pairs := nset s.fmc.pairs pair v } } : State)
      match lfind (fun (p : XrdPost) => p.pair = pair && p.done.isNone && q.names cqe p.id) s.xrds with
      | some p => .next ((setPair s q.consumed).xrdDone p.id (q.status cqe))
      | none =>
        match lfind (q.names cqe) q.late with
        | some id => .next (setPair s { q.consumed with late := ldrop (· = id) q.late })
        | none => .next s

/-- XRD_TIMEOUT: a posted read has exceeded its grant's timeout (R253): STATUS 1; its completion entry is still to come. -/
def execXrdTimeout (id : Nat) (s : State) : Out :=
  match lfind (fun (p : XrdPost) => p.id = id && p.done.isNone) s.xrds with
  | none => .next s
  | some p =>
    let pairs := nmod {} s.fmc.pairs p.pair fun q => { q with late := q.late ++ [id] }
    .next (({ s with fmc := { s.fmc with pairs := pairs } } : State).xrdDone id 0xFFFF)

/-- BAR4_PEER_WRITE: the bytes of a peer's write that fall into a live mapping go to its destination; the others are
discarded (R386). -/
def execBar4PeerWrite (addr : BitVec 32) (data : List Byte) (s : State) : Out :=
  match lfind (fun (p : XrdPost) => p.aperture ≤ addr.toNat && addr.toNat < p.aperture + p.len && (p.done.isNone || p.done = some 0)) s.xrds with
  | none => .next s
  | some p =>
    let off := addr.toNat - p.aperture
    let bs := data.take (p.len - off)
    .next (s.onTile p.tile fun s => let s := s.peerWrite p off bs; s.flushXrds s.xrds.length)

end Sys2Proof.Machine
end

