-- ==== Sys2Proof/Machine/Copy.lean ====
section
/-! DEFINITION. The copy engine (R142-R145), and the return of engine memory reads (R135, R142). -/

namespace Sys2Proof.Machine

open Sys2Proof

/-- A copy or fill as chunks: rows, bytes of a row. -/
structure Chunks where
  row : Nat
  n1 : Nat
  n2 : Nat
  three : Bool
deriving DecidableEq, Repr

/-- Chunks of a row. -/
def Chunks.perRow (c : Chunks) : Nat := (c.row + 63) / 64

/-- Chunks in all. -/
def Chunks.total (c : Chunks) : Nat := c.n2 * c.n1 * c.perRow

/-- A chunk's place: plane, row, offset in the row, bytes. -/
structure Chunk where
  i2 : Nat
  i1 : Nat
  off : Nat
  bytes : Nat
deriving DecidableEq, Repr

/-- Chunk `n`. -/
def Chunks.at_ (c : Chunks) (n : Nat) : Chunk :=
  let k := n % c.perRow
  { i2 := n / c.perRow / c.n1, i1 := n / c.perRow % c.n1, off := 64 * k, bytes := min 64 (c.row - 64 * k) }

/-- The micro-PC of a chunk (R142). -/
def Chunks.upc (c : Chunks) (n : Nat) : Word :=
  if c.three then microPc (n / 2 ^ 32) (n / 2 ^ 16) n 0
  else let k := c.at_ n; microPc k.i2 k.i1 (n % c.perRow) 0

/-- The chunks of a copy. -/
def chunksOfCopy (c : CopyCmd) : Chunks :=
  match c.strided with
  | none => { row := c.row.toNat, n1 := 1, n2 := 1, three := true }
  | some s => { row := c.row.toNat, n1 := s.n1.toNat + 1, n2 := s.n2.toNat + 1, three := false }

/-- The chunks of a fill. -/
def chunksOfFill (c : FillCmd) : Chunks := { row := c.bytes.toNat, n1 := 1, n2 := 1, three := true }

/-- Source and destination of a chunk of a copy (R142). -/
def copyAddrs (c : CopyCmd) (n : Nat) : Nat × Nat :=
  let ch := chunksOfCopy c
  let k := ch.at_ n
  let strided := match c.strided with | some s => k.i1 * s.s1.toNat * 16 + k.i2 * s.s2.toNat * 16 | none => 0
  let packed := (k.i2 * ch.n1 + k.i1) * ch.row
  let dstr := match c.strided with | some s => s.dstr | none => false
  (c.src.base.toNat + (if dstr then packed else strided) + k.off,
    c.dst.base.toNat + (if dstr then strided else packed) + k.off)

/-- The first byte of [a, a + n) outside an extent, if one is (R141). -/
def firstOutside (x : Ext) (a n : Nat) : Option Nat :=
  if inExt x a n then none else if a < x.base.toNat then some a else some (max a (x.base.toNat + x.bytes))

/-- The SYW of a command (R143): in the destination tile's scratchpad, else in the issuing tile's; or that tile's cluster
L2. -/
def State.sywAddr (s : State) (dst : Ext) (off : BitVec 20) (l2 : Bool) : Nat :=
  let base := dst.base.toNat
  let tile := base / 2 ^ 35 % 32
  let own := rankOf (s.tileEntry s.tile).lcoord
  let at_ := if isScratchAddr base && tile < 24 then base / 2 ^ 35
    else 0x80 * 2 ^ 21 + own / 24 / 48 * 2 ^ 11 + own / 24 % 48 * 32 + own % 24
  (if l2 then at_ / 32 * 32 + 31 else at_) * 2 ^ 35 + off.toNat * 16

/-- Copies and fills in flight: at most 64 (R145). -/
def State.ceMayStart (s : State) : Bool := (s.eng .ce).runs.length < 64

/-- CE_COPY: a copy starts (R142). -/
def execCeCopy (c : CopyCmd) (s : State) : Out :=
  if !s.ceMayStart then .next s
  else match s.startRun .ce (.ceCopy c) with | some (_, t) => .next t | none => .next s

/-- CE_FILL: a fill starts (R144). -/
def execCeFill (c : FillCmd) (s : State) : Out :=
  if !s.ceMayStart then .next s
  else match s.startRun .ce (.ceFill c) with | some (_, t) => .next t | none => .next s

/-- Holds the bytes of a chunk until they are written: eight bytes a word. -/
def Run.holdChunk (r : Run) (n : Nat) (bs : List Byte) : Run :=
  let words := wordsOf ((bs.length + 7) / 8) bs
  let got := (words.zip (List.range 8)).foldl (fun g p => nset g (n * 8 + p.2) p.1) r.work.got
  { r with work := { r.work with
    i := n + 1, got := got, reqs := r.work.reqs ++ [{ id := n, first := n, count := bs.length, returned := true }] } }

/-- The bytes held of a chunk. -/
def Run.heldChunk (r : Run) (n bytes : Nat) : List Byte :=
  (((List.range 8).flatMap fun j => leBytes 8 (nget 0 r.work.got (n * 8 + j)).toNat)).take bytes

/-- A copy reads its next chunk, in ascending order (R142, R145): bounds of both sides, then the read. -/
def State.copyRead (s : State) (r : Run) (c : CopyCmd) : State :=
  let ch := chunksOfCopy c
  let n := r.work.i
  if n ≥ ch.total || r.work.finishing || r.work.reqs.length ≥ 64 || (s.eng .ce).fault.isSome || s.unitStops .ce (some r) then s
  else
    let k := ch.at_ n
    let (a, d) := copyAddrs c n
    let r := { r with upc := ch.upc n, work := { r.work with k := 0 } }
    match firstOutside c.src a k.bytes, firstOutside c.dst d k.bytes with
    | some v, _ => s.faultAt .ce r 0x105 (BitVec.ofNat 64 v)
    | none, some v => s.faultAt .ce r 0x105 (BitVec.ofNat 64 v)
    | none, none =>
      match s.runRead .ce r a k.bytes c.pois false with
      | .fault code v => s.faultAt .ce r code v
      | .bytes bs bad =>
        let r := (s.took .ce r a k.bytes).reached n
        (s.runNote .ce (r.part n) a k.bytes false).setRun .ce ((r.raise (raiseIf bad Flag.poi)).holdChunk n bs)

/-- MEMORY_READ_RETURN: the data of a stream's request, or of a copy's next chunk, return (R135, R139, R142). The other
engines' reads return within their own steps. -/
def execMemoryReadReturn (e : Engine) (slot req : Nat) (s : State) : Out :=
  match e with
  | .se => .next (s.streamReturn slot req)
  | .ce =>
    match (s.eng .ce).run? slot with
    | some r => match r.instr with | .ceCopy c => .next (s.copyRead r c) | _ => .next s
    | none => .next s
  | _ => .next s

/-- Moves a command's first chunk that waits for its write behind the others. -/
def Run.laterChunk (r : Run) : Run :=
  { r with work := { r.work with reqs := r.work.reqs.drop 1 ++ r.work.reqs.take 1 } }

/-- A chunk's write or arrival faults: the CE stops FAULTED at it, and `k` notes the chunk; where the CE stands FAULTED already, the chunk
waits behind those that can still complete (R145). -/
def State.chunkFault (s : State) (r : Run) (n : Nat) (code : BitVec 12) (tval : Word) : State :=
  if (s.eng .ce).fault.isSome then s.setRun .ce r.laterChunk
  else s.faultAt .ce { r with work := { r.work with k := n + 1 } } code tval

/-- The arrival of a chunk's bytes at the command's SYW (R143), and the end of the chunk; the command completes with its
last chunk (R145), a cancelled one with the last that it had read (R97). A SYW address that lies in no scratchpad or L2 of the region
faults as an engine's access out of bounds does; R143 names no outcome (log entry 83). -/
def State.chunkDone (s : State) (r : Run) (n bytes : Nat) (syw : Option Nat) (total : Nat) : State :=
  let close := fun (s : State) (r : Run) =>
    let w := { r.work with
      j := r.work.j + 1, owns := r.work.owns.filter (· ≠ n), reqs := r.work.reqs.filter (fun q => q.id ≠ n)
      got := r.work.got.filter (fun p => p.1 / 8 ≠ n) }
    let r := { r with work := w }
    if w.j ≥ total || (w.finishing && w.reqs.isEmpty) then s.complete .ce r else s.setRun .ce r
  let written := { r with work := { r.work with owns := n :: r.work.owns.filter (· ≠ n) } }
  match syw with
  | none => close s r
  | some a =>
    match logicalKey (s.places s.tile) a with
    | none => s.chunkFault written n 0x105 (BitVec.ofNat 64 a)
    | some k =>
      match s.runArrive (r.part n) a k bytes with
      | .fault c v => s.chunkFault written n c v
      | .done s => close s r

/-- Writes a chunk and applies its arrival; a chunk written before a fault is not written again, and one whose write faults is
retried on resolution (R145). -/
def State.chunkWrite (s : State) (r : Run) (n d : Nat) (bs : List Byte) (syw : Option Nat) (total : Nat) : State :=
  if r.work.owns.contains n then s.chunkDone r n bs.length syw total
  else
    match s.runWrite .ce (r.part n) d bs false false with
    | .fault c v => s.chunkFault r n c v
    | .done s =>
      let r := r.reached n
      s.chunkDone { r with work := { r.work with i := max r.work.i (n + 1) } } n bs.length syw total

/-- The pattern bytes of a fill's chunk (R144). -/
def fillBytes (c : FillCmd) (off n : Nat) : List Byte :=
  let size := 2 ^ c.psize.toNat
  let pat := match c.pat with | some v => v.toNat | none => 0
  (List.range n).map fun i => BitVec.ofNat 8 (pat / 2 ^ (8 * ((off + i) % size)))

/-- The next chunk of a fill: its bound, its write, its arrival. -/
def State.fillChunk (s : State) (r : Run) (c : FillCmd) : State :=
  let ch := chunksOfFill c
  let n := r.work.i
  let k := ch.at_ n
  let d := c.dst.base.toNat + k.off
  let r := { r with upc := ch.upc n }
  let syw := if c.sywen then some (s.sywAddr c.dst c.sywoff c.sywl2) else none
  match r.work.owns with
  | m :: _ => s.chunkDone r m (ch.at_ m).bytes syw ch.total
  | [] =>
    if (s.eng .ce).fault.isSome || s.unitStops .ce (some r) then s
    else
      match firstOutside c.dst d k.bytes with
      | some v => s.faultAt .ce r 0x105 (BitVec.ofNat 64 v)
      | none => s.chunkWrite r n d (fillBytes c k.off k.bytes) syw ch.total

/-- Whether the CE stands FAULTED at this chunk, which is retried on the fault's resolution and not before (R145). -/
def EngineSt.faultedChunk (g : EngineSt) (r : Run) (upc : Word) : Bool :=
  g.faultRun = some r.id && g.fault.any fun f => f.upc = upc

/-- COPY_CHUNK_WRITE: the writes of a chunk are performed, then its arrival is applied (R143-R145). A chunk read before
the engine stopped FAULTED, or before a cut, is still written; the faulting one waits behind them. -/
def execCopyChunkWrite (slot : Nat) (s : State) : Out :=
  match (s.eng .ce).run? slot with
  | none => .next s
  | some r =>
    if (s.tileAt s.tile).cut = .saved then .next s else
    match r.instr with
    | .ceFill c => .next (s.fillChunk r c)
    | .ceCopy c =>
      match r.work.reqs with
      | [] => .next s
      | q :: _ =>
        let ch := chunksOfCopy c
        let syw := if c.sywen then some (s.sywAddr c.dst c.sywoff c.sywl2) else none
        if (s.eng .ce).faultedChunk r (ch.upc q.id) then .next (s.setRun .ce r.laterChunk)
        else
          let r := { r with upc := ch.upc q.id }
          .next (s.chunkWrite r q.id (copyAddrs c q.id).2 (r.heldChunk q.id q.count) syw ch.total)
    | _ => .next s

end Sys2Proof.Machine
end

