-- ==== Sys2Proof/Machine/Paging.lean ====
section
/-! DEFINITION. Ranges of memory; the memory manager's frames, page tables and mappings (R329, R330, R342), its unmaps and moves (R335,
R336), and the answers it owes the hosts (R384). -/

namespace Sys2Proof.Machine

open Sys2Proof

/-! ### Ranges of memory -/

/-- The scratchpad of a tile and its share of the cluster's L2 window (R348, log entry 13): first key and bytes. -/
def scratchRange (t : Nat) : Nat × Nat := (scratchKey t 0, 2 ^ 20)
/-- The L2 share of a tile. -/
def shareRange (t : Nat) : Nat × Nat := (l2Key (t / 24) (t % 24 * 655360), 655360)

/-- Whether a key lies in a range. -/
def within (r : Nat × Nat) (k : Nat) : Bool := r.1 ≤ k && k < r.1 + r.2

/-- Raises the generations watched in a range (R266) for every identity with a piece there. -/
def Cluster.watchedRange (c : Cluster) (r : Nat × Nat) : Cluster :=
  let meets := fun (ps : List (Nat × Nat)) => ps.any fun p => p.1 < r.1 + r.2 && r.1 < p.1 + p.2
  let ids := (c.cache.filter fun e => meets e.key.range).map (·.key.id)
    ++ (c.compiles.filter fun q => q.since.isSome && meets q.key.range).map (·.key.id)
  ids.eraseDups.foldl Cluster.raise c

/-- Makes a range read as zeros: bytes, metadata and releases of it go, its race stamps are reset (R303, R352). -/
def State.wipe (s : State) (r : Nat × Nat) : State :=
  { s with
    mem := s.mem.filter fun c => !within r c.1
    sectors := s.sectors.filter fun p => !within r (32 * p.1)
    rels := s.rels.filter fun p => !within r p.1
    clusters := s.clusters.map fun p => (p.1, p.2.watchedRange r) }

/-- Puts the bytes of one range over another, with their poison; race stamps and releases do not go with them (R317, R320 step 5). -/
def State.copyRange (s : State) (from_ dst n : Nat) : State :=
  let cells := (s.mem.filter fun c => within (from_, n) c.1).map fun c => (c.1 - from_ + dst, c.2)
  let bad := (s.sectors.filter fun p => within (from_, n) (32 * p.1) && p.2.poison).map fun p => p.1 - from_ / 32 + dst / 32
  let s := s.wipe (dst, n)
  { s with
    mem := memPut s.mem cells
    sectors := bad.foldl (fun m k => nset m k { poison := true }) s.sectors }

/-- Moves the bytes, the metadata and the releases of a range of HBM (R336 step 3). -/
def State.moveRange (s : State) (from_ dst n : Nat) : State :=
  let r := (from_, n)
  let shift := fun (k : Nat) => k - from_ + dst
  let cells := (s.mem.filter fun c => within r c.1).map fun c => (shift c.1, c.2)
  let secs := (s.sectors.filter fun p => within r (32 * p.1)).map fun p => (shift (32 * p.1) / 32, p.2)
  let rels := (s.rels.filter fun p => within r p.1).map fun p => (shift p.1, p.2)
  let s := (s.wipe (dst, n)).wipe r
  { s with
    mem := memPut s.mem cells
    sectors := secs.foldl (fun m p => nset m p.1 p.2) s.sectors
    rels := rels.foldl (fun m p => nset m p.1 p.2) s.rels }

/-- Fills a frame, from HBM or with zeros, as MAP and a clean page's reload do (R336, R385). -/
def State.fillFrame (s : State) (source : Option Nat) (dst n : Nat) : State :=
  let s := s.wipe (dst, n)
  match source with
  | none => s
  | some a =>
    let cells := (s.mem.filter fun c => within (a, n) c.1).map fun c => (c.1 - a + dst, c.2)
    { s with mem := memPut s.mem cells }

/-! ### Answers to the host (R384) -/

/-- FMCSTAT of a port. -/
def Owner.fmcStat (o : Owner) (p : HostPort) : ReqStat := if p then o.fmcstat1 else o.fmcstat0

/-- Writes FMCSTAT of a port. -/
def Owner.setFmcStat (o : Owner) (p : HostPort) (v : ReqStat) : Owner :=
  if p then { o with fmcstat1 := v } else { o with fmcstat0 := v }

/-- The FMC answers a port's request: RESULT 0 OK, 1 BAD_REQUEST, 2 REFUSED; CODE; a value returned. -/
def State.answer (s : State) (p : HostPort) (result : Nat) (code : BitVec 12) (v : Word) : State :=
  let stat : ReqStat := { busy := false, code := code, result := BitVec.ofNat 8 result, index := 0, returned := v }
  { s with own := s.own.setFmcStat p stat }

/-- A request stays BUSY until its action ends. -/
def State.stayBusy (s : State) (p : HostPort) : State := { s with own := s.own.setFmcStat p { s.own.fmcStat p with busy := true } }

/-! ### Entries (R330) -/

/-- Writes a page-table entry. -/
def State.setPte (s : State) (pte v : Nat) : State := { s with mem := memPutNat s.mem pte 8 v }

/-- A page-table entry. -/
def State.pteAt (s : State) (pte : Nat) : Nat := memNat s.mem pte 8

/-- A number with a bit set or cleared. -/
def withBit (v i : Nat) (b : Bool) : Nat := v - (if v.testBit i then 2 ^ i else 0) + (if b then 2 ^ i else 0)


/-- The page that holds an address, whatever its PEND and MV (R320 step 4). -/
def State.pageOf (s : State) (space va : Nat) : Option Frame :=
  (s.leafOf space va).map fun p => { va := va / 2 ^ p.2 * 2 ^ p.2, pa := pteFrame (s.pteAt p.1), log2 := p.2 }

/-! ### Frames and mappings (R329, log entry 32) -/

/-- Whether n bytes of HBM at an address are handed out to nobody and hold no retired frame. -/
def State.frameFree (s : State) (n a : Nat) : Bool :=
  a + n ≤ hbmEnd && !(s.fmc.frames.any fun h => a < h.1 + h.2 && h.1 < a + n)
    && !(s.fmc.retiredFrames.any fun f => a < (f + 1) * 65536 && f * 65536 < a + n)

/-- Takes fresh frames for a number of bytes, aligned to it, never a retired frame (R322, R336); none where HBM has no room. Which
ones is the manager's choice. -/
def State.takeFrames (s : State) (n : Nat) : Option (Nat × State) :=
  let up := fun (a : Nat) => (a + n - 1) / n * n
  let starts := 0 :: s.fmc.frames.map (fun h => up (h.1 + h.2)) ++ s.fmc.retiredFrames.map fun f => up ((f + 1) * 65536)
  (lfind (s.frameFree n) starts).map fun a => (a, { s with fmc := { s.fmc with frames := (a, n) :: s.fmc.frames } })

/-- Takes frames back into the free pool. -/
def State.freeFrames (s : State) (a n : Nat) : State :=
  { s with fmc := { s.fmc with frames := s.fmc.frames.filter (· ≠ (a, n)) } }

/-- Writes a leaf for a page, with the tables it needs (R329, R330); none where an entry stands in its way or no frame is left. -/
def State.putLeaf (s : State) (va stop e a : Nat) : List (Nat × Nat × Nat × Nat) → Option State
  | [] => none
  | (_, shift, width, align) :: rest =>
    let at_ := a + 8 * (va / 2 ^ shift % 2 ^ width)
    let old := memNat s.mem at_ 8
    if shift = stop then if old.testBit 0 then none else some (s.setPte at_ e)
    else if old.testBit 1 then none
    else if old.testBit 0 then s.putLeaf va stop e (pteFrame old) rest
    else
      match s.takeFrames (2 ^ align) with
      | none => none
      | some (t, s) => ((s.wipe (t, 2 ^ align)).setPte at_ (t + 1)).putLeaf va stop e t rest

/-- The root table of an address space, made where there is none. -/
def State.spaceRoot (s : State) (space : Nat) : Option (Nat × State) :=
  match nget? s.spaces space with
  | some r => some (r, s)
  | none => (s.takeFrames 65536).map fun p => (p.1, { p.2.wipe (p.1, 65536) with spaces := nset s.spaces space p.1 })

/-- Maps one page: a fresh frame, filled, and its leaf, with D where the manager knows that the page will be written beside the tiles'
extents. -/
def State.mapPage (s : State) (space va shift : Nat) (w : Bool) (source : Option Nat) (d : Bool := false) : Option State :=
  match s.spaceRoot space with
  | none => none
  | some (root, s) =>
    match s.takeFrames (2 ^ shift) with
    | none => none
    | some (f, s) =>
      match (s.fillFrame source f (2 ^ shift)).putLeaf va shift (f + 3 + (if w then 8 else 0) + (if d then 16 else 0)) root
          pageLevels with
      | none => none
      | some s =>
        some { s with fmc := { s.fmc with
          mappings := s.fmc.mappings ++ [{ space := space, va := va, log2 := shift, source := source }] } }

/-- Maps pages in order. -/
def State.mapPages (s : State) (space shift : Nat) (w : Bool) (n va : Nat) (source : Option Nat) (d : Bool := false) :
    Option State :=
  match n with
  | 0 => some s
  | n + 1 =>
    match s.mapPage space va shift w source d with
    | none => none
    | some s => s.mapPages space shift w n (va + 2 ^ shift) (source.map (· + 2 ^ shift)) d

/-! ### Unmaps and moves (R335, R336) -/

/-- Whether a page is pinned on some tile, or by a saved one (R317, R333). -/
def State.tilePinned (s : State) (space va : Nat) : Bool :=
  let at_ := fun (t : Tile) => t.pins.any fun p => p.space = space && p.va = va && p.count ≠ 0
  s.tiles.any (fun p => at_ p.2) || s.regions.any fun p => p.2.savedTiles.any fun v => at_ v.tile

/-- Whether the FMC's own table pins a page (R317, R333). -/
def State.fmcPinned (s : State) (space va : Nat) : Bool := s.fmc.pins.any fun p => p.space = space && p.va = va && p.count ≠ 0

/-- The tiles that run an address space, with those whose translation cache still holds a leaf of it (R332, R335). -/
def State.tilesOf (s : State) (space : Nat) : List Nat :=
  ((s.regions.flatMap fun p => if p.2.space = space then p.2.place.map (·.2) else [])
    ++ ((s.tiles.filter fun p => p.2.tlb.any fun e => e.space = space).map (·.1))).eraseDups

/-- Begins to unmap a page, to take its W away, or to move it off a frame: PEND or MV is set, the shootdown goes out (R335,
R336). -/
def State.beginUnmap (s : State) (space va : Nat) (port : Option HostPort) (move : Option Nat) (keep : Bool := false) : State :=
  match s.leafOf space va with
  | none => s
  | some (pte, shift) =>
    let s := s.setPte pte (withBit (s.pteAt pte) (if move.isSome then 6 else 5) true)
    let u : Unmapping := {
      space := space, va := va / 2 ^ shift * 2 ^ shift, port := port, waitFor := s.tilesOf space, move := move, keep := keep }
    { s with fmc := { s.fmc with unmaps := s.fmc.unmaps ++ [u] } }

/-- Whether a page's shootdown has been acknowledged everywhere and its counts on every tile are 0; the FMC's own pins keep a page
mapped, and do not keep it from moving off a bad frame (R318 step 3) or from losing W (R335). -/
def State.unmapReady (s : State) (u : Unmapping) : Bool :=
  u.waitFor.isEmpty && !s.tilePinned u.space u.va && (u.move.isSome || u.keep || !s.fmcPinned u.space u.va)

/-- Step 4 of R335: V is cleared, the mapping is gone and its frame free; or W and PEND are cleared. The request ends with its last
page. -/
def State.endUnmap (s : State) (u : Unmapping) : State :=
  let s := match s.leafOf u.space u.va with
    | none => s
    | some (pte, shift) =>
      let e := s.pteAt pte
      if u.keep then s.setPte pte (withBit (withBit e 5 false) 3 false)
      else
        let s := (s.setPte pte 0).freeFrames (pteFrame e) (2 ^ shift)
        { s with fmc := { s.fmc with mappings := s.fmc.mappings.filter fun m => !(m.space = u.space && m.va = u.va) } }
  let rest := s.fmc.unmaps.filter (· ≠ u)
  let s := { s with fmc := { s.fmc with unmaps := rest } }
  match u.port with
  | some p => if rest.any (·.port = some p) then s else s.answer p 0 0 0
  | none => s

/-- Completes every unmap whose counts have drained. -/
def State.endUnmaps (s : State) : State :=
  s.fmc.unmaps.foldl (fun s u => if u.move.isNone && s.unmapReady u then s.endUnmap u else s) s

/-- The mapped pages that lie in a physical range. -/
def State.pagesIn (s : State) (r : Nat × Nat) : List Mapping :=
  s.fmc.mappings.filter fun m =>
    match s.leafOf m.space m.va with
    | some (pte, _) => let a := pteFrame (s.pteAt pte); a < r.1 + r.2 && r.1 < a + 2 ^ m.log2
    | none => false

/-- Starts the retirement of a frame of 64 KiB (R322, R336): its pages are shot down and moved; the frame is given out no
more. A page that moves already moves for this request too; one that is being unmapped is left to its unmap. -/
def State.beginRetire (s : State) (frame : Nat) (port : Option HostPort) : State :=
  let s := { s with fmc := { s.fmc with
    retiredFrames := if s.fmc.retiredFrames.contains frame then s.fmc.retiredFrames else s.fmc.retiredFrames ++ [frame] } }
  (s.pagesIn (frame * 65536, 65536)).foldl (fun s m =>
    let same := fun (u : Unmapping) => u.space = m.space && u.va = m.va && !u.keep
    if s.fmc.unmaps.any same then
      { s with fmc := { s.fmc with
        unmaps := s.fmc.unmaps.map fun u => if same u && u.move.isSome && u.port.isNone then { u with port := port } else u } }
    else s.beginUnmap m.space m.va port (some frame)) s

/-! ### Save areas (R317, R318, log entry 72) -/

/-- Whether a node of the tree is another's or stands above it (R339). -/
def State.above (s : State) (anc : Nat) : Nat → Nat → Bool
  | 0, _ => false
  | fuel + 1, rid => rid = anc || (match (nget? s.regions rid).bind (·.parent) with | some p => s.above anc fuel p | none => false)

/-- Bytes of HBM charged to a node of the tree: the pages mapped for programs into its address space, and the save areas of the regions at
and below it (R342). -/
def State.hbmUsed (s : State) (node : Region) : Nat :=
  let area := fun (r : Region) => r.space = node.space && r.state ≠ .ended && r.savea ≠ 0
  let inArea := fun (va : Nat) => s.regions.any fun p =>
    area p.2 && p.2.savea.toNat ≤ va && va < p.2.savea.toNat + p.2.words.saveBytes
  ((s.fmc.mappings.filter fun m => m.space = node.space && !inArea m.va).map fun m => 2 ^ m.log2).foldl (· + ·) 0
    + (s.regions.map fun p => if area p.2 && s.above node.id 9 p.1 then p.2.words.saveBytes else 0).foldl (· + ·) 0

/-- Whether a mapping of n bytes keeps within the limit of every node that runs in an address space (R342). -/
def State.hbmRoom (s : State) (space n : Nat) : Bool :=
  s.regions.all fun p =>
    p.2.space ≠ space || p.2.state = .new || p.2.state = .ended || p.2.words.hbmb = 0 || s.hbmUsed p.2 + n ≤ p.2.words.hbmb.toNat

/-- Whether a region's save area keeps within the limit of every node that it stands under, itself among them (R342). -/
def State.areaRoom (s : State) (r : Region) : Bool :=
  s.regions.all fun p =>
    !s.above p.1 9 r.id || p.2.words.hbmb = 0 || s.hbmUsed p.2 + r.words.saveBytes ≤ p.2.words.hbmb.toNat

/-- The 2 MiB pages that a save area takes. -/
def RcbWords.savePages (w : RcbWords) : Nat := (w.saveBytes + 2 ^ 21 - 1) / 2 ^ 21

/-- The highest free virtual addresses of a space for n bytes, aligned: the manager's choice. -/
def State.freeVa (s : State) (space n align : Nat) : Option Nat :=
  let free := fun (a : Nat) =>
    0 < a && a % align = 0 && !(s.fmc.mappings.any fun m => m.space = space && a < m.va + 2 ^ m.log2 && m.va < a + n)
  lfind free (((2 ^ 56 - n) / align * align) ::
    (s.fmc.mappings.filter (·.space = space)).map fun m => (m.va - n) / align * align)

/-- The pages of 64 KiB of a range that nothing maps yet. -/
def State.unmappedIn (s : State) (space va pages : Nat) : List Nat :=
  ((List.range pages).map fun i => va + i * 65536).filter fun a => (s.leafOf space a).isNone

/-- The address that the launch fixes for an extent of n bytes, beside those fixed already (R82): the one that a choice names, in units of 64
KiB, where it suits, so that the captain may have mapped the extent there (R404, log entry 52); else the manager's own, at free
addresses. -/
def State.extentVa (s : State) (space n align choice : Nat) (got : List (Nat × Nat)) : Option Nat :=
  let va := choice * 65536
  let clash := got.any fun g => va < g.1 + g.2 && g.1 < va + n
  if choice ≠ 0 && va % align = 0 && va + n ≤ 2 ^ 56 && !clash then some va else s.freeVa space n align

/-- Allocates the extents of an image in an address space (R82, R83): what the captain has mapped stays as it is, and the other pages are fresh,
of zeros; none where HBM or a limit in force has no room (R342). -/
def State.allocExtents (s : State) (space : Nat) : List (Nat × Nat) → List (Nat × Nat) → Option (State × List Nat)
  | [], got => some (s, got.map Prod.fst)
  | (n, align) :: rest, got =>
    let size := (n + 65535) / 65536 * 65536
    let (c, s) := s.choose
    match s.extentVa space size (max 65536 align) c got with
    | none => none
    | some va =>
      let fresh := s.unmappedIn space va (size / 65536)
      if !s.hbmRoom space (fresh.length * 65536) then none
      else
        match fresh.foldl (fun o a => o.bind fun s => s.mapPage space a 16 true none) (some s) with
        | none => none
        | some s => s.allocExtents space rest (got ++ [(va, size)])

/-- Allocates and pins the save area of a region that is bound for the first time (R317, R352 step 1); none where HBM or a limit in force
has no room (R342). What the save hardware writes there no extent writes: its pages are never clean (R322). -/
def State.allocArea (s : State) (r : Region) : Option (State × Word) :=
  if r.savea ≠ 0 then some (s, r.savea)
  else if !s.areaRoom r then none
  else
    let n := r.words.savePages
    match s.freeVa r.space (n * 2 ^ 21) (2 ^ 21) with
    | none => none
    | some va =>
      (s.mapPages r.space 21 true n va none true).map fun s =>
        let pins : List Pin := (List.range n).map fun i => { space := r.space, va := va + i * 2 ^ 21, count := 1 }
        ({ s with fmc := { s.fmc with pins := s.fmc.pins ++ pins } }, BitVec.ofNat 64 va)

/-- Frees a region's save area (R361 step 3): its pins go, and its pages are unmapped by R335. -/
def State.freeArea (s : State) (r : Region) : State :=
  if r.savea = 0 then s
  else
    let mine := fun (va : Nat) => r.savea.toNat ≤ va && va < r.savea.toNat + r.words.savePages * 2 ^ 21
    let pages := s.fmc.mappings.filter fun m => m.space = r.space && mine m.va
    let s := { s with fmc := { s.fmc with pins := s.fmc.pins.filter fun p => !(p.space = r.space && mine p.va) } }
    (pages.foldl (fun s m => s.beginUnmap r.space m.va none none) s).endUnmaps

/-- The 64 KiB pieces of n bytes. -/
def pieces (n : Nat) : List Nat := (List.range (n / 65536)).map (· * 65536)

/-- Copies a range of a tile's memory into the save area, piece by piece; the virtual address of the first piece that the area does not
map. -/
def State.saveRange (s : State) (space key va n : Nat) : State × Option Nat :=
  (pieces n).foldl (fun p o =>
    match p.2 with
    | some _ => p
    | none =>
      match p.1.vaKey space (va + o) with
      | some k => (p.1.copyRange (key + o) k 65536, none)
      | none => (p.1, some (va + o))) (s, none)

/-- Copies a range of the save area back into a tile's memory. -/
def State.restoreRange (s : State) (space key va n : Nat) : State :=
  (pieces n).foldl (fun s o =>
    match s.vaKey space (va + o) with
    | some k => s.copyRange k (key + o) 65536
    | none => s) (s.wipe (key, n))

end Sys2Proof.Machine
end

