-- ==== Sys2Proof/Machine/Regions.lean ====
section
/-! DEFINITION. Region control blocks (R339-R341), budgets (R342), submission (R344, R356), placement (R347-R351), fault-queue
resolutions (R313), wakes and rebinding (R354, R355), the end of a region (R361). -/

namespace Sys2Proof.Machine

open Sys2Proof

/-! ### Region control blocks (R339) -/

/-- Bits hi..lo of a word given as a number. -/
def bitsOf (w hi lo : Nat) : Nat := w / 2 ^ lo % 2 ^ (hi - lo + 1)

/-- Bits hi..lo of one of an RCB's words, as a field. -/
def rcbField {k : Nat} (w : Nat → Nat) (i hi lo : Nat) : BitVec k := BitVec.ofNat k (bitsOf (w i) hi lo)

/-- Words 0-10 of an RCB from its 32 words (R339). A field that its row says is zero in the other case counts as reserved
there (log entry 21). -/
def rcbOf (w : Nat → Nat) : RcbWords :=
  { version := rcbField w 0 63 56, level := rcbField w 0 55 53, run := (w 0).testBit 52, pset := (w 0).testBit 51, prio := rcbField w 0 50 48
    dcap := rcbField w 0 47 38, thresh := rcbField w 0 37 31, cslots := rcbField w 0 30 23, uals := rcbField w 0 22 15, weight := rcbField w 0 14 7
    parent := rcbField w 1 63 0, tileus := rcbField w 2 63 0, hbmb := rcbField w 3 47 0, fqbase := rcbField w 4 63 0, fqsize := rcbField w 5 63 60
    hreg := rcbField w 5 31 0, nsyw := rcbField w 6 63 0, image := rcbField w 7 63 0, nclus := rcbField w 8 63 48, ntile := rcbField w 8 44 40
    nprod := rcbField w 8 39 32, parkt := rcbField w 8 31 16, wto := rcbField w 8 15 0, prodl := rcbField w 9 63 0, doorb := rcbField w 10 63 0
    reservedZero :=
      bitsOf (w 0) 6 0 = 0 && bitsOf (w 3) 63 48 = 0 && bitsOf (w 5) 59 32 = 0 && bitsOf (w 8) 47 45 = 0
        && ((w 0).testBit 51 || bitsOf (w 0) 50 48 = 0) && ((w 0).testBit 52 || w 7 = 0)
        && (bitsOf (w 8) 63 48 = 0 || bitsOf (w 8) 44 40 = 0)
        && bitsOf (w 11) 29 28 = 0 && bitsOf (w 11) 23 12 = 0 && bitsOf (w 12) 23 0 = 0 && bitsOf (w 14) 63 48 = 0
        && (rangeFrom 17 15).all fun i => w i = 0 }

/-- The RCB that stands at an address of an address space. -/
def State.rcbAt (s : State) (space : Nat) (addr : Word) : RcbWords :=
  rcbOf fun i => s.vaNat space (addr.toNat + 8 * i) 8

/-- Whether a state is one of a live RCB (R341 check 2). -/
def RcbState.live : RcbState → Bool
  | .queued | .loading | .running | .draining | .saved | .active => true
  | .new | .ended => false

/-- The latest region whose RCB stands at an address. -/
def State.regionWith (s : State) (space : Nat) (addr : Word) : Option Region :=
  (lfind (fun p : Nat × Region => p.2.space = space && p.2.addr = addr && p.2.state ≠ .new) s.regions.reverse).map (·.2)

/-- The priority in force at a node (R340). -/
def State.prioOf (s : State) : Nat → Nat → Nat
  | 0, _ => 0
  | fuel + 1, rid =>
    match nget? s.regions rid with
    | none => 0
    | some r =>
      if r.words.pset then r.words.prio.toNat
      else match r.parent with | some p => s.prioOf fuel p | none => 0

/-- The effective priority (R340). -/
def State.prio (s : State) (rid : Nat) : Nat := s.prioOf 9 rid

/-- The effective WEIGHT (R340). -/
def State.weight (s : State) (rid : Nat) : Nat := s.effective (·.weight.toNat) 16 9 rid

/-- The effective UALS (R340): the share of a region at a UALink port among those that contend there (R342). -/
def State.uals (s : State) (rid : Nat) : Nat := s.effective (·.uals.toNat) 64 9 rid

/-- The limit in force at a node (R342), 0 for none. -/
def State.limit (s : State) (f : RcbWords → Nat) (rid : Nat) : Nat := s.effective f 0 9 rid

/-- A new limit lies within the one in force at the parent (R341 check 4). -/
def withinLimit (own inForce : Nat) : Bool := own = 0 || inForce = 0 || own ≤ inForce

/-- The addresses that PRODL lists (R339). -/
def State.prodList (s : State) (space : Nat) (w : RcbWords) : List Word :=
  (List.range w.nprod.toNat).map fun i => BitVec.ofNat 64 (s.vaNat space (w.prodl.toNat + 8 * i) 8)

/-- The image key of an address in an address space. -/
def imageKey (space : Nat) (addr : Word) : Nat := space * 2 ^ 64 + addr.toNat

/-- The shapes of a fraction (R339). -/
def fractionShapes : List Nat := [1, 2, 3, 4, 6, 8, 12, 24]

/-- Checks 3 to 7 of R341 of a block with its parent. -/
def State.rcbFits (s : State) (space : Nat) (addr : Word) (w : RcbWords) (parent : Option Nat) : Bool :=
  let prioOk := match parent with | some p => !w.pset || w.prio.toNat ≤ s.prio p | none => true
  let at_ := fun (f : RcbWords → Nat) => match parent with | some p => s.limit f p | none => 0
  let limits := withinLimit w.tileus.toNat (at_ (·.tileus.toNat)) && withinLimit w.hbmb.toNat (at_ (·.hbmb.toNat))
  let shape := match nget? s.images (imageKey space w.image) with
    | some im => im.nclus = w.nclus.toNat && im.ntile = w.ntile.toNat
    | none => false
  let runOk := !w.run
    || (shape && (w.nclus ≠ 0 || fractionShapes.contains w.ntile.toNat) && w.nclus.toNat ≤ 49152 && w.fqsize.toNat ≤ 12
      && w.fqbase.toNat % 64 = 0 && w.doorb.toNat % 8 = 0)
  let prods := s.prodList space w
  let prodOk := w.nprod.toNat ≤ 64 && prods.all fun a =>
    a ≠ addr && (s.regionWith space a).isSome && bitsOf (s.vaNat space (a.toNat + 88) 8) 27 24 ≠ 0
  let hbm := if w.hbmb ≠ 0 then w.hbmb.toNat else at_ (·.hbmb.toNat)
  prioOk && w.dcap.toNat ≤ 512 && w.thresh.toNat ≤ 100 && limits && runOk && prodOk
    && (!w.run || hbm = 0 || w.saveBytes ≤ hbm)

/-- Validation of an RCB by R341, in order: the parent's id where it passes. `launcher` is the region that launched it. -/
def State.validate (s : State) (space : Nat) (addr : Word) (launcher : Option Region) : Option (RcbWords × Option Nat) :=
  let w := s.rcbAt space addr
  if w.version ≠ 1 || !w.reservedZero then none
  else
    match launcher with
    | some p =>
      if w.parent ≠ p.addr || !w.run || !p.state.live || w.level.toNat ≠ p.words.level.toNat + 1 then none
      else if s.rcbFits space addr w (some p.id) then some (w, some p.id) else none
    | none =>
      if w.parent = 0 then
        if w.level = 0 && s.rcbFits space addr w none then some (w, none) else none
      else
        match s.regionWith space w.parent with
        | some p =>
          if p.state.live && w.level.toNat = p.words.level.toNat + 1 && s.rcbFits space addr w (some p.id) then
            some (w, some p.id)
          else none
        | none => none

/-- A validated block: a group node is ACTIVE, a region QUEUED (R341, R346). -/
def State.accept (s : State) (r : Region) (w : RcbWords) (parent : Option Nat) : State :=
  let prods := (s.prodList r.space w).filterMap fun a => (s.regionWith r.space a).map (·.id)
  s.putRegion { r with words := w, parent := parent, prods := prods, state := if w.run then .queued else .active, reserved := !w.run }

/-- Gives back the entry of the device launch queue that an ended child holds (R356, R357): a DETACH child's, and a child's whose
parent has ended. -/
def State.freeSlot (s : State) (r : Region) : State :=
  if !r.launched || r.taken then s
  else
    match r.parent with
    | none => s
    | some p =>
      match nget? s.regions p with
      | none => s
      | some q =>
        if r.detach || q.state = .ended then
          (s.setRegion { r with taken := true }).putRegion { q with cheld := q.cheld - 1 }
        else s

/-- A block that fails validation ends with RCB_INVALID (R341); its end is reported (R361 step 5). -/
def State.refuseRcb (s : State) (r : Region) : State :=
  let r := { r with state := .ended, code := 0x506, trig := true }
  ((s.putRegion r).freeSlot r).testWakes

/-- Takes an RCB submitted by the captain (R341, R344): the code of the entry and the region id. A live block is not taken
again, and stays as it is. -/
def State.submit (s : State) (space : Nat) (addr arg : Word) : State × Nat × Nat :=
  if addr.toNat % 64 ≠ 0 then (s, 0x502, 0)
  else if (match s.regionWith space addr with | some q => q.state.live | none => false) then (s, 0x506, 0)
  else
    let id := s.fmc.nextRegion
    let s := { s with fmc := { s.fmc with nextRegion := id + 1 } }
    let r : Region := { id := id, addr := addr, space := space, arg := arg }
    match s.validate space addr none with
    | some (w, p) => (s.accept r w p, 0, id)
    | none => (s.refuseRcb r, 0x506, id)

/-- Answers an entry of a launch queue (R344): DONE, CODE, REGION. -/
def State.answerEntry (s : State) (q : LaunchQueue) (i code id : Nat) : State :=
  s.vaPut q.space (q.ring.toNat + 32 * (i % 2 ^ q.log2) + 16) (leBytes 8 (2 ^ 63 + code * 2 ^ 32 + id))

/-- Takes the new entries of a host launch queue in order (R344). -/
def State.takeEntries (s : State) (n : Nat) (q : LaunchQueue) : Nat → State
  | 0 => s
  | fuel + 1 =>
    if q.taken = q.produced then s
    else
      let i := q.taken.toNat
      let at_ := q.ring.toNat + 32 * (i % 2 ^ q.log2)
      let (s, code, id) := s.submit q.space (BitVec.ofNat 64 (s.vaNat q.space at_ 8)) (BitVec.ofNat 64 (s.vaNat q.space (at_ + 8) 8))
      let s := s.answerEntry q i code id
      let q := { q with taken := q.taken + 1 }
      ({ s with fmc := { s.fmc with queues := nset s.fmc.queues n q } }).takeEntries n q fuel

/-- Validates the children launched since the last pass (R356). -/
def State.takeDevice (s : State) : State :=
  s.fmc.device.foldl (fun s e =>
    match nget? s.regions e.region with
    | none => s
    | some r =>
      match nget? s.regions e.parent with
      | none => s.refuseRcb r
      | some p =>
        match s.validate r.space r.addr (some p) with
        | some (w, q) => s.accept r w q
        | none => s.refuseRcb r)
    { s with fmc := { s.fmc with device := [] } }

/-- The entries of the device launch queue that a region keeps reserved, or that its children still hold (R356, R357). -/
def Region.reserves (r : Region) : Nat :=
  if !r.words.run then 0 else if r.state.live then (if r.reserved then r.words.cslots.toNat else 0) else r.cheld

/-- Makes the reservations of QUEUED regions that the device launch queue can hold now, in the order of the ids (R341, R344, R356). -/
def State.reserveAll (s : State) : State :=
  (s.regions.map (·.1)).foldl (fun s i =>
    match nget? s.regions i with
    | none => s
    | some r =>
      if r.state = .queued && !r.reserved
          && (s.regions.map fun p => p.2.reserves).foldl (· + ·) 0 + r.words.cslots.toNat ≤ 4096 then
        s.setRegion { r with reserved := true }
      else s) s

/-! ### Budgets (R342, R343) -/

/-- Adds a charge to a region and every ancestor. -/
def State.charge (s : State) (n : Nat) : Nat → Nat → State
  | 0, _ => s
  | fuel + 1, rid =>
    match nget? s.regions rid with
    | none => s
    | some r =>
      let s := s.putRegion { r with used := (r.used + n) % 2 ^ 64 }
      match r.parent with | some p => s.charge n fuel p | none => s

/-- Charges the tiles of every placed region for a time in microseconds since the last pass, and those that a region gave back since
then for the part of it that a choice names (R342). -/
def State.chargeAll (s : State) (us : Nat) : State :=
  if us = 0 then s
  else
    s.regions.foldl (fun s p =>
      if !p.2.place.isEmpty then s.charge (us * p.2.place.length) 9 p.1
      else if p.2.leftTiles ≠ 0 then
        let (n, s) := s.choose
        let s := match nget? s.regions p.1 with | some r => s.setRegion { r with leftTiles := 0 } | none => s
        s.charge (n % (us + 1) * p.2.leftTiles) 9 p.1
      else s)
      { s with fmc := { s.fmc with micros := s.fmc.micros + us } }

/-- Whether a region or an ancestor is over budget (R342). -/
def State.over (s : State) : Nat → Nat → Bool
  | 0, _ => false
  | fuel + 1, rid =>
    match nget? s.regions rid with
    | none => false
    | some r =>
      (r.words.tileus ≠ 0 && r.used ≥ r.words.tileus.toNat)
        || (match r.parent with | some p => s.over fuel p | none => false)

/-- Rereads TILEUS and HBMB of a region and its ancestors (R343). -/
def State.rereadLimits (s : State) : Nat → Nat → State
  | 0, _ => s
  | fuel + 1, rid =>
    match nget? s.regions rid with
    | none => s
    | some r =>
      let w := s.rcbAt r.space r.addr
      let s := s.setRegion { r with words := { r.words with tileus := w.tileus, hbmb := w.hbmb } }
      match r.parent with | some p => s.rereadLimits fuel p | none => s

/-! ### Slots and wakes (R347, R348, R353-R355) -/

/-- The roster entries of a region's tiles, by logical rank, A before B. -/
def Region.slots (r : Region) : List Nat := r.place.flatMap fun p => [2 * p.2, 2 * p.2 + 1]

/-- The parked contexts of a region. -/
def State.parkedOf (s : State) (rid : Nat) : List Nat :=
  (s.ctxs.filter fun p => regionOfKey p.1 = rid && !isFirmware p.1 && p.2.parked && p.2.life = .live).map (·.1)

/-- Whether every context of a region is parked (R351). -/
def State.isIdle (s : State) (rid : Nat) : Bool :=
  (s.ctxs.filter fun p => regionOfKey p.1 = rid && !isFirmware p.1 && p.2.life = .live).all fun p => p.2.parked

/-- Whether a slot holds a context parked in `bar.wait` (R354). -/
def State.reservedSlot (s : State) (i : Nat) : Bool :=
  match nget? s.wake i with | some (.bar _ _ _) => true | _ => false

/-- The slot to which a woken context goes (R355): the one that still holds it, the one it left, the lowest FREE one, the
lowest PARKED one not reserved. -/
def State.rebindSlot (s : State) (r : Region) (key : Nat) : Option Nat :=
  let st := fun (i : Nat) => (nget {} s.roster i).state
  let c := s.ctxOf key
  let left := (nget? r.place (c.left / 2)).map fun t => 2 * t + c.left % 2
  match lfind (fun i => st i = .parked && s.keyAt (i / 2) (i % 2) = key) r.slots with
  | some i => some i
  | none =>
    match left with
    | some i =>
      if st i = .free then some i
      else (lfind (fun i => st i = .free) r.slots).or (lfind (fun i => st i = .parked && !s.reservedSlot i) r.slots)
    | none => (lfind (fun i => st i = .free) r.slots).or (lfind (fun i => st i = .parked && !s.reservedSlot i) r.slots)

/-- Binds a parked context to a slot (R355): a context parked there moves its descriptor to the firmware list (R354). Its clock is
the one that its save published (R301). -/
def State.bind (s : State) (key i : Nat) : State :=
  let e := nget {} s.roster i
  let s :=
    if e.state = .parked && s.keyAt (i / 2) (i % 2) ≠ key then
      match nget? s.wake i with
      | some d => { s with fmc := { s.fmc with firmware := nset s.fmc.firmware (s.keyAt (i / 2) (i % 2)) d } }
      | none => s
    else s
  let e := { e with state := .running, hctx := key % 2 = 1, hrank := rankOfKey key }
  let s := s.setTile (i / 2) { s.tileAt (i / 2) with clockGated := false }
  let c := { s.ctxOf key with parked := false }
  ({ s with
    roster := nset s.roster i e, wake := nerase s.wake i
    fmc := { s.fmc with firmware := nerase s.fmc.firmware key } } : State).setCtxOf key c

/-- Acts on one wake request (R355). A region that is being restored is woken once it runs; one that is being cut takes WAKEP, as a
ring or a condition does then (R359). -/
def State.wakeOne (s : State) (key : Nat) : State :=
  let c := s.ctxOf key
  if c.life ≠ .live || !c.parked then s
  else
    match nget? s.regions (regionOfKey key) with
    | none => s
    | some r =>
      if r.state = .running then
        match s.rebindSlot r key with
        | some i => s.bind key i
        | none => s
      else if r.state = .saved then s.setRegion { r with holdIdle := false, rewake := true }
      else if r.state = .loading then s.postWake key
      else if r.state = .draining then s.putRegion { r with wakep := true }
      else s

/-- Step 4 of a pass: wake requests, then the descriptors held in firmware (R349, R354, R355). -/
def State.wakeAll (s : State) : State :=
  let posted := s.fmc.wakes
  let s := { s with fmc := { s.fmc with wakes := [] } }
  let s := posted.foldl State.wakeOne s
  s.fmc.firmware.foldl (fun s p => if s.condHolds (regionOfKey p.1) p.2 then s.wakeOne p.1 else s) s

/-! ### Fault-queue resolutions (R313) -/

/-- RESOLVE of a record as its handler has left it. -/
def State.resolveField (s : State) (f : FaultRec) : Nat :=
  match nget? s.regions f.domain with
  | some d => s.vaNat d.space (d.words.fqbase.toNat + 64 * f.index + 48) 8 / 2 ^ 62
  | none => 0

/-- Resolves the fault of an engine of the region that a record concerns (R311). -/
def State.resolveRecord (s : State) (f : FaultRec) (p : Option (Engine × Nat)) : State :=
  match p, nget? s.regions f.region with
  | some p, some r => s.resolveIn r p.1 p.2
  | _, _ => s

/-- RESUME (R313): the engine fault is resolved, the record's own or for a precise trap the one whose handler met it; `trapactive`
clears, and the context, once no record of it is left, issues again at `lx.epc`. -/
def State.resumeRecord (s : State) (f : FaultRec) : State :=
  match f.ctx with
  | none => s.resolveRecord f f.eng
  | some key =>
    let s := s.resolveRecord f (if f.eng.isSome then f.eng else (s.ctxOf key).resolving)
    let more := s.fmc.records.any fun g => g.ctx = some key && g ≠ f && !g.info
    let c := s.ctxOf key
    s.setCtxOf key { c with
      trapactive := false, pc := f.epc &&& ~~~3, frozen := more
      resolving := if f.eng.isNone || c.resolving = f.eng then none else c.resolving }

/-- Acts on the records of a domain that its handler has resolved (R313): RESUME or ABORT; the others stay pending. -/
def State.actRecords (s : State) (d : Nat) : State :=
  s.fmc.records.foldl (fun s f =>
    if !f.written || f.domain ≠ d then s
    else
      let how := s.resolveField f
      let drop := fun (s : State) => { s with fmc := { s.fmc with records := s.fmc.records.filter (· ≠ f) } }
      if how = 1 then drop (s.resumeRecord f)
      else if how = 2 then drop (s.abortRegion f.region (f.trap.extractLsb' 0 12) 0)
      else s) s

/-! ### Placement (R348, R350, R351) -/

/-- Whether a physical tile may take a region: healthy, its cluster not fenced, and no region on it. -/
def State.tileFree (s : State) (t : Nat) : Bool :=
  let c := nget {} s.clusters (t / 24)
  (nget {} s.roster (2 * t)).region = 0 && (nget {} s.roster (2 * t + 1)).region = 0 && !c.fenced
    && !c.missing.contains (t % 24)

/-- Whether a shape could ever be placed on tiles of a cluster: whole clusters need every tile healthy, a fraction enough of
them (R348, R350). -/
def State.couldUse (s : State) (w : RcbWords) (c : Nat) : Bool :=
  let k := nget {} s.clusters c
  !k.fenced && (if w.nclus ≠ 0 then k.missing.isEmpty else w.ntile.toNat + k.missing.length ≤ 24)

/-- The tiles that a shape takes, by ascending rank, among those that are free or that `freed` lists, from the cluster that
the choice names on, outside the clusters of `avoid` (R348); none where it fits nowhere. Whole clusters are logical clusters
0, 1, ... (R240). -/
def State.fit (s : State) (w : RcbWords) (from_ : Nat) (freed : List Nat) (avoid : List Nat := []) : Option (List Nat) :=
  let ok := fun (t : Nat) => s.tileFree t || (freed.contains t && !(nget {} s.clusters (t / 24)).fenced)
  let order := ((List.range 48).map fun c => (c + from_) % 48).filter fun c => !avoid.contains c
  if w.nclus ≠ 0 then
    let whole := (order.filter fun c => (rangeFrom (24 * c) 24).all ok).take w.nclus.toNat
    if whole.length = w.nclus.toNat then some (whole.flatMap fun c => rangeFrom (24 * c) 24) else none
  else
    match lfind (fun (ts : List Nat) => ts.length ≥ w.ntile.toNat) (order.map fun c => (rangeFrom (24 * c) 24).filter ok) with
    | some ts => some (ts.take w.ntile.toNat)
    | none => none

/-- Writes the roster entries of a region placed on tiles: every slot LOADING (R347, R352). -/
def State.enrol (s : State) (r : Region) (ts : List Nat) : State :=
  let place := (List.range ts.length).zip ts
  let e := fun (rank : Nat) (b : Bool) => ({
    region := r.id, prio := s.prio r.id, state := .loading, lcoord := coordOf rank, hctx := b, hrank := rank
    savea := r.savea } : Slot)
  { s with roster := place.foldl (fun m p => nset (nset m (2 * p.2) (e p.1 false)) (2 * p.2 + 1) (e p.1 true)) s.roster }

/-- The addresses that a region's launch fixes (R82): those of its text, which the choice names, and of its image's extents. -/
def State.relocate (s : State) (r : Region) : Option (State × Region) :=
  if r.state ≠ .queued then some (s, r)
  else
    match nget? s.images (imageKey r.space r.words.image) with
    | none => some (s, r)
    | some im =>
      let (n, s) := s.choose
      (s.allocExtents r.space im.extents []).map fun p =>
        (p.1, { r with textBase := n * 4, extents := p.2 })

/-- Places a region (R350, R352 step 1): the save area is allocated and pinned the first time; with no room in HBM for it or for the
image's extents the region stays as it is. -/
def State.place (s : State) (r : Region) (ts : List Nat) : State :=
  match s.allocArea r with
  | none => s
  | some (t, savea) =>
    match t.relocate { r with savea := savea } with
    | none => s
    | some (s, r) =>
      let r := { r with
        state := .loading, code := 0, credit := 0, placedSince := s.fmc.micros, acks := [], loadCodes := []
        place := (List.range ts.length).zip ts, leftTiles := 0 }
      (s.putRegion r).enrol r ts

/-- Whether a region is runnable (R350): a SAVED one held by R360 becomes so when it must end (log entry 75). -/
def State.runnable (s : State) (r : Region) : Bool :=
  r.state = .queued || (r.state = .saved && !r.overBudget && (!r.holdIdle || s.fmc.ends.contains r.id))

/-- Whether the save area of a region holds one save (R317): the sequence number of its header is that of every tile area. -/
def State.areaMatches (s : State) (r : Region) : Bool :=
  r.savedTiles.all fun v => s.vaNat r.space (r.tileArea v.rank + 8) 8 = s.vaNat r.space r.savea.toNat 8

/-- Whether a restore is refused with PLACEMENT_MISMATCH (R317, R320 step 1): the save area does not hold one save, or no cluster offers
the tiles that the shape needs. -/
def State.mismatch (s : State) (r : Region) : Bool :=
  r.state = .saved
    && (!s.areaMatches r || ((List.range 48).filter (s.couldUse r.words)).length < max 1 r.words.nclus.toNat)

/-- Whether a region's credit has made it aged (R350). -/
def State.aged (s : State) (r : Region) : Bool := r.credit ≥ 64 * s.weight r.id

/-- The class in which a region is a victim for a waiting one (R351), 0 for none. -/
def State.victimClass (s : State) (w v : Region) : Nat :=
  if v.state ≠ .running || v.abort.isSome || v.id = w.id then 0
  else if v.overBudget then 1
  else if s.isIdle v.id then 2
  else if s.prio v.id < s.prio w.id then 3
  else if s.aged w && s.prio v.id = s.prio w.id && v.placedSince + 1000 * s.fmc.quantum ≤ s.fmc.micros then 4
  else 0

/-- Whether one victim goes before another (R351): class, lower priority, longest placed, higher id. -/
def State.victimBefore (s : State) (w a b : Region) : Bool :=
  let k := fun (v : Region) => (s.victimClass w v, s.prio v.id, v.placedSince, 2 ^ 40 - v.id)
  let (a1, a2, a3, a4) := k a
  let (b1, b2, b3, b4) := k b
  a1 < b1 || (a1 = b1 && (a2 < b2 || (a2 = b2 && (a3 < b3 || (a3 = b3 && a4 < b4)))))

/-- Inserts a region into a list kept in an order. -/
def insertRegion (before : Region → Region → Bool) (x : Region) : List Region → List Region
  | [] => [x]
  | y :: t => if before x y then x :: y :: t else y :: insertRegion before x t

/-- The victims to unmap for a waiting region: of the candidates in order, the fewest whose tiles, with those already being
unmapped, make room; none where all would not (log entry 31). -/
def State.victims (s : State) (w : Region) : List Nat :=
  let leaving := (s.regions.filter fun p => p.2.state = .draining).flatMap fun p => p.2.place.map (·.2)
  let all := (s.regions.map (·.2)).filter fun v => s.victimClass w v ≠ 0
  let order := all.foldl (fun acc v => insertRegion (s.victimBefore w) v acc) []
  let rec go : List Region → List Nat → List Nat → List Nat
    | [], freed, chosen => if (s.fit w.words 0 freed).isSome then chosen else []
    | v :: rest, freed, chosen =>
      if (s.fit w.words 0 freed).isSome then chosen
      else go rest (freed ++ v.place.map (·.2)) (chosen ++ [v.id])
  go order leaving []

/-! ### The end of a region (R361) -/

/-- Whether every section of a region's tiles has retired. -/
def State.allRetired (s : State) (r : Region) : Bool :=
  r.place.all fun p => allEngines.all fun e =>
    let g := (s.tileAt p.2).engine e
    g.sects.isEmpty && g.runs.isEmpty

/-- What all accesses of a region have been, as its end publishes them (R301). -/
def State.regionClock (s : State) (r : Region) : Clock :=
  let c := s.ctxs.foldl (fun (c : Clock) p =>
    if regionOfKey p.1 = r.id && !isFirmware p.1 then c.join (p.2.clock.release (ctxAgent p.1)) else c) r.seen
  r.place.foldl (fun (c : Clock) p => (s.tileAt p.2).heldClock c) c

/-- Steps 2 to 5 of R361. -/
def State.finishEnd (s : State) (r : Region) : State :=
  let (code, value) := match r.abort with | some p => p | none => ((0 : BitVec 12), r.value)
  let clock := s.regionClock r
  let s := r.slots.foldl (fun s i => { s with roster := nerase s.roster i, wake := nerase s.wake i }) s
  let s := r.place.foldl (fun s p =>
    let t := s.tileAt p.2
    s.setTile p.2 { t with dfa := { t.dfa with status := .unconfigured }, pins := [], cut := .none }) s
  let s := s.freeArea r
  let s := { s with
    fmc := { s.fmc with
      firmware := s.fmc.firmware.filter (fun p => regionOfKey p.1 ≠ r.id)
      records := s.fmc.records.filter (fun f => f.region ≠ r.id || !f.written) }
    ctxs := s.ctxs.map fun (p : Nat × Context) =>
      if regionOfKey p.1 = r.id && !isFirmware p.1 then (p.1, { p.2 with life := .ended, waiting := none, parked := false }) else p }
  let r := { r with
    state := .ended, code := code, value := value, trig := true, place := [], text := [], savedTiles := [], savedSlots := []
    savedRounds := [], abort := none, wakep := false, seen := clock }
  let children := (s.regions.map (·.2)).filter fun c => c.parent = some r.id && c.state = .ended
  (children.foldl (fun s c => s.freeSlot c) ((s.putRegion r).freeSlot r)).testWakes

end Sys2Proof.Machine
end

