-- ==== Sys2Proof/Machine/Schedule.lean ====
section
/-! DEFINITION. What one move of the machine is: which instruction a context fetches, which command an engine takes, and
the order of moves where the agenda names none. -/

namespace Sys2Proof.Machine

open Sys2Proof

/-- What a move comes to: an instruction at a state, nothing, or a stop. -/
inductive Move
  | run (i : Instr) (s : State)
  | idle (s : State)
  | stop (f : Fault)
deriving DecidableEq, Repr

/-- The text that the acting context fetches from: its home's part of the region image (R83, R352), or the firmware's. -/
def State.textOf (s : State) : List Host.Cell :=
  if s.slot = 2 then s.fwText
  else
    match s.regionOf s.key with
    | some r => nget [] r.text (rankOfKey s.key)
    | none => []

/-- Four bytes of text, the first the least significant (R6). -/
def fetchWord (text : List Host.Cell) (pc : Nat) : Option Inst :=
  match nget? text pc, nget? text (pc + 1), nget? text (pc + 2), nget? text (pc + 3) with
  | some a, some b, some c, some d => some (d ++ c ++ b ++ a)
  | _, _, _, _ => none

/-- The instruction of a word of text: `ecall` names its service by a7 (R89), a refused word is illegal (R52). -/
def State.instrOf (s : State) (w : Inst) : Instr :=
  match decode w with
  | .ok .ecallReserved =>
    if s.reg 17 = 0 then .ecallExit else if s.reg 17 = 1 then .ecallAbort else .ecallReserved
  | .ok i => i
  | .error _ => .illegalInstruction w

/-- Whether an instruction is a load that may pass a `st.rel` held back (R298). -/
def isAcqLoad : Instr → Bool
  | .ldAcqB .. | .ldAcqH .. | .ldAcqW .. | .ldAcqD .. | .ldAcqBu .. | .ldAcqHu .. | .ldAcqWu .. => true
  | _ => false

/-- Whether the acting slot's context stands at its tile: bound to a RUNNING slot, or to a DRAINING one whose whistle is
still held (R314), its tile's clock running (R323, R393). -/
def State.bound (s : State) : Bool :=
  let t := s.tileAt s.tile
  let st := (nget {} s.roster (s.tile * 2 + s.slot)).state
  t.cut = .none && t.part ≠ .gated && !s.powerGated s.tile
    && (s.slot = 2 || (s.slot < 2 && (st = .running || st = .draining)))

/-- Whether the context in the acting slot may issue an instruction: live, bound, neither waiting nor frozen nor parked. -/
def State.issues (s : State) : Bool :=
  let c := s.ctx
  s.bound && c.life = .live && !c.frozen && !c.parked && c.waiting = none


/-- The addresses that a control-core instruction accesses (R86, R105-R107, R116-R118). -/
def State.scalarAddrs (s : State) : Instr → List Word
  | .load _ _ rs1 imm | .store _ rs1 _ imm => [s.reg rs1 + imm12 imm]
  | .ldAcqB _ rs1 off _ | .ldAcqH _ rs1 off _ | .ldAcqW _ rs1 off _ | .ldAcqD _ rs1 off _ | .ldAcqBu _ rs1 off _
  | .ldAcqHu _ rs1 off _ | .ldAcqWu _ rs1 off _ | .stRelB _ rs1 off _ | .stRelH _ rs1 off _ | .stRelW _ rs1 off _
  | .stRelD _ rs1 off _ => [s.reg rs1 + off.signExtend 64]
  | .sywArm rs1 _ | .sywWait _ rs1 _ _ | .fork _ rs1 _ | .contract _ rs1 => [s.reg rs1]
  | .flgGather _ _ rs2 => [s.reg rs2]
  | _ => []

/-- Whether an instruction waits at its issue for a frozen partition (R323). -/
def State.issueHeld (s : State) (i : Instr) : Bool :=
  (s.scalarAddrs i).any fun a => match s.scalarKey a with | some k => s.held s.tile k | none => false

/-- The marked loads and stores of a control core (R107): the access, its size, its base register and offset. -/
def orderedAccess : Instr → Option (Bool × Nat × Reg × BitVec 8)
  | .ldAcqB _ rs1 off _ => some (false, loadBytes .b, rs1, off)
  | .ldAcqH _ rs1 off _ => some (false, loadBytes .h, rs1, off)
  | .ldAcqW _ rs1 off _ => some (false, loadBytes .w, rs1, off)
  | .ldAcqD _ rs1 off _ => some (false, loadBytes .d, rs1, off)
  | .ldAcqBu _ rs1 off _ => some (false, loadBytes .bu, rs1, off)
  | .ldAcqHu _ rs1 off _ => some (false, loadBytes .hu, rs1, off)
  | .ldAcqWu _ rs1 off _ => some (false, loadBytes .wu, rs1, off)
  | .stRelB _ rs1 off _ => some (true, storeBytes .b, rs1, off)
  | .stRelH _ rs1 off _ => some (true, storeBytes .h, rs1, off)
  | .stRelW _ rs1 off _ => some (true, storeBytes .w, rs1, off)
  | .stRelD _ rs1 off _ => some (true, storeBytes .d, rs1, off)
  | _ => none

/-- Whether an instruction may issue while the acting context holds a `st.rel` back (R298): its meaning neither orders nor traps. -/
def State.passesHeld (s : State) (i : Instr) : Bool :=
  let ok := fun (a : Access) => match a with | .at_ _ => true | .trap _ => false
  match i with
  | .integerOperation _ => true
  | .jumpBranch (.jal _ i) => (s.ctx.pc + immJ i).toNat % 4 = 0
  | .jumpBranch (.jalr _ rs1 i) => ((s.reg rs1 + imm12 i) &&& ~~~1).toNat % 4 = 0
  | .jumpBranch (.branch _ _ _ i) => (s.ctx.pc + immB i).toNat % 4 = 0
  | .load op _ rs1 imm => ok (s.checkLoad (s.reg rs1 + imm12 imm) (loadBytes op) false)
  | .store op rs1 _ imm =>
    match s.checkStore (s.reg rs1 + imm12 imm) (storeBytes op) false with
    | .at_ k => !s.ctx.holdsBack k (storeBytes op)
    | .trap _ => false
  | i =>
    match orderedAccess i with
    | some (false, n, rs1, off) => ok (s.checkLoad (s.reg rs1 + off.signExtend 64) n true)
    | _ => false

/-- What comes of the `st.rel`s held back as an instruction issues (R298): an `ld.acq` passes them; what neither orders nor touches them
passes too, or they are performed first, as the choice says (log entry 10); before any other instruction they are performed. -/
def State.beforeIssue (s : State) (i : Instr) : State :=
  if s.ctx.stores.isEmpty then s
  else if !s.passesHeld i then s.performStores
  else if isAcqLoad i then s
  else
    let (n, t) := s.choose
    if n = 0 then t.performStores else t

/-- A context's move: a posted fault first, else the instruction at its pc (R309), which waits where a partition that it reaches is
frozen (R323). -/
def State.coreMove (s : State) : Move :=
  if !s.issues then .idle s
  else if s.faultDue then .run .engineFaultDelivery s
  else
    match fetchWord s.textOf s.ctx.pc.toNat with
    | none => .stop (.fetchOutsideText s.ctx.pc)
    | some w =>
      let i := s.instrOf w
      if s.issueHeld i then .idle s else .run i (s.beforeIssue i)

/-- An engine's move: the section of the header at the head of its queue starts, or the whole command there (R56, R60). A further
word of zeros, where the form defines none, says nothing: the command starts as the one without it (log entry 70). -/
def State.queueMove (s : State) (e : Engine) : Move :=
  let g := s.eng e
  match g.queue with
  | [] => .idle s
  | w :: _ =>
    if w.word.op = 0xFF then .run (.sectionStart e) s
    else
      match g.headCmd with
      | none => .idle s
      | some ws =>
        match decodeCmd e (ws.map (·.word)) with
        | some i => .run i s
        | none => .idle s

/-- Whether an event comes about at a context: it needs the context at its tile. -/
def isContextEvent : Instr → Bool
  | .enqStallEnd | .rdvReturn | .barWaitPass | .sywWaitPass | .waitdepPass | .cwaitReturn | .flgGatherReturn | .exitComplete
  | .parkThresholdExpiry | .engineFaultDelivery | .translationWalkEnd => true
  | _ => false

/-- Whether an event comes about in the engines or arrays of a tile. -/
def isUnitEvent : Instr → Bool
  | .sectionHeader _ | .programFetch _ | .sectionStart _ | .sectionRetire _ | .seBarDrained | .streamRequestIssue _
  | .memoryReadReturn .. | .streamDelivery _ | .writeStreamUnpack _ | .recurrenceForward _ | .streamComplete _
  | .copyChunkWrite _ | .aeCfgLoad | .endClaim | .groupFiring _ | .drainingFiring _ | .markerHead _ | .linkPacketArrival _
  | .controlTransferArrival _ | .snapshot _ | .swapTokenPass | .accumulatorWrite | .gatherReply .. => true
  | _ => false

/-- Whether the units of the acting tile run: not saved by a cut (R317), their clock not gated (R323, R394). -/
def State.unitsRun (s : State) : Bool :=
  let t := s.tileAt s.tile
  t.cut ≠ .saved && t.part ≠ .gated && !s.powerGated s.tile

/-- Whether an event stands with a frozen partition beside the tiles: a cluster's compiler, a router, a UALink port engine (R323). -/
def State.partHolds (s : State) (i : Instr) : Bool :=
  let cluster := nget {} s.clusters (s.tile / 24)
  match i with
  | .patternCompile | .patternCompileComplete => cluster.part = .gated
  | .routerCombine _ c => (nget {} s.clusters c).routerPart = .gated
  | .landingRecord p _ _ | .creditReturn p | .ualinkAtomicReceived p _ | .safeTierAccess p _ _ _ _ =>
    (nget {} s.uaports p).part = .gated
  | _ => false

/-- Whether an instruction is one that a control core alone brings about, by a fetch. -/
def isCoreInstr (i : Instr) : Bool :=
  (encode i).isSome || (match i with | .ecallExit | .ecallAbort | .illegalInstruction _ => true | .fence .. => true | _ => false)

/-- The move that a step makes of an agenda entry: a queue's head and an event stand for what may come about there; an
instruction of a control core comes about by a fetch alone, a command only where a queue holds it or it is in progress. -/
def State.moveOf (s : State) (w : What) : Move :=
  match w with
  | .core => s.coreMove
  | .queue e => if s.unitsRun then s.queueMove e else .idle s
  | .event i =>
    if isCoreInstr i || (isContextEvent i && !s.bound) || (isUnitEvent i && !s.unitsRun) || s.partHolds i then .idle s
    else
      match encodeCmd i with
      | some (e, _) => if s.unitsRun && (s.eng e).runs.any (fun r => r.instr = i) then .run i s else .idle s
      | none => .run i s

/-! ### The moves that may come about (log entry 2) -/

/-- The event that ends a context's wait. -/
def waitEvent (c : Context) (i : Instr) : Instr :=
  match i with
  | .rdv .. => .rdvReturn
  | .barWait .. => .barWaitPass
  | .sywWait .. => .sywWaitPass
  | .waitdep _ => .waitdepPass
  | .cwait .. => .cwaitReturn
  | .flgGather .. => if c.gatherNow.isSome then .flgGatherReturn else .enqStallEnd
  | .ecallExit => .exitComplete
  | _ => if c.walk.isSome then .translationWalkEnd else .enqStallEnd

/-- What may come about at the contexts of a tile. -/
def State.contextMoves (s : State) (tile : Nat) : List Act :=
  [0, 1, 2].flatMap fun slot =>
    let t : State := { s with tile := tile, slot := slot }
    let act := fun (w : What) => ({ tile := tile, slot := slot, what := w } : Act)
    if t.issues then [act .core]
    else if !t.bound || t.ctx.life ≠ .live || t.ctx.parked then []
    else
      (if t.faultDue then [act (.event .engineFaultDelivery)] else [])
        ++ (match t.ctx.waiting with
          | some i =>
            if t.ctx.frozen then []
            else act (.event (waitEvent t.ctx i)) :: (if t.waitDesc.isSome then [act (.event .parkThresholdExpiry)] else [])
          | none => [])

/-- What may come about for a command in progress. -/
def runMoves (e : Engine) (r : Run) : List Instr :=
  let reads := (r.work.reqs.filter fun q => !q.returned).map fun q => .memoryReadReturn e r.id q.id
  match r.instr with
  | .seRec _ => [.recurrenceForward r.id, .streamComplete r.id]
  | .seAff _ | .seInd _ | .seMcast _ =>
    [.streamRequestIssue r.id, .streamDelivery r.id, .writeStreamUnpack r.id, .streamComplete r.id] ++ reads
  | .seBar _ => [.seBarDrained]
  | .ceCopy _ => [.memoryReadReturn e r.id r.work.i, .copyChunkWrite r.id]
  | .ceFill _ => [.copyChunkWrite r.id]
  | .aeCfg _ _ => [.aeCfgLoad]
  | .aeInv _ _ => [.endClaim]
  | .neGath _ => r.instr :: r.work.counts.map fun q => .gatherReply r.id q.1
  | i => [i]

/-- What may come about at the engines of a tile. -/
def State.engineMoves (s : State) (tile : Nat) : List What :=
  allEngines.flatMap fun e =>
    let g := (s.tileAt tile).engine e
    (if g.queue.isEmpty then [] else [.queue e])
      ++ (if g.program.isSome then [.event (.programFetch e)] else [])
      ++ (match g.sects with | q :: _ => if g.complete q then [.event (.sectionRetire e)] else [] | [] => [])
      ++ g.runs.flatMap fun r => (runMoves e r).map .event

/-- What may come about in the arrays of a tile. -/
def State.arrayMoves (s : State) (tile : Nat) : List Instr :=
  let t := s.tileAt tile
  let d := t.dfa
  let groups := if d.status = .loaded then d.groups.flatMap fun g =>
      let n : BitVec 3 := BitVec.ofNat 3 g.1
      [.groupFiring n, .drainingFiring n, .markerHead n] ++ (if t.cut = .blown then [.snapshot n] else [])
    else []
  let links := d.links.filterMap fun l =>
    if !l.2.transit.isEmpty || (l.2.src ≥ 0x20 && !(nget {} t.points (l.2.src.toNat - 0x20)).buf.isEmpty) then
      some (.linkPacketArrival l.1) else none
  let ctrls := d.ctrls.filterMap fun c => if c.2.transit.isEmpty then none else some (.controlTransferArrival c.1)
  let me := if t.me.pipe.isEmpty then [] else [.swapTokenPass, .accumulatorWrite]
  let compiles := if (nget {} s.clusters (tile / 24)).compiles.isEmpty then [] else [.patternCompile, .patternCompileComplete]
  groups ++ links ++ ctrls ++ me ++ compiles

/-- Whether the FMC has a request for its next pass (R349). -/
def State.passDue (s : State) : Bool :=
  s.fmc.running
    && (!s.fmc.rings.isEmpty || !s.fmc.wakes.isEmpty || !s.fmc.ends.isEmpty || !s.fmc.device.isEmpty || !s.fmc.drains.isEmpty
      || s.fmc.ckptRegions.isSome || s.fmc.swap.isSome || s.fmc.queues.any (fun q => q.2.produced ≠ q.2.taken)
      || s.regions.any fun p => p.2.state = .queued || (p.2.state = .saved && !p.2.holdIdle))

/-- What may come about beside the tiles: rounds in the routers, pages, the FMC. -/
def State.moduleMoves (s : State) : List Instr :=
  s.rounds.flatMap (fun q =>
      (q.parts.map (·.router)).eraseDups.map (fun c => .routerCombine q.id c) ++ (if q.done then [.collectiveResult q.id] else []))
    ++ s.fmc.unmaps.flatMap (fun u =>
      u.waitFor.map (fun t => .shootdown t u.space (BitVec.ofNat 64 u.va))
        ++ (match u.move with | some f => if u.waitFor.isEmpty then [.frameRetire f] else [] | none => []))
    ++ ((s.fmc.retiredFrames.filter fun f => !s.fmc.unmaps.any (·.move = some f) && !(s.pagesIn (f * 65536, 65536)).isEmpty).map
      Instr.frameRetire)
    ++ s.regions.flatMap (fun p =>
      if p.2.state = .loading then
        (p.2.place.filter fun q => !p.2.acks.contains q.1).map fun q => .launchLoadAck q.2
      else if p.2.state = .draining then
        ((p.2.place.filter fun q => (!p.2.saved.contains q.1 : Bool)).map fun q => .tileSave q.2) ++ [.whistleTimeout p.1]
      else [])
    ++ (if s.passDue then [.schedulingPass] else [])

/-- Every move that may come about; some of them change nothing where something else must come first. -/
def State.moves (s : State) : List Act :=
  let tiles := (s.tiles.map Prod.fst ++ s.roster.map fun (p : Nat × Slot) => p.1 / 2).eraseDups
  let at_ := fun (t : Nat) (w : What) => ({ tile := t, slot := 0, what := w } : Act)
  (tiles.flatMap fun t => s.contextMoves t ++ (s.engineMoves t ++ (s.arrayMoves t).map What.event).map (at_ t))
    ++ s.moduleMoves.map fun i => at_ 0 (.event i)

/-- The move that the model makes where the agenda is empty (R87 leaves the order to timing; log entry 2): the possible ones in
turn, by the tick counter. -/
def State.pick (s : State) : Option Act :=
  match s.moves with
  | [] => none
  | m :: ms => some (lget m (m :: ms) (s.ticks % (ms.length + 1)))

end Sys2Proof.Machine
end

