-- ==== Sys2Proof/Machine/Tack.lean ====
section
/-! DEFINITION. The tacking unit (R275-R286): matching, merging, bias, untacking, and the states of tack maps. -/

namespace Sys2Proof.Machine

open Sys2Proof

/-! ### Maps -/

/-- A tack map of the acting tile. -/
def State.tackMap (s : State) (m : Nat) : TackMap := nget {} (s.tileAt s.tile).maps m

/-- Writes a tack map. -/
def State.setTackMap (s : State) (m : Nat) (v : TackMap) : State :=
  let t := s.tileAt s.tile
  s.setTile s.tile { t with maps := nset t.maps m v }

/-- N_out. -/
def TackMap.nout (m : TackMap) : Nat := m.nin - m.r

/-- The fault of a map that a command needs LIVE or KEPT (R282, R284). -/
def State.mapFault (s : State) (m : Nat) : Option (BitVec 12 × Word) :=
  match (s.tackMap m).state with
  | .lost => some (0x161, BitVec.ofNat 64 m)
  | .free => some (0x160, BitVec.ofNat 64 m)
  | _ => none

/-- Starts or resumes a command of the TK: one at a time, in queue order (R275). -/
def State.resumeTk (s : State) (i : Instr) : Option (Run × State) := s.resume .tk i (s.eng .tk).runs.isEmpty

/-! ### Rows (R275) -/

/-- A row read: its elements, or the fault. -/
inductive RowRead
  | row (es : List Nat) (r : Run) (s : State)
  | fault (code : BitVec 12) (tval : Word)
deriving DecidableEq, Repr

/-- The elements that bytes hold. -/
def elemsOf (es : Nat) : Nat → List Byte → List Nat
  | 0, _ => []
  | n + 1, bs => leNat (bs.take es) :: elemsOf es n (bs.drop es)

/-- Reads `n` elements of `es` bytes, under the TRAP policy (R275). -/
def State.readElems (s : State) (r : Run) (a es n : Nat) : RowRead :=
  match s.runRead .tk r a (es * n) true false with
  | .fault code v => .fault code v
  | .bytes bs _ =>
    let clock := (s.took .tk r a (es * n)).clock
    .row (elemsOf es n bs) { r with clock := clock } (s.runNote .tk { r with clock := clock } a (es * n) false)

/-- The first element outside an extent of rows of `n` elements at a stride, if `rows` rows do not fit (R283). -/
def shortAt (x : Ext) (rows n es stride : Nat) : Option Word :=
  let past := (List.range rows).filter fun t => t * stride + n * es > x.bytes
  match past with
  | [] => none
  | t :: _ =>
    let e := if t * stride ≥ x.bytes then 0 else (x.bytes - t * stride) / es
    some (BitVec.ofNat 64 (x.base.toNat + t * stride + e * es))

/-! ### Delivery at a port (R277) -/

/-- Elements that fill a packet of eight lane words. -/
def fullPacket (es : Nat) : Nat := 8 * (8 / es)

/-- Delivers the first elements held, eight lane words at most; END on the last packet. -/
def State.tkSend (s : State) (r : Run) (port : BitVec 5) (sid : BitVec 9) (es : Nat) (fin : Bool) : State :=
  let lanes := packElems (8 * es) (8 / es) ((r.work.held.take (fullPacket es)).map (·.toNat)) 8
  let last := fin && r.work.held.length ≤ fullPacket es
  match s.deliver s.tile (pointKey port sid) r.id false {
      lanes := lanes, pred := BitVec.allOnes 8 >>> (8 - lanes.length), sid := sid
      marker := if last then some .fin else none } with
  | .waits | .wrongSid => s.setRun .tk r
  | .done s =>
    if last then s.complete .tk r
    else s.setRun .tk { r with work := { r.work with held := r.work.held.drop (fullPacket es) } }

/-- Writes one row of elements for a command. -/
def State.writeElems (s : State) (r : Run) (a es : Nat) (vs : List Word) : Writing :=
  s.runWrite .tk r a (vs.flatMap fun v => leBytes es v.toNat) false false

/-! ### `tk.match` (R278) -/

/-- The exact sum of products of two rows: none for a NaN or an invalid operation. -/
def exactDot (f : Fmt) (a b : List Nat) : Option Val :=
  let vs := (a.zip b).map fun p => (f.decode false p.1, f.decode false p.2)
  if vs.any fun p => p.1.isNan || p.2.isNan then none
  else
    let ps := vs.map fun p => productOf p.1 p.2
    if ps.any Option.isNone then none else sumOf false (ps.filterMap id)

/-- That sum rounded to FP32: its value, NaN for none, and OF where it overflows (R278). -/
def dotFp32 (f : Fmt) (a b : List Nat) : Val × Flags :=
  match exactDot f a b with
  | none => (.nan false, 0)
  | some v =>
    let (b, fl) := Fmt.fp32.convert {} v
    (Fmt.fp32.decode false b, fl &&& Flag.of)

/-- The score of a pair (R278): d / sqrt(ni · nj), the exact quotient rounded once to FP32. -/
def scoreOf (d ni nj : Val) : Val :=
  match d, ni, nj with
  | .fin n m e, .fin _ k f, .fin _ l g =>
    let x : Int := 2 * e - f - g
    let odd := x % 2 ≠ 0
    let num := m * m * (if odd then 2 else 1) * 2 ^ 200
    let r := isqrt (num / (k * l)) 160 0
    let (b, _) := Fmt.fp32.deliver {} {
      val := .fin n r ((if odd then x - 1 else x) / 2 - 100), sticky := r * r * (k * l) ≠ num }
    Fmt.fp32.decode false b
  | d, ni, nj => if d.isFinite && ni.isFinite && nj.isFinite then .zero false else .nan false

/-- The rank of a score: NaN below every number, −0 equal to +0 (R278). -/
def scoreRank (v : Val) : Int :=
  match v with
  | .nan _ => -(2 ^ 32)
  | v => let b := (Fmt.fp32.convert {} v).1; if b < 2 ^ 31 then b else -((b % 2 ^ 31 : Nat) : Int)

/-- The best of the scores of a token, as rank and place: ties to the earlier (R278). -/
def bestOf : List (Int × Nat) → Int × Nat
  | [] => (0, 0)
  | p :: t => t.foldl (fun b q => if q.1 > b.1 then q else b) p

/-- Inserts a scored token: greater scores first, ties to the lower token. -/
def insertScore (p : Int × Nat) : List (Int × Nat) → List (Int × Nat)
  | [] => [p]
  | q :: t => if p.1 > q.1 || (p.1 = q.1 && p.2 < q.2) then p :: q :: t else q :: insertScore p t

/-- The row size of a `tk.match`. -/
def matchRow (c : MatchCmd) : Nat := (c.d.toNat + 1) * (widthOfCode c.kfmt / 8)

/-- Its row stride. -/
def matchStride (c : MatchCmd) : Nat := match c.rstride with | some v => v.toNat | none => matchRow c

/-- Reads the key rows of a list of tokens. -/
def State.readKeys (s : State) (c : MatchCmd) (r : Run) : List Nat → List (Nat × List Nat) → Sum (List (Nat × List Nat) × Run × State) (BitVec 12 × Word)
  | [], acc => .inl (acc, r, s)
  | t :: ts, acc =>
    match s.readElems r (c.ext.base.toNat + t * matchStride c) (widthOfCode c.kfmt / 8) (c.d.toNat + 1) with
    | .fault code v => .inr (code, v)
    | .row es r s => s.readKeys c r ts (acc ++ [(t, es)])

/-- The map that a match builds from the best partners and scores (R278). -/
def builtMap (c : MatchCmd) (sz : List Nat) (best : NMap Nat) (scores : List (Int × Nat)) : TackMap :=
  let n := c.n.toNat + 1
  let chosen := ((scores.foldl (fun l p => insertScore p l) []).take c.rcnt.toNat).map Prod.snd
  let surv := (List.range n).filter fun t => !chosen.contains t
  let out := fun (t : Nat) => (surv.takeWhile (· ≠ t)).length
  let d := (List.range n).map fun t => if chosen.contains t then out (nget 0 best t) else out t
  let size := (List.range surv.length).map fun u =>
    ((List.range n).map fun t => if lget 0 d t = u then lget 1 sz t else 0).foldl (· + ·) 0
  { state := .live, sz := sz, nin := n, r := c.rcnt.toNat, d := d, size := size
    parent := if c.parent = 0x1F then none else some c.parent.toNat }

/-- What stands against a match (R278), in order. -/
def State.matchFault (s : State) (c : MatchCmd) : Option (BitVec 12 × Word) :=
  let m := c.map.toNat
  let p := c.parent.toNat
  let at_ := fun (k : Nat) => BitVec.ofNat 64 k
  if (s.tackMap m).state = .lost then some (0x161, at_ m)
  else if (s.tackMap m).state ≠ .free || m = p then some (0x160, at_ m)
  else if c.parent = 0x1F then none
  else if (s.tackMap p).state = .lost then some (0x161, at_ p)
  else if (s.tackMap p).state = .free || c.n.toNat + 1 ≠ (s.tackMap p).nout then some (0x160, at_ p)
  else none

/-- The scores of an even token against every odd one (R278). -/
def matchToken (f : Fmt) (keys : List (Nat × List Nat)) (i : Nat) : (Int × Nat) × Flags :=
  let key := fun (t : Nat) => match lfind (fun p => p.1 = t) keys with | some p => p.2 | none => []
  let odd := (keys.map Prod.fst).filter fun t => t % 2 = 1
  let (ni, fi) := dotFp32 f (key i) (key i)
  let res := odd.map fun j =>
    let (nj, fj) := dotFp32 f (key j) (key j)
    let (d, fd) := dotFp32 f (key i) (key j)
    ((scoreRank (scoreOf d ni nj), j), fj ||| fd)
  let nan := keys.any fun p => p.2.any fun b => (f.decode false b).isNan
  (bestOf (res.map Prod.fst), raiseIf nan Flag.nv ||| res.foldl (fun x p => x ||| p.2) fi)

/-- TK_MATCH (R278): one even token a step, then the map. -/
def execTkMatch (c : MatchCmd) (s : State) : Out :=
  match s.resumeTk (.tkMatch c) with
  | none => .next s
  | some (r, s) =>
    let n := c.n.toNat + 1
    let i := 2 * r.work.i
    let r := { r with upc := microPc 0 0 i 0 }
    match s.matchFault c with
    | some (code, v) => .next (s.faultNow .tk r code v)
    | none =>
      if i ≥ n then
        let sz := if c.parent = 0x1F then List.replicate n 1 else (s.tackMap c.parent.toNat).size
        let scores := r.work.got.map fun p => (p.2.toInt, p.1)
        .next ((s.setTackMap c.map.toNat (builtMap c sz r.work.counts scores)).complete .tk r)
      else
        match s.readKeys c r (i :: (List.range n).filter fun t => t % 2 = 1) [] with
        | .inr (code, v) => .next (s.faultAt .tk r code v)
        | .inl (keys, r, s) =>
          let f := match fmtOfCode c.kfmt with | some f => f | none => Fmt.fp32
          let ((rank, best), fl) := matchToken f keys i
          .next (s.setRun .tk { r.raise fl with work := { r.work with
            i := r.work.i + 1, counts := nset r.work.counts i best, got := nset r.work.got i (BitVec.ofInt 64 rank) } })

/-! ### `tk.merge` (R279) -/

/-- The weighted average of one element over tokens, as size and bits (R279). -/
def averageOf (f : Fmt) (size : Nat) (xs : List (Nat × Nat)) : Nat × Flags :=
  let vs := xs.map fun p => (p.1, f.decode false p.2)
  if vs.any fun p => p.2.isNan then (f.nan, raiseIf (vs.any fun p => p.2.isSnan) Flag.nv)
  else
    let terms := vs.map fun p =>
      match p.2 with
      | .fin n m e => Val.fin n (p.1 * m) e
      | v => v
    match sumOf false terms with
    | none => f.invalid
    | some (.fin n m e) =>
      let (b, fl) := f.deliver {} { val := .fin n (m * 2 ^ 100 / size) (e - 100), sticky := m * 2 ^ 100 % size ≠ 0 }
      (b, fl &&& (Flag.nx ||| Flag.uf))
    | some (.inf n) => (f.inf n, 0)
    | some v => ((f.convert {} v).1, 0)

/-- Elements of a row, their bytes, the stride of a merge or untack. -/
def tkElems (c : TkRowsCmd) : Nat := c.f.toNat + 1
/-- Element size. -/
def tkEs (c : TkRowsCmd) : Nat := widthOfCode c.fmt / 8
/-- Row stride. -/
def tkStride (c : TkRowsCmd) : Nat := match c.rstride with | some v => v.toNat | none => tkElems c * tkEs c

/-- Reads the rows of a list of tokens of a merge. -/
def State.readRows (s : State) (c : TkRowsCmd) (r : Run) : List Nat → List (List Nat) → Sum (List (List Nat) × Run × State) (BitVec 12 × Word)
  | [], acc => .inl (acc, r, s)
  | t :: ts, acc =>
    match s.readElems r (c.ext.base.toNat + t * tkStride c) (tkEs c) (tkElems c) with
    | .fault code v => .inr (code, v)
    | .row es r s => s.readRows c r ts (acc ++ [es])

/-- Writes the rows that a command holds back to its extent, one a step (R279, R281): `work.j` counts them. -/
def State.writeBack (s : State) (c : TkRowsCmd) (r : Run) (row : Nat → List Word) (rows : Nat) : State :=
  if r.work.j ≥ rows then s.complete .tk r
  else
    let r := { r with upc := microPc 0 0 r.work.j 0 }
    match s.writeElems r (c.ext.base.toNat + r.work.j * tkStride c) (tkEs c) (row r.work.j) with
    | .fault code v => s.faultAt .tk r code v
    | .done s => s.setRun .tk { r with work := { r.work with j := r.work.j + 1 } }

/-- One output row of a merge (R279). -/
def State.mergeRow (s : State) (c : TkRowsCmd) (r : Run) (m : TackMap) : State :=
  let u := r.work.i
  let r := { r with upc := microPc 0 0 u 0 }
  let ts := (List.range m.nin).filter fun t => lget 0 m.d t = u
  match s.readRows c r ts [] with
  | .inr (code, v) => s.faultAt .tk r code v
  | .inl (rows, r, s) =>
    let f := match fmtOfCode c.fmt with | some f => f | none => Fmt.fp32
    let res := (List.range (tkElems c)).map fun e =>
      averageOf f (lget 1 m.size u) ((ts.zip rows).map fun p => (lget 1 m.sz p.1, lget 0 p.2 e))
    s.setRun .tk { r.raise (res.foldl (fun x p => x ||| p.2) 0) with work := { r.work with
      i := u + 1, held := r.work.held ++ res.map fun p => BitVec.ofNat 64 p.1 } }

/-- TK_MERGE (R279): the rows in order, delivered as they come or written back once all are computed. -/
def execTkMerge (c : TkRowsCmd) (s : State) : Out :=
  match s.resumeTk (.tkMerge c) with
  | none => .next s
  | some (r, s) =>
    let m := s.tackMap c.map.toNat
    match s.mapFault c.map.toNat, shortAt c.ext m.nin (tkElems c) (tkEs c) (tkStride c) with
    | some (code, v), _ => .next (s.faultNow .tk r code v)
    | none, some v => .next (s.faultAt .tk r 0x105 v)
    | none, none =>
      let past := r.work.i ≥ m.nout
      if c.pmode && (past || r.work.held.length ≥ fullPacket (tkEs c)) then
        .next (s.tkSend r c.port c.sid (tkEs c) past)
      else if past then
        .next (s.writeBack c r (fun u => (r.work.held.drop (u * tkElems c)).take (tkElems c)) m.nout)
      else .next (s.mergeRow c r m)

/-! ### `tk.bias` (R280) -/

/-- ln of a size, rounded to a format: +0 for 1, else inexact. -/
def biasOf (fmt : BitVec 4) (n : Nat) : Word × Flags :=
  match fmtOfCode fmt with
  | some f => if n ≤ 1 then (0, 0) else (BitVec.ofNat 64 (f.logOf n), Flag.nx)
  | none => (0, 0)

/-- TK_BIAS (R280): the values of all output tokens, delivered at a port or written packed. -/
def execTkBias (c : BiasCmd) (s : State) : Out :=
  match s.resumeTk (.tkBias c) with
  | none => .next s
  | some (r, s) =>
    let m := s.tackMap c.map.toNat
    let es := widthOfCode c.fmt / 8
    let short := match c.ext with | some x => shortAt x m.nout 1 es es | none => none
    match s.mapFault c.map.toNat, short with
    | some (code, v), _ => .next (s.faultNow .tk r code v)
    | none, some v => .next (s.faultAt .tk r 0x105 v)
    | none, none =>
      if !r.work.complete then
        let vs := (List.range m.nout).map fun u => biasOf c.fmt (lget 1 m.size u)
        .next (s.setRun .tk { r.raise (vs.foldl (fun x p => x ||| p.2) 0) with
          work := { r.work with complete := true, held := vs.map Prod.fst } })
      else
        match c.ext with
        | none => .next (s.tkSend r c.port c.sid es true)
        | some x =>
          match s.writeElems r x.base.toNat es r.work.held with
          | .fault code v => .next (s.faultAt .tk r code v)
          | .done s => .next (s.complete .tk r)

/-! ### `tk.untack` (R281) -/

/-- The map that a chain of parents reaches and the row of each of its input tokens, or the fault on the way (R281). -/
def State.untackRows (s : State) : Nat → TackMap → List Nat → Sum (List Nat) (BitVec 12 × Word)
  | 0, _, rows => .inl rows
  | fuel + 1, m, rows =>
    match m.parent with
    | none => .inl rows
    | some p =>
      match s.mapFault p with
      | some f => .inr f
      | none =>
        let q := s.tackMap p
        s.untackRows fuel q ((List.range q.nin).map fun t => lget 0 rows (lget 0 q.d t))

/-- One input row of an untack read whole. -/
def State.untackRead (s : State) (c : TkRowsCmd) (r : Run) : State :=
  let r := { r with upc := microPc 0 0 r.work.i 0 }
  match s.readElems r (c.ext.base.toNat + r.work.i * tkStride c) (tkEs c) (tkElems c) with
  | .fault code v => s.faultAt .tk r code v
  | .row es r s => s.setRun .tk { r with work := { r.work with
      i := r.work.i + 1, got := es.zip (List.range es.length) |>.foldl (fun g p =>
        nset g (r.work.i * tkElems c + p.2) (BitVec.ofNat 64 p.1)) r.work.got } }

/-- Sends the rows of an untack at its port as one run of elements: `work.k` rows have joined those held (R277, R281). -/
def State.untackSend (s : State) (c : TkRowsCmd) (r : Run) (rows : List Nat) : State :=
  if r.work.k < rows.length && r.work.held.length < fullPacket (tkEs c) then
    let row := lget 0 rows r.work.k
    let es := (List.range (tkElems c)).map fun e => nget 0 r.work.got (row * tkElems c + e)
    s.setRun .tk { r with work := { r.work with k := r.work.k + 1, held := r.work.held ++ es } }
  else s.tkSend r c.port c.sid (tkEs c) (r.work.k ≥ rows.length)

/-- TK_UNTACK (R281): every row of the map's output is read, then the rows are placed. The chain is composed as the command starts, and `owns`
keeps it, so that a cut that makes its parents LOST leaves the command its result (R286). -/
def execTkUntack (c : TkRowsCmd) (s : State) : Out :=
  match s.resumeTk (.tkUntack c) with
  | none => .next s
  | some (r, s) =>
    let m := s.tackMap c.map.toNat
    match s.mapFault c.map.toNat with
    | some (code, v) => .next (s.faultNow .tk r code v)
    | none =>
      match if !c.chain then .inl m.d else if r.work.checked then .inl r.work.owns else s.untackRows 16 m m.d with
      | .inr (code, v) => .next (s.faultAt .tk r code v)
      | .inl rows =>
        let r := { r with work := { r.work with checked := true, owns := rows } }
        let span := if c.pmode then m.nout else max m.nout rows.length
        match shortAt c.ext span (tkElems c) (tkEs c) (tkStride c) with
        | some v => .next (s.faultAt .tk r 0x105 v)
        | none =>
          if r.work.i < m.nout then .next (s.untackRead c r)
          else if c.pmode then .next (s.untackSend c r rows)
          else
            .next (s.writeBack c r
              (fun t => (List.range (tkElems c)).map fun e => nget 0 r.work.got (lget 0 rows t * tkElems c + e)) rows.length)

/-! ### `tk.keep` and `tk.free` (R282) -/

/-- TK_KEEP (R276, R282). -/
def execTkKeep (map : BitVec 4) (s : State) : Out :=
  match s.resumeTk (.tkKeep map) with
  | none => .next s
  | some (r, s) =>
    match s.mapFault map.toNat with
    | some (code, v) => .next (s.faultNow .tk r code v)
    | none => .next ((s.setTackMap map.toNat { s.tackMap map.toNat with state := .kept }).complete .tk r)

/-- Whether a map is the parent of a LIVE or KEPT map (R282). -/
def Tile.isParent (t : Tile) (m : Nat) : Bool :=
  t.maps.any fun p => (p.2.state = .live || p.2.state = .kept) && p.2.parent = some m

/-- TK_FREE (R276, R282). -/
def execTkFree (map : BitVec 4) (s : State) : Out :=
  match s.resumeTk (.tkFree map) with
  | none => .next s
  | some (r, s) =>
    if (s.tileAt s.tile).isParent map.toNat then .next (s.faultAt .tk r 0x160 (BitVec.ofNat 64 map.toNat))
    else .next ((s.setTackMap map.toNat {}).complete .tk r)

end Sys2Proof.Machine
end

