-- ==== Sys2Proof/Machine/Cut.lean ====
section
/-! DEFINITION. The whistle cut (R314-R316), the save of a region (R317, R318, R360), its restore (R320) and its launch (R352,
R319). -/

namespace Sys2Proof.Machine

open Sys2Proof

/-! ### Markers in a cut (R315) -/

/-- Packets less the WHISTLE markers. -/
def unwhistled (ps : List Packet) : List Packet := ps.filter (·.marker ≠ some .whistle)

/-- A tile without WHISTLE markers, its snapshots and its cut over (R316, R320 step 3). -/
def Tile.unwhistle (t : Tile) : Tile :=
  { t with
    cut := .none
    points := t.points.map fun p => (p.1, { p.2 with buf := unwhistled p.2.buf })
    dfa := { t.dfa with
      links := t.dfa.links.map fun p => (p.1, { p.2 with transit := unwhistled p.2.transit, arrived := unwhistled p.2.arrived })
      groups := t.dfa.groups.map fun p => (p.1, { p.2 with cut := false }) }
    engines := t.engines.map fun p => (p.1, { p.2 with
      runs := p.2.runs.map fun r => match r.instr with
        | .seRec _ => { r with work := { r.work with stopping := false } }
        | _ => r }) }

/-- The ports that an AE command places a marker into. -/
def markerPorts : Instr → BitVec 8
  | .aeEnd im => im
  | .aeEndFlush im => im
  | .aeEndStart im => im
  | _ => 0

/-- The commands that an engine's queue holds whole. -/
def EngineSt.queued (g : EngineSt) (e : Engine) : List Instr :=
  ((g.queue.map (·.cmd)).eraseDups).filterMap fun c =>
    decodeCmd e ((g.queue.filter fun w => w.cmd = c && w.word.op ≠ 0xFF).map (·.word))

/-- Whether an AE command in progress or in the queue will place a marker into an input port; a FAULTED AE places none. -/
def Tile.markerAhead (t : Tile) (p : Nat) : Bool :=
  let g := t.engine .ae
  g.fault.isNone && ((g.runs.map (·.instr)) ++ g.queued .ae).any fun i => (markerPorts i).getLsbD p

/-- Whether no command holds the delivery point of an input port, or one of an engine that stands FAULTED, which brings no END before the
cut (R312, R315). -/
def State.holderIdle (s : State) (tile p : Nat) : Bool :=
  match (s.point tile p).holder with
  | none => true
  | some h => s.tiles.any fun t => t.2.engines.any fun g => g.2.fault.isSome && (g.2.run? h).isSome

/-- The AE places WHISTLE at once into every bound input port that no stream delivers to and no AE command ahead will place a
marker into (R315). -/
def State.placeWhistles (s : State) (tile : Nat) : State :=
  (rangeFrom 0 8).foldl (fun s p =>
    let t := s.tileAt tile
    if t.dfa.status = .loaded && (s.portSt tile p).bound && !t.portWhistled p && s.holderIdle tile p
        && !t.markerAhead p then s.putWhistle tile p
    else s) s

/-! ### Blowing the whistle (R314, R360) -/

/-- Whether something holds the whistle for a region (R314): an `ae.cfg` that has not failed (R319), a `contract` in expansion, an
`ecall` in service. -/
def State.whistleHolds (s : State) (r : Region) : Bool :=
  (s.ctxs.any fun p => regionOfKey p.1 = r.id && !isFirmware p.1 && p.2.life = .live
    && (p.2.expanding.isSome || p.2.waiting = some .ecallExit))
  || r.place.any fun p =>
    let g := (s.tileAt p.2).engine .ae
    g.fault.isNone && g.runs.any fun q => match q.instr with | .aeCfg _ _ => true | _ => false

/-- The address at which the next instruction of the acting context would meet RACE (R304). -/
def State.raceNext (s : State) : Option Word :=
  match s.coreMove with
  | .run i s =>
    let read := fun (addr : Word) (n : Nat) (marked : Bool) => if s.checkLoad addr n marked = .trap 0x201 then some addr else none
    let write := fun (addr : Word) (n : Nat) (marked : Bool) => if s.checkStore addr n marked = .trap 0x201 then some addr else none
    let syw := fun (addr : Word) (w : Bool) => if s.checkSyw addr w = .trap 0x201 then some addr else none
    let block := fun (addr : Word) (align n : Nat) =>
      match s.readAligned addr align n with | .trap c v => if c = 0x201 then some v else none | .words _ _ => none
    match i with
    | .load op _ rs1 imm => read (s.reg rs1 + imm12 imm) (loadBytes op) false
    | .store op rs1 _ imm => write (s.reg rs1 + imm12 imm) (storeBytes op) false
    | .sywArm rs1 rs2 => if armable (s.reg rs2) then syw (s.reg rs1) true else none
    | .sywWait _ rs1 _ _ => syw (s.reg rs1) false
    | .fork _ rs1 rs2 => if (s.reg rs2).toNat < 128 then block (s.reg rs1) 16 (2 + 2 * (maskedEngines (s.reg rs2)).length) else none
    | .contract _ rs1 => if s.slot = 2 then none else block (s.reg rs1) 64 32
    | .flgGather _ _ rs2 => if s.slot = 2 || (s.gatherBegun).isSome then none else block (s.reg rs2) 16 4
    | i =>
      match orderedAccess i with
      | some (true, n, rs1, off) => write (s.reg rs1 + off.signExtend 64) n true
      | some (false, n, rs1, off) => read (s.reg rs1 + off.signExtend 64) n true
      | none => none
  | _ => none

/-- Stops the context of a slot at its instruction boundary (R88, R314 step 1). What stands before the whistle there comes first: a
posted engine fault, a RACE of the next instruction (R309). What it holds back is performed with the save (R301); a waiting
instruction runs again. -/
def State.stopSlot (s : State) (i : Nat) : State :=
  let e := nget {} s.roster i
  let t : State := { s with tile := i / 2, slot := i % 2 }
  if e.state ≠ .draining || e.before ≠ .running || t.ctx.life ≠ .live then s
  else
    let t :=
      if t.faultDue then t.deliverFault
      else match t.raceNext with
        | some addr => t.performStores.trap 0x201 addr
        | none => t
    let t := t.performStores
    let t := t.setCtx { t.ctx with waiting := none, walk := none, gatherNow := none }
    { t with tile := s.tile, slot := s.slot }

/-- Starts the cut on every tile of a DRAINING region that nothing holds; a tile whose partition is frozen starts its own once its clock
runs again (R323). A LOADING region has no unit to cut (R319). -/
def State.tryCut (s : State) (rid : Nat) : State :=
  match nget? s.regions rid with
  | none => s
  | some r =>
    let begun := r.place.any fun p => (s.tileAt p.2).cut ≠ .none
    let tiles := (r.place.map Prod.snd).filter fun t => (s.tileAt t).cut = .none && (s.tileAt t).part ≠ .gated
    if r.state ≠ .draining || (!begun && s.whistleHolds r) then s
    else
      tiles.foldl (fun s t => (s.setTile t { s.tileAt t with cut := .blown }).placeWhistles t)
        ((r.slots.filter fun i => tiles.contains (i / 2)).foldl State.stopSlot s)

/-- The slots of a region as DRAINING, each remembering what it held (R348). -/
def State.drainSlots (s : State) (r : Region) : State :=
  { s with roster := r.slots.foldl (fun m i =>
      let e := nget {} m i
      nset m i { e with before := e.state, state := .draining }) s.roster }

/-- Unmaps a region: R360 steps 1 and 2. A LOADING region's whistle is held until its load has ended (R319). -/
def State.blow (s : State) (rid : Nat) : State :=
  match nget? s.regions rid with
  | none => s
  | some r =>
    if r.abort.isSome && r.state = .running then s
    else
      match r.state with
      | .running => ((s.putRegion { r with state := .draining, saved := [] }).drainSlots r).tryCut rid
      | .loading => s.setRegion { r with whistleHeld := true }
      | _ => s

/-! ### Abandoning a cut (R316, R360) -/

/-- The slots of a region as they were before they drained. -/
def State.undrainSlots (s : State) (r : Region) : State :=
  { s with roster := r.slots.foldl (fun m i =>
      let e := nget {} m i
      if e.state = .draining || e.state = .saved then nset m i { e with state := e.before, before := .free } else m) s.roster }

/-- Every unit of a region resumes where it stopped; WAKEP clears, and a wake request is posted for each descriptor that
tests true. -/
def State.abandon (s : State) (r : Region) (dst : RcbState) : State :=
  let s := r.place.foldl (fun s p => s.setTile p.2 (s.tileAt p.2).unwhistle) s
  let s := s.undrainSlots r
  (s.putRegion { r with state := dst, wakep := false, saved := [], frozenSave := false }).testWakes

/-! ### Saving (R317, R318, R360) -/

/-- The maps that a TK command names. -/
def namedMaps : Instr → List Nat
  | .tkMatch c => [c.map.toNat, c.parent.toNat]
  | .tkMerge c => [c.map.toNat]
  | .tkUntack c => [c.map.toNat]
  | .tkBias c => [c.map.toNat]
  | .tkKeep m => [m.toNat]
  | .tkFree m => [m.toNat]
  | _ => []

/-- The tack maps as a save keeps them (R30, R286): a LIVE map that the command in progress does not name is LOST. -/
def Tile.savedMaps (t : Tile) : NMap TackMap :=
  let named := (t.engine .tk).runs.flatMap fun r => namedMaps r.instr
  t.maps.map fun p => if p.2.state = .live && !named.contains p.1 then (p.1, { state := .lost }) else p

/-- Whether WHISTLE stands on a data input of a group: in its link, behind what may be channel state, or in the port that feeds it (R315). -/
def Tile.inputWhistled (t : Tile) (k : Nat) : Bool :=
  match nget? t.dfa.links k with
  | some l => (l.arrived ++ l.transit).any (·.marker = some .whistle) || (l.src ≥ 0x20 && t.portWhistled l.pointOfSrc)
  | none => true

/-- Whether WHISTLE has reached the write stream at an output port, if a group feeds one there. -/
def Tile.outputCut (t : Tile) (p : Nat) : Bool :=
  let pt := nget {} t.points p
  pt.taker.isNone || !(t.dfa.links.any fun l => l.2.dst.toNat = 0x20 + p)
    || (match pt.buf with | k :: _ => k.marker = some .whistle | [] => false)

/-- Whether the DFA of a tile has cut (R315): every group its snapshot taken and WHISTLE on each of its data inputs, every write stream and
`se.rec` met by WHISTLE. A group's fault holds the array where it stands, and a FAULTED SE its streams (R167, R312). -/
def Tile.dfaCut (t : Tile) : Bool :=
  let groups := t.dfa.groups.all fun g =>
    g.2.cut && ((t.dfa.inputs (t.dfa.groupOps g.1)).filter fun k => !t.dfa.inner g.1 k).all t.inputWhistled
  let recs := (t.engine .se).runs.all fun r => match r.instr with
    | .seRec c => r.work.stopping || !(8 ≤ c.src && c.src ≤ 15)
    | _ => true
  t.dfa.status ≠ .loaded || (t.engine .ae).groupFault
    || (t.allWhistled && groups && ((t.engine .se).fault.isSome || (recs && (rangeFrom 8 8).all t.outputCut)))

/-- Whether an engine's requests have come back, but those of the command that faulted and those that meet a fault of their own behind it,
which its retry makes again (R134, R146, R311, R312). -/
def EngineSt.requestsBack (g : EngineSt) : Bool :=
  g.runs.all fun r => (g.fault.isSome && g.faultRun = some r.id) || r.work.reqs.all fun q => q.returned || q.stuck

/-- Whether every unit of a tile has cut (R314): the DFA by R315, the ME at a boundary with both banks FREE (R227) or FAULTED as it stands
(R312), every request back, no gather in flight at an NE that runs (R256), no posted read outstanding. -/
def State.tileCut (s : State) (tile : Nat) : Bool :=
  let t := s.tileAt tile
  let ne := t.engine .ne
  t.cut = .blown && (!t.meBusy || (t.engine .me).fault.isSome) && t.dfaCut && (t.engines.all fun p => p.2.requestsBack)
    && (ne.fault.isSome || ne.runs.all fun r => match r.instr with | .neGath _ => r.work.counts.isEmpty | _ => true)
    && !(s.xrds.any fun x => x.tile = tile)

/-- The units of a tile as the save area holds them: no WHISTLE, extent tables without frames (R317); what barriers have released
returns with the restore's own acquire (R301). -/
def Tile.forSave (t : Tile) : Tile :=
  let u := { t.closeRuns.unwhistle with
    maps := t.savedMaps, tlb := [], walkCache := [], fwshare := 0, part := .runs, clockGated := false
    barriers := t.barriers.map fun (b : Nat × Barrier) => (b.1, { b.2 with rels := [] }) }
  { u with engines := u.engines.map fun (p : Nat × EngineSt) =>
      (p.1, { p.2 with extents := p.2.extents.map fun x => (x.1, { x.2 with frames := [] }) }) }

/-- The memories of a tile as its save area takes them (R317): the scratchpad image and the L2 share; the address of the first store that
meets no translation. -/
def State.saveMemories (s : State) (r : Region) (tile rank : Nat) : State × Option Nat :=
  match s.saveRange r.space (scratchKey tile 0) (r.tileArea rank + 0x200000) (2 ^ 20) with
  | (s, some va) => (s, some va)
  | (s, none) => s.saveRange r.space (shareRange tile).1 (r.l2Area rank) 655360

/-- The memories of a tile whose state was written before, once more as the whole save ends. -/
def State.saveMemory (s : State) (r : Region) (tile rank : Nat) : State := (s.saveMemories r tile rank).1

/-- What stays with a physical tile when a region leaves it. -/
def Tile.bare (t : Tile) : Tile :=
  { tlb := t.tlb, walkCache := t.walkCache, fwshare := t.fwshare, part := t.part, clockGated := t.clockGated }

/-- Saved units on a physical tile. -/
def Tile.onto (saved phys : Tile) : Tile :=
  { saved with
    tlb := phys.tlb, walkCache := phys.walkCache, fwshare := phys.fwshare, part := phys.part, clockGated := phys.clockGated }

/-- The routers' state of a region's round as the collective area keeps it (R256, R317): participants by logical rank, combinations by
logical cluster; what stands at a router of none of the region's clusters is kept at that of its lowest participant (log entry 80). -/
def Round.forSave (q : Round) (place : NMap Nat) : Round :=
  let rank := fun (t : Nat) => match lfind (fun p : Nat × Nat => p.2 = t) place with | some p => p.1 | none => t
  let least := match q.members with | m :: ms => ms.foldl (fun x n => min x (rank n.1)) (rank m.1) | [] => 0
  let cluster := fun (c : Nat) => match lfind (fun p : Nat × Nat => p.2 / 24 = c) place with | some p => p.1 / 24 | none => least / 24
  { q with
    members := q.members.map fun m => (rank m.1, m.2)
    parts := q.parts.map fun p => { p with router := cluster p.router }
    rels := [] }

/-- Releases that a context keeps, their tiles renamed. -/
def Context.renamed (c : Context) (f : Nat → Nat) : Context :=
  let g := fun (r : Rel) => { r with tile := f r.tile }
  { c with relFences := c.relFences.map g, acquired := c.acquired.map g }

/-- What a saved release names in place of the physical tile of a region's logical tile (R3). -/
def logicalTile (place : NMap Nat) (t : Nat) : Nat :=
  match lfind (fun p : Nat × Nat => p.2 = t) place with | some p => 2 ^ 20 + p.1 | none => t

/-- The physical tile of a saved release's name, on the region's new tiles. -/
def placedTile (place : NMap Nat) (t : Nat) : Nat := if t < 2 ^ 20 then t else nget t place (t - 2 ^ 20)

/-- A context's block of a tile area (R317): x1 to x31, pc, instret, and the CSRs that software reads and writes, each a doubleword. -/
def State.contextBlock (s : State) (key : Nat) : List Byte :=
  let c := s.ctxOf key
  let csrs : List Word := [c.flags, c.tvec, c.epc, c.trap, c.tval, c.empc]
  (((List.range 31).map fun i => nget 0 c.x (i + 1)) ++ [c.pc, c.instret] ++ csrs).flatMap fun w => leBytes 8 w.toNat

/-- The flags of a context in a tile header (R317): frozen, `trapactive`, resolving, park-now, a fault pending, a gather pending. -/
def Context.saveFlags (c : Context) : Nat :=
  let b := fun (x : Bool) (n : Nat) => if x then 2 ^ n else 0
  b c.frozen 0 + b c.trapactive 1 + b c.resolving.isSome 2 + b c.parkNow 3 + b (!c.pending.isEmpty) 4 + b c.gather.isSome 5

/-- A tile header (R317): layout version and logical tile, save sequence number, the section of the cut for each engine, and for each
context its flags, the pc of its pending gather and that gather's section of the NE; each a doubleword (log entry 46). -/
def State.tileHeader (s : State) (r : Region) (tile rank : Nat) : List Byte :=
  let flags := [s.ctxOf (s.keyAt tile 0), s.ctxOf (s.keyAt tile 1)].flatMap fun c =>
    match c.gather with
    | some (pc, n) => [c.saveFlags, pc.toNat, n.toNat]
    | none => [c.saveFlags, 0, 0]
  ([rank * 256 + 1, r.saveSeq + 1] ++ (allEngines.map fun e => (((s.tileAt tile).engine e).running).toNat) ++ flags).flatMap (leBytes 8)

/-- A round of a restored region on its new tiles (R320 step 5). -/
def Round.restored (q : Round) (place : NMap Nat) : Round :=
  let cluster := fun (c : Nat) => match lfind (fun p : Nat × Nat => p.1 / 24 = c) place with | some p => p.2 / 24 | none => c
  { q with
    members := q.members.map fun m => (nget m.1 place m.1, m.2)
    parts := q.parts.map fun p => { p with router := cluster p.router } }

/-- The collective area of a region's rounds (R317): 320 KiB for each router that holds state of theirs, from the FMC's own reserve. -/
def State.takeCollective (s : State) (rounds : List Round) : (Nat × Nat) × State :=
  let n := ((rounds.flatMap fun q => q.parts.map (·.router)).eraseDups).length * 327680
  if n = 0 then ((0, 0), s)
  else match s.takeFrames n with | some (a, t) => ((a, n), t) | none => ((0, 0), s)

/-- R360 steps 3 and 4, once every tile has written its state: the memories as they stand now, with what has reached a tile since its own
save (R339), and the region header are written, the routers' state goes to the collective
area, descriptors to the firmware list, the slots become FREE, the RCB SAVED; then WAKEP is read. -/
def State.finishSave (s : State) (r : Region) : State :=
  let s := if r.started then r.place.foldl (fun s p => s.saveMemory r p.2 p.1) s else s
  let saved := if r.started then r.place.map fun p => ({ rank := p.1, tile := (s.tileAt p.2).forSave } : SavedTile) else []
  let slots := r.slots.zip (List.range r.slots.length)
  let firmware := r.slots.foldl (fun m i =>
    match nget? s.wake i with | some d => nset m (s.keyAt (i / 2) (i % 2)) d | none => m) s.fmc.firmware
  let kept := slots.map fun p => let e := nget {} s.roster p.1; (p.2, { e with state := e.before, before := .free })
  let rounds := (s.rounds.filter (·.region = r.id)).map fun q => q.forSave r.place
  let clock := s.regionClock r
  let s := { s with
    fmc := { s.fmc with firmware := firmware }
    roster := r.slots.foldl nerase s.roster
    wake := r.slots.foldl nerase s.wake
    rounds := s.rounds.filter (·.region ≠ r.id)
    ctxs := s.ctxs.map fun (p : Nat × Context) =>
      if regionOfKey p.1 = r.id && !isFirmware p.1 then
        (p.1, { p.2.renamed (logicalTile r.place) with clock := p.2.clock.release (ctxAgent p.1) })
      else p }
  let s := r.place.foldl (fun s p => s.setTile p.2 (s.tileAt p.2).bare) s
  let (coll, s) := s.takeCollective rounds
  let s := if r.started then s.vaPut r.space r.savea.toNat
      ([r.saveSeq + 1, r.words.nclus.toNat * 2 ^ 32 + r.words.ntile.toNat, coll.1, coll.2].flatMap (leBytes 8)) else s
  let idle := r.started && s.isIdle r.id
  let r := { r with
    state := .saved, place := [], leftTiles := r.place.length, saved := [], saveSeq := if r.started then r.saveSeq + 1 else r.saveSeq
    savedTiles := saved, savedRounds := rounds, savedSlots := if r.started then kept else [], saveSeen := clock, collArea := coll
    frozenSave := false, whistleHeld := false }
  s.putRegion { r with wakep := false, holdIdle := !r.wakep && idle, rewake := r.wakep }

/-- Repairs the mapping of a save-area page after a double fault (R318 step 3): a page that is not mapped is mapped again, a frame that
failed is retired and replaced (R322). -/
def State.repairArea (s : State) (r : Region) (va : Nat) : State :=
  match s.vaKey r.space va with
  | some k => s.beginRetire (k / 65536) none
  | none => (s.mapPage r.space (va / 2 ^ 21 * 2 ^ 21) 21 true none true).getD s

/-- A save-area store fails (R318): the save is abandoned, the units stay at their cut, the FMC reports it and repairs the mapping; the
tile is saved again later. -/
def State.doubleFault (s : State) (r : Region) (tile va : Nat) : State :=
  let s := s.setRegion { r with frozenSave := true }
  (s.event r.id 0x305 ((s.lxTile tile 3).setWidth 32) (BitVec.ofNat 64 va) true).repairArea r va

/-- Whether pages of a region's save area are being moved (R318 step 3). -/
def State.areaMoves (s : State) (r : Region) : Bool :=
  s.fmc.unmaps.any fun u => u.space = r.space && r.savea.toNat ≤ u.va && u.va < r.savea.toNat + r.words.savePages * 2 ^ 21

/-- The save hardware writes a tile's area (R317): the memories, the tile header, the blocks of the contexts; the address of the first
store that meets no translation. -/
def State.saveTile (s : State) (r : Region) (tile rank : Nat) : State × Option Nat :=
  match s.saveMemories r tile rank with
  | (s, some va) => (s, some va)
  | (s, none) =>
    let area := r.tileArea rank
    let s := s.vaPut r.space area (s.tileHeader r tile rank)
    let s := s.vaPut r.space (area + 0x1000) (s.contextBlock (s.keyAt tile 0))
    (s.vaPut r.space (area + 0x1800) (s.contextBlock (s.keyAt tile 1)), none)

/-- TILE_SAVE: a cut that was held starts once nothing holds it; a tile whose units have all cut writes its state (R317). A store that
meets no translation, or an uncorrectable error where the choice says so, is a double fault (R318). The last tile ends the save
(R360). -/
def execTileSave (tile : Nat) (s : State) : Out :=
  match s.regionAt tile with
  | none => .next s
  | some r =>
    if r.state ≠ .draining then .next s
    else if !r.started then .next (s.finishSave r)
    else if (s.tileAt tile).cut = .none then .next (s.tryCut r.id)
    else
      let s := s.placeWhistles tile
      if !s.tileCut tile || (s.tileAt tile).part = .gated || s.areaMoves r then .next s
      else
        let rank := s.rankAt tile
        let (n, s) := s.choose
        if n ≠ 0 then .next (s.doubleFault r tile (r.tileArea rank + (n - 1) % 3145728))
        else
          match s.saveTile r tile rank with
          | (s, some va) => .next (s.doubleFault r tile va)
          | (s, none) =>
            let s := s.setTile tile { s.tileAt tile with cut := .saved }
            let s := { s with roster := [2 * tile, 2 * tile + 1].foldl (fun m i => nmod {} m i fun e => { e with state := .saved }) s.roster }
            let r := { r with saved := if r.saved.contains rank then r.saved else r.saved ++ [rank] }
            if r.saved.length = r.place.length then .next (s.finishSave r) else .next (s.setRegion r)

/-! ### Launch (R352, R319) -/

/-- The coordinates of a logical rank in the fields of a scratchpad address (R33, R83). -/
def spaFields (rank : Nat) : Nat := rank / 24 / 48 * 2 ^ 46 + rank / 24 % 48 * 2 ^ 40 + rank % 24 * 2 ^ 35

/-- The value of a relocation in the copy of a logical tile (R73, R82, R83). -/
def Reloc.resolved (q : Reloc) (rank base : Nat) (extents : List Nat) : Nat :=
  match q.kind with
  | .code => base + q.value
  | .extent i => lget 0 extents i + q.value
  | .spa => q.value / 2 ^ 56 * 2 ^ 56 + spaFields rank + q.value % 2 ^ 35

/-- A word with a relocation's field filled. -/
def RelocPart.into (p : RelocPart) (w v : Nat) : Nat :=
  w - w / 2 ^ p.lo % 2 ^ p.width * 2 ^ p.lo + (v + p.add) / 2 ^ p.shift % 2 ^ p.width * 2 ^ p.lo

/-- Fills one field of text: the bytes that it holds. -/
def RelocPart.inText (p : RelocPart) (m : List Host.Cell) (v : Nat) : List Host.Cell :=
  let w := p.into (leNat ((List.range 8).map fun i => nget 0 m (p.offset + i))) v
  m.map fun c => if p.offset ≤ c.1 && c.1 < p.offset + 8 then (c.1, BitVec.ofNat 8 (w / 256 ^ (c.1 - p.offset))) else c

/-- A tile's data with its relocations applied (R82, R83). -/
def ImageTile.dataAt (t : ImageTile) (base : Nat) (extents : List Nat) : List Host.Cell :=
  (t.relocs.filter fun q => !q.text).foldl (fun m q =>
    q.parts.foldl (fun m p => memPutNat m p.offset 8 (p.into (memNat m p.offset 8) (q.resolved t.rank base extents))) m) t.data

/-- A tile's text with its relocations applied, at the addresses of the launch (R73, R82, R83). -/
def ImageTile.textAt (t : ImageTile) (base : Nat) (extents : List Nat) : List Host.Cell :=
  let m := (t.relocs.filter (·.text)).foldl (fun m q =>
    q.parts.foldl (fun m p => p.inText m (q.resolved t.rank base extents)) m) t.text
  m.map fun c => (c.1 + base, c.2)

/-- Holds every gate closed. -/
def Dfa.closeGates (d : Dfa) : Dfa := { d with ports := d.ports.map fun p => (p.1, { p.2 with gate := false }) }

/-- Sets the gate of each bound port to its initial gate bit (R352 step 4). -/
def Dfa.openGates (d : Dfa) : Dfa :=
  { d with ports := d.ports.map fun p => (p.1, { p.2 with gate := p.2.bound && p.2.initGate }) }

/-- A request reaches a tile: its clock, its island and its cluster are awake (R394). -/
def State.rouse (s : State) (tile : Nat) : State :=
  let s := s.setTile tile { s.tileAt tile with clockGated := false }
  { s with
    gatedIslands := s.gatedIslands.filter (· ≠ s.islandOf tile)
    clusters := nmod {} s.clusters (tile / 24) fun c => { c with retention := false }
    selfRefresh := false, deepIdle := false }

/-- The front end's load of one tile (R352 step 2): memory, the units at their launch values, and the launch configuration;
answers its load code. -/
def State.loadTile (s : State) (r : Region) (im : Option ImageTile) (tile : Nat) : State × BitVec 12 :=
  let s := ((s.rouse tile).wipe (scratchRange tile)).wipe (shareRange tile)
  let s := s.setTile tile (s.tileAt tile).bare
  match im with
  | none => (s, 0)
  | some im =>
    let data := im.dataAt r.textBase r.extents
    let s := { s with mem := memPut s.mem (data.map fun c => (c.1 + scratchKey tile 0, c.2)) }
    match im.cfg with
    | none => (s, 0)
    | some (off, n) =>
      match checkImage n (wordsOf (n / 8) ((rangeFrom off n).map fun o => memGet data o)) with
      | .error (c, _) => (s, c)
      | .ok ci =>
        (s.onTile tile fun s => (let s := (s.loadImage ci).1; s.setDfa (s.dfa.closeGates)), 0)

/-- Starts a context that the image names (R14, R352 step 5); what the hosts have written comes before its accesses (R301). -/
def State.startContext (s : State) (r : Region) (im : Image) (rank tile : Nat) (b : Bool) (sp : Word) : State :=
  let i := 2 * tile + (if b then 1 else 0)
  let key := r.id * 2 ^ 32 + rank * 4 + (if b then 1 else 0)
  let s := { s with roster := nset s.roster i { (nget {} s.roster i : Slot) with state := .running, hctx := b, hrank := rank } }
  let c : Context := { pc := BitVec.ofNat 64 r.textBase + im.entry, life := .live, clock := r.begun.join [(hostAgent, s.own.hostEpoch + 1)] }
  let c := ((c.setReg 2 sp).setReg 10 r.arg).setReg 11 (s.lxTile tile (if b then 1 else 0))
  s.setCtxOf key c

/-- Steps 4 and 5 of R352; the slots that hold no context are FREE. A region that an ABORT or a fault has met while it was loading starts
none (R361). -/
def State.finishLaunch (s : State) (r : Region) (im : Image) : State :=
  let s := { s with roster := r.slots.foldl (fun m i => nset m i { (nget {} m i : Slot) with state := .free }) s.roster }
  let s := r.place.foldl (fun s p => s.setTile p.2 { s.tileAt p.2 with dfa := (s.tileAt p.2).dfa.openGates }) s
  let tiles := if r.abort.isSome then [] else im.tiles.filterMap fun t => (nget? r.place t.rank).map fun p => (t, p)
  let starts := tiles.flatMap fun p =>
    (if p.1.startA then [r.id * 2 ^ 32 + p.1.rank * 4] else []) ++ (if p.1.startB then [r.id * 2 ^ 32 + p.1.rank * 4 + 1] else [])
  let text := im.tiles.foldl (fun m t => nset m t.rank (t.textAt r.textBase r.extents)) []
  let s := tiles.foldl (fun s p =>
    let s := if p.1.startA then s.startContext r im p.1.rank p.2 false p.1.spA else s
    if p.1.startB then s.startContext r im p.1.rank p.2 true p.1.spB else s) s
  let s := s.putRegion { r with state := .running, started := true, starts := starts, text := text, acks := [] }
  let s := { s with own := { s.own with hostEpoch := s.own.hostEpoch + 1 } }
  if starts.isEmpty && r.abort.isNone then { s with fmc := { s.fmc with ends := s.fmc.ends ++ [r.id] } } else s

/-- The load code of the lowest logical tile that failed (R319). -/
def Region.loadCode (r : Region) : Option (BitVec 12) := (lfind (fun p => p.2 ≠ 0) r.loadCodes).map (·.2)

/-- What a launch comes to once every tile has acknowledged (R319, R352): with a whistle held the region drains in LOADING;
else a failure ends it with its code, and a success starts its contexts. -/
def State.launchEnd (s : State) (r : Region) (im : Image) : State :=
  let s := if r.loadCode.isSome then
      r.place.foldl (fun s p => s.setTile p.2 { s.tileAt p.2 with dfa := { (s.tileAt p.2).dfa with status := .unconfigured } }) s
    else s
  if r.whistleHeld then (s.putRegion { r with state := .draining }).drainSlots r
  else
    match r.loadCode with
    | some c => (s.setRegion r).endRegion r.id c 0
    | none => s.finishLaunch r im

/-! ### Restore (R320) -/

/-- An extent's frames, found again (R320 step 4): its pages stayed mapped, whatever their PEND and MV (R317, R335, R336). -/
def State.reframe (s : State) (space : Nat) (x : ExtEntry) : ExtEntry :=
  let pages := (List.range (x.len / 65536 + 2)).filterMap fun i =>
    let va := max x.base.toNat ((x.base.toNat / 65536 + i) * 65536)
    if va < x.base.toNat + x.len then s.pageOf space va else none
  { x with frames := pages.eraseDups }

/-- Writes one saved tile onto its new physical tile (R320 steps 3 to 5); the engine faults resolved meanwhile are resolved there
(R313). -/
def State.restoreTile (s : State) (r : Region) (v : SavedTile) (tile : Nat) : State :=
  let s := s.rouse tile
  let s := s.restoreRange r.space (scratchKey tile 0) (r.tileArea v.rank + 0x200000) (2 ^ 20)
  let s := s.restoreRange r.space (shareRange tile).1 (r.l2Area v.rank) 655360
  let t := v.tile.onto (s.tileAt tile)
  let s := s.setTile tile { t with engines := t.engines.map fun p =>
    (p.1, { p.2 with extents := p.2.extents.map fun x => (x.1, if isScratchAddr x.2.base.toNat then x.2 else s.reframe x.2.space x.2) }) }
  v.resolves.foldl (fun s e => match lfind (fun x : Engine => x.id = e) allEngines with | some x => s.resolveFault tile x | none => s) s

/-- What a region's save released reaches everything that it resumes (R301): contexts, commands in progress, queued words, sections. -/
def EngineSt.acquired (g : EngineSt) (clock : Clock) : EngineSt :=
  { g with
    last := g.last.join clock, fence := g.fence.join clock, seen := g.seen.join clock
    runs := g.runs.map fun (x : Run) => { x with clock := x.clock.join clock }
    queue := g.queue.map fun w => { w with begun := w.begun.join clock }
    sects := g.sects.map fun q => { q with begun := q.begun.join clock } }

/-- The end of a restore (R320 step 6): slots and descriptors as they stood at the cut, contexts at their saved pc. The restore
acquires what the save released (R301). A region that must end is cancelled where it now stands (R361 step 1). -/
def State.finishRestore (s : State) (r : Region) : State :=
  let s := r.savedSlots.foldl (fun s p =>
    match lfind (fun x => x.2 = p.1) (r.slots.zip (List.range r.slots.length)) with
    | none => s
    | some (i, _) =>
      let e := { (nget {} s.roster i : Slot) with state := p.2.state, hctx := p.2.hctx, hrank := p.2.hrank, before := .free }
      let s := { s with roster := nset s.roster i e }
      let key := s.keyAt (i / 2) (i % 2)
      if e.state = .parked then
        match nget? s.fmc.firmware key with
        | some d => { s with wake := nset s.wake i d, fmc := { s.fmc with firmware := nerase s.fmc.firmware key } }
        | none => s
      else s) s
  let clock := r.saveSeen
  let s := { s with
    rounds := s.rounds ++ r.savedRounds.map fun (q : Round) => q.restored r.place
    ctxs := s.ctxs.map fun (p : Nat × Context) =>
      if regionOfKey p.1 = r.id && !isFirmware p.1 then
        (p.1, { p.2.renamed (placedTile r.place) with clock := p.2.clock.join clock })
      else p
    tiles := s.tiles.map fun (p : Nat × Tile) =>
      if r.place.any (fun q => q.2 = p.1) then
        (p.1, { p.2 with engines := p.2.engines.map fun (g : Nat × EngineSt) => (g.1, g.2.acquired clock) })
      else p }
  let held := r.whistleHeld
  let again := r.rewake
  let coll := r.collArea
  let r := { r with
    state := .running, savedTiles := [], savedRounds := [], savedSlots := [], acks := [], whistleHeld := false, rewake := false
    collArea := (0, 0) }
  let s := if coll.2 = 0 then s else s.freeFrames coll.1 coll.2
  let s := (s.putRegion r).testWakes
  let s := if again then (s.parkedOf r.id).foldl State.postWake s else s
  if r.abort.isSome then s.stopRegion r
  else if held then s.blow r.id else s

/-- LAUNCH_LOAD_ACK: a tile's load ends and it acknowledges: the image's part (R352), or the saved state of a restore (R320);
the last acknowledgement lets the launch or the restore go on. -/
def execLaunchLoadAck (tile : Nat) (s : State) : Out :=
  match s.regionAt tile with
  | none => .next s
  | some r =>
    let rank := s.rankAt tile
    if r.state ≠ .loading || r.acks.contains rank then .next s
    else
      let all := r.acks.length + 1 = r.place.length
      if r.started then
        let s := match lfind (fun v => v.rank = rank) r.savedTiles with
          | some v => s.restoreTile r v tile
          | none => s
        let r := { r with acks := r.acks ++ [rank] }
        if all then .next (s.finishRestore r) else .next (s.setRegion r)
      else
        match nget? s.images (imageKey r.space r.words.image) with
        | none => .next s
        | some im =>
          let (s, code) := s.loadTile r (lfind (fun t => t.rank = rank) im.tiles) tile
          let r := { r with acks := r.acks ++ [rank], loadCodes := nset r.loadCodes rank code }
          if all then .next (s.launchEnd r im) else .next (s.setRegion r)

/-! ### The whistle timeout (R316) -/

/-- A cut of a region of a drained cluster has met its timeout: the first is retried, the second ends the DRAIN (R398). -/
def Draining.timedOut (d : Draining) (region : Nat) : Draining :=
  if d.retried.contains region then { d with refused := true } else { d with retried := d.retried ++ [region] }

/-- WHISTLE_TIMEOUT: a cut that is not complete is abandoned and reported; a region that was loading takes its launch up
again. A DRAIN of the region's cluster counts it (R398). -/
def execWhistleTimeout (region : Nat) (s : State) : Out :=
  match nget? s.regions region with
  | none => .next s
  | some r =>
    if r.state ≠ .draining then .next s
    else
      let clusters := r.place.map fun p => p.2 / 24
      let s := s.abandon r (if r.started then .running else .loading)
      let s := { s with fmc := { s.fmc with
        drains := s.fmc.drains.map fun (d : Draining) => if clusters.contains d.cluster then d.timedOut region else d } }
      let s := s.event region 0x508 0 0 true
      if r.started then .next s
      else
        match nget? s.regions region, nget? s.images (imageKey r.space r.words.image) with
        | some r, some im => .next (s.launchEnd { r with whistleHeld := false } im)
        | _, _ => .next s

end Sys2Proof.Machine
end

