-- ==== Sys2Proof/Machine/Fmc.lean ====
section
/-! DEFINITION. The memory manager's unmaps and moves (R322, R335, R336), requests that the FMC answers (R384), and the
scheduling pass (R349). -/

namespace Sys2Proof.Machine

open Sys2Proof

/-! ### Pages (R322, R335, R336) -/

/-- SHOOTDOWN: a tile drops the page from its translation cache and acknowledges; no `enq` of the model stands between its
walk and its push (R335 step 2). For a page of which no unmap or move stands, the memory manager begins to take W away, which R335
lets it do of its own accord (log entry 74). -/
def execShootdown (tile space : Nat) (va : Word) (s : State) : Out :=
  let s :=
    if s.fmc.unmaps.any (fun u => u.space = space && u.va = va.toNat) then s
    else
      match s.walk space va.toNat with
      | .page f true _ _ => if f.va = va.toNat then s.beginUnmap space f.va none none true else s
      | _ => s
  let hit := fun (u : Unmapping) => u.space = space && u.va = va.toNat && u.waitFor.contains tile
  if !s.fmc.unmaps.any hit then .next s
  else
    let t := s.tileAt tile
    let s := s.setTile tile { t with
      tlb := t.tlb.filter fun e => !(e.space = space && e.frame.va = va.toNat)
      walkCache := t.walkCache.filter fun w => w.space ≠ space }
    let s := { s with fmc := { s.fmc with
      unmaps := s.fmc.unmaps.map fun u => if hit u then { u with waitFor := u.waitFor.filter (· ≠ tile) } else u } }
    .next s.endUnmaps

/-- Reports a memory error to the regions of an address space (R313, R322): to those that are live, or with none left to those that have
ended (R407). -/
def State.memoryEvent (s : State) (space : Nat) (code : BitVec 12) (va : Nat) (info : Bool) : State :=
  let of := s.regions.filter fun p => p.2.space = space && p.2.words.run
  let live := of.filter fun p => p.2.state.live
  (if live.isEmpty then of else live).foldl (fun s p => s.event p.1 code 0 (BitVec.ofNat 64 va) info) s

/-- FRAME_RETIRE: the memory manager begins to move the page of a frame that is to be retired (R336 step 1); once the shootdown is acknowledged and the pins have drained, the page moves to a fresh frame and MV clears; the rest
of the old frame is free again (R336). A clean page is reloaded from its backing copy, which clears poison, with an INFO record of
it; a dirty page keeps its poisoned sectors, each reported by PAGE_LOST (R322). -/
def execFrameRetire (frame : Nat) (s : State) : Out :=
  match lfind (fun u => u.move = some frame && s.unmapReady u) s.fmc.unmaps with
  | none =>
    .next (if s.fmc.retiredFrames.contains frame && !s.fmc.unmaps.any (·.move = some frame) then s.beginRetire frame none else s)
  | some u =>
    match s.leafOf u.space u.va with
    | none => .next s
    | some (pte, shift) =>
      let e := s.pteAt pte
      let old := pteFrame e
      let n := 2 ^ shift
      match s.takeFrames n with
      | none => .next s
      | some (new, s) =>
        let bad := (s.sectors.filter fun p => within (old, n) (32 * p.1) && p.2.poison).map fun p => u.va + (32 * p.1 - old)
        let source := match lfind (fun m => m.space = u.space && m.va = u.va) s.fmc.mappings with
          | some m => m.source | none => none
        let clean := !e.testBit 4
        let s := if clean then (s.fillFrame source new n).wipe (old, n) else s.moveRange old new n
        let s := (s.setPte pte (withBit (e - old + new) 6 false)).freeFrames old n
        let s := { s with fmc := { s.fmc with unmaps := s.fmc.unmaps.filter (· ≠ u) } }
        let s := if clean then (match bad with | v :: _ => s.memoryEvent u.space 0x301 v true | [] => s)
          else bad.foldl (fun s v => s.memoryEvent u.space 0x302 v false) s
        match u.port with
        | some p => .next (if s.fmc.unmaps.any (·.port = some p) then s else s.answer p 0 0 0)
        | none => .next s

/-! ### The scheduling pass (R349) -/

/-- Acts on a ring: of a launch queue (R344), of a region's DOORB, which orders what the hosts wrote before it (R343, R345, R385),
of a fault queue (R313). -/
def State.actRing (s : State) (ring : Nat × Word) : State :=
  let (space, addr) := ring
  let s := s.fmc.queues.foldl (fun s q =>
    if q.2.space = space && q.2.doorbell = addr then
      let v : BitVec 32 := BitVec.ofNat 32 (s.vaNat space addr.toNat 4)
      { s with fmc := { s.fmc with queues := nset s.fmc.queues q.1 { q.2 with produced := v } } }
    else s) s
  s.regions.foldl (fun s p =>
    let r := p.2
    if r.space ≠ space then s
    else
      let s :=
        if addr ≠ 0 && r.words.doorb = addr && r.state.live then
          let s := s.rereadLimits 9 p.1
          (s.parkedOf p.1).foldl (fun s k =>
            let c := s.ctxOf k
            (s.setCtxOf k { c with clock := c.clock.join [(hostAgent, s.own.hostEpoch)] }).postWake k)
            { s with own := { s.own with hostEpoch := s.own.hostEpoch + 1 } }
        else s
      if r.words.fqbase ≠ 0 && r.addr + 128 = addr then (s.actRecords p.1).retryRecords p.1 else s) s

/-- Step 1: rings and fault-queue resolutions, then WAKEP of SAVED regions (R360). -/
def State.passRings (s : State) : State :=
  let rings := s.fmc.rings
  let s := rings.foldl State.actRing { s with fmc := { s.fmc with rings := [] } }
  s.regions.foldl (fun s p =>
    match nget? s.regions p.1 with
    | some r => if r.state = .saved && r.wakep then s.putRegion { r with wakep := false, holdIdle := false, rewake := true } else s
    | none => s) s

/-- Step 2: the device queue, then the host queues in ascending number; the reservations that can be made. -/
def State.passEntries (s : State) : State :=
  let s := s.takeDevice
  (s.fmc.queues.foldl (fun s q =>
    match nget? s.fmc.queues q.1 with
    | some v => s.takeEntries q.1 v (v.produced - v.taken).toNat
    | none => s) s).reserveAll

/-- Step 3: the time since the last pass, which timing decides, is charged; a region that comes to be over budget is reported
and held, one that no longer is may run again (R342, R343). -/
def State.passBudgets (s : State) : State :=
  let (us, s) := s.choose
  let s := s.chargeAll us
  s.regions.foldl (fun s p =>
    match nget? s.regions p.1 with
    | none => s
    | some r =>
      if !r.words.run || !r.state.live then s
      else
        let ov := s.over 9 p.1
        if ov && !r.overBudget then (s.setRegion { r with overBudget := true }).event p.1 0x507 0 0 true
        else if !ov && r.overBudget then s.setRegion { r with overBudget := false }
        else s) s

/-- Whether R346 lets a region end as it stands: it runs, or its launch load has failed with no whistle held (log entry 75). -/
def Region.mayEnd (r : Region) : Bool :=
  r.state = .running || (r.state = .loading && r.loadCode.isSome && r.acks.length = r.place.length && !r.whistleHeld)

/-- Step 5: a region that must end is stopped (R361 step 1), waits until it may end, then for its sections; then the rest of R361. -/
def State.passEnds (s : State) : State :=
  let ends := s.fmc.ends
  ends.foldl (fun s rid =>
    match nget? s.regions rid with
    | none => s
    | some r =>
      if r.state = .ended then s
      else
      let s := if r.abort.isSome then s.stopRegion r else s
      if r.mayEnd && s.allRetired r then s.finishEnd r
      else { s with fmc := { s.fmc with ends := s.fmc.ends ++ [rid] } })
    { s with fmc := { s.fmc with ends := [] } }

/-- The runnable regions in the order of R350: priority, credit, id. -/
def State.runnables (s : State) : List Region :=
  let before := fun (a b : Region) =>
    let pa := s.prio a.id
    let pb := s.prio b.id
    pa > pb || (pa = pb && (a.credit > b.credit || (a.credit = b.credit && a.id < b.id)))
  ((s.regions.map (·.2)).filter s.runnable).foldl (fun acc r => insertRegion before r acc) []

/-- The clusters that aged regions not yet placed keep from a region of their level or below (R350): those that one of them
could use. Of two aged regions of one level the one considered first goes first (log entry 65). -/
def State.agedClusters (s : State) (r : Region) (earlier rest : List Region) : List Nat :=
  let waits := fun (b : Region) =>
    match nget? s.regions b.id with | some q => q.state = .queued || q.state = .saved | none => false
  let blocks := (if s.aged r then earlier else earlier ++ rest).filter fun b =>
    s.aged b && s.prio r.id ≤ s.prio b.id && waits b
  (List.range 48).filter fun c => blocks.any fun b => s.couldUse b.words c

/-- Places the runnable regions in order, and unmaps victims where one does not fit and no aged region goes before it (R350, R351). A
restore that R320 refuses leaves PLACEMENT_MISMATCH in CODE of the SAVED region's RCB (log entry 76); a region whose reservation the
device launch queue cannot hold waits (R341). -/
def State.placeAll (s : State) : List Region → List Region → State
  | [], _ => s
  | r :: rest, earlier =>
    if s.mismatch r then (s.putRegion { r with code := 0x505 }).placeAll rest (earlier ++ [r])
    else if r.state = .queued && !r.reserved then s.placeAll rest (earlier ++ [r])
    else
    let (c, s) := s.choose
    let avoid := s.agedClusters r earlier rest
    match s.fit r.words c [] avoid with
    | some ts => (s.place r ts).placeAll rest (earlier ++ [r])
    | none =>
      let victims := if avoid.isEmpty then s.victims r else []
      (victims.foldl (fun s v => s.blow v) s).placeAll rest (earlier ++ [r])

/-- Steps 6 and 7: credits grow, regions are placed, regions over budget are unmapped. Nothing is placed before bring-up has
ended (R396) or while a checkpoint runs (R325). -/
def State.passPlace (s : State) : State :=
  let s := (s.regions.map (·.1)).foldl (fun s i =>
    match nget? s.regions i with
    | some r => if s.runnable r then s.setRegion { r with credit := r.credit + s.weight i } else s
    | none => s) s
  let s := if s.fmc.discovered && s.fmc.ckptRegions.isNone then s.placeAll s.runnables [] else s
  (s.regions.map (·.2)).foldl (fun s r => if r.overBudget && (r.state = .running || r.state = .loading) then s.blow r.id else s) s

/-- The regions that hold a tile of a cluster. -/
def State.regionsOn (s : State) (cluster : Nat) : List Region :=
  (s.regions.map (·.2)).filter fun r => r.place.any fun p => p.2 / 24 = cluster

/-- A DRAIN goes on (R397, R398): a region there that runs is unmapped, once more after a first timeout; the second timeout
refuses it; it ends when no region holds a tile of the cluster. -/
def State.passDrains (s : State) : State :=
  s.fmc.drains.foldl (fun s d =>
    let drop := fun (s : State) => { s with fmc := { s.fmc with drains := s.fmc.drains.filter (· ≠ d) } }
    let on := s.regionsOn d.cluster
    let report := fun (s : State) (result : Nat) (code : BitVec 12) =>
      match d.port with | some p => s.answer p result code 0 | none => s
    if on.isEmpty then report (drop s) 0 0
    else if d.refused then report (drop s) 2 0x508
    else on.foldl (fun s r => if r.state = .running then s.blow r.id else s) s) s


/-- DOORBELL_RING: a write to a registered word is recorded (R345, R313); WAKEP of a DRAINING or SAVED region is set (R359); the HBM that holds
the word wakes (R394). -/
def execDoorbellRing (space : Nat) (addr : Word) (s : State) : Out :=
  let s := { s with selfRefresh := false, deepIdle := false }
  if s.doorbells.contains (space, addr) then .next (s.ring space addr) else .next s

end Sys2Proof.Machine
end

