-- ==== Sys2Proof/WellFormed.lean ====
section
/-! DEFINITION. Which terms of `Instr` stand for an instruction: the side conditions that the types of its fields do not
carry. An instruction with an encoding is well formed when its fields are what the encoding admits (R52-R60); a step of the
hardware, when the unit it names exists (R323, R371, R392). -/

namespace Sys2Proof

/-- Exposed tiles of a module (00_scope.md, "The module at a glance"). -/
def tileCount : Nat := 1152
/-- Clusters of a module (00_scope.md). -/
def clusterCount : Nat := 48
/-- Voltage and frequency islands of a module (R392). -/
def islandCount : Nat := 512
/-- HBM stacks of a module (00_scope.md, R396). -/
def hbmCount : Nat := 16
/-- UALink ports of a module (R371). -/
def ualinkCount : Nat := 24

/-- A partition that exists (R323). -/
def Partition.wellFormed : Partition → Bool
  | .tile t => t < tileCount
  | .cluster c => c < clusterCount
  | .router c => c < clusterCount
  | .hbm s => s < hbmCount
  | .ualink p => p < ualinkCount

/-- A unit with a power state that exists (R394). -/
def PowerUnit.wellFormed : PowerUnit → Bool
  | .tile t => t < tileCount
  | .island i => i < islandCount
  | .cluster c => c < clusterCount
  | .hbm => true
  | .deepIdle => true

/-- Whether a router has a mesh link in a direction, north 0, east 1, south 2, west 3 (log entry 77): the mesh is 6 rows of 8 with no link
past an edge (R365). -/
def meshLink (router : Nat) (dir : BitVec 2) : Bool :=
  router < clusterCount &&
    (if dir = 0 then 0 < router / 8 else if dir = 1 then router % 8 < 7 else if dir = 2 then router / 8 < 5 else 0 < router % 8)

/-- A link that exists (R321, R365). -/
def LinkId.wellFormed : LinkId → Bool
  | .mesh r d => meshLink r d
  | .chain t => t < tileCount
  | .stream t => t < tileCount
  | .ualink p => p < ualinkCount

/-- A site of a correctable error that exists (R321). -/
def ErrorSite.wellFormed : ErrorSite → Bool
  | .secded _ => true
  | .icache t => t < tileCount
  | .hbmSymbol k => k < 2 ^ 48

/-- Whether a CSR form names `lx.flags` or `lx.fwshare` as a write of it, which has an instruction of its own (R91). -/
def csrWritesNamed (f : CsrForm) (csr : BitVec 12) (src : Reg) : Bool :=
  (csr = 0x800 || csr = 0x8F0) && f.writes src

/-- Whether the decoder refuses a word. -/
def rejected (w : Inst) : Bool :=
  match decode w with
  | .ok _ => false
  | .error _ => true

/-- Well-formedness: the condition of each constructor, `true` where its fields may hold anything. -/
def wellFormed : Instr → Bool
  -- the control core (R52-R54)
  | .csrWrite f csr _ src => csrListed csr && !csrWritesNamed f csr src
  | .lxFlagsWrite f _ src => f.writes src
  | .lxFwshareWrite f _ src => f.writes src
  | .illegalInstruction w => rejected w
  | .enq _ _ _ _ => true
  | .enqL _ _ _ _ => true
  | .sect _ _ _ => true
  | .qcancel _ _ _ => true
  | .qstat _ _ _ => true
  | .fork _ _ _ => true
  | .rdv _ _ => true
  | .yield => true
  | .trigger => true
  | .waitdep _ => true
  | .cwait _ _ => true
  | .contract _ _ => true
  | .flgGather _ _ _ => true
  | .lxTret => true
  | .barArr _ _ _ _ => true
  | .barWait _ _ _ => true
  | .sywArm _ _ => true
  | .sywWait _ _ _ _ => true
  | .ldAcqB _ _ _ _ => true
  | .ldAcqH _ _ _ _ => true
  | .ldAcqW _ _ _ _ => true
  | .ldAcqD _ _ _ _ => true
  | .ldAcqBu _ _ _ _ => true
  | .ldAcqHu _ _ _ _ => true
  | .ldAcqWu _ _ _ _ => true
  | .stRelB _ _ _ _ => true
  | .stRelH _ _ _ _ => true
  | .stRelW _ _ _ _ => true
  | .stRelD _ _ _ _ => true
  | .fenceSc _ => true
  | .fenceAcq _ => true
  | .fenceRel _ => true
  | .launch _ _ _ _ => true
  | .fence _ _ _ _ _ => true
  | .ecallExit => true
  | .ecallAbort => true
  | .ecallReserved => true
  | .ebreak => true
  | .load _ _ _ _ => true
  | .store _ _ _ _ => true
  | .jumpBranch _ => true
  | .integerOperation _ => true
  -- waits that end
  | .enqStallEnd => true
  | .rdvReturn => true
  | .barWaitPass => true
  | .sywWaitPass => true
  | .waitdepPass => true
  | .cwaitReturn => true
  | .flgGatherReturn => true
  | .exitComplete => true
  | .parkThresholdExpiry => true
  | .engineFaultDelivery => true
  | .sectionHeader _ => true
  | .programFetch _ => true
  | .sectionStart _ => true
  | .sectionRetire _ => true
  -- engine commands (R55-R60)
  | .engineNop _ => true
  | .programCall _ _ _ => true
  | .seAff c => c.dims.length ≤ 2
  | .seInd _ => true
  | .seRec _ => true
  | .seMcast _ => true
  | .seBar _ => true
  | .seGatePause _ => true
  | .seGateResume _ => true
  | .seGateFinish _ => true
  | .ceCopy _ => true
  | .ceFill _ => true
  | .aeCfg _ _ => true
  | .aeInv _ _ => true
  | .aeEnd _ => true
  | .aeEndFlush _ => true
  | .aeEndStart _ => true
  | .aeGateOpen _ => true
  | .aeGateClose _ => true
  | .aeStat _ => true
  | .meWld _ => true
  | .meSpw _ => true
  | .meScl _ => true
  | .meAcc _ => true
  | .meRow _ => true
  | .meGath _ => true
  | .meEnd _ => true
  | .meRecRec _ => true
  | .meRecScan _ => true
  | .mePat _ => true
  | .mePcomp _ => true
  | .meDg _ => true
  | .saOpAdd _ => true
  | .saOpMin _ => true
  | .saOpMax _ => true
  | .saOpOr _ => true
  | .saOpAnd _ => true
  | .saOpXor _ => true
  | .saOpXchg _ => true
  | .saOpCas _ => true
  | .saHash _ => true
  | .saRehash _ => true
  | .neGath c => !c.mid.getLsbD 0 && c.atype = 0
  | .neScat _ => true
  | .neRedSum _ => true
  | .neRedMin _ => true
  | .neRedMax _ => true
  | .neSmrg _ => true
  | .neFlag _ _ => true
  | .neTok _ _ _ => true
  | .neXrdNvme _ => true
  | .neXrdRdma _ => true
  | .tkMatch _ => true
  | .tkMerge c => !c.chain
  | .tkBias _ => true
  | .tkUntack _ => true
  | .tkKeep _ => true
  | .tkFree _ => true
  -- events at engines
  | .seBarDrained => true
  | .streamRequestIssue _ => true
  | .memoryReadReturn _ _ _ => true
  | .streamDelivery _ => true
  | .writeStreamUnpack _ => true
  | .recurrenceForward _ => true
  | .streamComplete _ => true
  | .copyChunkWrite _ => true
  | .aeCfgLoad => true
  | .endClaim => true
  | .groupFiring _ => true
  | .drainingFiring _ => true
  | .markerHead _ => true
  | .linkPacketArrival _ => true
  | .controlTransferArrival _ => true
  | .snapshot _ => true
  | .swapTokenPass => true
  | .accumulatorWrite => true
  | .patternCompile => true
  | .patternCompileComplete => true
  | .gatherReply _ _ => true
  | .routerCombine _ r => r < clusterCount
  | .collectiveResult _ => true
  | .xrdCompletion _ _ => true
  | .xrdTimeout _ => true
  | .bar4PeerWrite _ _ => true
  -- scheduling, errors, fabric, host
  | .schedulingPass => true
  | .launchLoadAck t => t < tileCount
  | .doorbellRing _ _ => true
  | .tileSave t => t < tileCount
  | .whistleTimeout _ => true
  | .fmcFailover => true
  | .shootdown t _ _ => t < tileCount
  | .frameRetire _ => true
  | .uncorrectableError _ => true
  | .correctableError e => e.wellFormed
  | .partitionFreeze p => p.wellFormed
  | .partitionClockGate p => p.wellFormed
  | .partitionRecovery p _ => p.wellFormed
  | .tileSparing c t => c < clusterCount && t < 24
  | .linkParityError l => l.wellFormed
  | .meshLaneFailure r d => meshLink r d
  | .ualinkLaneFailure p => p < ualinkCount
  | .landingRecord p _ _ => p < ualinkCount
  | .creditReturn p => p < ualinkCount
  | .ualinkAtomicReceived p _ => p < ualinkCount
  | .topologyDiscovery _ _ => true
  | .powerOnReset => true
  | .pcieLinkReset _ => true
  | .claimOffer _ _ => true
  | .claimConfirm _ _ => true
  | .lease _ _ => true
  | .leaseExpired => true
  | .handover _ _ => true
  | .handoverCancel _ _ => true
  | .bar0RegisterWrite _ _ _ => true
  | .hostBar2Access _ _ _ _ => true
  | .boot _ _ _ => true
  | .attest _ _ => true
  | .release _ _ _ => true
  | .recover _ _ _ => true
  | .enrol _ _ _ _ => true
  | .update _ _ => true
  | .lqCreate _ _ _ _ _ => true
  | .lqDestroy _ _ => true
  | .map _ _ _ _ _ _ _ => true
  | .unmap _ _ _ _ => true
  | .hostwin _ _ _ _ _ => true
  | .grant _ _ => true
  | .revoke _ _ => true
  | .pod _ _ => true
  | .checkpoint _ _ => true
  | .policy _ _ => true
  | .root _ _ => true
  | .power _ _ => true
  | .drain _ _ => true
  | .undrain _ _ => true
  | .spare _ _ => true
  | .portdown _ _ => true
  | .portup _ _ => true
  | .retire _ _ => true
  | .reset _ _ => true
  | .powerStateEntry u => u.wellFormed
  | .powerStateExit u => u.wellFormed
  | .droopDetect i => i < islandCount
  | .translationWalkEnd => true
  | .safeTierAccess p _ _ _ _ => p < ualinkCount
  | .powerLoss => true
  | .pcieLinkTraining _ => true

end Sys2Proof
end

