-- ==== Sys2Proof/Machine/Errors.lean ====
section
/-! DEFINITION. Hardware errors (R321-R324) and links that degrade (R377). -/

namespace Sys2Proof.Machine

open Sys2Proof

/-! ### Memory errors (R321, R322) -/

/-- UNCORRECTABLE_ERROR: the sector is poisoned; in HBM the error traps to the memory manager, whose frame is to be retired: FRAME_RETIRE begins
it (R322, R336). -/
def execUncorrectableError (key : Nat) (s : State) : Out :=
  let s := { s with sectors := nmod {} s.sectors (key / 32) fun x => { x with poison := true } }
  .next (if isHbm key then { s with fmc := { s.fmc with
    retiredFrames := if s.fmc.retiredFrames.contains (key / 65536) then s.fmc.retiredFrames
      else s.fmc.retiredFrames ++ [key / 65536] } } else s)

/-- CORRECTABLE_ERROR: corrected in place, the line refetched or the sector rewritten: nothing that a program sees changes
(R321). -/
def execCorrectableError (_site : ErrorSite) (s : State) : Out := .next s

/-! ### Partitions (R323) -/

/-- How a partition's clock stands. -/
def State.partOf (s : State) : Partition → PartSt
  | .tile t => (s.tileAt t).part
  | .cluster c => (nget {} s.clusters c).part
  | .router c => (nget {} s.clusters c).routerPart
  | .hbm k => nget .runs s.hbmPart k
  | .ualink p => (nget {} s.uaports p).part

/-- Sets a partition's clock. -/
def State.setPart (s : State) (p : Partition) (v : PartSt) : State :=
  match p with
  | .tile t => s.setTile t { s.tileAt t with part := v }
  | .cluster c => { s with clusters := nmod {} s.clusters c fun x => { x with part := v } }
  | .router c => { s with clusters := nmod {} s.clusters c fun x => { x with routerPart := v } }
  | .hbm k => { s with hbmPart := nset s.hbmPart k v }
  | .ualink p => { s with uaports := nmod {} s.uaports p fun x => { x with part := v } }

/-- The regions whose state a partition holds, or may hold (log entry 33). -/
def State.regionsIn (s : State) (p : Partition) : List Region :=
  let placed := (s.regions.map (·.2)).filter fun r => !r.place.isEmpty
  match p with
  | .tile t => placed.filter fun r => r.place.any fun q => q.2 = t
  | .cluster c => s.regionsOn c
  | .router c => s.regionsOn c
  | _ => placed

/-- The logical coordinates of a partition in a region, with CTX 0b11 (R313): a tile's; those of the region's logical cluster with TILE 31
for a cluster or router; for a stack or a port, which has none, those of logical tile 0 (log entry 33). -/
def State.partLoc (s : State) (r : Region) : Partition → BitVec 32
  | .tile t => (s.lxTile t 3).setWidth 32
  | .cluster c | .router c =>
    match lfind (fun p => p.2 / 24 = c) r.place with
    | some p => (s.lxTile p.2 3).setWidth 32 / 32 * 32 + 31
    | none => 0xC0000000
  | _ => 0xC0000000

/-- The reset of a partition: what it held is lost (R323). -/
def State.resetPart (s : State) (p : Partition) : State :=
  match p with
  | .tile t =>
    let s := [s.keyAt t 0, s.keyAt t 1].foldl (fun s k =>
      let c := s.ctxOf k
      if c.life = .live && !c.parked then s.setCtxOf k { life := .live, clock := c.clock } else s) s
    (s.wipe (scratchRange t)).setTile t {}
  | .cluster c =>
    let s := s.wipe (l2Key c 0, 2 ^ 24)
    { s with
      clusters := nmod {} s.clusters c fun x => { x with cache := [], compiles := [], gens := [] }
      wake := s.wake.filter fun w => w.1 / 48 ≠ c }
  | .router c => { s with rounds := s.rounds.filter fun q => !q.parts.any (·.router = c) }
  | .hbm k => { s with
      mem := s.mem.filter fun c => !(isHbm c.1 && stackOf c.1 = k)
      sectors := s.sectors.filter fun c => !(isHbm (32 * c.1) && stackOf (32 * c.1) = k)
      rels := s.rels.filter fun c => !(isHbm c.1 && stackOf c.1 = k) }
  | .ualink p => { s with uaports := nmod {} s.uaports p fun x =>
      { lanes := x.lanes, up := x.up, found := x.found } }

/-- PARTITION_FREEZE: an error in a partition's logic is detected; its clock runs on for 16 cycles (R323). -/
def execPartitionFreeze (p : Partition) (s : State) : Out :=
  .next (if s.partOf p = .runs then s.setPart p .freezing else s)

/-- PARTITION_CLOCK_GATE: the partition stands still; requests to it wait (R323). -/
def execPartitionClockGate (p : Partition) (s : State) : Out :=
  .next (if s.partOf p = .freezing then s.setPart p .gated else s)

/-- PARTITION_RECOVERY: where the scan finds nothing visible that differs, the partition resumes, with an INFO record; else it is
reset, and its regions meet PARTITION_RESET (R323). -/
def execPartitionRecovery (p : Partition) (differs : Bool) (s : State) : Out :=
  if s.partOf p ≠ .gated then .next s
  else
    let rs := (s.regionsIn p).map fun r => (r.id, s.partLoc r p)
    let s := s.setPart p .runs
    if differs then .next (rs.foldl (fun s r => s.event r.1 0x303 r.2 0 false) (s.resetPart p)).testWakes
    else .next (rs.foldl (fun s r => s.event r.1 0x304 r.2 0 true) s).testWakes

/-! ### Sparing (R324) -/

/-- The spare tiles that may still take a tile's place: not retired, at no exposed tile's place (R324). -/
def Cluster.spares (c : Cluster) : List Nat :=
  [24, 25].filter fun p => !c.bad.contains p && !(c.phys.any fun e => e.2 = p)

/-- A spare takes an exposed tile's place, whose physical tile is retired, or with none left the cluster is degraded by it. -/
def State.spareTile (s : State) (cluster tile : Nat) : State :=
  let c := nget {} s.clusters cluster
  let t := cluster * 24 + tile
  let c := { c with bad := c.bad ++ [s.physTile t] }
  match c.spares with
  | [] =>
    { s with clusters := nset s.clusters cluster { c with missing := if c.missing.contains tile then c.missing else c.missing ++ [tile] } }
  | p :: _ =>
    let s := { s with clusters := nset s.clusters cluster { c with phys := nset c.phys tile p } }
    (s.wipe (scratchRange t)).setTile t {}

/-- A physical tile of a cluster is retired (R324, R396, R397): a spare takes the place that it holds; one that holds none leaves the
spares, and one retired before stays so. -/
def State.retireTile (s : State) (cluster p : Nat) : State :=
  let c := nget {} s.clusters cluster
  if c.bad.contains p then s
  else
    match lfind (fun t => nget t c.phys t = p && !c.missing.contains t) (List.range 24) with
    | some t => s.spareTile cluster t
    | none => { s with clusters := nset s.clusters cluster { c with bad := c.bad ++ [p] } }

/-- TILE_SPARING: a region on the failing tile is unmapped first; then a spare takes its logical coordinates (R324). -/
def execTileSparing (cluster tile : Nat) (s : State) : Out :=
  match s.regionAt (cluster * 24 + tile) with
  | some r => .next (s.blow r.id)
  | none => .next (s.spareTile cluster tile)

/-! ### Links (R321, R377) -/

/-- LINK_PARITY_ERROR: the flit is retried: only its time changes (R321). -/
def execLinkParityError (_l : LinkId) (s : State) : Out := .next s

/-- MESH_LANE_FAILURE: one of the link's two spare lanes replaces it; with both used the link runs at half width (R377). A router at an edge
has no link there (R365). -/
def execMeshLaneFailure (router : Nat) (dir : BitVec 2) (s : State) : Out :=
  if !meshLink router dir then .next s else
  let c := nget {} s.clusters router
  let used := nget 0 c.spareLanes dir.toNat
  let c :=
    if used < 2 then { c with spareLanes := nset c.spareLanes dir.toNat (used + 1) }
    else { c with halfWidth := if c.halfWidth.contains dir.toNat then c.halfWidth else c.halfWidth ++ [dir.toNat] }
  .next { s with clusters := nset s.clusters router c }

end Sys2Proof.Machine
end

