-- ==== Sys2Proof/Machine/Fabric.lean ====
section
/-! DEFINITION. UALink (R371-R377) and the scope table (R369, R370, R375). -/

namespace Sys2Proof.Machine

open Sys2Proof

/-! ### The scope table (R369, R370) -/

/-- Hops between two clusters of a module (R365, R370). -/
def meshHops (a b : Nat) : Nat := (a % 8 - b % 8) + (b % 8 - a % 8) + (a / 8 - b / 8) + (b / 8 - a / 8)

/-- The cluster to whose router a UALink port attaches (R365): column 0 or 7, two ports a row. -/
def portCluster (p : Nat) : Nat := if p < 12 then 8 * (p / 2) else 8 * ((p - 12) / 2) + 7

/-- The peers, module and port, that links of a list join to a port of this module. -/
def State.peersIn (s : State) (links : List PodLink) (p : Nat) : List (Nat × Nat) :=
  links.filterMap fun l =>
    if l.modA = s.module && l.portA = p then some (l.modB, l.portB)
    else if l.modB = s.module && l.portB = p then some (l.modA, l.portA) else none

/-- The links of the pod descriptor. -/
def State.podLinks (s : State) : List PodLink := match s.fmc.podDesc with | some d => d.links | none => []

/-- The links that join this module to another, own port first: those that the descriptor names and discovery has found, at a port that is
up (R375). -/
def State.linksTo (s : State) (m : Nat) : List (Nat × Nat) :=
  (List.range 24).flatMap fun p =>
    let u := nget {} s.uaports p
    if !u.up then []
    else ((s.peersIn s.podLinks p).filter fun q => q.1 = m && u.found.contains q).map fun q => (p, q.2)

/-- HOPW of the pod (R370, R375). -/
def State.hopw (s : State) : Nat := match s.fmc.podDesc with | some d => d.hopw | none => 0

/-- The hops from one cluster to another by a port pair (R370). -/
def pairHops (w a b : Nat) (l : Nat × Nat) : Nat := meshHops a (portCluster l.1) + w + meshHops (portCluster l.2) b

/-- The port pair by which traffic of a cluster leaves for a cluster of another module (R376): the one of fewest hops, of several the
lowest port of this module, then the lowest of the other. -/
def State.route (s : State) (a m b : Nat) : Option (Nat × Nat) :=
  let cost := pairHops s.hopw a b
  let better := fun (x y : Nat × Nat) =>
    cost x < cost y || (cost x = cost y && (x.1 < y.1 || (x.1 = y.1 && x.2 < y.2)))
  match s.linksTo m with
  | [] => none
  | l :: ls => some (ls.foldl (fun best x => if better x best then x else best) l)

/-- HOPS from a cluster of this module to a cluster of another (R370), 15 where no link joins them. -/
def State.hopsTo (s : State) (a m b : Nat) : Nat :=
  match s.route a m b with
  | none => 15
  | some l => min 14 (pairHops s.hopw a b l)

/-- The key of a cluster in a scope table: this module's clusters first, then every module's. -/
def scopeKey (own m b : Nat) : Nat := if m = own then b else 48 + 48 * m + b

/-- The FMC fills every cluster's table from the links that are up (R370, R375). -/
def State.fillScopes (s : State) : State :=
  let others := match s.fmc.podDesc with
    | some d => (d.modules.map Prod.fst).filter (· ≠ s.module)
    | none => []
  (List.range 48).foldl (fun s a =>
    let own := (List.range 48).map fun b => (b, BitVec.ofNat 4 (min 14 (meshHops a b)))
    let far := others.flatMap fun m =>
      (List.range 48).filterMap fun b =>
        let h := s.hopsTo a m b
        if h = 15 then none else some (scopeKey s.module m b, BitVec.ofNat 4 h)
    { s with clusters := nmod {} s.clusters a fun c => { c with hops := (own ++ far).foldl (fun m p => nset m p.1 p.2) [] } }) s

/-! ### Ports (R371, R375, R377) -/

/-- A port of this module. -/
def State.uaport (s : State) (p : Nat) : UaPort := nget {} s.uaports p

/-- Writes a port. -/
def State.setUaport (s : State) (p : Nat) (v : UaPort) : State := { s with uaports := nset s.uaports p v }

/-- The records of a write of landing records, each with its header (R373). -/
def recordsOf : Nat → List Word → List (List Word)
  | 0, _ => []
  | n + 1, ws =>
    match ws with
    | [] => []
    | h :: t =>
      let k := bitsOf h.toNat 23 21 + 1
      if !h.getLsbD 63 then [] else (h :: t.take k) :: recordsOf n (t.drop k)

/-- The destination module and CLASS of a record. -/
def recordKey (r : List Word) : Nat := let h := (lget 0 r 0).toNat; bitsOf h 62 53 * 4 + bitsOf h 41 40

/-- Whether a port may send a write: it holds a credit, and to no module would more than 32 767 records of a class be out (R373, log entry
77). -/
def UaPort.maySend (u : UaPort) (w : List Word) : Bool :=
  let out := (u.sent ++ [w]).flatMap (recordsOf 16)
  u.credits ≠ 0 && ((recordsOf 16 w).map recordKey).all fun k => (out.filter fun r => recordKey r = k).length ≤ 32767

/-- The oldest write that waits at a port goes out, if it may. -/
def UaPort.sendNext (u : UaPort) : UaPort :=
  match u.outbox with
  | [] => u
  | w :: rest => if u.maySend w then { u with outbox := rest, credits := u.credits - 1, sent := u.sent ++ [w] } else u

/-- A write of landing records goes out at a port, behind those that wait (R373). -/
def UaPort.post (u : UaPort) (w : List Word) : UaPort :=
  let v : UaPort := { u with outbox := u.outbox ++ [w] }
  if u.outbox.isEmpty then v.sendNext else v

/-- A record with the SEQ of its new stream. -/
def renumber (seq : BitVec 16) (r : List Word) : List Word :=
  match r with
  | h :: t => ((h &&& ~~~((0xFFFF : Word) <<< 24)) ||| (seq.setWidth 64 <<< 24)) :: t
  | [] => []

/-- A record leaves from a cluster by the route to its destination, in a write of its own with the next SEQ of its stream (R373, R376); with
no port up to that module it waits at the port named. -/
def State.post (s : State) (a stay : Nat) (r : List Word) : State :=
  let h := (lget 0 r 0).toNat
  match s.route a (bitsOf h 62 53) (bitsOf h 52 47) with
  | some l =>
    let u := s.uaport l.1
    let key := recordKey r * 32 + l.2
    let seq := nget 0 u.outSeq key
    let w := renumber seq r
    s.setUaport l.1 (({ u with outSeq := nset u.outSeq key (seq + 1) } : UaPort).post (w ++ List.replicate (32 - w.length) 0))
  | none => s.setUaport stay { s.uaport stay with outbox := (s.uaport stay).outbox ++ [r] }

/-- A port goes down, with every credit back: the scope table is refilled, and the records that it had in flight or still held to send are
replayed in order on the new routes (R376, R377). -/
def State.portDown (s : State) (p : Nat) : State :=
  let u := s.uaport p
  let s := (s.setUaport p { u with up := false, found := [], outbox := [], sent := [], credits := 4096, outSeq := [] }).fillScopes
  ((u.sent ++ u.outbox).flatMap (recordsOf 16)).foldl (fun s r => s.post (portCluster p) p r) s

/-- The records that wait at ports that are down leave by the routes there now are (R376). -/
def State.repost (s : State) : State :=
  (List.range 24).foldl (fun s p =>
    let u := s.uaport p
    if u.up || u.outbox.isEmpty then s
    else (u.outbox.flatMap (recordsOf 16)).foldl (fun s r => s.post (portCluster p) p r) (s.setUaport p { u with outbox := [] })) s

/-- UALINK_LANE_FAILURE: the port retrains at half its width; with its last lane gone it goes down (R377). -/
def execUalinkLaneFailure (port : Nat) (s : State) : Out :=
  let u := s.uaport port
  if !u.up then .next s
  else if u.lanes > 1 then .next (s.setUaport port { u with lanes := u.lanes / 2 })
  else .next ((s.setUaport port { u with lanes := 0 }).portDown port)

/-- TOPOLOGY_DISCOVERY: the ports that train are up and note the peers found there; a link that both the descriptor and discovery name is
used, one only described is down, one only found is left unused; the scope table is filled, and regions may be placed (R375). -/
def execTopologyDiscovery (trained : List Nat) (found : List PodLink) (s : State) : Out :=
  let s := (List.range 24).foldl (fun s p =>
    let u := s.uaport p
    if trained.contains p then
      s.setUaport p { u with up := true, lanes := if u.lanes = 0 then 4 else u.lanes, found := s.peersIn found p }
    else s.setUaport p { u with up := false, found := [] }) s
  let s := s.fillScopes.repost
  .next { s with fmc := { s.fmc with discovered := s.fmc.running } }

/-! ### Landing records (R71, R373) -/

/-- A landing record: its key (source port, CLASS), its sequence number, where it goes, its words with the header. -/
structure Landing where
  key : Nat
  seq : BitVec 16
  dmod : Nat
  dclus : Nat
  words : List Word
deriving DecidableEq, Repr

/-- The record at the head of a write, with what follows it; none at padding. -/
def landingHead (src : Nat) : List Word → Option (Landing × List Word)
  | [] => none
  | h :: t =>
    let n := h.toNat
    if !n.testBit 63 then none
    else
      let cnt := bitsOf n 23 21
      some ({ key := src * 4 + bitsOf n 41 40, seq := BitVec.ofNat 16 (bitsOf n 39 24), dmod := bitsOf n 62 53
              dclus := bitsOf n 52 47, words := h :: t.take (cnt + 1) }, t.drop (cnt + 1))

/-- The records of a write of 256 bytes, at most 16. -/
def landings (src : Nat) : Nat → List Word → List Landing
  | 0, _ => []
  | n + 1, ws =>
    match landingHead src ws with
    | some (l, rest) => l :: landings src n rest
    | none => []

/-- Places records that came early and are now due into the mesh, in SEQ order. -/
def UaPort.settle (u : UaPort) (key : Nat) : Nat → UaPort
  | 0 => u
  | n + 1 =>
    let due := nget 0 u.nextSeq key
    match lfind (fun e => e.1 = key && e.2.1 = due) u.early with
    | none => u
    | some e =>
      ({ u with
        nextSeq := nset u.nextSeq key (due + 1), early := ldrop (fun x => x = e) u.early
        mesh := if e.2.2.isEmpty then u.mesh else u.mesh ++ [(key, e.2.2)] } : UaPort).settle key n

/-- A port engine takes one record: one that names no cluster of the module is discarded and counted, but keeps its place in
the order (R373). -/
def UaPort.land (u : UaPort) (own : Nat) (l : Landing) : UaPort :=
  let bad := l.dmod ≠ own || l.dclus ≥ 48
  let u := if bad then { u with dropped := u.dropped + 1 } else u
  ({ u with early := u.early ++ [(l.key, l.seq, if bad then [] else l.words)] } : UaPort).settle l.key (u.early.length + 1)

/-- Whether a UALink transaction of a length in bytes may be accepted at an address (R371). -/
def uaSize (n addr : Nat) : Bool := (n = 64 || n = 128 || n = 256) && addr % n = 0

/-- LANDING_RECORD: a received write is unpacked into records, placed into the mesh in SEQ order for each source port and class, and its
credit goes back (R373); a write of another size than R371's gets an error response. A request wakes what sleeps (R394). -/
def execLandingRecord (port srcPort : Nat) (write : List Word) (s : State) : Out :=
  let s := { s with deepIdle := false }
  let u := s.uaport port
  if !u.up then .next s
  else if !uaSize (8 * write.length) 0 then .next (s.setUaport port { u with errors := u.errors + 1 })
  else
    let u := (landings srcPort 16 write).foldl (fun u l => u.land s.module l) u
    .next (s.setUaport port { u with returned := u.returned + 1 })

/-- The marker of a packet's sideband (R71): none where MK is 0 or KIND is reserved. -/
def sideMarker (side : Nat) : Option Marker :=
  if !side.testBit 20 then none
  else match bitsOf side 19 17 with
    | 0 => some .start | 1 => some .fin | 2 => some .whistle | 3 => some .scale | 4 => some .flush | _ => none

/-- The packet of a record of class STR: its sideband and its lane words (R71, R373). -/
def recordPacket (ws : List Word) : Packet :=
  let side := (lget 0 ws 0).toNat % 2 ^ 24
  { lanes := ws.drop 1, pred := BitVec.ofNat 8 (bitsOf side 16 9), sid := BitVec.ofNat 9 side, marker := sideMarker side }

/-- Whether a sideband header is that of a marker-only packet (R71). -/
def markerOnly (side : Nat) : Bool := side.testBit 20 && bitsOf side 23 21 = 0 && bitsOf side 16 9 = 0

/-- Delivers a packet that came over UALink to a tile (R65, R71): to the DFA input port bound to its SID (log entry 77). A reserved marker
kind is dropped and raises LEN; of a marker-only packet nothing else is left. A frozen tile and an array that a group's fault holds take
nothing (R167, R323). -/
def State.landPacket (s : State) (tile : Nat) (ws : List Word) : Option State :=
  let side := (lget 0 ws 0).toNat
  let k := recordPacket ws
  let odd : Bool := side.testBit 20 && bitsOf side 19 17 > 4
  match lfind (fun p => (s.portSt tile p).bound && (s.portSt tile p).sid = k.sid) (rangeFrom 0 8) with
  | none => none
  | some p =>
    if (s.tileAt tile).dfa.status ≠ .loaded || !(s.portSt tile p).gate || (s.pointHolder tile p).isSome
        || s.arrayHeld tile p || (s.tileAt tile).part = .gated then none
    else
      (if odd && markerOnly side then some s else s.enter tile p k).map fun s =>
        if odd then s.onTile tile fun s => s.setDfa { s.dfa with pending := s.dfa.pending ||| Flag.len } else s

/-- The mesh hands on the records placed into it, in order for each source port and class: packets of class STR to their tiles; a record
that finds no room waits, with those behind it. Records of the other classes stay, since R373 does not lay out what they carry. -/
def State.handOn (s : State) (port : Nat) : State :=
  let step := fun (p : State × List Nat × List (Nat × List Word)) (m : Nat × List Word) =>
    let (s, stuck, kept) := p
    let h := (lget 0 m.2 0).toNat
    let tile := bitsOf h 52 47 * 24 + bitsOf h 46 42
    if m.1 % 4 ≠ 3 || stuck.contains m.1 || bitsOf h 46 42 ≥ 24 then (s, m.1 :: stuck, kept ++ [m])
    else
      match s.landPacket tile m.2 with
      | some s => (s, stuck, kept)
      | none => (s, m.1 :: stuck, kept ++ [m])
  let (s, _, kept) := (s.uaport port).mesh.foldl step (s, [], [])
  s.setUaport port { s.uaport port with mesh := kept }

/-- CREDIT_RETURN: the credit of the oldest write sent comes back, 4096 at most, and a write that waits for one goes out (R373); the mesh
hands on what the port has placed into it. -/
def execCreditReturn (port : Nat) (s : State) : Out :=
  let s := s.handOn port
  let u := s.uaport port
  .next (s.setUaport port (({ u with sent := u.sent.drop 1, credits := min 4096 (u.credits + 1) } : UaPort).sendNext))

/-- UALINK_ATOMIC_RECEIVED: completed with an error response; nothing else (R371, R372). -/
def execUalinkAtomicReceived (port : Nat) (_addr : Word) (s : State) : Out :=
  let u := s.uaport port
  .next (s.setUaport port { u with errors := u.errors + 1 })

/-- SAFE_TIER_ACCESS: a read or write in the safe-tier window, accepted only from the module named at its reservation; any
other gets an error response (R372). -/
def execSafeTierAccess (port module : Nat) (addr : Word) (write : Bool) (data : List Byte) (s : State) : Out :=
  let off := addr.toNat - 2 ^ 32
  let refuse := .next (s.setUaport port { s.uaport port with errors := (s.uaport port).errors + 1 })
  match s.fmc.safeTier with
  | none => refuse
  | some (m, base, size) =>
    if m ≠ module || addr.toNat < 2 ^ 32 || off + data.length > min size 0xC000000000 || !uaSize data.length addr.toNat then refuse
    else if write then .next (s.write [] (ualinkAgent port) (cellsFrom (base + off) data) false false)
    else .next (s.setUaport port { s.uaport port with response := memBytes s.mem (base + off) data.length })

end Sys2Proof.Machine
end

