-- ==== Sys2Proof/Machine/Sha.lean ====
section
/-! DEFINITION. SHA-256, which the manual names for digests and measurements (R388, R390), and SHA-512, which the signatures of R388 use
beside it, both by FIPS 180-4: one computation for words of either width. -/

namespace Sys2Proof.Sha

/-- The greatest number whose power `k` is at most `n`, found bit by bit from 2^i down. -/
def rootOf (k n : Nat) : Nat → Nat → Nat
  | 0, r => r
  | i + 1, r => rootOf k n i (if (r + 2 ^ i) ^ k ≤ n then r + 2 ^ i else r)

/-- Whether a number is prime, by trial division. -/
def isPrime (n : Nat) : Bool := 2 ≤ n && (List.range n).all fun d => d < 2 || d * d > n || n % d ≠ 0

/-- The first `n` primes (the 80th is 409). -/
def primes (n : Nat) : List Nat := ((List.range 410).filter isPrime).take n

/-- The first `w` bits of the fractional parts of the roots of order `e` of the first `n` primes (FIPS 180-4, 4.2 and 5.3). -/
def fractions (w e n : Nat) : List Nat := (primes n).map fun p => rootOf e (p * 2 ^ (w * e)) (w + 8) 0 % 2 ^ w

/-- What tells the two functions apart: the bits of a word, a constant for each round (of cube roots), the hash before the first block (of
square roots), and how far the four mixing functions turn a word; the last number of `near` and `far` is a shift (FIPS 180-4, 4.1 and 6). -/
structure Kind where
  width : Nat
  constants : List Nat
  start : List Nat
  sumA : Nat × Nat × Nat
  sumE : Nat × Nat × Nat
  far : Nat × Nat × Nat
  near : Nat × Nat × Nat
deriving DecidableEq, Repr

/-- SHA-256. -/
def sha256 : Kind :=
  { width := 32, constants := fractions 32 3 64, start := fractions 32 2 8
    sumA := (2, 13, 22), sumE := (6, 11, 25), far := (7, 18, 3), near := (17, 19, 10) }

/-- SHA-512. -/
def sha512 : Kind :=
  { width := 64, constants := fractions 64 3 80, start := fractions 64 2 8
    sumA := (28, 34, 39), sumE := (14, 18, 41), far := (1, 8, 7), near := (19, 61, 6) }

/-- A word turned right. -/
def Kind.turn (k : Kind) (n x : Nat) : Nat := x / 2 ^ n + x % 2 ^ n * 2 ^ (k.width - n)

/-- The exclusive or of a word turned three ways. -/
def Kind.sum (k : Kind) (t : Nat × Nat × Nat) (x : Nat) : Nat := k.turn t.1 x ^^^ k.turn t.2.1 x ^^^ k.turn t.2.2 x

/-- The exclusive or of a word turned two ways and shifted. -/
def Kind.mix (k : Kind) (t : Nat × Nat × Nat) (x : Nat) : Nat := k.turn t.1 x ^^^ k.turn t.2.1 x ^^^ x / 2 ^ t.2.2

/-- A number as `n` bytes, the most significant first. -/
def bytesBe (n v : Nat) : List Byte := ((List.range n).map fun i => BitVec.ofNat 8 (v / 256 ^ i)).reverse

/-- The number that bytes hold, the most significant first. -/
def natBe (bs : List Byte) : Nat := bs.foldl (fun n b => 256 * n + b.toNat) 0

/-- A list cut into `n` pieces of `len`. -/
def pieces {α : Type} (len : Nat) : Nat → List α → List (List α)
  | 0, _ => []
  | n + 1, l => l.take len :: pieces len n (l.drop len)

/-- The message filled up to whole blocks of 16 words: a one bit, zeros, and its length in bits in two words. -/
def Kind.filled (k : Kind) (m : List Byte) : List Byte :=
  let block := 2 * k.width
  let tail := k.width / 4
  m ++ 0x80 :: List.replicate ((2 * block - 1 - tail - m.length % block) % block) 0 ++ bytesBe tail (8 * m.length)

/-- The words that the rounds take: the sixteen of the block, newest first, and those made of them. -/
def Kind.words (k : Kind) : Nat → List Nat → List Nat
  | 0, ws => ws.reverse
  | n + 1, ws =>
    let back := fun i => ws.getD (i - 1) 0
    k.words n ((k.mix k.near (back 2) + back 7 + k.mix k.far (back 15) + back 16) % 2 ^ k.width :: ws)

/-- The eight words that a round works on. -/
structure Eight where
  a : Nat
  b : Nat
  c : Nat
  d : Nat
  e : Nat
  f : Nat
  g : Nat
  h : Nat
deriving DecidableEq, Repr

/-- One round, with its constant and its word added. -/
def Kind.round (k : Kind) (x : Eight) (kw : Nat) : Eight :=
  let chosen := (x.e &&& x.f) ^^^ ((2 ^ k.width - 1 - x.e) &&& x.g)
  let most := (x.a &&& x.b) ^^^ (x.a &&& x.c) ^^^ (x.b &&& x.c)
  let t := x.h + k.sum k.sumE x.e + chosen + kw
  { a := (t + k.sum k.sumA x.a + most) % 2 ^ k.width, b := x.a, c := x.b, d := x.c
    e := (x.d + t) % 2 ^ k.width, f := x.e, g := x.f, h := x.g }

/-- The hash after one block. -/
def Kind.step (k : Kind) (h : List Nat) (block : List Byte) : List Nat :=
  let word := k.width / 8
  let ws := k.words (k.constants.length - 16) ((pieces word 16 block).map natBe).reverse
  let at_ := fun i => h.getD i 0
  let x : Eight := { a := at_ 0, b := at_ 1, c := at_ 2, d := at_ 3, e := at_ 4, f := at_ 5, g := at_ 6, h := at_ 7 }
  let y := (List.zipWith (· + ·) k.constants ws).foldl k.round x
  List.zipWith (fun p q => (p + q) % 2 ^ k.width) h [y.a, y.b, y.c, y.d, y.e, y.f, y.g, y.h]

/-- The hash of a message, as bytes in order. -/
def Kind.hash (k : Kind) (m : List Byte) : List Byte :=
  let p := k.filled m
  ((pieces (2 * k.width) (p.length / (2 * k.width)) p).foldl k.step k.start).flatMap (bytesBe (k.width / 8))

/-- The SHA-256 digest of R388 and R390: 32 bytes. -/
def digest (m : List Byte) : List Byte := sha256.hash m

end Sys2Proof.Sha
end

