-- ==== Sys2Proof/Machine/Power.lean ====
section
/-! DEFINITION. Power states (R392-R395), module reset and the PCIe links (R396), measurement registers (R390). -/

namespace Sys2Proof.Machine

open Sys2Proof

/-! ### Power states (R394) -/

/-- Whether both slots of a tile are FREE. -/
def State.tileIdle (s : State) (t : Nat) : Bool :=
  (nget {} s.roster (2 * t)).state = .free && (nget {} s.roster (2 * t + 1)).state = .free

/-- Whether a tile may take clock gating: slots FREE or PARKED, queues empty, nothing in progress, DFA quiescent. -/
def State.tileQuiet (s : State) (t : Nat) : Bool :=
  let ok := fun (x : SlotState) => x = .free || x = .parked
  ok (nget {} s.roster (2 * t)).state && ok (nget {} s.roster (2 * t + 1)).state
    && (allEngines.all fun e =>
      let g := (s.tileAt t).engine e
      g.queue.isEmpty && g.sects.isEmpty && g.runs.isEmpty && g.program.isNone)
    && ({ s with tile := t } : State).quiescent

/-- Whether a launch queue has entries not yet taken. -/
def State.untaken (s : State) : Bool := !s.fmc.device.isEmpty || s.fmc.queues.any fun q => q.2.produced ≠ q.2.taken

/-- The exposed tiles of a cluster. -/
def clusterTiles (c : Nat) : List Nat := rangeFrom (24 * c) 24

/-- Whether a tile is FREE, and no region holds it. -/
def State.tileFreed (s : State) (t : Nat) : Bool := s.tileIdle t && (s.regionAt t).isNone

/-- The exposed tiles whose physical tile stands in a tile island, 10c to 10c + 7 of a cluster (R392): none of another island. -/
def State.islandTiles (s : State) (i : Nat) : List Nat :=
  if i < 480 && i % 10 < 8 then (clusterTiles (i / 10)).filter fun t => s.islandOf t = i else []

/-- Whether every tile of an island is FREE (R394). -/
def State.islandQuiet (s : State) (i : Nat) : Bool := i < 480 && i % 10 < 8 && (s.islandTiles i).all s.tileFreed

/-- Whether every tile of a cluster is FREE and nothing crosses it: no compile, no round, no gather (R394). -/
def State.clusterQuiet (s : State) (c : Nat) : Bool :=
  (clusterTiles c).all s.tileFreed && (nget {} s.clusters c).compiles.isEmpty
    && !(s.rounds.any fun q => q.parts.any (·.router = c))

/-- Context F starts on a tile, at the entry of the firmware image, whose form the manual does not give (R14, R20, log entry 34). -/
def State.startF (s : State) (t : Nat) : State :=
  s.setCtxOf (t * 4 + 2) { pc := Config.firmwareEntry (s.fwText.map Prod.snd), life := .live }

/-- A tile's power is taken away: it keeps nothing, and its context F starts anew when it comes back (R394). -/
def State.dropTile (s : State) (t : Nat) : State :=
  let s := (s.wipe (scratchRange t)).setTile t { part := (s.tileAt t).part }
  if (s.ctxOf (t * 4 + 2)).life = .live then s.startF t else s

/-- A cluster enters retention: what its tiles held is lost, the L2, the pattern cache and the scope table are kept (R394). -/
def State.retain (s : State) (c : Nat) : State :=
  let s := (clusterTiles c).foldl State.dropTile s
  { s with clusters := nmod {} s.clusters c fun x => { x with retention := true } }

/-- A FREE cluster in module deep idle keeps nothing, where the HBM does (R394); the scope table is filled again at the exit as it was
(R375). -/
def State.idleCluster (s : State) (c : Nat) : State :=
  if s.clusterQuiet c then
    let s := (s.retain c).wipe (l2Key c 0, 2 ^ 24)
    { s with clusters := nmod {} s.clusters c fun x => { x with cache := [], gens := [] } }
  else s

/-- Whether a region runs or loads on the module. -/
def State.regionActive (s : State) : Bool :=
  s.regions.any fun p => p.2.words.run && (p.2.state = .running || p.2.state = .loading)

/-- POWER_STATE_ENTRY: a unit enters the deepest state whose exit latency LTOL allows and whose condition holds (R394): a tile whose island
or cluster may enter its own state waits for that, and so does an island. A gated island and a retained cluster keep nothing of their
tiles. -/
def execPowerStateEntry (u : PowerUnit) (s : State) : Out :=
  let tol := s.fmc.ltol.toNat
  let clusterMay := fun (c : Nat) => tol ≥ 100 && s.clusterQuiet c
  match u with
  | .tile t =>
    let deeper := (tol ≥ 20 && s.islandQuiet (s.islandOf t)) || clusterMay (t / 24)
    .next (if tol ≥ 1 && s.tileQuiet t && !deeper then s.setTile t { s.tileAt t with clockGated := true } else s)
  | .island i =>
    if tol ≥ 20 && s.islandQuiet i && !s.gatedIslands.contains i && !clusterMay (i / 10) then
      let s := (s.islandTiles i).foldl State.dropTile s
      .next { s with gatedIslands := s.gatedIslands ++ [i] }
    else .next s
  | .cluster c => .next (if clusterMay c && !(nget {} s.clusters c).retention then s.retain c else s)
  | .hbm => .next (if tol ≥ 2000 && !s.regionActive then { s with selfRefresh := true } else s)
  | .deepIdle =>
    .next (if tol ≥ 50000 && s.selfRefresh && !s.untaken && !s.deepIdle then
      { (List.range 48).foldl State.idleCluster s with deepIdle := true } else s)

/-- The units whose exit latency a tolerance in µs does not allow, or whose condition has failed, leave their states (R394). -/
def State.stayAwake (s : State) (tol : Nat) : State :=
  { s with
    tiles := s.tiles.map fun t => (t.1, { t.2 with clockGated := t.2.clockGated && tol ≥ 1 && s.tileQuiet t.1 })
    gatedIslands := s.gatedIslands.filter fun i => tol ≥ 20 && s.islandQuiet i
    clusters := s.clusters.map fun c => (c.1, { c.2 with retention := c.2.retention && tol ≥ 100 && s.clusterQuiet c.1 })
    selfRefresh := s.selfRefresh && tol ≥ 2000 && !s.regionActive
    deepIdle := s.deepIdle && tol ≥ 50000 && !s.regionActive && !s.untaken }

/-- The active FMC acts on power in its pass: units whose conditions fail leave their states (R394), and pulse skipping holds the cap: a
choice names an island and the k of its clock, 1 to 16, where 0 leaves all as they are (R395). -/
def State.passPower (s : State) : State :=
  let (n, s) := (s.stayAwake s.fmc.ltol.toNat).choose
  if n = 0 then s
  else
    let i := (n - 1) % 512
    let skipped := (n - 1) / 512 % 16
    { s with islands := if skipped = 0 then nerase s.islands i else nset s.islands i (16 - skipped) }

/-- POWER_STATE_EXIT: the unit leaves its state; requests that waited go on (R394). -/
def execPowerStateExit (u : PowerUnit) (s : State) : Out :=
  match u with
  | .tile t => .next (s.setTile t { s.tileAt t with clockGated := false })
  | .island i => .next { s with gatedIslands := s.gatedIslands.filter (· ≠ i) }
  | .cluster c => .next { s with clusters := nmod {} s.clusters c fun x => { x with retention := false } }
  | .hbm => .next { s with selfRefresh := false, deepIdle := false }
  | .deepIdle => .next { s with deepIdle := false }

/-- DROOP_DETECT: the island's clock passes 8 of every 16 edges until the FMC acts; only rates change (R395). -/
def execDroopDetect (island : Nat) (s : State) : Out := .next { s with islands := nset s.islands island 8 }

/-! ### Measurement (R390) -/

/-- The bytes of a measurement register, in order. -/
def mrBytes (v : BitVec 256) : List Byte := (List.range 32).map fun i => v.extractLsb' (8 * i) 8

/-- The register that bytes in order make. -/
def mrOf (bs : List Byte) : BitVec 256 := BitVec.ofNat 256 (leNat bs)

/-- Extends a measurement register: SHA-256 of the register followed by the digest. -/
def Owner.extend (o : Owner) (i : Nat) (d : List Byte) : Owner :=
  { o with mrs := nset o.mrs i (mrOf (Sha.digest (mrBytes (nget 0 o.mrs i) ++ d))) }

/-! ### Reset (R396) -/

/-- The owner key store, which is all that outlives a module reset, and the device serial (R391). -/
def Owner.store (o : Owner) : Owner := { key := o.key, transfers := o.transfers, serial := o.serial }

/-- What module reset leaves (R396 steps 1 and 2): every part at its reset value, MR0 extended by the ROM digest, the HBM
trained and the boot window open. The fuse map of defective tiles stands in the silicon. -/
def State.moduleReset (s : State) : State :=
  { State.reset with
    ticks := s.ticks, agenda := s.agenda, choices := s.choices, images := s.images, module := s.module, fuses := s.fuses
    own := { (s.own.store.extend 0 (mrBytes Config.romDigest)) with bootWindow := true } }

/-- POWER_ON_RESET (R396). -/
def execPowerOnReset (s : State) : Out := .next s.moduleReset

/-- POWER_LOSS: all volatile state goes; the owner key store keeps its contents (R391). -/
def execPowerLoss (s : State) : Out :=
  .next { State.reset with
    ticks := s.ticks, agenda := s.agenda, choices := s.choices, images := s.images, module := s.module, fuses := s.fuses
    own := s.own.store }

/-- PCIE_LINK_RESET: the port's link, its PENDING bit and its BUSY requests, and nothing else (R396): what such a request began goes on,
and is answered to nobody. -/
def execPcieLinkReset (p : HostPort) (s : State) : Out :=
  let o := s.own
  let idle := fun (v : ReqStat) => if v.busy then {} else v
  let o := if p then { o with link1 := false, offer1 := none, fmcstat1 := idle o.fmcstat1, usstat1 := idle o.usstat1 }
    else { o with link0 := false, offer0 := none, fmcstat0 := idle o.fmcstat0, usstat0 := idle o.usstat0 }
  let mine := fun (q : Option HostPort) => if q = some p then none else q
  .next { s with
    own := o
    fmc := { s.fmc with
      ckptPort := mine s.fmc.ckptPort
      held := s.fmc.held.filter fun h => h.1 ≠ p
      unmaps := s.fmc.unmaps.map fun u => { u with port := mine u.port }
      drains := s.fmc.drains.map fun d => { d with port := mine d.port } } }

/-- PCIE_LINK_TRAINING: the port's link comes up (R396). -/
def execPcieLinkTraining (p : HostPort) (s : State) : Out :=
  .next { s with own := if p then { s.own with link1 := true } else { s.own with link0 := true } }

end Sys2Proof.Machine
end

