-- ==== Sys2Proof/Machine/Signature.lean ====
section
/-! DEFINITION. The signatures of R388 and R391: verification under SLH-DSA-SHA2-128s, -192s and -256s, by FIPS 205, with an empty context
string (log entry 7). -/

namespace Sys2Proof.Signature

open Sys2Proof.Sha

/-- A parameter set: the bytes of a node, the layers of the hypertree, the height of each layer's trees, the height of the trees of few-time
keys and their number, the bytes of a message digest. -/
structure Params where
  node : Nat
  layers : Nat
  rise : Nat
  fewRise : Nat
  fewCount : Nat
  digest : Nat
deriving DecidableEq, Repr

/-- The parameter sets that a key can be enrolled with (R388, R391). -/
def paramsOf (ps : BitVec 8) : Params :=
  if ps = 0 then { node := 16, layers := 7, rise := 9, fewRise := 12, fewCount := 14, digest := 30 }
  else if ps = 1 then { node := 24, layers := 7, rise := 9, fewRise := 14, fewCount := 17, digest := 39 }
  else { node := 32, layers := 8, rise := 8, fewRise := 14, fewCount := 22, digest := 47 }

/-- The chains of a one-time key: two for each byte of a node, and three for the checksum. -/
def Params.chains (p : Params) : Nat := 2 * p.node + 3

/-- The nodes of a signature. -/
def Params.nodes (p : Params) : Nat := 1 + p.fewCount * (1 + p.fewRise) + p.layers * (p.chains + p.rise)

/-- Where a hash stands: its layer and tree, its kind (0 a chain, 1 a one-time key, 2 a hypertree node, 3 a few-time node, 4 a few-time
key), and three words that the kind gives their meaning. -/
structure Place where
  layer : Nat := 0
  tree : Nat
  kind : Nat
  words : Nat × Nat × Nat
deriving DecidableEq, Repr

/-- The 22 bytes of a place. -/
def Place.bytes (a : Place) : List Byte :=
  bytesBe 1 a.layer ++ bytesBe 8 a.tree ++ bytesBe 1 a.kind ++ bytesBe 4 a.words.1 ++ bytesBe 4 a.words.2.1 ++ bytesBe 4 a.words.2.2

/-- The wide hash of a parameter set: SHA-512 where nodes are longer than 16 bytes. -/
def Params.wide (p : Params) : Kind := if p.node = 16 then sha256 else sha512

/-- A hash at a place under a seed, cut to a node. -/
def Params.tweaked (p : Params) (k : Kind) (seed : List Byte) (a : Place) (m : List Byte) : List Byte :=
  (k.hash (seed ++ List.replicate (2 * k.width - p.node) 0 ++ a.bytes ++ m)).take p.node

/-- The hash of one node. -/
def Params.one (p : Params) (seed : List Byte) (a : Place) (m : List Byte) : List Byte := p.tweaked sha256 seed a m

/-- The hash of several nodes. -/
def Params.many (p : Params) (seed : List Byte) (a : Place) (m : List Byte) : List Byte := p.tweaked p.wide seed a m

/-- A message's digest under a randomizer and a key: the hash is stretched by a counter. -/
def Params.messageDigest (p : Params) (r seed root m : List Byte) : List Byte :=
  let inner := r ++ seed ++ p.wide.hash (r ++ seed ++ root ++ m)
  ((List.range 2).flatMap fun i => p.wide.hash (inner ++ bytesBe 4 i)).take p.digest

/-- Digits of `b` bits of a number of `n` digits, the most significant first. -/
def digits (b n v : Nat) : List Nat := ((List.range n).map fun i => v / 2 ^ (b * i) % 2 ^ b).reverse

/-- From a node up to a root, with the siblings on the way; `hash` takes the height and the index of the node above. -/
def climb (hash : Nat → Nat → List Byte → List Byte) : Nat → Nat → List Byte → List (List Byte) → List Byte
  | _, _, x, [] => x
  | z, i, x, y :: ys => climb hash (z + 1) (i / 2) (hash (z + 1) (i / 2) (if i % 2 = 0 then x ++ y else y ++ x)) ys

/-- A chain from its position `i` on, `n` links. -/
def chain (link : Nat → List Byte → List Byte) : Nat → Nat → List Byte → List Byte
  | _, 0, x => x
  | i, n + 1, x => chain link (i + 1) n (link i x)

/-- The one-time key that a signature of a node gives: each chain carried on to its end from where its digit left it. -/
def Params.oneTimeKey (p : Params) (seed : List Byte) (a : Place) (pair : Nat) (m : List Byte) (sig : List (List Byte)) : List Byte :=
  let ds := digits 4 (2 * p.node) (natBe m)
  let check := ds.foldl (fun n d => n + (15 - d)) 0
  let ends := (List.zip (ds ++ digits 4 3 check) sig).zipIdx.map fun x =>
    chain (fun j y => p.one seed { a with kind := 0, words := (pair, x.2, j) } y) x.1.1 (15 - x.1.1) x.1.2
  p.many seed { a with kind := 1, words := (pair, 0, 0) } ends.flatten

/-- The root of a tree of the hypertree that a signature of a node by its leaf gives. -/
def Params.treeRoot (p : Params) (seed : List Byte) (layer tree leaf : Nat) (m : List Byte) (sig : List (List Byte)) : List Byte :=
  let a : Place := { layer := layer, tree := tree, kind := 2, words := (0, 0, 0) }
  climb (fun z i x => p.many seed { a with words := (0, z, i) } x) 0 leaf (p.oneTimeKey seed a leaf m (sig.take p.chains)) (sig.drop p.chains)

/-- The root of the hypertree, layer by layer. -/
def Params.topRoot (p : Params) (seed : List Byte) : Nat → Nat → Nat → List Byte → List (List (List Byte)) → List Byte
  | _, _, _, x, [] => x
  | layer, tree, leaf, x, sig :: sigs =>
    p.topRoot seed (layer + 1) (tree / 2 ^ p.rise) (tree % 2 ^ p.rise) (p.treeRoot seed layer tree leaf x sig) sigs

/-- The few-time key that the signature of a digest gives. -/
def Params.fewTimeKey (p : Params) (seed : List Byte) (tree leaf : Nat) (picks : List Nat) (sig : List (List (List Byte))) : List Byte :=
  let a : Place := { tree := tree, kind := 3, words := (leaf, 0, 0) }
  let roots := (List.zip picks sig).zipIdx.map fun x =>
    let at_ := fun (z i : Nat) => { a with words := (leaf, z, i) }
    let first := x.2 * 2 ^ p.fewRise + x.1.1
    climb (fun z i y => p.many seed (at_ z i) y) 0 first (p.one seed (at_ 0 first) (x.1.2.headD [])) x.1.2.tail
  p.many seed { a with kind := 4 } roots.flatten

/-- Whether a signature over a message verifies under a key, with an empty context string (R388, R391). -/
def verify (ps : BitVec 8) (key msg sig : List Byte) : Bool :=
  let p := paramsOf ps
  if key.length ≠ 2 * p.node || sig.length ≠ p.nodes * p.node then false
  else
    let seed := key.take p.node
    let root := key.drop p.node
    let height := p.layers * p.rise
    let few := (p.fewCount * p.fewRise + 7) / 8
    let deep := (height - p.rise + 7) / 8
    let d := p.messageDigest (sig.take p.node) seed root ([0, 0] ++ msg)
    let picks := (digits p.fewRise p.fewCount (natBe (d.take few) / 2 ^ (8 * few - p.fewCount * p.fewRise)))
    let tree := natBe ((d.drop few).take deep) % 2 ^ (height - p.rise)
    let leaf := natBe (d.drop (few + deep)) % 2 ^ p.rise
    let ns := pieces p.node p.nodes sig
    let fews := pieces (1 + p.fewRise) p.fewCount (ns.drop 1)
    let tops := pieces (p.chains + p.rise) p.layers (ns.drop (1 + p.fewCount * (1 + p.fewRise)))
    p.topRoot seed 0 tree leaf (p.fewTimeKey seed tree leaf picks fews) tops = root

end Sys2Proof.Signature
end

