-- ==== Sys2Proof/Machine/HostOps.lean ====
section
/-! DEFINITION. The host's side (17_host_firmware_security.md): ownership, BAR2, Usmond commands, FMC requests. -/

namespace Sys2Proof.Machine

open Sys2Proof

/-! ### Ownership (R380-R383) -/

/-- Whether a port holds the captain: the owner by election, also while it hands over. -/
def Owner.isCaptain (o : Owner) (p : HostPort) : Bool := o.state ≠ .unowned && o.capt = p

/-- The offer that a port has pending. -/
def Owner.offer (o : Owner) (p : HostPort) : Option (BitVec 30 × BitVec 32) := if p then o.offer1 else o.offer0

/-- Sets the offer of a port. -/
def Owner.setOffer (o : Owner) (p : HostPort) (v : Option (BitVec 30 × BitVec 32)) : Owner :=
  if p then { o with offer1 := v } else { o with offer0 := v }

/-- Whether an offer of a port is acceptable (R381). -/
def Owner.acceptable (o : Owner) (p : HostPort) : Bool :=
  match o.state with
  | .unowned => true
  | .owned => false
  | .handover => o.named = p

/-- The step, LEASEMS and TOKEN of a CLAIM (R381). -/
def claimFields (v : Word) : BitVec 2 × BitVec 30 × BitVec 32 := (v.extractLsb' 62 2, v.extractLsb' 32 30, v.extractLsb' 0 32)

/-- OWNSTAT as a port reads it (R380). -/
def Owner.ownstat (o : Owner) (p : HostPort) : Word :=
  let st := match o.state with | .unowned => 0 | .owned => 1 | .handover => 2
  let b := fun (x : Bool) => if x then 1 else 0
  BitVec.ofNat 64 (o.left.toNat * 2 ^ 16 + b o.key.isSome * 2 ^ 6 + st * 2 ^ 4 + b o.booted * 2 ^ 3
    + b (o.offer p).isSome * 2 ^ 2 + (if o.state = .unowned then 0 else b o.capt))

/-- CLAIM_OFFER: an acceptable offer in range sets PENDING (R381); any other is discarded. -/
def execClaimOffer (p : HostPort) (v : Word) (s : State) : Out :=
  let (step, ms, token) := claimFields v
  if step = 1 && 100 ≤ ms.toNat && ms.toNat ≤ 600000 && token ≠ 0 && s.own.acceptable p then
    .next { s with own := s.own.setOffer p (some (ms, token)) }
  else .next s

/-- CLAIM_CONFIRM: a CONFIRM that matches the pending offer, while it is acceptable, makes its port captain and clears PENDING on
both; one that matches a pending offer not acceptable now changes nothing; any other clears the port's PENDING (R381). -/
def execClaimConfirm (p : HostPort) (v : Word) (s : State) : Out :=
  let (step, ms, token) := claimFields v
  if step ≠ 2 then .next s
  else if s.own.offer p ≠ some (ms, token) then .next { s with own := s.own.setOffer p none }
  else if s.own.acceptable p then
    .next { s with own := { s.own with
      state := .owned, capt := p, leasems := ms, token := token, left := ms.setWidth 32, offer0 := none, offer1 := none
      expired := s.own.expired.filter (· ≠ p) } }
  else .next s

/-- USSTAT of a port. -/
def Owner.usStat (o : Owner) (p : HostPort) : ReqStat := if p then o.usstat1 else o.usstat0

/-- Usmond answers a port's command (R389). -/
def State.usAnswer (s : State) (p : HostPort) (result : Nat) (code : BitVec 12) (index : Nat) : State :=
  let v : ReqStat := { busy := false, code := code, result := BitVec.ofNat 8 result, index := BitVec.ofNat 16 index, returned := 0 }
  { s with own := if p then { s.own with usstat1 := v } else { s.own with usstat0 := v } }

/-- A write to the captain's ownership registers: of a port that is not captain it is discarded with NOT_CAPTAIN in USSTAT (R379, log entry
86). -/
def State.captainWrites (s : State) (p : HostPort) (f : State → State) : Out :=
  .next (if s.own.isCaptain p then f s else s.usAnswer p 2 0x602 0)

/-- LEASE: the captain's TOKEN renews its lease (R382); any other write is discarded. -/
def execLease (p : HostPort) (v : Word) (s : State) : Out :=
  s.captainWrites p fun s =>
    if v = s.own.token.setWidth 64 then { s with own := { s.own with left := s.own.leasems.setWidth 32 } } else s

/-- LEASE_EXPIRED: no renewal came in time (R382, R383). -/
def execLeaseExpired (s : State) : Out :=
  if s.own.state = .unowned then .next s
  else .next { s with own := { s.own with
    state := .unowned, left := 0, expired := s.own.capt :: s.own.expired.filter (· ≠ s.own.capt) } }

/-- HANDOVER: the captain names the other port (R383). -/
def execHandover (p : HostPort) (v : Word) (s : State) : Out :=
  s.captainWrites p fun s =>
    if v.toNat / 2 ^ 33 = 0 && v.extractLsb' 0 32 = s.own.token && v.getLsbD 32 ≠ p then
      { s with own := { s.own with state := .handover, named := !p } }
    else s

/-- HANDOVER_CANCEL: a HANDOVER that names the captain's own port (R383). -/
def execHandoverCancel (p : HostPort) (v : Word) (s : State) : Out :=
  s.captainWrites p fun s =>
    if v.toNat / 2 ^ 33 = 0 && v.extractLsb' 0 32 = s.own.token && v.getLsbD 32 = p then
      { s with own := { s.own with state := .owned } }
    else s

/-! ### Registers and buffers (R379) -/

/-- A status register as a host reads it (R384, R389): BUSY in bit 63, CODE in bits 43-32, the index of an image in bits 31-16, RESULT in
bits 7-0. -/
def ReqStat.word (v : ReqStat) : Word :=
  BitVec.ofNat 64 ((if v.busy then 2 ^ 63 else 0) + v.code.toNat * 2 ^ 32 + v.index.toNat * 2 ^ 16 + v.result.toNat)

/-- What a host reads in the registers of its port's BAR0 (R379, R380); the registers that hosts write read as zero (log entry 86). -/
def Owner.bar0Read (o : Owner) (p : HostPort) (offset : Nat) : Word :=
  if offset = 0 then o.ownstat p
  else if offset = 0x28 then (o.usStat p).word
  else if offset = 0x38 then (o.fmcStat p).word
  else if 0x10000 ≤ offset && offset < 0x20000 then
    BitVec.ofNat 64 (leNat (memBytes (if p then o.usbuf1 else o.usbuf0) (offset - 0x10000) 8))
  else if 0x20000 ≤ offset && offset < 0x30000 then
    BitVec.ofNat 64 (leNat (memBytes (if p then o.fmcbuf1 else o.fmcbuf0) (offset - 0x20000) 8))
  else 0

/-- Whether a port is the former captain whose first FMC request after the expiry this is (R382). -/
def Owner.justExpired (o : Owner) (p : HostPort) : Bool := o.expired.contains p && !o.isCaptain p

/-- What a port that is not captain writes to the FMC's registers is discarded; FMCSTAT says NOT_CAPTAIN (R379). -/
def State.discarded (s : State) (p : HostPort) (code : BitVec 12) : State :=
  { s with own := s.own.setFmcStat p { s.own.fmcStat p with code := code, result := 2 } }

/-- A port that is not captain asks the FMC: NOT_CAPTAIN, or once LEASE_EXPIRED (R379, R382). -/
def State.notCaptain (s : State) (p : HostPort) : State :=
  let t := s.discarded p (if s.own.justExpired p then 0x603 else 0x602)
  { t with own := { t.own with expired := t.own.expired.filter (· ≠ p) } }

/-- A request that the FMC serves for the captain (R384): discarded while one is BUSY, refused before BOOTED. -/
def State.request (s : State) (p : HostPort) (f : State → State) : Out :=
  if !s.own.isCaptain p then .next (s.notCaptain p)
  else if (s.own.fmcStat p).busy then .next s
  else if !s.own.booted then .next (s.answer p 2 0 0)
  else .next (f s)

/-- A Usmond command that only the captain may give (R389). -/
def State.usCommand (s : State) (p : HostPort) (f : State → State) : Out :=
  if !s.own.isCaptain p then .next (s.usAnswer p 2 0x602 0) else .next (f s)

/-- Whether a value names an FMC request (R384, R393): its code, the payload's bytes, other bits 0. -/
def fmcCmdCode (v : Word) : Bool := 1 ≤ v.toNat % 256 && v.toNat % 256 ≤ 12 && bitsOf v.toNat 15 8 = 0 && v.toNat / 2 ^ 32 = 0

/-- BAR0_REGISTER_WRITE: the message buffers; a write of USCMD or FMCCMD that names no command is a bad request, and one that names one
stands for that command's own row; what the writer may not write is discarded (R379, R384, R389, log entry 86). -/
def execBar0RegisterWrite (p : HostPort) (offset : Nat) (v : Word) (s : State) : Out :=
  let o := s.own
  let cells := (cellsFrom (offset % 65536) (leBytes 8 v.toNat)).filter fun c => c.1 < 65536
  if offset = 0x20 then
    let code := v.toNat % 256
    if code = 0 || code > 6 then .next (s.usAnswer p 1 0 0) else if code = 2 then .next s else s.usCommand p fun s => s
  else if offset = 0x30 then s.request p fun s => if fmcCmdCode v then s else s.answer p 1 0 0
  else if offset = 0x10 || offset = 0x18 then s.captainWrites p fun s => s
  else if 0x10000 ≤ offset && offset < 0x20000 then
    .next { s with own := if p then { o with usbuf1 := memPut o.usbuf1 cells } else { o with usbuf0 := memPut o.usbuf0 cells } }
  else if 0x20000 ≤ offset && offset < 0x30000 then
    if o.isCaptain p then
      .next { s with own := if p then { o with fmcbuf1 := memPut o.fmcbuf1 cells } else { o with fmcbuf0 := memPut o.fmcbuf0 cells } }
    else .next (s.discarded p 0x602)
  else .next s

/-! ### BAR2 (R385) -/

/-- Marks the pages that a host writes dirty (R385). -/
def State.dirty (s : State) (space va n : Nat) : State :=
  (List.range n).foldl (fun s i =>
    match s.leafOf space (va + i) with
    | some (pte, _) => if (s.pteAt pte).testBit 4 then s else s.setPte pte (withBit (s.pteAt pte) 4 true)
    | none => s) s

/-- A host's bytes reach memory: a plain write by the hosts' agent (R301, R385). -/
def State.hostWrite (s : State) (cells : List Host.Cell) : State :=
  s.write [(hostAgent, s.own.hostEpoch)] hostAgent cells false false

/-- The keys of n bytes of an address space; none where one is not mapped. -/
def State.vaKeys (s : State) (space va : Nat) : Nat → Option (List Nat)
  | 0 => some []
  | n + 1 =>
    match s.vaKey space va, s.vaKeys space (va + 1) n with
    | some k, some ks => some (k :: ks)
    | _, _ => none

/-- HOST_BAR2_ACCESS: before boot the boot window, which reaches the first 2 GiB of HBM; after it the host windows. A write of a
host that is not captain is discarded with NOT_CAPTAIN, in USSTAT before boot and in FMCSTAT after it (log entry 86); an access elsewhere is
an Unsupported Request (R379, R385). A read changes nothing. -/
def execHostBar2Access (p : HostPort) (offset : Nat) (write : Bool) (data : List Byte) (s : State) : Out :=
  let n := data.length
  let s := { s with selfRefresh := false, deepIdle := false }
  if !write then .next s
  else if !s.own.isCaptain p then .next (if s.own.booted then s.discarded p 0x602 else s.usAnswer p 2 0x602 0)
  else if !s.own.booted then
    if s.own.bootWindow && offset + n ≤ 2 ^ 31 then .next (s.hostWrite (cellsFrom offset data)) else .next s
  else
    match lfind (fun w => w.port = p && w.offset ≤ offset && offset + n ≤ w.offset + w.len) s.fmc.wins with
    | none => .next s
    | some w =>
      let va := w.va.toNat + (offset - w.offset)
      match s.vaKeys w.space va n with
      | none => .next s
      | some ks =>
        -- a stack whose partition is frozen holds the write; the host makes it again (R323)
        if ks.any fun k => isHbm k && nget .runs s.hbmPart (stackOf k) = .gated then .next s else .next ((s.dirty w.space va n).hostWrite (ks.zip data))

/-! ### The bundle (R388, R389) -/

/-- One image of a bundle: its 128 header bytes, its signatures, its body. -/
structure BundleImage where
  head : List Byte
  stogal : List Byte
  owner : List Byte
  body : List Byte
deriving DecidableEq, Repr


/-- The bytes of an owner signature by parameter set, taken in the order 128s, 192s, 256s (R388). -/
def ownerSigBytes (ps : BitVec 8) : Nat := if ps = 0 then 7856 else if ps = 1 then 16224 else 29792

/-- The images of a bundle, one after the other (R388). -/
def bundleImages (ps : BitVec 8) : Nat → List Byte → List BundleImage
  | 0, _ => []
  | fuel + 1, bs =>
    if bs.length < 128 then []
    else
      let n := numAt bs 16 8
      let sig := ownerSigBytes ps
      let im : BundleImage :=
        { head := bs.take 128, stogal := (bs.drop 128).take 29792, owner := (bs.drop 29920).take sig
          body := (bs.drop (29920 + sig)).take n }
      im :: bundleImages ps fuel (bs.drop (29920 + sig + n))

/-- KIND of an image. -/
def BundleImage.kind (im : BundleImage) : Nat := numAt im.head 4 1

/-- DIGEST of an image. -/
def BundleImage.digest (im : BundleImage) : List Byte := (im.head.drop 24).take 32

/-- Whether an image passes: header, digest, both signatures (R388, R389). -/
def BundleImage.good (im : BundleImage) (key : List Byte) (ps : BitVec 8) : Bool :=
  numAt im.head 0 4 = 0x4C595848 && numAt im.head 5 3 = 0 && numAt im.head 56 72 = 0 && numAt im.head 16 8 ≤ 2 ^ 28
    && im.body.length = numAt im.head 16 8 && Sha.digest im.body = im.digest
    && Signature.verify 2 Config.stogalKey im.head im.stogal && Signature.verify ps key im.head im.owner

/-- The images by KIND 1 to 4 as BOOT checks them, extending the registers; the index of the first that fails, one missing or
repeated among them. -/
def State.checkBundle (s : State) (ims : List BundleImage) (key : List Byte) (ps : BitVec 8) : List Nat → State × Option Nat
  | [] => (s, none)
  | k :: ks =>
    match ims.filter fun im => im.kind = k with
    | [im] =>
      if im.good key ps then ({ s with own := s.own.extend k im.digest }).checkBundle ims key ps ks else (s, some (k - 1))
    | _ => (s, some (k - 1))

/-- Bring-up step 5 (R396): the fuse map's defective tiles are retired, and context F starts on each tile that is not missing. -/
def State.startFirmware (s : State) : State :=
  let s := s.fuses.foldl (fun s f => s.retireTile (f / 32) (f % 32)) s
  (List.range 1152).foldl (fun s t => if (nget {} s.clusters (t / 24)).missing.contains (t % 24) then s else s.startF t) s

/-- The number of an FMC. -/
def fmcNumber (f : Bool) : Nat := if f then 1 else 0

/-- BOOT (R389): the bundle in the boot window is checked and measured; on success the FMCs start from image 1, FMC 0 active, and load the
rest, and the boot window closes (R385, R396). -/
def execBoot (p : HostPort) (offset len : Nat) (s : State) : Out :=
  s.usCommand p fun s =>
    match s.own.key with
    | none => s.usAnswer p 2 0 0
    | some (key, ps, _) =>
      if s.own.booted then s.usAnswer p 2 0 0
      else if offset + len > 2 ^ 31 then s.usAnswer p 1 0 0
      else
        let ims := bundleImages ps 64 (memBytes s.mem offset len)
        match s.checkBundle ims key ps [1, 2, 3, 4] with
        | (s, some i) => s.usAnswer p 0 0x601 i
        | (s, none) =>
          let body := fun (k : Nat) => match lfind (fun (im : BundleImage) => im.kind = k) ims with | some im => im.body | none => []
          let own := { s.own.extend 5 (Sha.digest key) with booted := true, bootWindow := false }
          let s := { s with
            own := own, fwText := cellsFrom 0 (body 2)
            fmc := { s.fmc with
              active := false, running := true, failed := [], images := [(0, body 1), (1, body 1)], kinds := [(3, body 3), (4, body 4)] } }
          s.startFirmware.usAnswer p 0 0 0

/-! ### Attestation and the owner key store (R390, R391) -/

/-- The hash of the owner key that MR5 and the report take: 32 zero bytes when UNENROLLED. -/
def Owner.keyHash (o : Owner) : List Byte :=
  match o.key with | some (k, _, _) => Sha.digest k | none => List.replicate 32 0

/-- The 384 bytes of a report (R390). -/
def Owner.report (o : Owner) (p : HostPort) (nonce : BitVec 256) : List Byte :=
  leBytes 8 1 ++ leBytes 8 (o.ownstat p).toNat ++ leBytes 16 o.serial.toNat ++ leBytes 8 o.transfers.toNat ++ o.keyHash
    ++ ((List.range 8).flatMap fun i => mrBytes (nget 0 o.mrs i)) ++ leBytes 32 nonce.toNat ++ List.replicate 24 0

/-- ATTEST, open to any host (R390): the signed report, or with a zero nonce the certificate, to the Usmond buffer. -/
def execAttest (p : HostPort) (nonce : BitVec 256) (s : State) : Out :=
  let r := s.own.report p nonce
  let bs := if nonce = 0 then Config.certificate else r ++ Config.attestSignature r
  let cells := (cellsFrom 0 bs).filter fun c => c.1 < 65536
  let o := s.own
  let own := if p then { o with usbuf1 := memPut o.usbuf1 cells } else { o with usbuf0 := memPut o.usbuf0 cells }
  .next (({ s with own := own } : State).usAnswer p 0 0 0)

/-- The message of a release or recovery: the device serial and the current transfer count. -/
def Owner.transferMessage (o : Owner) : List Byte := leBytes 16 o.serial.toNat ++ leBytes 8 o.transfers.toNat

/-- Clears the key and the owner id and counts the transfer, in one write (R391 step 3). -/
def Owner.clearKey (o : Owner) : Owner := { o with key := none, transfers := o.transfers + 1 }

/-- A release or recovery with what verifies it (R391). -/
def State.transfer (s : State) (p : HostPort) (msg : List Byte) (ok : Bool) : State :=
  if s.own.booted then s.usAnswer p 2 0 0
  else if msg = s.own.transferMessage && ok then ({ s with own := s.own.clearKey } : State).usAnswer p 0 0 0
  else s.usAnswer p 0 0x601 0

/-- RELEASE: signed by the current owner key (R391). -/
def execRelease (p : HostPort) (msg sig : List Byte) (s : State) : Out :=
  s.usCommand p fun s =>
    s.transfer p msg (match s.own.key with | some (k, ps, _) => Signature.verify ps k msg sig | none => false)

/-- RECOVER: signed by the Stogal key (R391). -/
def execRecover (p : HostPort) (msg sig : List Byte) (s : State) : Out :=
  s.usCommand p fun s => s.transfer p msg (Signature.verify 2 Config.stogalKey msg sig)

/-- ENROL: only while OWNER = 0 (R391). -/
def execEnrol (p : HostPort) (key : List Byte) (paramSet : BitVec 8) (ownerId : Word) (s : State) : Out :=
  s.usCommand p fun s =>
    if s.own.booted || s.own.key.isSome then s.usAnswer p 2 0 0
    else if paramSet > 2 then s.usAnswer p 1 0 0
    else ({ s with own := { s.own with key := some (key, paramSet, ownerId) } } : State).usAnswer p 0 0 0

/-! ### Launch queues (R344, R384) -/

/-- LQ_CREATE: the lowest free queue number, 0-63. -/
def execLqCreate (p : HostPort) (space : Nat) (ring : Word) (log2 : Nat) (doorbell : Word) (s : State) : Out :=
  s.request p fun s =>
    if log2 < 4 || log2 > 16 || ring.toNat % 32 ≠ 0 || doorbell.toNat % 8 ≠ 0 then s.answer p 1 0 0
    else
      match lfind (fun i => (nget? s.fmc.queues i).isNone) (List.range 64) with
      | none => s.answer p 2 0 0
      | some i =>
        let q : LaunchQueue := { space := space, ring := ring, log2 := log2, doorbell := doorbell }
        ({ s with fmc := { s.fmc with queues := nset s.fmc.queues i q } } : State).answer p 0 0 (BitVec.ofNat 64 i)

/-- LQ_DESTROY: entries not taken are discarded with CODE 0x502. -/
def execLqDestroy (p : HostPort) (queue : Nat) (s : State) : Out :=
  s.request p fun s =>
    match nget? s.fmc.queues queue with
    | none => s.answer p 1 0 0
    | some q =>
      let left := (q.produced - q.taken).toNat
      let s := (List.range left).foldl (fun s i => s.answerEntry q ((q.taken.toNat + i) % 2 ^ 32) 0x502 0) s
      ({ s with fmc := { s.fmc with queues := nerase s.fmc.queues queue } } : State).answer p 0 0 0

/-! ### Memory (R329-R335, R384) -/

/-- Whether a MAP keeps R329: a page size of the table, VA and length in whole pages, all within the 56 bits of a device address. -/
def mapFits (shift a len : Nat) : Bool := len % 2 ^ shift = 0 && a % 2 ^ shift = 0 && a + len ≤ 2 ^ 56

/-- log2 of a page size as MAP names it: 64 KiB, 2 MiB, 1 GiB in ascending order (R329, log entry 35). -/
def pageShift (page : BitVec 2) : Option Nat :=
  if page = 0 then some 16 else if page = 1 then some 21 else if page = 2 then some 30 else none

/-- MAP: pages of an address space, filled from a physical source or with zeros; REFUSED beyond the HBM limit in force, or where
it breaks R329-R330 (R384). A MAP of no byte, or from a source outside HBM, is a bad request (log entry 35). -/
def execMap (p : HostPort) (root va : Word) (len : Nat) (page : BitVec 2) (w : Bool) (source : Option Nat) (s : State) : Out :=
  s.request p fun s =>
    let badSource := match source with | some x => x + len > 0xC000000000 | none => false
    if len = 0 || badSource then s.answer p 1 0 0
    else
      match pageShift page with
      | none => s.answer p 2 0 0
      | some shift =>
        if !mapFits shift va.toNat len || !s.hbmRoom root.toNat len then s.answer p 2 0 0
        else
          match s.mapPages root.toNat shift w (len / 2 ^ shift) va.toNat source with
          | some t => t.answer p 0 0 0
          | none => s.answer p 2 0 0

/-- UNMAP: every page of the range, by R335; the request ends when the counts have drained. -/
def execUnmap (p : HostPort) (root va : Word) (len : Nat) (s : State) : Out :=
  s.request p fun s =>
    let space := root.toNat
    let pages := s.fmc.mappings.filter fun m => m.space = space && m.va < va.toNat + len && va.toNat < m.va + 2 ^ m.log2
    if len = 0 || pages.any (fun m => m.va < va.toNat || va.toNat + len < m.va + 2 ^ m.log2) then s.answer p 1 0 0
    else if pages.isEmpty then s.answer p 0 0 0
    else ((pages.foldl (fun s m => s.beginUnmap space m.va (some p) none) (s.stayBusy p))).endUnmaps

/-- HOSTWIN: a range of an address space at a free BAR2 offset of this port. -/
def execHostwin (p : HostPort) (space : Nat) (va : Word) (len offset : Nat) (s : State) : Out :=
  s.request p fun s =>
    if len = 0 || offset + len > 2 ^ 34 then s.answer p 1 0 0
    else if s.fmc.wins.any fun w => w.port = p && w.offset < offset + len && offset < w.offset + w.len then s.answer p 2 0 0
    else
      let w : HostWin := { port := p, offset := offset, len := len, space := space, va := va }
      ({ s with fmc := { s.fmc with wins := s.fmc.wins ++ [w] } } : State).answer p 0 0 0

/-! ### Grants (R386, R387) -/

/-- Whether the fields of a GRANT payload lie in their ranges (R387). -/
def grantOk (b : List Byte) : Bool :=
  let f := numAt b
  let zero := fun (lo n : Nat) => f lo n = 0
  let common := b.length = 128 && 1 ≤ f 4 4 && f 4 4 ≤ 10000 && f 8 8 % 4096 = 0 && 4096 ≤ f 8 8 && f 8 8 ≤ 2 ^ 32
    && f 16 8 % 4096 = 0 && f 24 8 % 4096 = 0 && 2 ≤ f 48 4 && f 48 4 ≤ 65536
  let at_ := fun (o n size : Nat) => f o 1 + n ≤ size
  if f 2 1 = 0 then common && zero 3 1 && 9 ≤ f 52 1 && f 52 1 ≤ 16 && zero 53 75
  else if f 2 1 = 1 then
    let sq := 2 ^ f 53 1
    let cq := 2 ^ f 54 1
    common && f 3 1 ≤ 7 && zero 52 1 && 6 ≤ f 53 1 && f 53 1 ≤ 8 && 4 ≤ f 54 1 && f 54 1 ≤ 7 && 16 ≤ f 55 1 && f 55 1 ≤ min 64 sq
      && at_ 56 8 sq && at_ 57 4 sq && at_ 58 4 sq && at_ 59 8 sq && at_ 60 8 sq && at_ 61 1 cq && at_ 62 8 cq && at_ 63 1 cq
      && zero (64 + f 55 1) (64 - f 55 1)
  else false

/-- The queue pair of a grant is let go (R386): the reads posted there still complete or time out, under a number above the table's. -/
def State.releasePair (s : State) (entry : Nat) : State :=
  match nget? s.fmc.pairs entry with
  | none => s
  | some q =>
    let pairs := nerase s.fmc.pairs entry
    if s.xrds.any fun x => x.pair = entry then
      let k := 1 + s.fmc.pairs.foldl (fun m e => max m e.1) 31
      { s with
        xrds := s.xrds.map fun x => if x.pair = entry then { x with pair := k } else x
        fmc := { s.fmc with pairs := nset pairs k q } }
    else { s with fmc := { s.fmc with pairs := pairs } }

/-- GRANT: fills an empty entry (R387). -/
def execGrant (p : HostPort) (payload : List Byte) (s : State) : Out :=
  s.request p fun s =>
    let entry := numAt payload 1 1
    if numAt payload 0 1 ≠ 1 || entry > 31 || !grantOk payload then s.answer p 1 0 0
    else if (nget? s.fmc.grants entry).isSome then s.answer p 2 0 0
    else
      let s : State := { s with fmc := { s.fmc with
        grants := nset s.fmc.grants entry payload, pairs := nset s.fmc.pairs entry { payload := payload } } }
      s.answer p 0 0 0

/-- REVOKE: empties an entry at once, empty or not (R386, R387). -/
def execRevoke (p : HostPort) (payload : List Byte) (s : State) : Out :=
  s.request p fun s =>
    let entry := numAt payload 1 1
    if numAt payload 0 1 ≠ 2 || payload.length ≠ 128 || entry > 31 || numAt payload 2 126 ≠ 0 then s.answer p 1 0 0
    else
      let s := s.releasePair entry
      ({ s with fmc := { s.fmc with grants := nerase s.fmc.grants entry } } : State).answer p 0 0 0

/-! ### Policy, roots, the pod -/

/-- POD: the descriptor that discovery compares with; MR6 is extended with its SHA-256 (R375, R390). -/
def execPod (p : HostPort) (d : PodDesc) (s : State) : Out :=
  s.request p fun s =>
    let bad := d.hopw < 1 || d.hopw > 13 || d.modules.any (fun m => m.2 > 1023) || d.links.any (fun l => l.portA > 23 || l.portB > 23)
    if bad then s.answer p 1 0 0
    else
      ({ s with
        own := s.own.extend 6 (Sha.digest (Config.podBytes d)), fmc := { s.fmc with podDesc := some d } } : State).answer p 0 0 0

/-- POLICY: the scheduling quantum in ms (R351). -/
def execPolicy (p : HostPort) (quantum : Nat) (s : State) : Out :=
  s.request p fun s =>
    if quantum < 1 || quantum > 1000 then s.answer p 1 0 0
    else ({ s with fmc := { s.fmc with quantum := quantum } } : State).answer p 0 0 0

/-- ROOT: a root RCB is validated by R341; its argument the manual does not give (log entry 36). -/
def execRoot (p : HostPort) (addr : Word) (s : State) : Out :=
  s.request p fun s =>
    let (s, code, id) := s.submit addr.toNat addr (Config.freeWord s.ticks)
    s.answer p (if code = 0 then 0 else 2) (BitVec.ofNat 12 code) (BitVec.ofNat 64 id)

end Sys2Proof.Machine
end

