-- ==== Sys2Proof/Machine/Patterns.lean ====
section
/-! DEFINITION. The pattern compiler and cache of a cluster, `me.pat` and `me.pcomp` (R218, R219, R264-R274). -/

namespace Sys2Proof.Machine

open Sys2Proof

/-! ### Keys (R264, R265) -/

/-- The cluster of the acting tile. -/
def State.cluster (s : State) : Cluster := nget {} s.clusters (s.tile / 24)

/-- Writes the cluster of the acting tile. -/
def State.setCluster (s : State) (c : Cluster) : State := { s with clusters := nset s.clusters (s.tile / 24) c }

/-- The weight format that an AFMT takes (R264). -/
def patWeights (afmt : BitVec 4) : BitVec 4 := if afmt = 9 then 6 else afmt

/-- A list of keys as pieces. -/
def piecesOf : List Nat → List (Nat × Nat)
  | [] => []
  | k :: t =>
    match piecesOf t with
    | (j, n) :: rest => if j = k + 1 then (k, n + 1) :: rest else (k, 1) :: (j, n) :: rest
    | [] => [(k, 1)]

/-- The key of a pattern (R265) as the cluster's generation stands, for an extent whose bytes stand at these memory keys. -/
def State.patKey (s : State) (id : PatId) (x : Ext) (fmt : BitVec 4) (ks : List Nat) : PatKey :=
  { id := id, gen := s.cluster.genOf id, base := x.base, len := x.bytes, fmt := fmt, range := piecesOf ks }

/-- The identity that a command names. -/
def patIdOf (tid : BitVec 24) (trow tcol : BitVec 8) : PatId := { tid := tid, trow := trow, tcol := tcol }

/-- Whether a command of the ME of some tile of a cluster is in progress. -/
def State.meAlive (s : State) (id : Nat) : Bool := s.tiles.any fun t => (t.2.engine .me).runs.any (·.id = id)

/-- Whether an ME command runs from an entry (R268). -/
def State.patInUse (s : State) (e : PatEntry) : Bool := e.users.any s.meAlive

/-! ### Choosing the path (R267) -/

/-- The active positions of a column in a group of sixteen. -/
def activeIn (mask : BitVec 512) (g : Nat) : Nat := ((rangeFrom (16 * g) 16).filter fun k => mask.getLsbD k).length

/-- The micro-operation words of a group (R267). -/
def groupWords (masks : List (BitVec 512)) (g : Nat) : Nat :=
  (if masks.any fun m => activeIn m g ≠ 0 then 1 else 0) + (masks.map fun m => (activeIn m g + 3) / 4).foldl (· + ·) 0

/-- The pattern size W of R267. -/
def patternWords (masks : List (BitVec 512)) : Nat := 2 + ((List.range 8).map (groupWords masks)).foldl (· + ·) 0

/-- Whether a tile takes the dense path (R267). -/
def densePath (thresh : Nat) (masks : List (BitVec 512)) : Bool :=
  let nnz := (masks.map fun m => ((List.range 8).map (activeIn m)).foldl (· + ·) 0).foldl (· + ·) 0
  nnz * 100 > thresh * 16384 || patternWords masks > 4096

/-! ### Reading a tile (R264, R269) -/

/-- The keys of a watched range, in the order of the extent. -/
def rangeKeys (range : List (Nat × Nat)) : List Nat := range.flatMap fun p => rangeFrom p.1 p.2

/-- The mask of column `n`, from the keys of the tile. -/
def tileMask (m : List Host.Cell) (ks : List Nat) (at_ n : Nat) : BitVec 512 :=
  BitVec.ofNat 512 (leNat (((ks.drop (at_ + 16 * n)).take 16).map (memGet m)))

/-- The keys that a compile or a staging reads: the bitmap and the weights of active positions (R264, R269), each beside its
offset in the extent. -/
def tileReads (fmt : BitVec 4) (ks : List Nat) (masks : List (BitVec 512)) : List (Nat × Nat) :=
  let es := elemBytes fmt
  let all := ks.zip (List.range ks.length)
  let bytes := 16384 * es
  (all.drop bytes) ++ (all.take bytes).filter fun p => (lget 0 masks (p.2 / (128 * es))).getLsbD (p.2 / es % 128)

/-- What reading a tile comes to. -/
inductive TileRead
  | done (cols : NMap (List MCell)) (masks : List (BitVec 512)) (resp : Clock) (s : State)
  | fault (code : BitVec 12) (tval : Word)
deriving DecidableEq, Repr

/-- Reads a tile in the masked-dense form for a command (R264, R269): poison stops it, and so does an unordered write. -/
def State.readTile (s : State) (clock : Clock) (cmd : Nat) (base : Word) (fmt : BitVec 4) (ks : List Nat) : TileRead :=
  let es := elemBytes fmt
  let masks := (List.range 128).map (tileMask s.mem ks (16384 * es))
  let reads := tileReads fmt ks masks
  let addr := fun (k : Nat) => base.toNat + (match lfind (fun p => p.1 = k) reads with | some p => p.2 | none => 0)
  let keys := reads.map Prod.fst
  let resp := s.responses keys
  match firstPoison s keys, firstRace s (clock.join resp) (cmdAgent cmd) keys false false with
  | some k, _ => .fault 0x110 (sectorAddr (addr k))
  | none, some k => .fault 0x201 (BitVec.ofNat 64 (addr k))
  | none, none =>
    let col := fun (n : Nat) =>
      cellsOf fmt (leNat (((ks.drop (128 * es * n)).take (128 * es)).map (memGet s.mem))) 128
    let cols := (List.range 128).map fun n =>
      (n, ((col n).zip (List.range 128)).map fun p => if (lget 0 masks n).getLsbD p.2 then p.1 else { bits := 0 })
    .done cols masks resp (noteRead s (clock.join resp) (cmdAgent cmd) keys false)

/-! ### The cache (R268, R269) -/

/-- The bytes that an entry's words take in the cache. -/
def PatEntry.bytes (e : PatEntry) : Nat := (8 * e.words + 63) / 64 * 64

/-- Discards the least recently used entries that are not in use until `bytes` more and one entry fit (R268). -/
def State.makeRoom (s : State) (bytes : Nat) : Nat → List PatEntry → List PatEntry
  | 0, es => es
  | fuel + 1, es =>
    let used := (es.map PatEntry.bytes).foldl (· + ·) 0
    if es.length < 256 && used + bytes ≤ 2 ^ 20 then es
    else if es.any fun e => !s.patInUse e then s.makeRoom bytes fuel (ldrop (fun e => !s.patInUse e) es)
    else es

/-- Looks a key up for a command, which then uses the entry; the entry becomes the most recently used (R268, R269). -/
def State.patHit (s : State) (k : PatKey) (cmd : Nat) : Option (PatEntry × State) :=
  let c := s.cluster
  match lfind (fun e => e.key = k) c.cache with
  | none => none
  | some e =>
    let e := { e with users := cmd :: e.users.filter s.meAlive }
    some (e, s.setCluster { c with cache := ldrop (fun x => x.key = k) c.cache ++ [e] })

/-- Enters a compile into the cluster's queue, or joins the one of the identity that is there (R269): none where the queue is full; a
stale entry of the identity is discarded (R265). -/
def State.requestCompile (s : State) (r : Run) (k : PatKey) (waits : Bool) : Option State :=
  let c := s.cluster
  if c.compiles.any fun q => q.key.id = k.id then some s
  else if c.compiles.length ≥ 32 then none
  else
    let q : Compile := {
      key := k, tile := s.tile, cmd := r.id, waits := waits, thresh := s.thresh, clock := r.clock }
    some (s.setCluster { c with
      cache := c.cache.filter (fun e => !(e.key.id = k.id && e.key ≠ k && !s.patInUse e)), compiles := c.compiles ++ [q] })

/-- A compile fault (R269, R271): it stops the requesting ME where its command waits; else it is dropped without a trace. -/
def State.compileFault (s : State) (q : Compile) (code : BitVec 12) (tval : Word) : State :=
  let c := s.cluster
  let s := s.setCluster { c with compiles := c.compiles.drop 1 }
  let g := (s.tileAt q.tile).engine .me
  match g.run? q.cmd with
  | some r =>
    if q.waits && g.fault.isNone then
      s.engineFault q.tile .me r.owner (some r.id)
        { engine := .me, code := code, sect := r.sect, widx := 0, upc := r.upc, tval := tval }
    else s
  | none => s

/-! ### Watch tables (R266, R338) -/

/-- The watch table that a memory key belongs to, by number, and its size: a tile's scratchpad, a cluster's L2, an HBM stack. -/
def watchTable (k : Nat) : Nat × Nat :=
  if isHbm k then (stackOf k, 1024)
  else if k < 2 ^ 49 then (16 + (k - 2 ^ 48) / 2 ^ 20, 16)
  else (16 + 2 ^ 16 + (k - 2 ^ 49) / 2 ^ 24, 256)

/-- The tables that a range is held in: those of its lines. -/
def watchTables (range : List (Nat × Nat)) : List (Nat × Nat) :=
  (range.flatMap fun p => (List.range (p.2 / 32 + 2)).filterMap fun i =>
    let k := max p.1 ((p.1 / 32 + i) * 32)
    if k < p.1 + p.2 then some (watchTable k) else none).eraseDups

/-- The ranges that stand in a watch table: of cache entries, each with its cluster, and of compiles that have registered. -/
def State.watchers (s : State) (table : Nat × Nat) : List (Nat × PatEntry) × Nat :=
  let inTable := fun (range : List (Nat × Nat)) => (watchTables range).contains table
  (s.clusters.flatMap fun c => (c.2.cache.filter fun e => inTable e.key.range).map fun e => (c.1, e),
   ((s.clusters.map fun c => (c.2.compiles.filter fun q => q.since.isSome && inTable q.key.range).length).foldl (· + ·) 0))

/-- The oldest of some ranges. -/
def oldestRange : List (Nat × PatEntry) → Option (Nat × PatEntry)
  | [] => none
  | x :: t => match oldestRange t with | some y => if y.2.since < x.2.since then some y else some x | none => some x

/-- Room for a range in a watch table (R338): where it is full, the oldest range whose entry is not in use is released, and its cluster
discards the entry; none where all are in use. -/
def State.watchRoom (s : State) (table : Nat × Nat) : Option State :=
  let w := s.watchers table
  if w.1.length + w.2 < table.2 then some s
  else
    match oldestRange (w.1.filter fun x => !s.patInUse x.2) with
    | none => none
    | some x => some { s with
        clusters := nmod {} s.clusters x.1 fun c => { c with cache := c.cache.filter fun e => e ≠ x.2 } }

/-- Registers the range of the compile at the head of the queue in every table that it needs, in one step (R338). -/
def State.register (s : State) (q : Compile) : Option State :=
  if q.since.isSome then some s
  else (watchTables q.key.range).foldl (fun s t => s.bind fun s => s.watchRoom t) (some s)

/-- PATTERN_COMPILE: the first compile of the queue of the acting tile's cluster registers its range, takes its generation and a place,
reads the tile and builds the pattern (R269, R338); it waits while a watch table has no room for it. -/
def execPatternCompile (s : State) : Out :=
  let c := s.cluster
  match c.compiles with
  | [] => .next s
  | q :: rest =>
    match if q.built.isSome || (rangeKeys q.key.range).any (s.held q.tile) then none else s.register q with
    | none => .next s
    | some s =>
      let g0 := c.genOf q.key.id
      let since := match q.since with | some t => t | none => s.ticks
      match s.readTile q.clock q.cmd q.key.base q.key.fmt (rangeKeys q.key.range) with
      | .fault code v => .next (s.compileFault q code v)
      | .done cols masks resp s =>
        let dense := densePath q.thresh masks
        let e : PatEntry := {
          key := { q.key with gen := g0 }, dense := dense, words := if dense then 0 else patternWords masks, cols := cols
          masks := masks.zip (List.range 128) |>.map fun p => (p.2, p.1)
          since := since, resp := resp }
        let cache := s.makeRoom e.bytes s.cluster.cache.length s.cluster.cache
        .next (s.setCluster { s.cluster with
          cache := cache, compiles := { q with since := some since, g0 := some g0, built := some e } :: rest })

/-- PATTERN_COMPILE_COMPLETE: the compile ends; its entry is installed, or it starts again if the generation has changed
(R269). -/
def execPatternCompileComplete (s : State) : Out :=
  let c := s.cluster
  match c.compiles with
  | [] => .next s
  | q :: rest =>
    match q.built, q.g0 with
    | some e, some g0 =>
      if c.genOf q.key.id ≠ g0 then
        .next (s.setCluster { c with compiles := { q with g0 := none, built := none } :: rest })
      else
        let cache := (c.cache.filter fun x => !(x.key.id = q.key.id && !s.patInUse x)) ++ [e]
        .next (s.setCluster { c with cache := cache, compiles := rest })
    | _, _ => .next s

/-! ### `me.pat` (R218, R219) -/

/-- The first address of an extent that no key stands behind. -/
def State.unreached (s : State) (r : Run) (x : Ext) : Word :=
  match lfind (fun i => (s.runKey .me r (x.base.toNat + i)).isNone) (List.range x.bytes) with
  | some i => BitVec.ofNat 64 (x.base.toNat + i)
  | none => x.base

/-- The entry that a command runs from. -/
def State.patOf (s : State) (cmd : Nat) : Option PatEntry := lfind (fun e => e.users.contains cmd) s.cluster.cache

/-- Binds a pattern to a command (R27, R269): on the dense path the tile is staged, its reads those of the command (R270). -/
def State.bindPat (s : State) (r : Run) (k : PatKey) : Option State :=
  match s.patHit k r.id with
  | none => none
  | some (e, t) =>
    let bound := fun (r : Run) (t : State) => (t.setMe { t.me with pat := some (e.key.id, e.key.gen) }).setRun .me
      { r with work := { r.work with checked := true } }
    if !e.dense then some (bound { r with clock := r.clock.join e.resp } t)
    else if (rangeKeys k.range).any (s.held s.tile) then some (s.setRun .me r)
    else
      match s.readTile r.clock r.id k.base k.fmt (rangeKeys k.range) with
      | .fault code v => some (s.faultAt .me r code v)
      | .done _ _ resp u =>
        match u.patHit k r.id with
        | some (_, u) => some (bound { r with clock := r.clock.join resp } u)
        | none => none

/-- One row of `me.pat` (R211, R218). -/
def State.patRow (s : State) (c : PatCmd) (r : Run) (e : PatEntry) : State :=
  let m := s.me
  let j := r.work.i
  if r.work.finishing || j > c.count.toNat then
    let s := if c.ip then s.setMe { s.me with ipReads := s.me.ipReads.join (r.clock.release (cmdAgent r.id)) } else s
    s.rowsDone r (if r.work.finishing then [] else [portMa])
  else if (m.bank c.bank).state ≠ .opened then s.faultAt .me r 0x132 (BitVec.ofNat 64 c.bank.toNat)
  else
    let r := { r with upc := microCount j }
    let lanes := runBits c.afmt 128 / 64
    match s.gatherWords portMa lanes r 200 with
    | .waits r s => s.setRun .me r
    | .ended r s => s.setRun .me { r.raise Flag.len with work := { r.work with finishing := true } }
    | .full v r s =>
      let row := (c.base.toNat + j) % 256
      let r' := { r with work := { r.work with i := j + 1, complete := false, finishing := r.work.complete, resp := [] } }
      let r' := if r.work.complete then r'.raise Flag.len else r'
      let held := { r with work := { r.work with held := (wordsOf lanes (leBytes (8 * lanes) v)).reverse } }
      if row ≥ (m.bank c.bank).nrows then s.faultAt .me held 0x131 (BitVec.ofNat 64 row)
      else
        match s.fire r c.bank row c.afmt (cellsOf c.afmt v 128) (.tile e.key.fmt e.cols e.masks)
          (r.work.resp.join e.resp) with
        | some s => s.setRun .me r'
        | none => s.faultAt .me held 0x134 (BitVec.ofNat 64 c.bank.toNat)

/-- ME_PAT (R218, R219): the pattern is bound, or its compile awaited; then the rows. -/
def execMePat (c : PatCmd) (s : State) : Out :=
  match s.resumeMe (.mePat c) with
  | none => .next s
  | some (r, s) =>
    match if r.work.checked then s.patOf r.id else none with
    | some e => .next (s.patRow c r e)
    | none =>
      match s.runKeys .me r c.ext.base.toNat c.ext.bytes with
      | none => .next (s.faultAt .me r 0x105 (s.unreached r c.ext))
      | some ks =>
        let k := s.patKey (patIdOf c.tid c.trow c.tcol) c.ext (patWeights c.afmt) ks
        match s.bindPat r k with
        | some s => .next s
        | none => .next ((match s.requestCompile r k true with | some s => s | none => s).setRun .me r)

/-- ME_PCOMP (R271). -/
def execMePcomp (c : PcompCmd) (s : State) : Out :=
  match s.resumeMe (.mePcomp c) with
  | none => .next s
  | some (r, s) =>
    match s.runKeys .me r c.ext.base.toNat c.ext.bytes with
    | none => .next (if c.wait then s.faultAt .me r 0x105 (s.unreached r c.ext) else s.complete .me r)
    | some ks =>
      let k := s.patKey (patIdOf c.tid c.trow c.tcol) c.ext c.fmt ks
      if s.cluster.cache.any fun e => e.key = k then .next (s.complete .me r)
      else
        match s.requestCompile r k c.wait with
        | none => .next (s.setRun .me r)
        | some s => .next (if c.wait then s.setRun .me r else s.complete .me r)

end Sys2Proof.Machine
end

