-- ==== Sys2Proof/Machine/Service.lean ====
section
/-! DEFINITION. Service in operation (R325, R393, R397-R399) and the FMC's scheduling pass (R349), which ends what such requests began. -/

namespace Sys2Proof.Machine

open Sys2Proof

/-! ### Service actions (R397) -/

/-- Writes a cluster. -/
def State.modCluster (s : State) (c : Nat) (f : Cluster → Cluster) : State := { s with clusters := nmod {} s.clusters c f }

/-- A DRAIN begins: the cluster is fenced, every region with a tile there is unmapped, and the request ends in a pass (R397, R398). -/
def State.drainAct (s : State) (p : HostPort) (c : Nat) : State :=
  let s := (s.modCluster c fun x => { x with fenced := true }).stayBusy p
  let d : Draining := { cluster := c, port := some p }
  let s : State := { s with fmc := { s.fmc with drains := s.fmc.drains ++ [d] } }
  (s.regionsOn c).foldl (fun (s : State) (r : Region) => s.blow r.id) s

/-- UNDRAIN lifts the fence. -/
def State.undrainAct (s : State) (p : HostPort) (c : Nat) : State :=
  (s.modCluster c fun x => { x with fenced := false }).answer p 0 0 0

/-- SPARE: on a drained cluster a physical tile is retired, and a spare takes its place (R324); on a cluster that is not drained it is REFUSED
(log entry 86). -/
def State.spareAct (s : State) (p : HostPort) (t : Nat) : State :=
  let c := t / 32
  if !(nget {} s.clusters c).fenced || !(s.regionsOn c).isEmpty then s.answer p 2 0 0 else (s.retireTile c (t % 32)).answer p 0 0 0

/-- PORTDOWN: the port goes down as by a failure (R377). -/
def State.portdownAct (s : State) (p : HostPort) (q : Nat) : State := (s.portDown q).answer p 0 0 0

/-- PORTUP: the port retrains, and steps 2 to 5 of R375 run for it; whether its peers answer, a choice says. With no peer found the port
stays down; the records that waited for a port leave by the new routes. -/
def State.portupAct (s : State) (p : HostPort) (q : Nat) : State :=
  let (n, s) := s.choose
  let found := if n = 0 then s.peersIn s.podLinks q else []
  let u := s.uaport q
  let u := if found.isEmpty then { u with up := false, found := [] } else { u with up := true, lanes := 4, found := found }
  ((s.setUaport q u).fillScopes.repost).answer p 0 0 0

/-- RETIRE: the frame is retired by R336, and the request ends when its pages have moved. -/
def State.retireAct (s : State) (p : HostPort) (f : Nat) : State :=
  let s := (s.stayBusy p).beginRetire f (some p)
  if s.fmc.unmaps.any (·.port = some p) then s else s.answer p 0 0 0

/-- The range of TARGET of each OP (R397). -/
def serviceTarget (op t : Nat) : Bool :=
  if op = 1 || op = 2 then t < 48
  else if op = 3 then t / 32 < 48 && t % 32 < 26
  else if op = 4 || op = 5 then t < 24
  else if op = 6 then t < 0xC00000
  else op = 7 && t = 0

/-- Whether a SERVICE payload is what R397 lays out for an OP; of every TARGET but RETIRE's the upper two bytes are zero. -/
def servicePayload (op : Nat) (payload : List Byte) : Bool :=
  payload.length = 8 && numAt payload 0 1 = op && numAt payload 5 3 = 0 && (op = 6 || numAt payload 3 2 = 0)
    && serviceTarget op (numAt payload 1 4)

/-- Serves a SERVICE request (R397). -/
def State.serviceDo (s : State) (p : HostPort) (op : Nat) (payload : List Byte) : State :=
  let t := numAt payload 1 4
  if !servicePayload op payload then s.answer p 1 0 0
  else if op = 1 then s.drainAct p t
  else if op = 2 then s.undrainAct p t
  else if op = 3 then s.spareAct p t
  else if op = 4 then s.portdownAct p t
  else if op = 5 then s.portupAct p t
  else if op = 6 then s.retireAct p t
  else s.moduleReset

/-- A SERVICE request: one that comes while a checkpoint runs waits, BUSY, until it ends (R398). -/
def State.service (s : State) (p : HostPort) (op : Nat) (payload : List Byte) : Out :=
  s.request p fun s =>
    if s.fmc.ckptRegions.isSome then
      let s := s.stayBusy p
      { s with fmc := { s.fmc with held := s.fmc.held ++ [(p, op, payload)] } }
    else s.serviceDo p op payload

/-- DRAIN (R397). -/
def execDrain (p : HostPort) (payload : List Byte) (s : State) : Out := s.service p 1 payload

/-- UNDRAIN (R397). -/
def execUndrain (p : HostPort) (payload : List Byte) (s : State) : Out := s.service p 2 payload

/-- SPARE (R397). -/
def execSpare (p : HostPort) (payload : List Byte) (s : State) : Out := s.service p 3 payload

/-- PORTDOWN (R397). -/
def execPortdown (p : HostPort) (payload : List Byte) (s : State) : Out := s.service p 4 payload

/-- PORTUP (R397). -/
def execPortup (p : HostPort) (payload : List Byte) (s : State) : Out := s.service p 5 payload

/-- RETIRE (R397). -/
def execRetire (p : HostPort) (payload : List Byte) (s : State) : Out := s.service p 6 payload

/-- RESET: module reset (R396, R397). -/
def execReset (p : HostPort) (payload : List Byte) (s : State) : Out := s.service p 7 payload

/-! ### Power (R393) -/

/-- POWER: LTOL and PCAP; a unit whose exit latency LTOL no longer allows is awake (R394). -/
def execPower (p : HostPort) (payload : List Byte) (s : State) : Out :=
  s.request p fun s =>
    let cap := numAt payload 4 2
    if payload.length ≠ 8 || numAt payload 6 2 ≠ 0 || (cap ≠ 0 && (cap < 1500 || cap > 4500)) then s.answer p 1 0 0
    else
      (({ s with fmc := { s.fmc with
        ltol := BitVec.ofNat 32 (numAt payload 0 4), pcap := BitVec.ofNat 16 (if cap = 0 then 4500 else cap) } } : State).stayAwake
          (numAt payload 0 4)).answer p 0 0 0

/-! ### Checkpoints (R325) -/

/-- The regions that hold tiles. -/
def State.placedRegions (s : State) : List Nat := (s.regions.filter fun q => !q.2.place.isEmpty).map Prod.fst

/-- CHECKPOINT: every bound region is cut and saved, and the passes that follow end it (R325, log entry 60); one that comes while another
runs is REFUSED. -/
def execCheckpoint (p : HostPort) (order : CheckpointOrder) (s : State) : Out :=
  s.request p fun s =>
    if s.fmc.ckptRegions.isSome then s.answer p 2 0 0
    else
      let placed := s.placedRegions
      let s := s.stayBusy p
      placed.foldl State.blow { s with fmc := { s.fmc with
        ckptRegions := some placed, ckptPort := some p, ckptComplete := order.complete, ckptTier := order.tier } }

/-- A checkpoint goes on: with a region still placed it is cut again; with none all of HBM goes to the safe tier, poisoned sectors with their
poison, which a link failure leaves incomplete, and the record of the end goes to FMCSTAT (R325). The SERVICE requests that waited are
served then (R398). -/
def State.passCheckpoint (s : State) : State :=
  if s.fmc.ckptRegions.isNone then s
  else if !s.placedRegions.isEmpty then s.placedRegions.foldl State.blow s
  else
    let copy : Checkpoint := {
      mem := s.mem.filter fun c => isHbm c.1
      poison := (s.sectors.filter fun q => isHbm (32 * q.1) && q.2.poison).map Prod.fst
      complete := s.fmc.ckptComplete, tier := s.fmc.ckptTier }
    let t : State := { s with fmc := { s.fmc with ckptRegions := none, ckptPort := none, held := [], checkpoint := some copy } }
    let t := match s.fmc.ckptPort with
      | some p => t.answer p (if s.fmc.ckptComplete then 0 else 2) 0 0
      | none => t
    -- a RESET among them leaves no request
    s.fmc.held.foldl (fun t h => if (t.own.fmcStat h.1).busy then t.serviceDo h.1 h.2.1 h.2.2 else t) t

/-! ### The management image (R399) -/

/-- UPDATE: a new management image, checked as BOOT checks it, is measured and loaded by the standby; the FMCs swap after the next pass. -/
def execUpdate (p : HostPort) (image : List Byte) (s : State) : Out :=
  s.usCommand p fun s =>
    match s.own.key, s.own.booted with
    | some (key, ps, _), true =>
      match bundleImages ps 1 image with
      | [im] =>
        if im.kind = 1 && im.good key ps then
          ({ s with
            own := s.own.extend 1 im.digest
            fmc := { s.fmc with
              swap := some im.body, images := nset s.fmc.images (fmcNumber !s.fmc.active) im.body } } : State).usAnswer p 0 0 0
        else s.usAnswer p 0 0x601 0
      | _ => s.usAnswer p 0 0x601 0
    | _, _ => s.usAnswer p 2 0 0

/-- The FMCs swap roles where an image waits and the standby has not failed (log entry 86); the former active loads the same image and is
standby (R399 steps 4 and 5). -/
def State.swapFmcs (s : State) : State :=
  match s.fmc.swap with
  | none => s
  | some body =>
    if s.fmc.failed.contains !s.fmc.active then s
    else { s with fmc := { s.fmc with
      active := !s.fmc.active, swap := none, images := nset s.fmc.images (fmcNumber s.fmc.active) body } }

/-- FMC_FAILOVER: the active FMC fails, and the standby takes over with the roster, the RCBs and every request recorded (R362, R399). A
failed FMC is no standby. -/
def execFmcFailover (s : State) : Out :=
  if !s.fmc.running || s.fmc.failed.contains !s.fmc.active then .next s
  else .next { s with fmc := { s.fmc with active := !s.fmc.active, swap := none, failed := s.fmc.active :: s.fmc.failed } }

/-! ### The scheduling pass (R349) -/

/-- The FMC may reserve HBM as a peer's checkpoint target, a choice of the module and the number of GiB (R372, log entry 60): 0 is no
reservation. -/
def State.passReserve (s : State) : State :=
  let (n, s) := s.choose
  if n = 0 || s.fmc.safeTier.isSome then s
  else
    let size := ((n - 1) / 1024 % 768 + 1) * 2 ^ 30
    match s.takeFrames size with
    | none => s
    | some (base, t) => { t with fmc := { t.fmc with safeTier := some ((n - 1) % 1024, base, size) } }

/-- SCHEDULING_PASS (R349), by the active FMC once it runs; at its end a management image that waits takes over (R399). -/
def execSchedulingPass (s : State) : Out :=
  if !s.fmc.running then .next s
  else .next (s.endUnmaps.passRings.passDrains.passCheckpoint.passEntries.passBudgets.wakeAll.passEnds.passPlace.passPower.passReserve.swapFmcs)

end Sys2Proof.Machine
end

