-- ==== Sys2Proof/Machine/Dispatch.lean ====
section
/-! DEFINITION. One arm for each constructor of `Instr`: one direct call of its meaning. -/

namespace Sys2Proof.Machine

open Sys2Proof

def exec (i : Instr) (s : State) : Host.Outcome State Fault Refusal :=
  match i with
  | .enq e rd rs1 rs2 => Sys2Proof.Machine.execEnq e rd rs1 rs2 s
  | .enqL e rd rs1 rs2 => Sys2Proof.Machine.execEnqL e rd rs1 rs2 s
  | .sect e rd rs1 => Sys2Proof.Machine.execSect e rd rs1 s
  | .qcancel e rd rs1 => Sys2Proof.Machine.execQcancel e rd rs1 s
  | .qstat e rd sel => Sys2Proof.Machine.execQstat e rd sel s
  | .fork rd rs1 rs2 => Sys2Proof.Machine.execFork rd rs1 rs2 s
  | .rdv rd rs1 => Sys2Proof.Machine.execRdv rd rs1 s
  | .yield => Sys2Proof.Machine.execYield s
  | .trigger => Sys2Proof.Machine.execTrigger s
  | .waitdep rd => Sys2Proof.Machine.execWaitdep rd s
  | .cwait rd rs1 => Sys2Proof.Machine.execCwait rd rs1 s
  | .contract rd rs1 => Sys2Proof.Machine.execContract rd rs1 s
  | .flgGather rd rs1 rs2 => Sys2Proof.Machine.execFlgGather rd rs1 rs2 s
  | .lxTret => Sys2Proof.Machine.execLxTret s
  | .barArr rd rs1 bar scope => Sys2Proof.Machine.execBarArr rd rs1 bar scope s
  | .barWait rd rs1 bar => Sys2Proof.Machine.execBarWait rd rs1 bar s
  | .sywArm rs1 rs2 => Sys2Proof.Machine.execSywArm rs1 rs2 s
  | .sywWait rd rs1 rs2 scope => Sys2Proof.Machine.execSywWait rd rs1 rs2 scope s
  | .ldAcqB rd rs1 off scope => Sys2Proof.Machine.execLdAcqB rd rs1 off scope s
  | .ldAcqH rd rs1 off scope => Sys2Proof.Machine.execLdAcqH rd rs1 off scope s
  | .ldAcqW rd rs1 off scope => Sys2Proof.Machine.execLdAcqW rd rs1 off scope s
  | .ldAcqD rd rs1 off scope => Sys2Proof.Machine.execLdAcqD rd rs1 off scope s
  | .ldAcqBu rd rs1 off scope => Sys2Proof.Machine.execLdAcqBu rd rs1 off scope s
  | .ldAcqHu rd rs1 off scope => Sys2Proof.Machine.execLdAcqHu rd rs1 off scope s
  | .ldAcqWu rd rs1 off scope => Sys2Proof.Machine.execLdAcqWu rd rs1 off scope s
  | .stRelB rs2 rs1 off scope => Sys2Proof.Machine.execStRelB rs2 rs1 off scope s
  | .stRelH rs2 rs1 off scope => Sys2Proof.Machine.execStRelH rs2 rs1 off scope s
  | .stRelW rs2 rs1 off scope => Sys2Proof.Machine.execStRelW rs2 rs1 off scope s
  | .stRelD rs2 rs1 off scope => Sys2Proof.Machine.execStRelD rs2 rs1 off scope s
  | .fenceSc scope => Sys2Proof.Machine.execFenceSc scope s
  | .fenceAcq scope => Sys2Proof.Machine.execFenceAcq scope s
  | .fenceRel scope => Sys2Proof.Machine.execFenceRel scope s
  | .launch rd rs1 rs2 rs3 => Sys2Proof.Machine.execLaunch rd rs1 rs2 rs3 s
  | .fence fm pred succ rd rs1 => Sys2Proof.Machine.execFence fm pred succ rd rs1 s
  | .ecallExit => Sys2Proof.Machine.execEcallExit s
  | .ecallAbort => Sys2Proof.Machine.execEcallAbort s
  | .ecallReserved => Sys2Proof.Machine.execEcallReserved s
  | .ebreak => Sys2Proof.Machine.execEbreak s
  | .load op rd rs1 imm => Sys2Proof.Machine.execLoad op rd rs1 imm s
  | .store op rs1 rs2 imm => Sys2Proof.Machine.execStore op rs1 rs2 imm s
  | .jumpBranch j => Sys2Proof.Machine.execJumpBranch j s
  | .integerOperation op => Sys2Proof.Machine.execIntegerOperation op s
  | .illegalInstruction bits => Sys2Proof.Machine.execIllegalInstruction bits s
  | .lxFlagsWrite form rd src => Sys2Proof.Machine.execLxFlagsWrite form rd src s
  | .lxFwshareWrite form rd src => Sys2Proof.Machine.execLxFwshareWrite form rd src s
  | .csrWrite form csr rd src => Sys2Proof.Machine.execCsrWrite form csr rd src s
  | .enqStallEnd => Sys2Proof.Machine.execEnqStallEnd s
  | .rdvReturn => Sys2Proof.Machine.execRdvReturn s
  | .barWaitPass => Sys2Proof.Machine.execBarWaitPass s
  | .sywWaitPass => Sys2Proof.Machine.execSywWaitPass s
  | .waitdepPass => Sys2Proof.Machine.execWaitdepPass s
  | .cwaitReturn => Sys2Proof.Machine.execCwaitReturn s
  | .flgGatherReturn => Sys2Proof.Machine.execFlgGatherReturn s
  | .exitComplete => Sys2Proof.Machine.execExitComplete s
  | .parkThresholdExpiry => Sys2Proof.Machine.execParkThresholdExpiry s
  | .engineFaultDelivery => Sys2Proof.Machine.execEngineFaultDelivery s
  | .sectionHeader e => Sys2Proof.Machine.execSectionHeader e s
  | .engineNop e => Sys2Proof.Machine.execEngineNop e s
  | .programCall e count addr => Sys2Proof.Machine.execProgramCall e count addr s
  | .programFetch e => Sys2Proof.Machine.execProgramFetch e s
  | .sectionStart e => Sys2Proof.Machine.execSectionStart e s
  | .sectionRetire e => Sys2Proof.Machine.execSectionRetire e s
  | .seAff c => Sys2Proof.Machine.execSeAff c s
  | .seInd c => Sys2Proof.Machine.execSeInd c s
  | .seRec c => Sys2Proof.Machine.execSeRec c s
  | .seMcast c => Sys2Proof.Machine.execSeMcast c s
  | .seBar c => Sys2Proof.Machine.execSeBar c s
  | .seGatePause sid => Sys2Proof.Machine.execSeGatePause sid s
  | .seGateResume sid => Sys2Proof.Machine.execSeGateResume sid s
  | .seGateFinish sid => Sys2Proof.Machine.execSeGateFinish sid s
  | .seBarDrained => Sys2Proof.Machine.execSeBarDrained s
  | .streamRequestIssue slot => Sys2Proof.Machine.execStreamRequestIssue slot s
  | .memoryReadReturn e slot req => Sys2Proof.Machine.execMemoryReadReturn e slot req s
  | .streamDelivery slot => Sys2Proof.Machine.execStreamDelivery slot s
  | .writeStreamUnpack slot => Sys2Proof.Machine.execWriteStreamUnpack slot s
  | .recurrenceForward slot => Sys2Proof.Machine.execRecurrenceForward slot s
  | .streamComplete slot => Sys2Proof.Machine.execStreamComplete slot s
  | .ceCopy c => Sys2Proof.Machine.execCeCopy c s
  | .ceFill c => Sys2Proof.Machine.execCeFill c s
  | .copyChunkWrite slot => Sys2Proof.Machine.execCopyChunkWrite slot s
  | .aeCfg skip ext => Sys2Proof.Machine.execAeCfg skip ext s
  | .aeCfgLoad => Sys2Proof.Machine.execAeCfgLoad s
  | .aeInv omask n => Sys2Proof.Machine.execAeInv omask n s
  | .endClaim => Sys2Proof.Machine.execEndClaim s
  | .aeEnd imask => Sys2Proof.Machine.execAeEnd imask s
  | .aeEndFlush imask => Sys2Proof.Machine.execAeEndFlush imask s
  | .aeEndStart imask => Sys2Proof.Machine.execAeEndStart imask s
  | .aeGateOpen pmask => Sys2Proof.Machine.execAeGateOpen pmask s
  | .aeGateClose pmask => Sys2Proof.Machine.execAeGateClose pmask s
  | .aeStat c => Sys2Proof.Machine.execAeStat c s
  | .groupFiring g => Sys2Proof.Machine.execGroupFiring g s
  | .drainingFiring g => Sys2Proof.Machine.execDrainingFiring g s
  | .markerHead g => Sys2Proof.Machine.execMarkerHead g s
  | .linkPacketArrival link => Sys2Proof.Machine.execLinkPacketArrival link s
  | .controlTransferArrival link => Sys2Proof.Machine.execControlTransferArrival link s
  | .snapshot g => Sys2Proof.Machine.execSnapshot g s
  | .meWld c => Sys2Proof.Machine.execMeWld c s
  | .meSpw c => Sys2Proof.Machine.execMeSpw c s
  | .meScl c => Sys2Proof.Machine.execMeScl c s
  | .swapTokenPass => Sys2Proof.Machine.execSwapTokenPass s
  | .meAcc c => Sys2Proof.Machine.execMeAcc c s
  | .meRow c => Sys2Proof.Machine.execMeRow c s
  | .meGath c => Sys2Proof.Machine.execMeGath c s
  | .accumulatorWrite => Sys2Proof.Machine.execAccumulatorWrite s
  | .meEnd c => Sys2Proof.Machine.execMeEnd c s
  | .meRecRec c => Sys2Proof.Machine.execMeRecRec c s
  | .meRecScan c => Sys2Proof.Machine.execMeRecScan c s
  | .mePat c => Sys2Proof.Machine.execMePat c s
  | .mePcomp c => Sys2Proof.Machine.execMePcomp c s
  | .meDg c => Sys2Proof.Machine.execMeDg c s
  | .patternCompile => Sys2Proof.Machine.execPatternCompile s
  | .patternCompileComplete => Sys2Proof.Machine.execPatternCompileComplete s
  | .saOpAdd c => Sys2Proof.Machine.execSaOpAdd c s
  | .saOpMin c => Sys2Proof.Machine.execSaOpMin c s
  | .saOpMax c => Sys2Proof.Machine.execSaOpMax c s
  | .saOpOr c => Sys2Proof.Machine.execSaOpOr c s
  | .saOpAnd c => Sys2Proof.Machine.execSaOpAnd c s
  | .saOpXor c => Sys2Proof.Machine.execSaOpXor c s
  | .saOpXchg c => Sys2Proof.Machine.execSaOpXchg c s
  | .saOpCas c => Sys2Proof.Machine.execSaOpCas c s
  | .saHash c => Sys2Proof.Machine.execSaHash c s
  | .saRehash c => Sys2Proof.Machine.execSaRehash c s
  | .neGath c => Sys2Proof.Machine.execNeGath c s
  | .neScat c => Sys2Proof.Machine.execNeScat c s
  | .gatherReply slot row => Sys2Proof.Machine.execGatherReply slot row s
  | .neRedSum c => Sys2Proof.Machine.execNeRedSum c s
  | .neRedMin c => Sys2Proof.Machine.execNeRedMin c s
  | .neRedMax c => Sys2Proof.Machine.execNeRedMax c s
  | .neSmrg c => Sys2Proof.Machine.execNeSmrg c s
  | .routerCombine round router => Sys2Proof.Machine.execRouterCombine round router s
  | .collectiveResult round => Sys2Proof.Machine.execCollectiveResult round s
  | .neFlag contribution ext => Sys2Proof.Machine.execNeFlag contribution ext s
  | .neTok scope count addr => Sys2Proof.Machine.execNeTok scope count addr s
  | .neXrdNvme c => Sys2Proof.Machine.execNeXrdNvme c s
  | .neXrdRdma c => Sys2Proof.Machine.execNeXrdRdma c s
  | .xrdCompletion pair cqe => Sys2Proof.Machine.execXrdCompletion pair cqe s
  | .xrdTimeout id => Sys2Proof.Machine.execXrdTimeout id s
  | .bar4PeerWrite addr data => Sys2Proof.Machine.execBar4PeerWrite addr data s
  | .tkMatch c => Sys2Proof.Machine.execTkMatch c s
  | .tkMerge c => Sys2Proof.Machine.execTkMerge c s
  | .tkBias c => Sys2Proof.Machine.execTkBias c s
  | .tkUntack c => Sys2Proof.Machine.execTkUntack c s
  | .tkKeep map => Sys2Proof.Machine.execTkKeep map s
  | .tkFree map => Sys2Proof.Machine.execTkFree map s
  | .schedulingPass => Sys2Proof.Machine.execSchedulingPass s
  | .launchLoadAck tile => Sys2Proof.Machine.execLaunchLoadAck tile s
  | .doorbellRing space addr => Sys2Proof.Machine.execDoorbellRing space addr s
  | .tileSave tile => Sys2Proof.Machine.execTileSave tile s
  | .whistleTimeout region => Sys2Proof.Machine.execWhistleTimeout region s
  | .fmcFailover => Sys2Proof.Machine.execFmcFailover s
  | .shootdown tile space va => Sys2Proof.Machine.execShootdown tile space va s
  | .frameRetire frame => Sys2Proof.Machine.execFrameRetire frame s
  | .uncorrectableError key => Sys2Proof.Machine.execUncorrectableError key s
  | .correctableError site => Sys2Proof.Machine.execCorrectableError site s
  | .partitionFreeze p => Sys2Proof.Machine.execPartitionFreeze p s
  | .partitionClockGate p => Sys2Proof.Machine.execPartitionClockGate p s
  | .partitionRecovery p differs => Sys2Proof.Machine.execPartitionRecovery p differs s
  | .tileSparing cluster tile => Sys2Proof.Machine.execTileSparing cluster tile s
  | .linkParityError l => Sys2Proof.Machine.execLinkParityError l s
  | .meshLaneFailure router dir => Sys2Proof.Machine.execMeshLaneFailure router dir s
  | .ualinkLaneFailure port => Sys2Proof.Machine.execUalinkLaneFailure port s
  | .landingRecord port srcPort write => Sys2Proof.Machine.execLandingRecord port srcPort write s
  | .creditReturn port => Sys2Proof.Machine.execCreditReturn port s
  | .ualinkAtomicReceived port addr => Sys2Proof.Machine.execUalinkAtomicReceived port addr s
  | .topologyDiscovery trained found => Sys2Proof.Machine.execTopologyDiscovery trained found s
  | .powerOnReset => Sys2Proof.Machine.execPowerOnReset s
  | .pcieLinkReset p => Sys2Proof.Machine.execPcieLinkReset p s
  | .claimOffer p v => Sys2Proof.Machine.execClaimOffer p v s
  | .claimConfirm p v => Sys2Proof.Machine.execClaimConfirm p v s
  | .lease p v => Sys2Proof.Machine.execLease p v s
  | .leaseExpired => Sys2Proof.Machine.execLeaseExpired s
  | .handover p v => Sys2Proof.Machine.execHandover p v s
  | .handoverCancel p v => Sys2Proof.Machine.execHandoverCancel p v s
  | .bar0RegisterWrite p offset v => Sys2Proof.Machine.execBar0RegisterWrite p offset v s
  | .hostBar2Access p offset write data => Sys2Proof.Machine.execHostBar2Access p offset write data s
  | .boot p offset len => Sys2Proof.Machine.execBoot p offset len s
  | .attest p nonce => Sys2Proof.Machine.execAttest p nonce s
  | .release p msg sig => Sys2Proof.Machine.execRelease p msg sig s
  | .recover p msg sig => Sys2Proof.Machine.execRecover p msg sig s
  | .enrol p key paramSet ownerId => Sys2Proof.Machine.execEnrol p key paramSet ownerId s
  | .update p image => Sys2Proof.Machine.execUpdate p image s
  | .lqCreate p space ring log2 doorbell => Sys2Proof.Machine.execLqCreate p space ring log2 doorbell s
  | .lqDestroy p queue => Sys2Proof.Machine.execLqDestroy p queue s
  | .map p root va len page w source => Sys2Proof.Machine.execMap p root va len page w source s
  | .unmap p root va len => Sys2Proof.Machine.execUnmap p root va len s
  | .hostwin p space va len offset => Sys2Proof.Machine.execHostwin p space va len offset s
  | .grant p payload => Sys2Proof.Machine.execGrant p payload s
  | .revoke p payload => Sys2Proof.Machine.execRevoke p payload s
  | .pod p d => Sys2Proof.Machine.execPod p d s
  | .checkpoint p order => Sys2Proof.Machine.execCheckpoint p order s
  | .policy p quantum => Sys2Proof.Machine.execPolicy p quantum s
  | .root p addr => Sys2Proof.Machine.execRoot p addr s
  | .power p payload => Sys2Proof.Machine.execPower p payload s
  | .drain p payload => Sys2Proof.Machine.execDrain p payload s
  | .undrain p payload => Sys2Proof.Machine.execUndrain p payload s
  | .spare p payload => Sys2Proof.Machine.execSpare p payload s
  | .portdown p payload => Sys2Proof.Machine.execPortdown p payload s
  | .portup p payload => Sys2Proof.Machine.execPortup p payload s
  | .retire p payload => Sys2Proof.Machine.execRetire p payload s
  | .reset p payload => Sys2Proof.Machine.execReset p payload s
  | .powerStateEntry u => Sys2Proof.Machine.execPowerStateEntry u s
  | .powerStateExit u => Sys2Proof.Machine.execPowerStateExit u s
  | .droopDetect island => Sys2Proof.Machine.execDroopDetect island s
  | .translationWalkEnd => Sys2Proof.Machine.execTranslationWalkEnd s
  | .safeTierAccess port module addr write data => Sys2Proof.Machine.execSafeTierAccess port module addr write data s
  | .powerLoss => Sys2Proof.Machine.execPowerLoss s
  | .pcieLinkTraining p => Sys2Proof.Machine.execPcieLinkTraining p s

end Sys2Proof.Machine
end

