-- ==== Sys2Proof/Machine/Step.lean ====
section
/-! DEFINITION. One step of the module: the next move of the agenda, or where none is listed the move the model picks,
dispatched to its meaning. -/

namespace Sys2Proof.Machine

open Sys2Proof

/-- Makes a move. -/
def State.perform (s : State) (a : Act) : Host.Outcome State Fault Refusal :=
  match ({ s with tile := a.tile, slot := a.slot } : State).moveOf a.what with
  | .run i t => exec i t
  | .idle t => .next t
  | .stop f => .fault f

/-- One step. The tick counter is the model's own and counts steps. -/
def step (s : State) : Host.Outcome State Fault Refusal :=
  let t := { s with ticks := s.ticks + 1 }
  match t.agenda with
  | a :: rest => ({ t with agenda := rest } : State).perform a
  | [] =>
    match t.pick with
    | some a => t.perform a
    | none => .next t

/-- The region that `withFetchWord` lets run: one tile, one context, its text the instruction at the context's pc. -/
def loadedRegion (pc w : Nat) : Region :=
  { id := 1, addr := 0, space := 0, state := .running, place := [(0, 0)], starts := [2 ^ 32]
    text := [(0, cellsFrom pc (leBytes 4 w))] }

/-- The state with an instruction stored where the next step fetches: a region is loaded from outside the machine (R83,
R352); this stands for that load, with tile 0, slot A bound to its context 0 (log entry 9). -/
def State.withFetchWord (s : State) (_nbits w : Nat) : State :=
  let c := nget {} s.ctxs (2 ^ 32)
  { s with
    regions := nset s.regions 1 (loadedRegion c.pc.toNat w)
    roster := nset s.roster 0 { region := 1, state := .running }
    ctxs := nset s.ctxs (2 ^ 32) { c with
      life := .live, frozen := false, parked := false, waiting := none, pending := [] }
    agenda := [{ tile := 0, slot := 0, what := .core }] }

end Sys2Proof.Machine
end

