-- ==== Sys2Proof/Safety.lean ====
section
/-! DEFINITION. What a safe run is, the invariant of the machine, and the frames that statements speak of. -/

namespace Sys2Proof.Machine

open Sys2Proof

/-- A run of `n` steps is safe when it ends in a state: no step stopped by a fault or a refusal. -/
def SafeRun (n : Nat) (s : State) : Prop := ∃ t, core.run n s = .next t

/-- A step is safe when it answers a next state. -/
def SafeStep (s : State) : Prop := ∃ t, step s = .next t

/-- The machine's invariant: memory keeps its canonical form, x0 of no context holds anything (R13), each region's record stands
under its id (R339), and each UALink port has one record (R371). -/
def State.Inv (s : State) : Prop :=
  Memory.wf s.mem = true ∧ (∀ p ∈ s.ctxs, nget? p.2.x 0 = none) ∧ (∀ p ∈ s.regions, p.2.id = p.1) ∧
    nsorted s.uaports = true

/-- Every byte of memory reads the same. -/
def SameMemory (s t : State) : Prop := ∀ a, memGet t.mem a = memGet s.mem a

/-- Every byte of memory outside `n` bytes from `k` reads the same. -/
def SameMemoryBut (k n : Nat) (s t : State) : Prop := ∀ a, a < k ∨ k + n ≤ a → memGet t.mem a = memGet s.mem a

/-- Every byte outside HBM reads the same: what a write of the FMC leaves (R331). -/
def SameLocal (s t : State) : Prop := ∀ a, isHbm a = false → memGet t.mem a = memGet s.mem a

/-- A write of `n` bytes at a key outside HBM, and what it wakes (R354): no other byte outside HBM changes; where no region is
DRAINING, whose WAKEP it could set in device memory (R359), no other byte at all, and no region's record. -/
def StoresOnly (k n : Nat) (s t : State) : Prop :=
  (∀ a, isHbm a = false → a < k ∨ k + n ≤ a → memGet t.mem a = memGet s.mem a) ∧
    ((∀ q ∈ s.regions, q.2.state ≠ .draining) → SameMemoryBut k n s t ∧ t.regions = s.regions)

/-- Every special register, bit and record of a context but its integer registers, pc, count of retired instructions, wait and
clock is the same (R13, R15, R90). -/
def Context.SameSpecial (c d : Context) : Prop :=
  d.flags = c.flags ∧ d.tvec = c.tvec ∧ d.epc = c.epc ∧ d.trap = c.trap ∧ d.tval = c.tval ∧ d.empc = c.empc ∧
    d.trapactive = c.trapactive ∧ d.resolving = c.resolving ∧ d.pending = c.pending ∧ d.gather = c.gather ∧
    d.life = c.life ∧ d.frozen = c.frozen ∧ d.triggered = c.triggered ∧ d.parked = c.parked

/-- An instruction has completed: pc at the next instruction, one more retired, no wait. -/
def Context.Completed (c d : Context) : Prop :=
  d.pc = c.pc + 4 ∧ d.instret = c.instret + 1 ∧ d.waiting = none

/-- Every integer register but `rd` reads the same, and `rd` reads `v` unless it is x0, which reads zero (R13). -/
def WritesReg (s t : State) (rd : Reg) (v : Word) : Prop :=
  (∀ r, r ≠ rd → t.reg r = s.reg r) ∧ t.reg rd = if rd = 0 then 0 else v

/-- Every integer register reads the same. -/
def SameRegs (s t : State) : Prop := ∀ r, t.reg r = s.reg r

/-- The tiles with their engines, arrays and barriers, the clusters, the regions, the roster and the wake unit are the same. -/
def SameUnits (s t : State) : Prop :=
  t.tiles = s.tiles ∧ t.clusters = s.clusters ∧ t.regions = s.regions ∧ t.roster = s.roster ∧ t.wake = s.wake

/-- The record of every context but the acting one is the same. -/
def SameOthers (s t : State) : Prop := ∀ k, k ≠ s.key → t.ctxOf k = s.ctxOf k

/-- What an instruction that touches nothing outside its context leaves: units, memory, other contexts. -/
def OnlyContext (s t : State) : Prop := SameUnits s t ∧ SameMemory s t ∧ SameOthers s t ∧ t.key = s.key

/-- The words of a whole command stand at the head of an engine's queue, and nothing holds the engine back from taking it: its
section has started and is not cancelled, the engine is not FAULTED, its unit runs, and no command in progress has its
number. -/
def CommandAtHead (s : State) (e : Engine) (ws : List QWord) : Prop :=
  (s.eng e).headReady = true ∧ s.unitStops e none = false ∧ (s.eng e).headCmd = some ws ∧
    ∀ x ∈ (s.eng e).runs, ∀ w ∈ ws, x.id ≠ w.cmd

/-- The command at the head has left the queue and is in progress as `i`; memory and contexts are the same. -/
def Started (s : State) (e : Engine) (i : Instr) (ws : List QWord) (t : State) : Prop :=
  (∃ r, r.instr = i ∧ (t.eng e).runs = (s.eng e).runs ++ [r]) ∧ (t.eng e).queue = (s.eng e).queue.drop ws.length ∧
    SameMemory s t ∧ SameOthers s t

/-- The command in progress `id` of an engine is in progress no longer. -/
def EndedRun (s : State) (e : Engine) (id : Nat) (t : State) : Prop :=
  (t.eng e).runs = ldrop (fun x => x.id = id) (s.eng e).runs

/-- A command in progress has stopped its engine with a fault, which is posted to the context that pushed it (R22, R310). -/
def FaultedRun (e : Engine) (r : Run) (code : BitVec 12) (tval : Word) (t : State) : Prop :=
  ∃ f, (t.eng e).fault = some f ∧ f.code = code ∧ f.tval = tval ∧ f.sect = r.sect ∧ (t.eng e).faultRun = some r.id ∧
    f ∈ (t.ctxOf r.owner).pending

/-- The command in progress `id` of an engine has this progress. -/
def RunHas (e : Engine) (id : Nat) (t : State) (p : Run → Prop) : Prop := ∃ r, (t.eng e).run? id = some r ∧ p r

/-- No packet stands on a link that holds nothing: what such links carried along has been taken (R152). -/
def Settled (s : State) : Prop := lfind (fun l => l.2.shows) s.dfa.links = none

/-- The FMC has answered a port's request with a RESULT, a CODE and a value (R384). -/
def Answered (p : HostPort) (result : Nat) (code : BitVec 12) (v : Word) (t : State) : Prop :=
  t.own.fmcStat p = { busy := false, code := code, result := BitVec.ofNat 8 result, index := 0, returned := v }

/-- Usmond has answered a port's command (R389). -/
def UsAnswered (p : HostPort) (result : Nat) (code : BitVec 12) (index : Nat) (t : State) : Prop :=
  t.own.usStat p =
    { busy := false, code := code, result := BitVec.ofNat 8 result, index := BitVec.ofNat 16 index, returned := 0 }

/-- The FMC serves a request of a port (R384, R398): the port is captain, none of its requests is BUSY, the module is booted, and
no checkpoint runs. -/
def Serves (p : HostPort) (s : State) : Prop :=
  s.own.isCaptain p = true ∧ (s.own.fmcStat p).busy = false ∧ s.own.booted = true ∧ s.fmc.ckptRegions = none

/-- The requests that the FMC serves for the captain (R384, R397). -/
def isFmcRequest (p : HostPort) : Instr → Bool
  | .lqCreate q _ _ _ _ | .lqDestroy q _ | .map q _ _ _ _ _ _ | .unmap q _ _ _ | .hostwin q _ _ _ _ | .grant q _ | .revoke q _
  | .pod q _ | .checkpoint q _ | .policy q _ | .root q _ | .power q _ | .drain q _ | .undrain q _ | .spare q _ | .portdown q _
  | .portup q _ | .retire q _ | .reset q _ => q = p
  | _ => false

/-- The Usmond commands that are the captain's alone (R389). -/
def isCaptainCommand (p : HostPort) : Instr → Bool
  | .boot q _ _ | .release q _ _ | .recover q _ _ | .enrol q _ _ _ | .update q _ => q = p
  | _ => false

/-- A payload of eight bytes with an OP, a TARGET of four bytes and zeros (R397). -/
def ServicePayload (b : List Byte) (op target : Nat) : Prop :=
  b.length = 8 ∧ numAt b 0 1 = op ∧ numAt b 1 4 = target ∧ numAt b 5 3 = 0

/-- The acquire load of a form (R107). -/
def acqLoad (op : LoadOp) (rd rs1 : Reg) (off : BitVec 8) (scope : BitVec 4) : Instr :=
  match op with
  | .b => .ldAcqB rd rs1 off scope
  | .h => .ldAcqH rd rs1 off scope
  | .w => .ldAcqW rd rs1 off scope
  | .d => .ldAcqD rd rs1 off scope
  | .bu => .ldAcqBu rd rs1 off scope
  | .hu => .ldAcqHu rd rs1 off scope
  | .wu => .ldAcqWu rd rs1 off scope

/-- The release store of a form (R107). -/
def relStore (op : StoreOp) (rs2 rs1 : Reg) (off : BitVec 8) (scope : BitVec 4) : Instr :=
  match op with
  | .b => .stRelB rs2 rs1 off scope
  | .h => .stRelH rs2 rs1 off scope
  | .w => .stRelW rs2 rs1 off scope
  | .d => .stRelD rs2 rs1 off scope

/-- The instructions that push into engine queues, and that stall for room there (R94, R96, R100, R116, R118). -/
def isPush : Instr → Bool
  | .enq .. | .enqL .. | .sect .. | .fork .. | .contract .. | .flgGather .. => true
  | _ => false

end Sys2Proof.Machine
end

