-- ==== Sys2Proof/Certificates/Slice0/Obligations.lean ====
section
/-! DEFINITION. The statements about the machine. -/

open Sys2Proof Sys2Proof.Machine

/-! ### Encodings -/

/-- O1. Words written out from the encodings of R52-R54 decode to the instructions that R54, R90, R98, R104, R106-R108 and
R112 print beside them, and the word of `ebreak` that R52 and R92 take from the base set to `ebreak`. -/
def Obligations.DecodesPrintedWords : Prop :=
  decode 0x02D6100B = .ok (.enqL .me 0 12 13) ∧
  decode 0x0605950B = .ok (.qcancel .me 10 11) ∧
  decode 0x0855952B = .ok (.barArr 10 11 5 1) ∧
  decode 0x02C5C52B = .ok (.sywWait 10 11 12 1) ∧
  decode 0x1085A55B = .ok (.ldAcqW 10 11 8 1) ∧
  decode 0x20B5387B = .ok (.stRelD 11 10 16 2) ∧
  decode 0x1000407B = .ok (.fenceSc 1) ∧
  decode 0x3200407B = .ok (.fenceAcq 3) ∧
  decode 0x68C5F55B = .ok (.launch 10 11 12 13) ∧
  decode 0x0400002B = .ok .yield ∧
  decode 0x0600002B = .ok .trigger ∧
  decode 0x1000002B = .ok .lxTret ∧
  decode 0x00100073 = .ok .ebreak

/-- O2. Decoding the word of a well-formed instruction of the control core gives it back, with every operand at every value. -/
def Obligations.DecodeOfEncode : Prop :=
  ∀ (i : Instr) (w : Inst), wellFormed i = true → encode i = some w → decode w = .ok i

/-- O3. Every word that the control core decodes is the word of the instruction it decodes to, which is well formed: no bit of
an accepted word is dropped, and no instruction has two words (R52-R54). -/
def Obligations.EncodeOfDecode : Prop :=
  ∀ (w : Inst) (i : Instr), decode w = .ok i → encode i = some w ∧ wellFormed i = true

/-- O4. Decoding the words of a well-formed engine command, of any engine and any number of words, gives the command back
(R55-R60). -/
def Obligations.CommandDecodeOfEncode : Prop :=
  ∀ (i : Instr) (e : Engine) (ws : List EngineWord),
    wellFormed i = true → encodeCmd i = some (e, ws) → decodeCmd e ws = some i

/-- O5. The words of an engine command number themselves from 0, at most four, bit 87 on the last alone, all with the opcode
of the lead word, and every reserved bit of a well-formed command's words is zero (R55, R56). -/
def Obligations.CommandWordsNumbered : Prop :=
  ∀ (i : Instr) (e : Engine) (ws : List EngineWord), wellFormed i = true → encodeCmd i = some (e, ws) →
    1 ≤ ws.length ∧ ws.length ≤ 4 ∧
    ∀ k (h : k < ws.length),
      (ws[k]).widx.toNat = k ∧ ((ws[k]).last = true ↔ k + 1 = ws.length) ∧ (ws[k]).op = (lget 0 ws 0).op ∧
        ((∀ n a, i ≠ .programCall e n a) → reservedZero e (ws[k]) = true) ∧
        ((∃ n a, i = .programCall e n a) → (ws[k]).f.extractLsb' 16 4 = (0 : BitVec 4))

/-! ### The machine as a whole -/

/-- O6. The state after module reset, as R8, R12, R14, R380 and R396 give it: every register and CSR of every context 0,
`trapactive` 0, no program, every slot FREE; every queue empty, every engine IDLE with its counters 0 and no extent held; the
array UNCONFIGURED with image 0, every port unbound and empty; every barrier disarmed; every weight plane NONE, every bank
FREE; every map FREE; no region; the module UNOWNED and not booted. -/
def Obligations.ResetLeaves : Prop :=
  (∀ k r, ((State.reset.ctxOf k).reg r = 0 ∧ (State.reset.ctxOf k).pc = 0 ∧ (State.reset.ctxOf k).flags = 0 ∧
      (State.reset.ctxOf k).tvec = 0 ∧ (State.reset.ctxOf k).epc = 0 ∧ (State.reset.ctxOf k).trap = 0 ∧
      (State.reset.ctxOf k).tval = 0 ∧ (State.reset.ctxOf k).empc = 0 ∧
      (State.reset.ctxOf k).trapactive = false ∧ (State.reset.ctxOf k).life = .absent)) ∧
    (∀ i, (nget {} State.reset.roster i).state = .free) ∧
    (∀ t e, ((State.reset.tileAt t).engine e).queue = [] ∧ State.reset.engineStatus t e = 0 ∧
      ((State.reset.tileAt t).engine e).ret = 0 ∧ ((State.reset.tileAt t).engine e).enq = 0 ∧
      ((State.reset.tileAt t).engine e).running = 0 ∧ ((State.reset.tileAt t).engine e).extents = []) ∧
    (∀ t, (State.reset.tileAt t).dfa.status = .unconfigured ∧ (State.reset.tileAt t).dfa.image = 0) ∧
    (∀ t p, (State.reset.point t p).buf = [] ∧ (State.reset.portSt t p).bound = false) ∧
    (∀ t n, (State.reset.barrier t n).part = 0 ∧ (State.reset.barrier t n).gen = 0) ∧
    (∀ t b, (State.reset.tileAt t).me.active.latch = 0 ∧ (State.reset.tileAt t).me.shadow.latch = 0 ∧
      ((State.reset.tileAt t).me.bank b).state = .free) ∧
    (∀ t m, (nget {} (State.reset.tileAt t).maps m).state = .free) ∧
    State.reset.regions = [] ∧ State.reset.own.state = .unowned ∧ State.reset.own.booted = false

/-- O7. The reset state meets the invariant. -/
def Obligations.ResetMeetsInvariant : Prop := State.reset.Inv

/-- O8. Every step, whatever it does (an instruction, an engine command, an event, a request of a host), keeps the invariant:
memory stays in its canonical form, x0 stays hard-wired (R13), each region's record stays under its id, each UALink port
has one record. -/
def Obligations.StepKeepsInvariant : Prop :=
  ∀ s t : State, s.Inv → step s = .next t → t.Inv

/-- O9. A step at a context that may issue, with no posted engine fault due and with bytes at its pc that decode to a
well-formed instruction, is that instruction's meaning there, at the state with the step counted and the acting tile and slot
set; and a step at an engine whose unit runs is the meaning of the command that its decoder reads from the words of a whole
command at the head of its queue, or the start of the section whose header stands there (R56, R60, R62). The `st.rel`s that a
context holds back are performed before an instruction that they must not pass, stay held before an `ld.acq` that may pass them,
and before another instruction that may pass them either, as a choice says (R298, log 10). `ecall` is named by the service in
`a7` (R89). An access that reaches a frozen partition waits, with nothing done (R323). At a word that the decoder refuses the
step is the trap 0x001 with the word in `lx.tval` (R52); where a posted fault is due the step is its delivery (R310). Which
agent moves is the agenda's to say, a choice of the model (log 2). -/
def Obligations.StepRunsDecoded : Prop :=
  (∀ (s : State) (tile slot : Nat) (rest : List Act) (w : Inst),
    s.agenda = { tile := tile, slot := slot, what := .core } :: rest →
    let u : State := { s with ticks := s.ticks + 1, agenda := rest, tile := tile, slot := slot }
    u.issues = true →
    (u.faultDue = true → step s = exec .engineFaultDelivery u) ∧
    (u.faultDue = false → fetchWord u.textOf u.ctx.pc.toNat = some w →
      (∀ i, decode w = .ok i → wellFormed i = true →
        let j := if i = .ecallReserved then
            (if u.reg 17 = 0 then .ecallExit else if u.reg 17 = 1 then .ecallAbort else .ecallReserved) else i
        let v := u.beforeIssue j
        (u.issueHeld j = true → step s = .next u) ∧ (u.issueHeld j = false → step s = exec j v) ∧
          (u.ctx.stores = [] → v = u) ∧ (u.passesHeld j = false → v = u.performStores) ∧
          (u.passesHeld j = true → isAcqLoad j = true → v = u) ∧
          (u.passesHeld j = true → isAcqLoad j = false → v = u ∨ v = u.choose.2 ∨ v = u.choose.2.performStores)) ∧
      ∀ x, decode w = .error x → step s = .next (u.performStores.trap 0x001 (w.setWidth 64)))) ∧
  ∀ (s : State) (tile slot : Nat) (rest : List Act) (e : Engine) (q : QWord) (qs : List QWord),
    s.agenda = { tile := tile, slot := slot, what := .queue e } :: rest →
    let u : State := { s with ticks := s.ticks + 1, agenda := rest, tile := tile, slot := slot }
    (u.unitsRun = false → step s = .next u) ∧
    (u.unitsRun = true → (u.eng e).queue = q :: qs →
      (q.word.op = 0xFF → step s = exec (.sectionStart e) u) ∧
      ∀ ws i, q.word.op ≠ 0xFF → (u.eng e).headCmd = some ws → decodeCmd e (ws.map (·.word)) = some i →
        step s = exec i u)

/-! ### The base instruction set -/

/-- O10. An integer operation writes its result to rd and nothing else: no flag, no special register, no memory (R13, R85). -/
def Obligations.IntegerOperationResultAndFrame : Prop :=
  ∀ (op : IntOp) (s : State), ∃ t, exec (.integerOperation op) s = .next t ∧
    WritesReg s t (intResult s.ctx op).1 (intResult s.ctx op).2 ∧ s.ctx.Completed t.ctx ∧
    s.ctx.SameSpecial t.ctx ∧ OnlyContext s t

/-- O11. Integer division by zero and signed overflow of division give the results the M extension prescribes, with no trap
and no flag: by zero the quotient is all ones and the remainder the dividend; the most negative number by -1 gives itself and
remainder 0; so do the 32-bit forms, sign-extended (R85). -/
def Obligations.DivisionCorners : Prop :=
  ∀ (s : State) (rd rs1 rs2 : Reg), rd ≠ 0 →
    let a := s.reg rs1
    let result (op : AluReg) (v : Word) : Prop :=
      ∃ t, exec (.integerOperation (.reg op rd rs1 rs2)) s = .next t ∧ t.reg rd = v ∧ s.ctx.Completed t.ctx ∧
        t.ctx.flags = s.ctx.flags
    (s.reg rs2 = 0 → result .div (BitVec.allOnes 64) ∧ result .divu (BitVec.allOnes 64) ∧ result .rem a ∧ result .remu a) ∧
    ((s.reg rs2).setWidth 32 = (0 : BitVec 32) →
      result .divw (BitVec.allOnes 64) ∧ result .divuw (BitVec.allOnes 64) ∧
        result .remw ((a.setWidth 32 : BitVec 32).signExtend 64) ∧
        result .remuw ((a.setWidth 32 : BitVec 32).signExtend 64)) ∧
    (a = BitVec.intMin 64 → s.reg rs2 = -1 → result .div a ∧ result .rem 0) ∧
    ((a.setWidth 32 : BitVec 32) = BitVec.intMin 32 → (s.reg rs2).setWidth 32 = (-1 : BitVec 32) →
      result .divw ((BitVec.intMin 32).signExtend 64) ∧ result .remw 0)

/-- O12. A load whose address passes the checks of R86 writes the extended bytes to rd and changes no byte of memory: those
of memory where the context holds no `st.rel` back (R85, R86). -/
def Obligations.LoadResultAndFrame : Prop :=
  ∀ (op : LoadOp) (rd rs1 : Reg) (imm : BitVec 12) (s : State) (k : Nat),
    s.checkLoad (s.reg rs1 + imm12 imm) (loadBytes op) false = .at_ k →
    ∃ t, exec (.load op rd rs1 imm) s = .next t ∧
      WritesReg s t rd (loadValue op (s.loadNat k (loadBytes op))) ∧
      (s.ctx.stores = [] → WritesReg s t rd (loadValue op (memNat s.mem k (loadBytes op)))) ∧
      s.ctx.Completed t.ctx ∧ s.ctx.SameSpecial t.ctx ∧ OnlyContext s t

/-- O13. A store whose address passes the checks of R86 writes the low bytes of rs2, the least significant at the lowest
address, at the key that the address reaches, and no other byte of a scratchpad or an L2; nor any byte of device memory, but
where it makes true what a context of a DRAINING region waits for, which sets that region's WAKEP (R6, R85, R86, R354, R359). -/
def Obligations.StoreResultAndFrame : Prop :=
  ∀ (op : StoreOp) (rs1 rs2 : Reg) (imm : BitVec 12) (s : State) (k : Nat),
    s.checkStore (s.reg rs1 + imm12 imm) (storeBytes op) false = .at_ k →
    ∃ t, exec (.store op rs1 rs2 imm) s = .next t ∧
      memNat t.mem k (storeBytes op) = (s.reg rs2).toNat % 256 ^ storeBytes op ∧ StoresOnly k (storeBytes op) s t ∧
      SameRegs s t ∧ s.ctx.Completed t.ctx ∧ s.ctx.SameSpecial t.ctx ∧ SameOthers s t ∧
      t.tiles = s.tiles ∧ t.roster = s.roster

/-- O14. Where a load or store of R86 traps: off its size 0x002, out of reach 0x003, a poisoned sector under a load 0x301, a
race 0x201, in this order and with the effective address; nothing else happens. -/
def Obligations.ScalarAccessTraps : Prop :=
  ∀ (s : State) (rd rs1 rs2 : Reg) (imm : BitVec 12),
    let a := s.reg rs1 + imm12 imm
    (∀ op : LoadOp,
      let n := loadBytes op
      (a.toNat % n ≠ 0 → exec (.load op rd rs1 imm) s = .next (s.trap 0x002 a)) ∧
      (a.toNat % n = 0 → s.scalarKey a = none → exec (.load op rd rs1 imm) s = .next (s.trap 0x003 a)) ∧
      (∀ k, a.toNat % n = 0 → s.scalarKey a = some k → (firstPoison s (rangeFrom k n)).isSome = true →
        exec (.load op rd rs1 imm) s = .next (s.trap 0x301 a)) ∧
      (∀ k, a.toNat % n = 0 → s.scalarKey a = some k → (firstPoison s (rangeFrom k n)).isSome = false →
        (firstRace s s.ctx.clock (ctxAgent s.key) (rangeFrom k n) false false).isSome = true →
        exec (.load op rd rs1 imm) s = .next (s.trap 0x201 a))) ∧
    ∀ op : StoreOp,
      let n := storeBytes op
      (a.toNat % n ≠ 0 → exec (.store op rs1 rs2 imm) s = .next (s.trap 0x002 a)) ∧
      (a.toNat % n = 0 → s.scalarKey a = none → exec (.store op rs1 rs2 imm) s = .next (s.trap 0x003 a)) ∧
      ∀ k, a.toNat % n = 0 → s.scalarKey a = some k →
        (firstRace s s.ctx.clock (ctxAgent s.key) (rangeFrom k n) true false).isSome = true →
        exec (.store op rs1 rs2 imm) s = .next (s.trap 0x201 a)

/-- O15. Jumps and branches: rd holds the address of the next instruction and pc the target; a branch that is not taken only
advances; a target off a multiple of 4 is the trap 0x002 at the jump, with the target in `lx.tval` and rd not written, and a
branch that is not taken never traps (R85). -/
def Obligations.JumpsAndBranches : Prop :=
  ∀ (s : State) (rd rs1 rs2 : Reg),
    let lands (i : Instr) (rd : Reg) (target : Word) : Prop :=
      (target.toNat % 4 ≠ 0 → exec i s = .next (s.trap 0x002 target)) ∧
      (target.toNat % 4 = 0 → ∃ t, exec i s = .next t ∧ t.ctx.pc = target ∧ WritesReg s t rd (s.ctx.pc + 4) ∧
        t.ctx.instret = s.ctx.instret + 1 ∧ s.ctx.SameSpecial t.ctx ∧ OnlyContext s t)
    (∀ imm : BitVec 20, lands (.jumpBranch (.jal rd imm)) rd (s.ctx.pc + immJ imm)) ∧
    (∀ imm : BitVec 12, lands (.jumpBranch (.jalr rd rs1 imm)) rd ((s.reg rs1 + imm12 imm) &&& ~~~1)) ∧
    ∀ (op : BranchOp) (imm : BitVec 12),
      (branchTaken op (s.reg rs1) (s.reg rs2) = true →
        lands (.jumpBranch (.branch op rs1 rs2 imm)) 0 (s.ctx.pc + immB imm)) ∧
      (branchTaken op (s.reg rs1) (s.reg rs2) = false →
        ∃ t, exec (.jumpBranch (.branch op rs1 rs2 imm)) s = .next t ∧ SameRegs s t ∧ s.ctx.Completed t.ctx ∧
          s.ctx.SameSpecial t.ctx ∧ OnlyContext s t)

/-! ### Traps, services and CSRs -/

/-- O16. A precise trap (R90). In a context that handles it, `trapactive` 0 and `lx.tvec` not 0: `lx.epc` holds the pc of the
trapping instruction, `lx.trap` the record of R19 with ENG 0b111 and the code, `lx.tval` the value, `trapactive` is set and pc is
`lx.tvec` with its low two bits clear; no integer register, no flag, no unit and no byte of memory changes. In any other the
context freezes at its pc with its registers as they were. It is so for `ebreak` (0x005, R92) and for a refused word (0x001, R52)
in every context, and for `yield`, `trigger`, `waitdep`, `cwait`, `launch`, `contract`, `flg.gather` and each service of `ecall` in
context F (0x001 with the instruction's word, R85, R119). That context F traps by R90 is the model's reading (log 14). -/
def Obligations.PreciseTrapEntry : Prop :=
  ∀ (s : State),
    let handles : Prop := s.ctx.trapactive = false ∧ s.ctx.tvec.extractLsb' 2 62 ≠ (0 : BitVec 62)
    let traps (i : Instr) (code : BitVec 12) (tval : Word) : Prop :=
      ∃ t, exec i s = .next t ∧
        (handles → t.ctx.epc = s.ctx.pc ∧ t.ctx.trap = (0x38000 : Word) + code.setWidth 64 ∧ t.ctx.tval = tval ∧
          t.ctx.trapactive = true ∧ t.ctx.pc = s.ctx.tvec.extractLsb' 2 62 ++ (0 : BitVec 2) ∧
          t.ctx.instret = s.ctx.instret ∧ t.ctx.flags = s.ctx.flags ∧ t.ctx.tvec = s.ctx.tvec ∧ t.ctx.empc = s.ctx.empc ∧
          t.ctx.pending = s.ctx.pending ∧ SameRegs s t ∧ OnlyContext s t) ∧
        (¬handles → (t.ctxOf s.key).frozen = true ∧ (t.ctxOf s.key).pc = s.ctx.pc ∧
          ∀ r, (t.ctxOf s.key).reg r = s.reg r)
    let barred (i : Instr) : Prop := ∀ w, encode i = some w → traps i 0x001 (w.setWidth 64)
    traps .ebreak 0x005 0 ∧
    (∀ w : Inst, traps (.illegalInstruction w) 0x001 (w.setWidth 64)) ∧
    (s.slot = 2 → barred .yield ∧ barred .trigger ∧
      (∀ rd rs1 rs2 rs3, barred (.waitdep rd) ∧ barred (.cwait rd rs1) ∧ barred (.launch rd rs1 rs2 rs3) ∧
        barred (.contract rd rs1) ∧ barred (.flgGather rd rs1 rs2)) ∧
      traps .ecallExit 0x001 0x73 ∧ traps .ecallAbort 0x001 0x73 ∧ traps .ecallReserved 0x001 0x73)

/-- O17. `lx.tret` sets pc to `lx.epc` with its low two bits clear and `trapactive` to 0, whatever `trapactive` was, and changes no
integer register, no `lx.*` register and no memory (R90). After the handler of an engine fault it resolves that fault, and the
engine, on the tile where its region's logical tile stands by then, is FAULTED no longer (R311); after any other it touches no
unit. -/
def Obligations.TrapReturn : Prop :=
  ∀ s : State, ∃ t, exec .lxTret s = .next t ∧
    t.ctx.pc = s.ctx.epc.extractLsb' 2 62 ++ (0 : BitVec 2) ∧ t.ctx.trapactive = false ∧
    t.ctx.epc = s.ctx.epc ∧ t.ctx.trap = s.ctx.trap ∧ t.ctx.tval = s.ctx.tval ∧ t.ctx.empc = s.ctx.empc ∧
    t.ctx.tvec = s.ctx.tvec ∧ t.ctx.flags = s.ctx.flags ∧ t.ctx.pending = s.ctx.pending ∧ SameRegs s t ∧ SameMemory s t ∧
    SameOthers s t ∧
    (s.ctx.resolving = none → SameUnits s t) ∧
    ∀ e rank r tile, s.ctx.resolving = some (e, rank) → isFirmware s.key = false → s.regionOf s.key = some r →
      r.savedTile? rank = none → nget? r.place rank = some tile → ((t.tileAt tile).engine e).fault = none

/-- O18. An asynchronous engine fault at a context that handles traps (R90, R310): the first posted fault in ascending engine
id enters, `lx.epc` holds the pc of the next instruction, `lx.empc` the micro-PC, `lx.trap` the record of R19 with ASYNC set; it is
no longer posted, and resumes the engine at the trap return (R311). Nothing else of the machine changes, except where it cuts a
`contract`: that one leaves none of its effect (R88), and the sections it had pushed so far are cancelled (log 22). While
`trapactive` is 1 the fault is held pending. -/
def Obligations.EngineFaultEntry : Prop :=
  ∀ (s : State) (f : EngFault) (rest : List EngFault), s.ctx.pending = f :: rest → s.ctx.life = .live →
    s.ctx.parked = false → s.ctx.frozen = false →
    (s.ctx.trapactive = true → exec .engineFaultDelivery s = .next s) ∧
    (s.ctx.trapactive = false → s.ctx.tvec.extractLsb' 2 62 ≠ (0 : BitVec 62) →
      ∃ t, exec .engineFaultDelivery s = .next t ∧ t.ctx.epc = s.ctx.pc ∧ t.ctx.empc = f.upc ∧ t.ctx.tval = f.tval ∧
        t.ctx.trap.getLsbD 63 = true ∧ t.ctx.trap.extractLsb' 30 2 = f.widx ∧ t.ctx.trap.extractLsb' 21 9 = f.sect ∧
        t.ctx.trap.extractLsb' 15 3 = BitVec.ofNat 3 f.engine.id ∧ t.ctx.trap.extractLsb' 0 12 = f.code ∧
        t.ctx.trapactive = true ∧ t.ctx.pc = s.ctx.tvec.extractLsb' 2 62 ++ (0 : BitVec 2) ∧ t.ctx.pending = rest ∧
        t.ctx.resolving = some (f.engine, f.rank) ∧ SameRegs s t ∧ SameMemory s t ∧ SameOthers s t ∧
        (s.ctx.expanding = none → OnlyContext s t) ∧
        ∀ x, s.ctx.expanding = some x → t.ctx.expanding = none ∧
          ∀ p ∈ x.made, ∀ q, (t.eng p.1).sect? p.2 = some q → q.cancelled = true)

/-- O19. CSR instructions (R91). A form that does not write reads any listed number into rd. A writing form reads the old value
into rd and stores the new one with the reserved bits of `lx.flags` and `lx.trap` ignored and bits [1:0] of `lx.tvec` and `lx.epc`
zero; on a read-only number it is the trap 0x001. A write of `lx.fwshare` by context F stores at most 64 (R20), by a user context
it is the trap 0x001 (R15). -/
def Obligations.CsrForms : Prop :=
  ∀ (s : State) (form : CsrForm) (n : BitVec 12) (rd src : Reg),
    let old := s.csrRead n
    let new := csrNew form old (csrSource s.ctx form src)
    (form.writes src = false → ∃ t, exec (.csrWrite form n rd src) s = .next t ∧ WritesReg s t rd old ∧
      s.ctx.Completed t.ctx ∧ s.ctx.SameSpecial t.ctx ∧ OnlyContext s t) ∧
    (form.writes src = true → n.toNat / 2 ^ 10 = 3 →
      ∃ w, encode (.csrWrite form n rd src) = some w ∧
        exec (.csrWrite form n rd src) s = .next (s.trap 0x001 (w.setWidth 64))) ∧
    (form.writes src = true → n = 0x801 ∨ n = 0x802 ∨ n = 0x803 ∨ n = 0x804 ∨ n = 0x805 →
      ∃ t, exec (.csrWrite form n rd src) s = .next t ∧ WritesReg s t rd old ∧ s.ctx.Completed t.ctx ∧ OnlyContext s t ∧
        t.ctx.flags = s.ctx.flags ∧ t.ctx.trapactive = s.ctx.trapactive ∧
        t.ctx.tvec = (if n = 0x801 then new.extractLsb' 2 62 ++ (0 : BitVec 2) else s.ctx.tvec) ∧
        t.ctx.epc = (if n = 0x802 then new.extractLsb' 2 62 ++ (0 : BitVec 2) else s.ctx.epc) ∧
        t.ctx.trap = (if n = 0x803 then new &&& 0x80000000FFE38FFF else s.ctx.trap) ∧
        t.ctx.tval = (if n = 0x804 then new else s.ctx.tval) ∧ t.ctx.empc = (if n = 0x805 then new else s.ctx.empc)) ∧
    (form.writes src = true → n = 0x800 →
      ∃ t, exec (.lxFlagsWrite form rd src) s = .next t ∧ WritesReg s t rd old ∧ s.ctx.Completed t.ctx ∧ OnlyContext s t ∧
        t.ctx.flags = (new.extractLsb' 0 10 : BitVec 10).setWidth 64 ∧ t.ctx.tvec = s.ctx.tvec ∧ t.ctx.epc = s.ctx.epc ∧
        t.ctx.trap = s.ctx.trap ∧ t.ctx.tval = s.ctx.tval ∧ t.ctx.empc = s.ctx.empc) ∧
    (form.writes src = true → n = 0x8F0 →
      (s.slot ≠ 2 → ∃ w, encode (.lxFwshareWrite form rd src) = some w ∧
        exec (.lxFwshareWrite form rd src) s = .next (s.trap 0x001 (w.setWidth 64))) ∧
      (s.slot = 2 → ∃ t, exec (.lxFwshareWrite form rd src) s = .next t ∧ WritesReg s t rd old ∧ s.ctx.Completed t.ctx ∧
        ((t.tileAt s.tile).fwshare).toNat = min 64 (new.toNat % 128) ∧ s.ctx.SameSpecial t.ctx ∧ SameMemory s t ∧
        SameOthers s t))

/-- O20. The services of `ecall` in a user context (R89). EXIT waits while the context has an unretired section on any engine and
has none of its effect; with none, the context ends with exit value `a0`[31:0] and its slot is FREE (in a slot whose whistle is
still held, which stays DRAINING, FREE is what a save notes of it), at once or when the wait ends. EXIT with an engine fault that
is not resolved gives that fault to the fault domain, the context frozen (R311). ABORT ends every user context of the region,
cancels every section of its engines and resolves their faults, and records that the region must end with code 0x503 and value
`a0`[31:0]; a pass of the FMC that finds such a region RUNNING with every section retired makes it ENDED with that code and value
(R361; that the record waits for a pass is the model's reading, log 75). Any other `a7` gives `a0` := all ones and no other
effect. The service acts in the user's own step (log 64). -/
def Obligations.EcallServices : Prop :=
  ∀ s : State, s.Inv → s.slot ≠ 2 →
    let ends (i : Instr) : Prop :=
      ∃ t, exec i s = .next t ∧ (t.ctxOf s.key).life = .ended ∧
        (t.ctxOf s.key).exitVal = (s.reg 10).setWidth 32 ∧
        ((nget {} s.roster (s.tile * 2 + s.slot)).state ≠ .draining →
          (nget {} t.roster (s.tile * 2 + s.slot)).state = .free) ∧
        ((nget {} s.roster (s.tile * 2 + s.slot)).state = .draining →
          (nget {} t.roster (s.tile * 2 + s.slot)).state = .draining ∧
            (nget {} t.roster (s.tile * 2 + s.slot)).before = .free) ∧ SameOthers s t
    (∀ f, s.unresolved = some f →
      ∃ t, exec .ecallExit s = .next t ∧ (t.ctxOf s.key).frozen = true ∧ (t.ctxOf s.key).pc = s.ctx.pc ∧
        (t.ctxOf s.key).resolving = some (f.engine, f.rank) ∧ ∀ r, (t.ctxOf s.key).reg r = s.reg r) ∧
    (s.unresolved = none → s.hasSections s.key = true →
      ∃ t, exec .ecallExit s = .next t ∧ t.ctx.waiting = some .ecallExit ∧ t.ctx.pc = s.ctx.pc ∧
        t.ctx.life = s.ctx.life ∧ SameRegs s t ∧ s.ctx.SameSpecial t.ctx ∧ OnlyContext s t) ∧
    (s.unresolved = none → s.hasSections s.key = false → ends .ecallExit) ∧
    (s.hasSections s.key = false → s.ctx.waiting = some .ecallExit → ends .exitComplete) ∧
    (∀ r, nget? s.regions (regionOfKey s.key) = some r → r.abort = none → r.state ≠ .ended →
      ∃ t r', exec .ecallAbort s = .next t ∧ nget? t.regions r.id = some r' ∧
        r'.abort = some (0x503, (s.reg 10).setWidth 32) ∧ r.id ∈ t.fmc.ends ∧
        (∀ p ∈ t.ctxs, regionOfKey p.1 = r.id → isFirmware p.1 = false → p.2.life = .ended) ∧
        ∀ p ∈ r.place, ∀ e, ((t.tileAt p.2).engine e).fault = none ∧
          ∀ n q, ((t.tileAt p.2).engine e).sect? n = some q → q.cancelled = true) ∧
    (∀ (n : Nat) (r : Region) (code : BitVec 12) (v : BitVec 32), s.fmc.running = true → s.fmc.unmaps = [] → s.fmc.rings = [] →
      s.fmc.drains = [] → s.fmc.device = [] → s.fmc.queues = [] → s.fmc.wakes = [] → s.fmc.firmware = [] →
      s.fmc.ckptRegions = none → s.fmc.ends = [n] → s.regions = [(n, r)] → r.abort = some (code, v) → r.state = .running →
      r.parent = none → r.words.tileus = 0 → r.overBudget = false → s.allRetired r = true →
      ∃ t r', exec .schedulingPass s = .next t ∧ nget? t.regions n = some r' ∧ r'.state = .ended ∧ r'.code = code ∧
        r'.value = v) ∧
    ∃ t, exec .ecallReserved s = .next t ∧ WritesReg s t 10 (BitVec.allOnes 64) ∧ s.ctx.Completed t.ctx ∧
      s.ctx.SameSpecial t.ctx ∧ OnlyContext s t

/-! ### Ordered accesses and fences -/

/-- O21. `fence` with an empty set is a `nop`; with none empty it is `fence.sc 1`, whatever its fm and other bits (R85).
`fence.sc`, `fence.rel` and `fence.acq` complete, change no register and no `lx.*`, and `fence.sc` and `fence.rel` have performed
every `st.rel` of the context, and no memory changes where none was held back (R108). -/
def Obligations.Fences : Prop :=
  ∀ (s : State),
    let fences (i : Instr) (drains : Bool) : Prop :=
      ∃ t, exec i s = .next t ∧ SameRegs s t ∧ s.ctx.Completed t.ctx ∧ s.ctx.SameSpecial t.ctx ∧
        (drains = true → t.ctx.stores = []) ∧ (s.ctx.stores = [] → OnlyContext s t)
    (∀ (fm pred succ : BitVec 4) (rd rs1 : Reg),
      (pred = 0 ∨ succ = 0 → ∃ t, exec (.fence fm pred succ rd rs1) s = .next t ∧ SameRegs s t ∧ s.ctx.Completed t.ctx ∧
        s.ctx.SameSpecial t.ctx ∧ t.ctx.clock = s.ctx.clock ∧ OnlyContext s t) ∧
      (pred ≠ 0 → succ ≠ 0 → exec (.fence fm pred succ rd rs1) s = exec (.fenceSc 1) s ∧
        fences (.fence fm pred succ rd rs1) true)) ∧
    ∀ scope : BitVec 4, fences (.fenceSc scope) true ∧ fences (.fenceRel scope) true ∧ fences (.fenceAcq scope) false

/-- O22. Every form of `ld.acq` whose address passes the checks of R86 as a marked read writes the extended bytes to rd and
changes no byte of memory, after the `st.rel`s that the context holds back to the same bytes have been performed; whatever a
release that it synchronises with at its scope had seen, the context has then seen (R93, R107, R296). It reads the latest bytes
where every `st.rel` performed at the sector since any other write meets it, its scope and the acquire's including one another's
agents; otherwise it may read them less some of the latest `st.rel`s of other agents outside those scopes that do not
happen-before it (R290, R298), as a tape of choices says (log 10, log 66). Where a check fails it is the trap of R86, with
nothing read. -/
def Obligations.AcquireLoads : Prop :=
  ∀ (op : LoadOp) (rd rs1 : Reg) (off : BitVec 8) (scope : BitVec 4) (s : State),
    let addr := s.reg rs1 + off.signExtend 64
    let n := loadBytes op
    (∀ c, s.checkLoad addr n true = .trap c → exec (acqLoad op rd rs1 off scope) s = .next (s.trap c addr)) ∧
    ∀ k, s.checkLoad addr n true = .at_ k →
      let v := if s.ctx.holdsBack k n then s.performStores else s
      let u := v.acquireView k scope.toNat
      (∃ t, exec (acqLoad op rd rs1 off scope) s = .next t ∧ WritesReg s t rd (loadValue op (u.loadNat k n)) ∧
        s.ctx.Completed t.ctx ∧ s.ctx.SameSpecial t.ctx ∧ SameMemory v t ∧ SameOthers s t ∧
        (s.ctx.holdsBack k n = false → OnlyContext s t) ∧
        ∀ r ∈ acquirable (u.relsAt k n), v.meets r s.tile scope.toNat = true →
          ∀ a, nget 0 r.clock a ≤ nget 0 t.ctx.clock a) ∧
      ((∀ x ∈ (nget {} v.sectors (k / 32)).late, v.meets x.rel s.tile scope.toNat = true) →
        u.loadNat k n = v.loadNat k n ∧ u.relsAt k n = v.relsAt k n) ∧
      ∃ ls, u = v.unseen ls ∧ ls <+: (nget {} v.sectors (k / 32)).late ∧
        ∀ x ∈ ls, x.agent ≠ ctxAgent s.key ∧ nget 0 v.ctx.clock x.agent < nget 0 x.rel.clock x.agent ∧
          v.meets x.rel s.tile scope.toNat = false

/-- O23. Every form of `st.rel`: after the context's earlier `st.rel`s have been performed, one whose address passes the checks
of R86 as a marked write is performed at once, writing the low bytes of rs2 as a store does, or is held back past later acquire
loads, with memory as it was and the context's own loads of those bytes seeing it; registers and `lx.*` stay (R107, R290,
R298). Which of the two a tape of choices says (log 10); that it is stamped as it issues is the model's reading (log 40). -/
def Obligations.ReleaseStores : Prop :=
  ∀ (op : StoreOp) (rs2 rs1 : Reg) (off : BitVec 8) (scope : BitVec 4) (s : State),
    let addr := s.reg rs1 + off.signExtend 64
    let n := storeBytes op
    let u := s.performStores
    (∀ c, u.checkStore addr n true = .trap c → exec (relStore op rs2 rs1 off scope) s = .next (u.trap c addr)) ∧
    ∀ k, u.checkStore addr n true = .at_ k →
      ∃ t, exec (relStore op rs2 rs1 off scope) s = .next t ∧ SameRegs s t ∧ s.ctx.Completed t.ctx ∧
        s.ctx.SameSpecial t.ctx ∧
        (u.choose.1 = 0 → t.ctx.stores = [] ∧ memNat t.mem k n = (s.reg rs2).toNat % 256 ^ n ∧ StoresOnly k n u t) ∧
        (u.choose.1 ≠ 0 → SameMemory u t ∧ t.loadNat k n = (s.reg rs2).toNat % 256 ^ n)

/-! ### Barriers and synchronisation words -/

/-- O24. `bar.arr` as the code of R103: an unarmed barrier is armed by a count from 1 to 255, and 0 or more is BAR_UNARMED; a
count or scope that differs from an armed barrier's is BAR_MISMATCH; else rd := GEN, ARR grows by 1, and at PART GEN advances and
ARR is 0. No other barrier changes, and no byte of memory but WAKEP of DRAINING regions (R354, R359). -/
def Obligations.BarrierArrival : Prop :=
  ∀ (s : State) (rd rs1 : Reg) (bar : BitVec 7) (scope : BitVec 4),
    let b := s.barrier s.tile bar.toNat
    let k := (s.reg rs1).toNat
    let part := if b.part = 0 then BitVec.ofNat 8 k else b.part
    let arr := (if b.part = 0 then 0 else b.arr) + 1
    (b.part = 0 → k = 0 ∨ 255 < k → exec (.barArr rd rs1 bar scope) s = .next (s.trap 0x019 (bar.setWidth 64))) ∧
    (b.part ≠ 0 → (k ≠ 0 ∧ k ≠ b.part.toNat) ∨ scope ≠ b.scope →
      exec (.barArr rd rs1 bar scope) s = .next (s.trap 0x01A (bar.setWidth 64))) ∧
    ((b.part = 0 ∧ 1 ≤ k ∧ k ≤ 255) ∨ (b.part ≠ 0 ∧ (k = 0 ∨ k = b.part.toNat) ∧ scope = b.scope) →
      ∃ t, exec (.barArr rd rs1 bar scope) s = .next t ∧ WritesReg s t rd (b.gen.setWidth 64) ∧
        s.ctx.Completed t.ctx ∧ s.ctx.SameSpecial t.ctx ∧ SameOthers s t ∧
        (t.barrier s.tile bar.toNat).part = part ∧ (t.barrier s.tile bar.toNat).scope = scope ∧
        (t.barrier s.tile bar.toNat).gen = (if arr = part then b.gen + 1 else b.gen) ∧
        (t.barrier s.tile bar.toNat).arr = (if arr = part then 0 else arr) ∧
        (∀ tile n, tile ≠ s.tile ∨ n ≠ bar.toNat → t.barrier tile n = s.barrier tile n) ∧
        StoresOnly 0 0 s t)

/-- O25. `bar.wait` and `syw.wait`, and the events that end their waits. A disarmed barrier is BAR_UNARMED. Once the generation has
reached the operand the instruction completes with rd := GEN, the park-now bit is clear and nothing else of the machine changes;
until then the context waits with pc at the instruction and no register written, or parks (R104, R106, R109, R110). -/
def Obligations.GenerationWaits : Prop :=
  ∀ (s : State) (rd rs1 rs2 : Reg) (bar : BitVec 7) (scope : BitVec 4) (k : Nat),
    let b := s.barrier s.tile bar.toNat
    let passes (i : Instr) (gen : Word) : Prop :=
      ∃ t, exec i s = .next t ∧ WritesReg s t rd gen ∧ s.ctx.Completed t.ctx ∧ s.ctx.SameSpecial t.ctx ∧
        t.ctx.parkNow = false ∧ OnlyContext s t
    let stalls (i : Instr) : Prop :=
      s.ctx.parkNow = false → s.parksAtOnce = false →
        ∃ t, exec i s = .next t ∧ t.ctx.waiting = some i ∧ t.ctx.pc = s.ctx.pc ∧ t.ctx.instret = s.ctx.instret ∧
          SameRegs s t ∧ s.ctx.SameSpecial t.ctx ∧ OnlyContext s t
    (b.part = 0 → exec (.barWait rd rs1 bar) s = .next (s.trap 0x019 (bar.setWidth 64))) ∧
    (b.part ≠ 0 → (b.gen - (s.reg rs1).setWidth 16).toNat < 2 ^ 15 →
      passes (.barWait rd rs1 bar) (b.gen.setWidth 64) ∧
        (s.ctx.waiting = some (.barWait rd rs1 bar) → passes .barWaitPass (b.gen.setWidth 64))) ∧
    (b.part ≠ 0 → 2 ^ 15 ≤ (b.gen - (s.reg rs1).setWidth 16).toNat → stalls (.barWait rd rs1 bar)) ∧
    (∀ c, s.checkSyw (s.reg rs1) false = .trap c →
      exec (.sywWait rd rs1 rs2 scope) s = .next (s.trap c (s.reg rs1))) ∧
    (s.checkSyw (s.reg rs1) false = .at_ k →
      let w := s.sywAt k
      (w.armed = true → (w.gen - (s.reg rs2).setWidth 32).toNat < 2 ^ 31 →
        passes (.sywWait rd rs1 rs2 scope) (w.gen.setWidth 64) ∧
          (s.ctx.waiting = some (.sywWait rd rs1 rs2 scope) → passes .sywWaitPass (w.gen.setWidth 64))) ∧
      (w.armed = false ∨ 2 ^ 31 ≤ (w.gen - (s.reg rs2).setWidth 32).toNat → stalls (.sywWait rd rs1 rs2 scope)))

/-- O26. `syw.arm`: a misaligned or unreachable address traps as R86; TARGET 0 or nonzero rs2[63:40] is SYW_FORMAT with rs2 in
`lx.tval`; a poisoned sector is the trap 0x301 with rs1 in `lx.tval` and nothing written, for `syw.wait` too; a race with a plain
access is the trap 0x201 with rs1 (R302, R304); else the word holds TARGET, COUNT 0, GEN 0, OVR 0, ARMED 1 and zeros (R29, R105),
and no byte outside its 16 changes but in the RCBs of regions that are DRAINING (R359). -/
def Obligations.SywArm : Prop :=
  ∀ (s : State) (rs1 rs2 : Reg),
    let a := s.reg rs1
    let v := s.reg rs2
    let formatOk : Prop := v.toNat % 2 ^ 40 ≠ 0 ∧ v.toNat / 2 ^ 40 = 0
    (a.toNat % 16 ≠ 0 → exec (.sywArm rs1 rs2) s = .next (s.trap 0x002 a)) ∧
    (a.toNat % 16 = 0 → s.scalarKey a = none → exec (.sywArm rs1 rs2) s = .next (s.trap 0x003 a)) ∧
    ∀ k, a.toNat % 16 = 0 → s.scalarKey a = some k →
      (v.toNat % 2 ^ 40 = 0 ∨ v.toNat / 2 ^ 40 ≠ 0 → exec (.sywArm rs1 rs2) s = .next (s.trap 0x01B v)) ∧
      ((firstPoison s (rangeFrom k 16)).isSome = true →
        (formatOk → exec (.sywArm rs1 rs2) s = .next (s.trap 0x301 a)) ∧
        ∀ rd rs3 scope, exec (.sywWait rd rs1 rs3 scope) s = .next (s.trap 0x301 a)) ∧
      (formatOk → (firstPoison s (rangeFrom k 16)).isSome = false →
        ((firstRace s s.ctx.clock (ctxAgent s.key) (rangeFrom k 16) true true).isSome = true →
          exec (.sywArm rs1 rs2) s = .next (s.trap 0x201 a)) ∧
        ((firstRace s s.ctx.clock (ctxAgent s.key) (rangeFrom k 16) true true).isSome = false →
          ∃ t, exec (.sywArm rs1 rs2) s = .next t ∧ SameRegs s t ∧ s.ctx.Completed t.ctx ∧ s.ctx.SameSpecial t.ctx ∧
            SameOthers s t ∧ t.tiles = s.tiles ∧ t.roster = s.roster ∧
            t.sywAt k = { target := v.toNat, count := 0, gen := 0, armed := true, ovr := false, rest := 0 } ∧
            StoresOnly k 16 s t))

/-! ### Yield, triggers, launches, waits for other regions -/

/-- O27. `yield` sets park-now and completes. `trigger` records that its context has triggered; once every user context that the
region's image started has triggered or ended, the region counts as triggered. A second one by the context has no effect (R110,
R114). -/
def Obligations.YieldAndTrigger : Prop :=
  ∀ s : State, s.Inv → s.slot ≠ 2 →
    (∃ t, exec .yield s = .next t ∧ t.ctx.parkNow = true ∧ SameRegs s t ∧ s.ctx.Completed t.ctx ∧
      s.ctx.SameSpecial t.ctx ∧ OnlyContext s t) ∧
    ∃ t, exec .trigger s = .next t ∧ t.ctx.triggered = true ∧ SameRegs s t ∧ s.ctx.Completed t.ctx ∧
      t.ctx.flags = s.ctx.flags ∧ t.ctx.trapactive = s.ctx.trapactive ∧ SameOthers s t ∧ t.tiles = s.tiles ∧
      (s.ctx.triggered = true → t.ctx.clock = s.ctx.clock ∧ OnlyContext s t) ∧
      ∀ r, s.ctx.triggered = false → nget? s.regions (regionOfKey s.key) = some r →
        (∀ j ∈ r.starts, j = s.key ∨ (s.ctxOf j).triggered = true ∨ (s.ctxOf j).life = .ended) →
        ∃ r', nget? t.regions r.id = some r' ∧ r'.trig = true

/-- O28. `waitdep`, and the event that ends its wait: once every producer that the RCB names has triggered or ended, rd := 0 if all
that ended did so normally, else the code of the lowest-listed one that ended by a fault; an RCB that names none completes at once
with 0. Until then the context waits, with none of the effect (R109, R115). Where none ended by a fault and one was ABORTED, that
code is rd: the model's choice (log 68). -/
def Obligations.WaitForProducers : Prop :=
  ∀ (s : State) (rd : Reg) (r : Region), s.slot ≠ 2 → nget? s.regions (regionOfKey s.key) = some r →
    let trig (p : Nat) : Prop := ∀ q, nget? s.regions p = some q → q.trig = true
    let code (p : Nat) : Word :=
      match nget? s.regions p with | some q => if q.state = .ended then q.code.setWidth 64 else 0 | none => 0
    let passes (i : Instr) (v : Word) : Prop :=
      ∃ t, exec i s = .next t ∧ WritesReg s t rd v ∧ s.ctx.Completed t.ctx ∧ s.ctx.SameSpecial t.ctx ∧
        t.ctx.parkNow = false ∧ OnlyContext s t
    ((∀ p ∈ r.prods, trig p) →
      ∀ v, (((∀ p ∈ r.prods, code p = 0) ∧ v = 0) ∨
          ((∀ p ∈ r.prods, code p = 0 ∨ code p = 0x503) ∧ (∃ p ∈ r.prods, code p = 0x503) ∧ v = 0x503) ∨
          ∃ before p after, r.prods = before ++ p :: after ∧ (∀ q ∈ before, code q = 0 ∨ code q = 0x503) ∧ code p ≠ 0 ∧
            code p ≠ 0x503 ∧ v = code p) →
        passes (.waitdep rd) v ∧ (s.ctx.waiting = some (.waitdep rd) → passes .waitdepPass v)) ∧
    (¬ (∀ p ∈ r.prods, trig p) → s.ctx.parkNow = false → s.parksAtOnce = false →
      ∃ t, exec (.waitdep rd) s = .next t ∧ t.ctx.waiting = some (.waitdep rd) ∧ t.ctx.pc = s.ctx.pc ∧ SameRegs s t ∧
        s.ctx.SameSpecial t.ctx ∧ OnlyContext s t)

/-- O29. `launch` never waits (R111, R112). An RCB off 64 bytes or a reserved flag is LAUNCH_FORMAT, with every slot held NO_SLOT,
both in rd with FAIL set and nothing else changed; else a slot is reserved, the RCB and its argument enter the device launch queue
at its end, and rd is the child's region id, which no earlier launch got. -/
def Obligations.LaunchChild : Prop :=
  ∀ (s : State) (rd rs1 rs2 rs3 : Reg), s.slot ≠ 2 →
    let i : Instr := .launch rd rs1 rs2 rs3
    let fails (code : Nat) : Prop :=
      ∃ t, exec i s = .next t ∧ WritesReg s t rd (BitVec.ofNat 64 (2 ^ 63 + code)) ∧ s.ctx.Completed t.ctx ∧
        s.ctx.SameSpecial t.ctx ∧ OnlyContext s t ∧ t.fmc = s.fmc
    ((s.reg rs1).toNat % 64 ≠ 0 ∨ (s.reg rs3).toNat / 2 ≠ 0 → fails 0x502) ∧
    (s.regionOf s.key = none → (s.reg rs1).toNat % 64 = 0 → (s.reg rs3).toNat / 2 = 0 → fails 0x501) ∧
    ∀ r, s.regionOf s.key = some r → (s.reg rs1).toNat % 64 = 0 → (s.reg rs3).toNat / 2 = 0 →
      (r.words.cslots.toNat ≤ r.cheld → fails 0x501) ∧
      (r.cheld < r.words.cslots.toNat → r.id ≠ s.fmc.nextRegion → s.fmc.nextRegion < 2 ^ 32 →
        ∃ t r', exec i s = .next t ∧ WritesReg s t rd (BitVec.ofNat 64 s.fmc.nextRegion) ∧ s.ctx.Completed t.ctx ∧
          s.ctx.SameSpecial t.ctx ∧ SameOthers s t ∧ t.tiles = s.tiles ∧
          nget? t.regions r.id = some r' ∧ r'.cheld = r.cheld + 1 ∧ t.fmc.nextRegion = s.fmc.nextRegion + 1 ∧
          t.fmc.device = s.fmc.device ++ [{
            region := s.fmc.nextRegion, parent := r.id, rcb := s.reg rs1, arg := s.reg rs2, detach := s.reg rs3 = 1 }])

/-- O30. `cwait`, and the event that ends its wait (R113): a handle of no child of this region that may still be waited on, one
already taken or a DETACH child among them, gives CODE 0x504 at once; a child that has ended gives its exit value and code, its slot is
released, and it cannot be waited on again; else the context waits in a parking wait, with pc at the instruction and nothing written. -/
def Obligations.WaitForChild : Prop :=
  ∀ (s : State) (rd rs1 : Reg), s.Inv → s.slot ≠ 2 →
    let rid := regionOfKey s.key
    let h : BitVec 32 := (s.reg rs1).setWidth 32
    let i : Instr := .cwait rd rs1
    let returns (j : Instr) (v : Word) (t : State) : Prop :=
      exec j s = .next t ∧ WritesReg s t rd v ∧ s.ctx.Completed t.ctx ∧ s.ctx.SameSpecial t.ctx ∧ t.ctx.parkNow = false ∧
        SameOthers s t ∧ t.tiles = s.tiles
    (s.childOf rid h = none → ∃ t v, returns i v t ∧ v.extractLsb' 0 32 = 0x504 ∧ OnlyContext s t) ∧
    ((nget? s.regions h.toNat = none ∨
        ∃ c, nget? s.regions h.toNat = some c ∧ (c.taken = true ∨ c.detach = true ∨ c.parent ≠ some rid)) →
      s.childOf rid h = none) ∧
    (∀ c, s.childOf rid h = some c → c.state = .ended → c.id ≠ rid →
      let v : Word := BitVec.ofNat 64 (c.value.toNat * 2 ^ 32 + c.code.toNat)
      let taken (t : State) : Prop := t.childOf rid h = none ∧
        ∀ r, nget? s.regions rid = some r → ∃ q, nget? t.regions rid = some q ∧ q.cheld = r.cheld - 1
      (∃ t, returns i v t ∧ taken t) ∧ (s.ctx.waiting = some i → ∃ t, returns .cwaitReturn v t ∧ taken t)) ∧
    ∀ c, s.childOf rid h = some c → c.state ≠ .ended →
      exec i s = .next (s.parkOrWait i (.child h)) ∧
      (s.ctx.parkNow = false → s.parksAtOnce = false →
        ∃ t, exec i s = .next t ∧ t.ctx.waiting = some i ∧ t.ctx.pc = s.ctx.pc ∧ SameRegs s t ∧ s.ctx.SameSpecial t.ctx ∧
          OnlyContext s t)

/-- O31. Parking (R109, R353): a context that waits in a parking wait past the park threshold of its region, with nothing that holds
it, parks, and with park-now set whatever the threshold: its registers and its pc stay, the wait unit of its slot holds the wait's
descriptor, the slot is PARKED and park-now is clear; a slot whose whistle is still held stays DRAINING and notes PARKED for the
save. Nothing happens while something holds it (R109's list, `trapactive` in it), where the region never parks and park-now is
clear, or where the condition has become true first (R110). -/
def Obligations.ParkThreshold : Prop :=
  ∀ (s : State) (d : WaitDesc) (r : Region), s.waitDesc = some d → s.regionOf s.key = some r →
    (s.parkHeld = true ∨ (r.words.parkt = 0xFFFF ∧ s.ctx.parkNow = false) ∨ s.condHolds (regionOfKey s.key) d = true →
      exec .parkThresholdExpiry s = .next s) ∧
    (s.parkHeld = false → (r.words.parkt ≠ 0xFFFF ∨ s.ctx.parkNow = true) → s.condHolds (regionOfKey s.key) d = false →
      ∃ t, exec .parkThresholdExpiry s = .next t ∧ (t.ctxOf s.key).parked = true ∧ (t.ctxOf s.key).pc = s.ctx.pc ∧
        (∀ q, (t.ctxOf s.key).reg q = s.reg q) ∧ (t.ctxOf s.key).flags = s.ctx.flags ∧ (t.ctxOf s.key).parkNow = false ∧
        (let x := nget {} s.roster (s.tile * 2 + s.slot)
         let y := nget {} t.roster (s.tile * 2 + s.slot)
         (x.state ≠ .draining → y.state = .parked) ∧ (x.state = .draining → y.state = .draining ∧ y.before = .parked)) ∧
        nget? t.wake (s.tile * 2 + s.slot) = some d ∧ SameOthers s t)

/-! ### Feeding the engines -/

/-- O32. `sect` (R61, R96): on a queue with room that no other context has claimed, outside an unfinished section, with LENGTH nonzero
and dependencies in range, the header takes the number after ENQ, and 1 after 511; ENQ and rd take it; the header stands at the
end of the queue with its payload; the queue is claimed for the context. A LENGTH of 0 is the trap 0x014, a dependency out of
range 0x015, an unfinished section 0x012, with nothing pushed. -/
def Obligations.SectionHeaderPush : Prop :=
  ∀ (s : State) (e : Engine) (rd rs1 : Reg), s.slot ≤ 2 →
    let g := s.eng e
    let p := s.reg rs1
    let n := if g.enq = 511 then 1 else g.enq + 1
    g.busyFor s.key = false → g.sects.length < 255 →
    (g.opened.isSome = true ∨ (g.unfinished s.key).isSome = true → exec (.sect e rd rs1) s = .next (s.trap 0x012 p)) ∧
    (g.opened = none → g.unfinished s.key = none →
      (p.extractLsb' 54 10 = (0 : BitVec 10) → exec (.sect e rd rs1) s = .next (s.trap 0x014 p)) ∧
      (p.extractLsb' 54 10 ≠ (0 : BitVec 10) → s.depsInRange e (p.extractLsb' 0 54) = false →
        exec (.sect e rd rs1) s = .next (s.trap 0x015 p)) ∧
      (p.extractLsb' 54 10 ≠ (0 : BitVec 10) → s.depsInRange e (p.extractLsb' 0 54) = true →
        ∃ t q c, exec (.sect e rd rs1) s = .next t ∧ WritesReg s t rd (n.setWidth 64) ∧ s.ctx.Completed t.ctx ∧
          s.ctx.SameSpecial t.ctx ∧ (t.eng e).enq = n ∧ (t.eng e).queue = g.queue ++ [q] ∧ q.word.op = 0xFF ∧
          q.word.o = p ∧ q.sect = n ∧ (t.eng e).claim = some c ∧ c.owner = s.key ∧
          (∀ f, f ≠ e → t.eng f = s.eng f) ∧ SameMemory s t ∧ SameOthers s t))

/-- O33. `enq` and `enq.l` (R94): the word offered is rs2[31:0] over rs1 with bit 87 forced to 0 or to 1. Where the queue
accepts it, it stands at the end of the queue and rd is the number of free entries of the 64 that remain; where a check of R63
or R95 fails it is that trap with nothing pushed; where it must stall the context waits with none of the effect, and so it does
while a page of its extent is walked (R331). When an entry frees is the model's choice (log 19). -/
def Obligations.EngineWordPush : Prop :=
  ∀ (s : State) (e : Engine) (rd rs1 rs2 : Reg) (last : Bool),
    let i : Instr := if last then .enqL e rd rs1 rs2 else .enq e rd rs1 rs2
    let v : EngineWord := ((s.reg rs2).setWidth 32 : BitVec 32) ++ s.reg rs1
    let w : EngineWord := (v.extractLsb' 88 8 : BitVec 8) ++ BitVec.ofBool last ++ (v.extractLsb' 0 87 : BitVec 87)
    (∀ u, s.offer e w false = .done u →
      ∃ t q, exec i s = .next t ∧ WritesReg s t rd (BitVec.ofNat 64 (64 - ((s.eng e).queue.length + 1))) ∧
        s.ctx.Completed t.ctx ∧ s.ctx.SameSpecial t.ctx ∧ (t.eng e).queue = (s.eng e).queue ++ [q] ∧ q.word = w ∧
        (∀ f, f ≠ e → t.eng f = s.eng f) ∧ SameOthers s t ∧ (w.isExt = false → SameMemory s t)) ∧
    (∀ c x, s.offer e w false = .trap c x → exec i s = .next (s.trap c x)) ∧
    (s.offer e w false = .stall ∨ s.offer e w false = .walk →
      ∃ t, exec i s = .next t ∧ t.ctx.waiting = some i ∧ t.ctx.pc = s.ctx.pc ∧ SameRegs s t ∧
        s.ctx.SameSpecial t.ctx ∧ OnlyContext s t ∧ (s.offer e w false = .walk → t.ctx.walk = some s.ctx.pc))

/-- O34. A push that stalled runs again from its start when the stall ends (R88); an `enq.l` that the queue then accepts completes
and stands at the end of the queue. One that waited for a walk is checked again with the tables read when the walk ends (R331),
and completes in the same way. -/
def Obligations.StalledPushRetries : Prop :=
  ∀ (s : State) (i : Instr), s.ctx.waiting = some i →
    (isPush i = true → exec .enqStallEnd s = exec i s) ∧
    ∀ (e : Engine) (rd rs1 rs2 : Reg) (u : State), i = .enqL e rd rs1 rs2 →
      let v : EngineWord := ((s.reg rs2).setWidth 32 : BitVec 32) ++ s.reg rs1
      let w : EngineWord := (v.extractLsb' 88 8 : BitVec 8) ++ (1 : BitVec 1) ++ (v.extractLsb' 0 87 : BitVec 87)
      let pushed (j : Instr) : Prop :=
        ∃ t q, exec j s = .next t ∧ s.ctx.Completed t.ctx ∧ (t.eng e).queue = (s.eng e).queue ++ [q] ∧ q.word = w
      (s.offer e w false = .done u → pushed .enqStallEnd) ∧
        (s.offer e w true = .done u → s.ctx.walk ≠ none → pushed .translationWalkEnd)

/-- O35. `qstat` reads without waiting (R98): rd is the engine's micro-PC, or the status word with FREE, EXT, CLAIM, CSECT, COP and
STATUS in their fields and zeros between them, and nothing changes; at reset the word is FREE = 64. EXT is within its field in
every state that R24 allows. COP, CSECT and the micro-PC are those of the oldest of several commands in progress, as R134 says of
the SE and log 63 reads for the other engines; which STATUS is read where two apply is log 71's reading. -/
def Obligations.QueueStatus : Prop :=
  (∀ (s : State) (e : Engine) (rd : Reg), (s.eng e).extents.length ≤ 32 →
    let g := s.eng e
    (∃ t, exec (.qstat e rd false) s = .next t ∧ WritesReg s t rd g.upc ∧ s.ctx.Completed t.ctx ∧
      s.ctx.SameSpecial t.ctx ∧ OnlyContext s t) ∧
    ∃ t v, exec (.qstat e rd true) s = .next t ∧ WritesReg s t rd v ∧ s.ctx.Completed t.ctx ∧ s.ctx.SameSpecial t.ctx ∧
      OnlyContext s t ∧
      (v.extractLsb' 48 16 : BitVec 16) = 0 ∧ (v.extractLsb' 40 8 : BitVec 8).toNat = 64 - g.queue.length ∧
      (v.extractLsb' 34 6 : BitVec 6).toNat = g.extents.length ∧
      (v.extractLsb' 32 2 : BitVec 2) = (match g.claim with | some c => c.slot | none => 0) ∧
      (v.extractLsb' 23 9 : BitVec 9) = (match g.current with | some c => c.1 | none => 0) ∧
      (g.program = none → (v.extractLsb' 15 8 : BitVec 8) = (match g.runs with
        | r :: _ => (match encodeCmd r.instr with | some (_, w :: _) => w.op | _ => 0)
        | [] => 0)) ∧
      (∀ p, g.program = some p → (∀ r ∈ g.runs, p.cmd < r.id) →
        (v.extractLsb' 15 8 : BitVec 8) = 0xFE ∧ (v.extractLsb' 23 9 : BitVec 9) = p.fork) ∧
      (v.extractLsb' 8 7 : BitVec 7) = 0 ∧ (v.extractLsb' 0 8 : BitVec 8).toNat = s.engineStatus s.tile e) ∧
  ∀ (e : Engine) (rd : Reg), ∃ t, exec (.qstat e rd true) State.reset = .next t ∧
    WritesReg State.reset t rd 0x0000400000000000

/-- O36. `qcancel` (R97): n = 0, or n outside the window of the engine, gives rd := 0 and nothing else. Else the instruction
completes without a stall: of the sections of the context in the window that `flg.gather` did not push every word but the header
leaves the queue, and rd is how many did; they are CANCELLED; every other word and section stays; the claim ends with a section
that was still being pushed, and with the program of a fork (R100). That the sections of a program that have not started are
cancelled with it is the model's reading (log 18). -/
def Obligations.QueueCancel : Prop :=
  ∀ (s : State) (e : Engine) (rd rs1 : Reg),
    let g := s.eng e
    let n : BitVec 9 := (s.reg rs1).setWidth 9
    (n = 0 ∨ g.enq = 0 ∨ 254 < dist g.enq n →
      ∃ t, exec (.qcancel e rd rs1) s = .next t ∧ WritesReg s t rd 0 ∧ s.ctx.Completed t.ctx ∧ s.ctx.SameSpecial t.ctx ∧
        OnlyContext s t) ∧
    (n ≠ 0 → g.enq ≠ 0 → dist g.enq n ≤ 254 →
      let mine (q : Sect) : Bool := q.owner = s.key && q.kind ≠ .gather && dist g.enq q.num ≤ dist g.enq n
      let follows (q : Sect) : Bool :=
        q.kind = .fetched && !q.started && g.sects.any fun x => mine x && x.prog.isSome && x.prog = q.prog
      let nums := (g.sects.filter fun q => mine q || follows q).map (·.num)
      let gone (w : QWord) : Bool := nums.contains w.sect && w.word.op ≠ 0xFF
      ∃ t, exec (.qcancel e rd rs1) s = .next t ∧ s.ctx.Completed t.ctx ∧ s.ctx.SameSpecial t.ctx ∧
        WritesReg s t rd (BitVec.ofNat 64 (g.queue.filter gone).length) ∧ SameMemory s t ∧ SameOthers s t ∧
        (∀ f, f ≠ e → t.eng f = s.eng f) ∧ (t.eng e).queue = g.queue.filter (fun w => !gone w) ∧
        (∀ m ∈ nums, ∀ q, (t.eng e).sect? m = some q → q.cancelled = true) ∧
        (∀ q ∈ g.sects, q.num ∉ nums → q ∈ (t.eng e).sects) ∧
        (∀ m ∈ nums, ∀ q, g.sect? m = some q → q.left ≠ 0 → q.kind = .pushed →
          (t.eng e).claim = none ∧ (t.eng e).opened = none) ∧
        ∀ p, g.program = some p → p.fork ∈ nums ∨ p.sect ∈ nums → (t.eng e).program = none ∧ (t.eng e).claim = none)

/-- O37. `fork` and `rdv` (R100, R102). A mask of 0 gives rd := 0 and does nothing else; a mask above bit 6 is FORK_FORMAT.
With a sound block, room on every masked engine and a data extent in scratchpad, or in device memory with its pages mapped and
pinned, each masked engine in ascending id gets a header, a program call behind it and an entry for the extent, and rd holds the
section tag. `rdv` waits until every section of the tag is done, then completes with the mask of the engines on which a section
that it awaits retired CANCELLED in rd[6:0] and zeros above. That an extent in scratchpad takes an entry too is the model's
reading (log 16). -/
def Obligations.ForkAndJoin : Prop :=
  ∀ (s : State) (rd rs1 rs2 : Reg),
    let i : Instr := .fork rd rs1 rs2
    let mask := s.reg rs2
    let es := maskedEngines mask
    (mask.extractLsb' 0 7 = (0 : BitVec 7) → ∃ t, exec i s = .next t ∧ WritesReg s t rd 0 ∧ s.ctx.Completed t.ctx ∧
      s.ctx.SameSpecial t.ctx ∧ OnlyContext s t) ∧
    (mask.extractLsb' 0 7 ≠ (0 : BitVec 7) → mask.toNat / 128 ≠ 0 → exec i s = .next (s.trap 0x018 (s.reg rs1))) ∧
    (∀ ws u, mask.extractLsb' 0 7 ≠ (0 : BitVec 7) → mask.toNat / 128 = 0 →
      s.readAligned (s.reg rs1) 16 (2 + 2 * es.length) = .words ws u → forkDefect ws = false →
      (∀ e ∈ es, (s.eng e).unfinished s.key = none ∧ (s.eng e).queue.length ≤ 62 ∧
        (s.eng e).claimedByOther s.key = false ∧ (s.eng e).forked = false ∧ (s.eng e).freeExtent.isSome = true ∧
        (s.eng e).sects.length < 255) →
      s.badBase (lget 0 ws 0).toNat = false →
      let base := lget 0 ws 0
      let len := (lget 0 ws 1).toNat
      ∀ fs v, isScratchAddr base.toNat = true ∧ fs = [] ∧ v = u ∨
          isScratchAddr base.toNat = false ∧ u.translateFor false true base.toNat len = .ready fs v →
        ∃ t, exec i s = .next t ∧ s.ctx.Completed t.ctx ∧ s.ctx.SameSpecial t.ctx ∧
          WritesReg s t rd (sectTag (es.map fun e => (e, nextSect (s.eng e).enq))) ∧ SameOthers s t ∧
          (isScratchAddr base.toNat = true → SameMemory s t) ∧
          ∀ e ∈ es, ∃ h c, (t.eng e).queue = (s.eng e).queue ++ [h, c] ∧ h.word.op = 0xFF ∧ c.word.op = 0xFE ∧
            (t.eng e).enq = nextSect (s.eng e).enq ∧
            ∀ n, (s.eng e).freeExtent = some n → nget? (t.eng e).extents n =
              some { base := base, len := len, frames := fs, tag := c.cmd, space := s.spaceHere }) ∧
    (s.tagDone (s.reg rs1) = true →
      let joins (j : Instr) : Prop :=
        ∃ t v, exec j s = .next t ∧ s.ctx.Completed t.ctx ∧ s.ctx.SameSpecial t.ctx ∧ OnlyContext s t ∧ WritesReg s t rd v ∧
          v.toNat < 128 ∧ ∀ e : Engine, v.getLsbD e.id = true ↔
            ∃ n, (e, n) ∈ tagSects (s.reg rs1) ∧ ∃ m ∈ (s.eng e).awaited n, ∃ q, (s.eng e).retiredOf m = some q ∧
              q.cancelled = true
      joins (.rdv rd rs1) ∧ (s.ctx.waiting = some (.rdv rd rs1) → joins .rdvReturn)) ∧
    (s.tagDone (s.reg rs1) = false →
      ∃ t, exec (.rdv rd rs1) s = .next t ∧ t.ctx.waiting = some (.rdv rd rs1) ∧ t.ctx.pc = s.ctx.pc ∧ SameRegs s t ∧
        s.ctx.SameSpecial t.ctx ∧ OnlyContext s t)

/-- O38. `contract` (R116): a block that cannot be read traps as R86, a defective one is CONTRACT_FORMAT, and C in pages of device
memory that may not be written is TRANSLATION at its address (R331), with nothing pushed; a sound one begins the pushes of the
expansion (the microcode's choice, which the manual leaves to it: log 22). A push that stalls keeps its place, and one that traps
reaches the context with the expansion over. When the last push has been made rd is the section tag, the expansion is over, and C
is due when its sections have retired (log 22). -/
def Obligations.Contraction : Prop :=
  ∀ (s : State) (rd rs1 : Reg), s.slot ≠ 2 →
    let i : Instr := .contract rd rs1
    let addr := s.reg rs1
    (s.ctx.expanding = none →
      (∀ c x, s.readAligned addr 64 32 = .trap c x → exec i s = .next (s.trap c x)) ∧
      ∀ ws u, s.readAligned addr 64 32 = .words ws u →
        (contractDefect ws = true → exec i s = .next (s.trap 0x01C addr)) ∧
        (∀ va, contractDefect ws = false → u.contractBarred ws = some va → exec i s = .next (u.trap 0x020 va)) ∧
        (contractDefect ws = false → u.contractBarred ws = none →
          exec i s = .next ((u.contractDirty ws).expand rd rs1 false ws (contractPushes ws) 0 0 []))) ∧
    ∀ x, s.ctx.expanding = some x →
      (∀ e header w rest, (contractPushes x.block).drop x.pushed = (e, header, w) :: rest →
        let p := if header then s.offerHeader e (w.setWidth 64) .pushed else s.offer e w false
        (p = .stall → ∃ t, exec i s = .next t ∧ t.ctx.waiting = some i ∧ t.ctx.pc = s.ctx.pc ∧ SameRegs s t ∧
          t.ctx.expanding = some { x with pc := s.ctx.pc } ∧ s.ctx.SameSpecial t.ctx ∧ OnlyContext s t) ∧
        ∀ c v, p = .trap c v → exec i s = .next ((s.setCtx { s.ctx with expanding := none }).trap c v)) ∧
      ((contractPushes x.block).drop x.pushed = [] →
        ∃ t job, exec i s = .next t ∧ WritesReg s t rd x.tag ∧ s.ctx.Completed t.ctx ∧ t.ctx.expanding = none ∧
          s.ctx.SameSpecial t.ctx ∧ SameMemory s t ∧ SameOthers s t ∧
          (t.tileAt s.tile).contractions = (s.tileAt s.tile).contractions ++ [job] ∧ job.block = x.block ∧
          job.owner = s.key ∧ job.tag = x.tag)

/-- O39. `flg.gather` (R117, R118). Once its `ne.flag` has been pushed, by this execution or by one at the same pc that a trap cut,
the instruction waits for the round; when the NE holds the
round's OR with the section, rd := that OR and the wait is over, by the instruction or by the event that ends its wait. With a
sound descriptor and room on the NE it first pushes a section of one `ne.flag` and waits. -/
def Obligations.FlagGather : Prop :=
  ∀ (s : State) (rd rs1 rs2 : Reg), s.slot ≠ 2 →
    let i : Instr := .flgGather rd rs1 rs2
    let g := s.eng .ne
    let begun (n : BitVec 9) : Prop :=
      s.ctx.gatherNow = some n ∨ s.ctx.gatherNow = none ∧ s.ctx.gather = some (s.ctx.pc, n)
    (∀ n v seen, begun n → nget? g.results n.toNat = some (v, seen) →
      let returns (j : Instr) : Prop :=
        ∃ t, exec j s = .next t ∧ WritesReg s t rd v ∧ s.ctx.Completed t.ctx ∧ t.ctx.gatherNow = none ∧
          t.ctx.flags = s.ctx.flags ∧ SameMemory s t ∧ SameOthers s t
      returns i ∧ (s.ctx.waiting = some i → returns .flgGatherReturn)) ∧
    (∀ n, begun n → nget? g.results n.toNat = none →
      ∃ t, exec i s = .next t ∧ t.ctx.waiting = some i ∧ t.ctx.pc = s.ctx.pc ∧ SameRegs s t ∧ OnlyContext s t) ∧
    (∀ ws u, s.ctx.gatherNow = none → (∀ n, s.ctx.gather ≠ some (s.ctx.pc, n)) → s.readAligned (s.reg rs2) 16 4 = .words ws u →
      s.gatherDefect ws = false → g.unfinished s.key = none → g.busyFor s.key = false → g.queue.length ≤ 61 →
      g.sects.length < 255 →
      ∃ t h a b, exec i s = .next t ∧ t.ctx.waiting = some i ∧ t.ctx.pc = s.ctx.pc ∧ SameRegs s t ∧ SameMemory s t ∧
        (t.eng .ne).queue = g.queue ++ [h, a, b] ∧ h.word.op = 0xFF ∧
        decodeCmd .ne [a.word, b.word] = some (.neFlag (s.reg rs1) { gran := 0, len := 31, base := s.reg rs2 }) ∧
        t.ctx.gatherNow = some (t.eng .ne).enq)

/-! ### Queues, sections and programs -/

/-- O40. A section whose header stands at the head of its queue starts when its dependencies are satisfied, and not before
(R62). The oldest section, complete, retires: RET takes its number and its flag word is ORed into `lx.flags` of the context
that claimed the queue (R17, R21); where it is the last of a contraction's, C takes its values (R263) and the sum's flags are
raised with it, a time that the model chose (log 22). A `nop` completes as it starts, on the AE once no other command is in
progress (R59, R159); a program call begins its program's fetch (R100). That a header leaves its queue as its section starts is
the model's choice (log 19). -/
def Obligations.SectionsStartAndRetire : Prop :=
  ∀ (s : State) (e : Engine),
    let g := s.eng e
    (∀ w rest q, g.queue = w :: rest → w.word.op = 0xFF → g.sect? w.sect = some q → g.fault = none →
      s.unitStops e none = false → q.started = false → q.cancelled = false →
      (s.depsSatisfied e q.deps = false → exec (.sectionStart e) s = .next s) ∧
      (s.depsSatisfied e q.deps = true →
        ∃ t q', exec (.sectionStart e) s = .next t ∧ (t.eng e).queue = rest ∧ (t.eng e).sect? w.sect = some q' ∧
          q'.started = true ∧ q'.deps = q.deps ∧ q'.owner = q.owner ∧ (t.eng e).runs = g.runs ∧ SameMemory s t ∧
          SameOthers s t)) ∧
    (∀ q rest, g.sects = q :: rest → g.complete q = true →
      let after := s.retire e q rest
      let due := (s.tileAt s.tile).contractions.filter fun j => after.tagDone j.tag
      let retires (flags : Flags) (t : State) : Prop :=
        exec (.sectionRetire e) s = .next t ∧ (t.eng e).ret = q.num ∧ (t.eng e).sects = rest ∧ (t.eng e).enq = g.enq ∧
          (t.ctxOf q.owner).flags = (s.ctxOf q.owner).flags ||| (flags.setWidth 64 : Word) ∧
          ∀ k, k ≠ q.owner → t.ctxOf k = s.ctxOf k
      (due = [] → ∃ t, retires q.flags t ∧ SameMemory s t) ∧
      ∀ f c v, due ≠ [] → g.fault = none → s.endContractions after q due = .done f c v →
        ∃ t, retires f t ∧ t.mem = v.mem ∧
          (t.tileAt t.tile).contractions = (s.tileAt s.tile).contractions.filter fun j => !due.contains j) ∧
    (∀ ws, CommandAtHead s e ws →
      ((e = .ae → g.runs = []) →
        ∃ t, exec (.engineNop e) s = .next t ∧ (t.eng e).runs = g.runs ∧ (t.eng e).queue = g.queue.drop ws.length ∧
          SameMemory s t) ∧
      ∀ (n : BitVec 16) (a : Word), ∃ t p, exec (.programCall e n a) s = .next t ∧ (t.eng e).program = some p ∧
        p.addr = a ∧ p.count = n.toNat ∧ p.next = 0 ∧ (t.eng e).runs = g.runs ∧
        (t.eng e).queue = g.queue.drop ws.length ∧ SameMemory s t)

/-- O41. The fetch of a forked program (R61, R64): an entry that reads as a sound header takes the next section number and
stands in the queue, by either name of the step; an entry that reads as a sound word of the section in fetch stands in the
queue. Which of several defects is named is the model's reading (log 17). -/
def Obligations.ProgramFetch : Prop :=
  ∀ (s : State) (e : Engine) (p : Program) (bs : List Byte) (b : Bool),
    let g := s.eng e
    g.program = some p → g.fault = none → s.unitStops e none = false → p.next < p.count → g.queue.length < 64 →
    s.runRead e (p.run e) (p.addr.toNat + 12 * p.next) 12 true false = .bytes bs b →
    let w : EngineWord := BitVec.ofNat 96 (leNat bs)
    (w.op = 0xFF → g.fetching p = none → p.opened = [] → w.last = true → w.widx = 0 → w.f = 0 →
      w.o.extractLsb' 54 10 ≠ (0 : BitVec 10) → s.depsInRange e (w.o.extractLsb' 0 54) = true → g.sects.length < 255 →
      ∀ i, i = .sectionHeader e ∨ i = .programFetch e →
        ∃ t h, exec i s = .next t ∧ (t.eng e).enq = nextSect g.enq ∧ (t.eng e).queue = g.queue ++ [h] ∧ h.word = w ∧
          h.sect = nextSect g.enq ∧ SameMemory s t ∧ SameOthers s t) ∧
    ∀ q, w.op ≠ 0xFF → g.fetching p = some q → q.discard = false →
      sequenceDefect e { ws := p.opened ++ [w] } (q.left = 1) = none →
      firstDefect (cmdChecks s.checkEnv e { ws := p.opened ++ [w] }) = none →
      (w.isExt = true → s.fetchedOutside e p (extOf w) = false) →
      ∃ t h, exec (.programFetch e) s = .next t ∧ (t.eng e).queue = g.queue ++ [h] ∧ h.word = w ∧ h.sect = q.num ∧
        SameMemory s t ∧ SameOthers s t

/-! ### The stream engine and the copy engine -/

/-- O42. Commands of the SE start in the order of the queue, a stream only with a slot free and none behind a `se.bar` in progress
(R132, R138): each of the four streams and `se.bar` is then in progress. A gate command acts on every started stream with its SID
and on no other run, and completes as it starts: PAUSE and RESUME set and clear its pause, FINISH makes it finish and ends its pause
(R136, R137). -/
def Obligations.StreamCommandsStart : Prop :=
  ∀ (s : State) (ws : List QWord), CommandAtHead s .se ws →
    (s.seMayStart true = true → ∀ i : Instr,
      (∃ c, i = .seAff c) ∨ (∃ c, i = .seInd c) ∨ (∃ c, i = .seRec c) ∨ (∃ c, i = .seMcast c) →
      ∃ t, exec i s = .next t ∧ Started s .se i ws t) ∧
    (s.seMayStart false = true →
      (∀ c, ∃ t, exec (.seBar c) s = .next t ∧ Started s .se (.seBar c) ws t) ∧
      ∀ sid : BitVec 9,
        let gates (i : Instr) (f : Work → Work) : Prop :=
          ∃ t, exec i s = .next t ∧
            (t.eng .se).runs = (s.eng .se).runs.map (fun x =>
              if sidOf x.instr = some sid then { x with work := f x.work } else x) ∧
            (t.eng .se).queue = (s.eng .se).queue.drop ws.length ∧ SameMemory s t
        gates (.seGatePause sid) (fun w => { w with paused := true }) ∧
          gates (.seGateResume sid) (fun w => { w with paused := false }) ∧
          gates (.seGateFinish sid) (fun w => { w with finishing := true, paused := false }))

/-- O43. A read stream (R122, R126, R128, R134, R135, R139): it issues a request from its next element on, whole elements in order; an
indirect one without a row to go on with takes the next index, or ends with LEN where its source has ended; an element outside the
extent that is due stops the SE with ENG_BOUND at its address; the data that return are, element by element, the bytes at each
element's address, or what a poisoned one reads as; it delivers its next packet to its targets and counts its elements. A stream
that has done its last completes, and its points are free (R132). That a paused one completes only after RESUME is the model's
reading of R136 (log 79), and so is that packets before a fault go out first (log 23). -/
def Obligations.ReadStreamSteps : Prop :=
  ∀ (s : State) (slot : Nat) (r : Run) (p : Pattern), s.runOf .se slot = some r → patternOf r.instr = some p →
    p.write = false →
    (∀ a, r.work.paused = false → r.work.finishing = false → r.work.reqs.length < 64 →
      (((s.eng .se).runs.map fun x => x.work.reqs.length).foldl (· + ·) 0) < 256 → r.work.i < r.total.1 →
      (elementOf r.instr r.work.counts r.work.i).addr = some a →
      (inExt p.ext a p.es = true →
        ∃ t r' q, exec (.streamRequestIssue slot) s = .next t ∧ (t.eng .se).run? slot = some r' ∧
          r'.work.reqs = r.work.reqs ++ [q] ∧ q.first = r.work.i ∧ 1 ≤ q.count ∧ r'.work.i = r.work.i + q.count ∧
          SameMemory s t ∧ SameOthers s t) ∧
      (inExt p.ext a p.es = false → r.due p r.work.i = true →
        ∃ t f, exec (.streamRequestIssue slot) s = .next t ∧ (t.eng .se).fault = some f ∧ f.code = 0x105 ∧
          f.tval = BitVec.ofInt 64 a ∧ f.sect = r.sect)) ∧
    (∀ c : IndCmd, r.instr = .seInd c → r.work.paused = false → r.work.finishing = false → r.work.reqs.length < 64 →
      (((s.eng .se).runs.map fun x => x.work.reqs.length).foldl (· + ·) 0) < 256 → r.total.1 ≤ r.work.i → r.total.2 = false →
      s.mayTake r.id (indSource c) = true →
      (∀ v u, s.nextIndex s.tile (indSource c) (indWidth c) 40 = .value v u →
        ∃ t r', exec (.streamRequestIssue slot) s = .next t ∧ (t.eng .se).run? slot = some r' ∧
          nget? r'.work.counts r.work.k = some v ∧ r'.work.k = r.work.k + 1 ∧ r'.work.i = r.work.i ∧
          (∀ tile code, (t.point tile code).buf = (u.point tile code).buf) ∧ SameMemory s t) ∧
      ∀ u, s.nextIndex s.tile (indSource c) (indWidth c) 40 = .ended u →
        ∃ t r', exec (.streamRequestIssue slot) s = .next t ∧ (t.eng .se).run? slot = some r' ∧ r'.work.complete = true ∧
          r'.flags = r.flags ||| Flag.len ∧ r'.work.k = r.work.k ∧ SameMemory s t) ∧
    (∀ q a bs bad, lfind (fun x => x.id = q.id) r.work.reqs = some q → q.returned = false → q.count = 1 → r.work.halted = false →
      nget? r.work.got q.first = none → (elementOf r.instr r.work.counts q.first).addr = some a →
      s.runRead .se r a.toNat p.es p.trap false = .bytes bs bad →
      ∃ t r', exec (.memoryReadReturn .se slot q.id) s = .next t ∧ (t.eng .se).run? slot = some r' ∧
        nget? r'.work.got q.first = some (BitVec.ofNat 64 (if bad then poisonValue p else leNat bs)) ∧
        r'.flags = (if bad then r.flags ||| Flag.poi else r.flags) ∧ SameMemory s t ∧ SameOthers s t) ∧
    (∀ q, lfind (fun x => x.id = q.id) r.work.reqs = some q → q.returned = false → r.work.halted = false →
      nget? r.work.got q.first = none →
      exec (.memoryReadReturn .se slot q.id) s = .next (s.returnElements r p q.id q.count q.first)) ∧
    (∀ (u : State) (x : Run) (id m n : Nat) (a : Int) (bs : List Byte) (bad : Bool),
      (elementOf x.instr x.work.counts n).addr = some a → u.runRead .se x a.toNat p.es p.trap false = .bytes bs bad →
      ∃ v y, u.returnElements x p id (m + 1) n = v.returnElements y p id m (n + 1) ∧ y.instr = x.instr ∧
        y.work.counts = x.work.counts ∧ y.work.reqs = x.work.reqs ∧
        nget? y.work.got n = some (BitVec.ofNat 64 (if bad then poisonValue p else leNat bs)) ∧
        (∀ j, j ≠ n → nget? y.work.got j = nget? x.work.got j) ∧ SameMemory u v ∧ SameOthers u v) ∧
    (∀ (u : State) (x : Run) (id n : Nat), ((u.eng .se).run? x.id).isSome = true →
      ∃ y, ((u.returnElements x p id 0 n).eng .se).run? x.id = some y ∧ y.work.got = x.work.got ∧
        ∀ q ∈ y.work.reqs, q.id = id → q.returned = true) ∧
    (∀ d u, r.nextPacket p = some d →
      s.deliverAll r (pointKey p.port p.sid) d.packet (s.targets r p) = .done u →
      ∃ t r', exec (.streamDelivery slot) s = .next t ∧ (t.eng .se).run? slot = some r' ∧
        r'.work.j = r.work.j + d.count ∧ r'.work.endSent = d.last ∧
        (∀ tile code, t.point tile code = u.point tile code) ∧ SameMemory s t ∧ SameOthers s t) ∧
    (r.isStream = true → r.work.paused = true → exec (.streamComplete slot) s = .next s) ∧
    (r.isStream = true → r.streamDone = true → r.work.paused = false →
      ∃ t, exec (.streamComplete slot) s = .next t ∧ EndedRun s .se slot t ∧
        (∀ tile code, (t.point tile code).holder ≠ some slot) ∧ SameMemory s t)

/-- O44. A write stream and a recurrence, and `se.bar` (R123, R126, R129, R138). An element of an affine write stream, taken at its
port with its PRED bit set, is written at its address in the width of the element; the stream goes on with the next of the same
packet, or stops at the packet's end; after its last element it has done its last or only discards up to END. A recurrence
injects its initial lane words one by one, then forwards the packet at its source with its own SID: the lane words up to NFWD, the
rest staying at the source with its marker, and START on the first packet. A drained `se.bar` with ARR
arrives at its barrier and, without WAIT, completes; one that waits completes once the generation is reached. That END is met
as the head of the port is the model's reading (log 42). -/
def Obligations.WriteStreamsAndBarriers : Prop :=
  (∀ (s : State) (slot : Nat) (r : Run) (c : AffCmd) (x : Word) (y present : Bool) (w after u : State) (v : Nat) (a : Int),
    let p : Nat := c.port.toNat
    let es := 2 ^ c.esize.toNat
    let h := s.hold r.id p
    let r1 := { r with
      upc := (elementOf r.instr r.work.counts r.work.i).upc, clock := r.clock.join (h.elemResp h.tile p (8 * es)) }
    s.runOf .se slot = some r → r.instr = .seAff c → c.dir = true → r.work.endSent = false → r.work.finishing = false →
    r.work.halted = false → r.work.paused = false →
    r.work.complete = false → s.mayTake r.id p = true → (h.fitHead h.tile p (8 * es)).peek h.tile p = some (.lane x y, w) →
    h.takeElem h.tile p (8 * es) = some (.value v present, after) →
    (elementOf r.instr r.work.counts r.work.i).addr = some a → inExt c.ext a es = true →
    (r.work.i + 1 = r.total.1 →
      (present = true → after.runWrite .se r1 a.toNat (leBytes es v) false false = .done u →
        ∃ t r', exec (.writeStreamUnpack slot) s = .next t ∧ t.mem = u.mem ∧ (t.eng .se).run? slot = some r' ∧
          (r'.work.endSent = true ∨ r'.work.complete = true)) ∧
      (present = false →
        ∃ t r', exec (.writeStreamUnpack slot) s = .next t ∧ SameMemory s t ∧ (t.eng .se).run? slot = some r' ∧
          (r'.work.endSent = true ∨ r'.work.complete = true))) ∧
    (r.work.i + 1 < r.total.1 → ∀ z pat, patternOf r.instr = some pat →
      present = true ∧ after.runWrite .se r1 a.toNat (leBytes es v) false false = .done z ∨ present = false ∧ z = after →
      let begun := (z.point z.tile p).begun
      let r2 := { r1 with work := { r1.work with i := r.work.i + 1, checked := begun } }
      (begun = false → exec (.writeStreamUnpack slot) s = .next (z.setRun .se r2)) ∧
        (begun = true → exec (.writeStreamUnpack slot) s = .next (z.unpack r2 pat p 71)))) ∧
  (∀ (s u : State) (slot : Nat) (r : Run) (c : RecCmd),
    s.runOf .se slot = some r → r.instr = .seRec c → r.work.endSent = false → r.work.finishing = false →
    r.work.paused = false → r.work.i < c.ninit.toNat →
    s.deliverAll r c.dst.toNat
      { lanes := [match c.init with | some v => v | none => 0], pred := 1, sid := c.sid
        marker := if c.start = true ∧ r.work.startSent = false then some .start else none } [s.tile] = .done u →
    ∃ t r', exec (.recurrenceForward slot) s = .next t ∧ (t.eng .se).run? slot = some r' ∧ r'.work.i = r.work.i + 1 ∧
      r'.work.startSent = true ∧ (∀ tile code, t.point tile code = u.point tile code) ∧ SameMemory s t) ∧
  (∀ (s u w : State) (slot : Nat) (r : Run) (c : RecCmd) (k : Packet) (rest : List Packet),
    let src := c.src.toNat
    let f := forwardOf c (!r.work.startSent) r.work.j k
    s.runOf .se slot = some r → r.instr = .seRec c → r.work.endSent = false → r.work.paused = false →
    r.work.finishing = false ∨ r.work.checked = true → c.ninit.toNat ≤ r.work.i → r.forwardedAll c = false →
    s.mayTake r.id src = true → s.openHead s.tile src = some u → (u.point u.tile src).buf = k :: rest →
    k.marker ≠ some .whistle → u.deliverAll r c.dst.toNat f.packet [u.tile] = .done w →
    ∃ t r', exec (.recurrenceForward slot) s = .next t ∧ (t.eng .se).run? slot = some r' ∧
      r'.work.j = r.work.j + f.count ∧ r'.work.startSent = true ∧
      (r'.work.endSent = true ↔ c.nfwd = BitVec.allOnes 32 ∧ f.rest = none ∧ k.marker = some .fin ∨
        c.nfwd ≠ BitVec.allOnes 32 ∧ c.nfwd.toNat ≤ r.work.j + f.count ∧ f.owed = false) ∧
      (t.point w.tile src).buf = (match f.rest with | some k' => k' :: rest | none => rest) ∧
      (∀ tile code, tile ≠ w.tile ∨ code ≠ src → t.point tile code = w.point tile code) ∧ SameMemory s t) ∧
  (∀ (c : RecCmd) (first : Bool) (n : Nat) (k : Packet),
    let f := forwardOf c first n k
    let left := if c.nfwd = BitVec.allOnes 32 then k.count else c.nfwd.toNat - n
    let owes := first = true ∧ c.start = true ∧ k.marker ≠ none ∧ k.marker ≠ some .start
    f.count = min k.count left ∧ f.packet.lanes = k.lanes.take f.count ∧ f.packet.sid = c.sid ∧
    (k.count ≤ left → ¬owes → f.rest = none ∧
      f.packet.marker = if first = true ∧ c.start = true ∧ k.marker = none then some .start else k.marker) ∧
    (left < k.count ∨ owes → (first = true → c.start = true → f.packet.marker = some .start) ∧
      ∃ k', f.rest = some k' ∧ k'.lanes = k.lanes.drop f.count ∧ (k.marker ≠ some .start → k'.marker = k.marker))) ∧
  ∀ (s : State) (r : Run) (c : BarCmd), (s.eng .se).runs = [r] → r.instr = .seBar c → (s.eng .se).fault = none →
    let b := s.barrier s.tile c.bar.toNat
    (∀ b' gen, c.arr = true → c.wait = false → r.work.startSent = false →
      b.arrive c.count.toNat c.scope s.tile ((r.clock.join (s.eng .se).last).release (cmdAgent r.id)) = .arrived b' gen →
      ∃ t, exec .seBarDrained s = .next t ∧ t.barrier s.tile c.bar.toNat = b' ∧ (t.eng .se).runs = []) ∧
    (c.arr = false → c.wait = true → b.part ≠ 0 →
      ((b.gen - c.gen).toNat < 2 ^ 15 → ∃ t, exec .seBarDrained s = .next t ∧ (t.eng .se).runs = [] ∧ SameMemory s t) ∧
      (2 ^ 15 ≤ (b.gen - c.gen).toNat →
        ∃ t r', exec .seBarDrained s = .next t ∧ (t.eng .se).runs = [r'] ∧ r'.instr = r.instr ∧ SameMemory s t)) ∧
    (c.arr = false → c.wait = true → b.part = 0 →
      ∃ t f, exec .seBarDrained s = .next t ∧ (t.eng .se).fault = some f ∧ f.code = 0x112 ∧ f.tval = c.bar.setWidth 64)

/-- O45. The copy engine (R142-R145): a copy and a fill start while fewer than 64 are in progress; a copy reads its chunks in ascending
order, each inside both extents, and writes each chunk it holds at the chunk's destination; a fill writes its pattern bytes. With
SYWEN the bytes of the chunk then arrive at the command's synchronisation word (R29). A command completes with its last chunk. -/
def Obligations.CopiesAndFills : Prop :=
  (∀ (s : State) (ws : List QWord), CommandAtHead s .ce ws → (s.eng .ce).runs.length < 64 →
    (∀ c, ∃ t, exec (.ceCopy c) s = .next t ∧ Started s .ce (.ceCopy c) ws t) ∧
    ∀ c, ∃ t, exec (.ceFill c) s = .next t ∧ Started s .ce (.ceFill c) ws t) ∧
  (∀ (s : State) (slot n : Nat) (r : Run) (c : CopyCmd) (bs : List Byte) (bad : Bool),
    let ch := chunksOfCopy c
    let k := ch.at_ r.work.i
    let ad := copyAddrs c r.work.i
    (s.eng .ce).run? slot = some r → r.instr = .ceCopy c → (s.eng .ce).fault = none → s.unitStops .ce (some r) = false →
    r.work.finishing = false → r.work.i < ch.total → r.work.reqs.length < 64 →
    firstOutside c.src ad.1 k.bytes = none → firstOutside c.dst ad.2 k.bytes = none →
    s.runRead .ce { r with upc := ch.upc r.work.i } ad.1 k.bytes c.pois false = .bytes bs bad →
    ∃ t r' q, exec (.memoryReadReturn .ce slot n) s = .next t ∧ (t.eng .ce).run? slot = some r' ∧
      r'.work.i = r.work.i + 1 ∧ r'.work.reqs = r.work.reqs ++ [q] ∧ q.id = r.work.i ∧ q.count = bs.length ∧
      SameMemory s t ∧ SameOthers s t) ∧
  (∀ (s u v : State) (slot : Nat) (r : Run) (c : CopyCmd) (q : Req) (rest : List Req),
    let ch := chunksOfCopy c
    let bs := r.heldChunk q.id q.count
    let a := s.sywAddr c.dst c.sywoff c.sywl2
    (s.eng .ce).run? slot = some r → r.instr = .ceCopy c → r.work.reqs = q :: rest →
    r.work.owns = [] → (s.eng .ce).fault = none → (s.tileAt s.tile).cut ≠ .saved →
    s.runWrite .ce (({ r with upc := ch.upc q.id } : Run).part q.id) (copyAddrs c q.id).2 bs false false = .done u →
    (c.sywen = false ∧ v = u ∨ c.sywen = true ∧ ∃ k, logicalKey (u.places u.tile) a = some k ∧
      u.runArrive ((r.reached q.id).part q.id) a k bs.length = .done v) →
    ∃ t, exec (.copyChunkWrite slot) s = .next t ∧ t.mem = v.mem ∧
      (∀ k, c.sywen = true → logicalKey (u.places u.tile) a = some k →
        memNat t.mem k 16 = ((u.sywAt k).arrive bs.length).toNat % 2 ^ 128) ∧
      (ch.total ≤ r.work.j + 1 → EndedRun s .ce slot t) ∧
      (r.work.finishing = false → r.work.j + 1 < ch.total →
        ∃ r', (t.eng .ce).run? slot = some r' ∧ r'.work.j = r.work.j + 1)) ∧
  ∀ (s u v : State) (slot : Nat) (r : Run) (c : FillCmd),
    let ch := chunksOfFill c
    let n := r.work.i
    let k := ch.at_ n
    let a := s.sywAddr c.dst c.sywoff c.sywl2
    (s.eng .ce).run? slot = some r → r.instr = .ceFill c → r.work.owns = [] →
    (s.eng .ce).fault = none → s.unitStops .ce (some r) = false → (s.tileAt s.tile).cut ≠ .saved →
    firstOutside c.dst (c.dst.base.toNat + k.off) k.bytes = none →
    s.runWrite .ce (({ r with upc := ch.upc n } : Run).part n)
      (c.dst.base.toNat + k.off) (fillBytes c k.off k.bytes) false false = .done u →
    (c.sywen = false ∧ v = u ∨ c.sywen = true ∧ ∃ j, logicalKey (u.places u.tile) a = some j ∧
      u.runArrive ((r.reached n).part n) a j k.bytes = .done v) →
    ∃ t, exec (.copyChunkWrite slot) s = .next t ∧ t.mem = v.mem ∧
      (∀ j, c.sywen = true → logicalKey (u.places u.tile) a = some j →
        memNat t.mem j 16 = ((u.sywAt j).arrive k.bytes).toNat % 2 ^ 128) ∧
      (ch.total ≤ r.work.j + 1 → EndedRun s .ce slot t) ∧
      (r.work.finishing = false → r.work.j + 1 < ch.total →
        ∃ r', (t.eng .ce).run? slot = some r' ∧ r'.work.j = r.work.j + 1)

/-! ### Commands of the other engines -/

/-- O46. The command at the head of a queue, taken where the engine allows it a start, becomes a command in progress that has
done nothing yet: its words leave the queue (R56, R62, R294). That its words leave the queue then is the model's choice (log
19). -/
def Obligations.CommandsStart : Prop :=
  ∀ (s : State) (e : Engine) (i : Instr) (ws : List QWord), CommandAtHead s e ws → (∀ x ∈ (s.eng e).runs, x.instr ≠ i) →
    ∃ r u, s.resume e i true = some (r, u) ∧ r.instr = i ∧ r.work = {} ∧ (u.eng e).run? r.id = some r ∧
      Started s e i ws u

/-! ### The dataflow array -/

/-- O47. Loading an image (R161): `ae.cfg` and `ae.cfg.skip` start on an idle AE and are then in progress. At a quiescent array
`ae.cfg.skip` of an image whose first word names the id that stands loaded completes and changes nothing of the array but the
pending flags that a completing command takes. Any other load whose bytes pass the checks of R67 sets the array LOADED with the
image's id and groups, empties every port's buffer and completes. A load whose bytes fail them is a fault with its code and the
index of the word, and the array stays as it was. -/
def Obligations.ArrayImageLoad : Prop :=
  ∀ (s : State) (x : Ext) (skip : Bool),
    (∀ ws, CommandAtHead s .ae ws → (s.eng .ae).runs = [] →
      ∃ t, exec (.aeCfg skip x) s = .next t ∧ Started s .ae (.aeCfg skip x) ws t) ∧
    ∀ r rest, (s.eng .ae).runs = r :: rest → r.instr = .aeCfg skip x → (s.eng .ae).fault = none → s.quiescent = true →
      let same : Prop := skip = true ∧ s.dfa.status = .loaded ∧ 8 ≤ x.bytes ∧
        ∃ bs b, s.runRead .ae r x.base.toNat 8 true false = .bytes bs b ∧ leNat bs / 2 ^ 56 % 256 = 0xE0 ∧
          BitVec.ofNat 32 (leNat bs) = s.dfa.image
      (same → ∃ t, exec .aeCfgLoad s = .next t ∧ (∃ f, t.dfa = { s.dfa with pending := f }) ∧ EndedRun s .ae r.id t ∧
        (∀ tile code, t.point tile code = s.point tile code) ∧ SameMemory s t ∧ SameOthers s t) ∧
      ∀ bs b, ¬same → s.runRead .ae r x.base.toNat x.bytes true false = .bytes bs b →
      (∀ im, checkImage x.bytes (wordsOf (x.bytes / 8) bs) = .ok im →
        ∃ t, exec .aeCfgLoad s = .next t ∧ t.dfa.status = .loaded ∧ t.dfa.image = im.id ∧ t.dfa.groups = im.groups ∧
          t.dfa.ports = im.ports ∧ (∀ p, p < 16 → (t.point t.tile p).buf = []) ∧ EndedRun s .ae r.id t ∧ SameMemory s t ∧
          SameOthers s t) ∧
      ∀ c n, checkImage x.bytes (wordsOf (x.bytes / 8) bs) = .error (c, n) →
        ∃ t, exec .aeCfgLoad s = .next t ∧ t.dfa = s.dfa ∧ FaultedRun .ae r c (BitVec.ofNat 64 n) t ∧ SameMemory s t

/-- O48. The AE's commands on a loaded array (R162-R165): `ae.inv` counts one END at a time at each port of its set and completes when
every one has given its N, with the array's pending flags; `ae.end` of each kind places its marker into each port of its mask, in
order, and completes; `ae.gate` sets the gates of its mask alone; `ae.stat` writes its record and clears the counters where it
says so. With no `ae.inv` in progress a command takes the pending flags as it completes (R158). `ae.inv`, `ae.end` and `ae.gate` on
an array that is not LOADED, and `ae.end` at a port that is not bound, are the fault 0x121 with the mask. -/
def Obligations.ArrayCommands : Prop :=
  ∀ (s : State),
    (∀ (om : BitVec 8) (n : BitVec 16) (r : Run) (u : State), s.resumeAe (.aeInv om n) = some (r, u) → r.work.checked = false →
      (u.dfa.status ≠ .loaded → ∃ t, exec (.aeInv om n) s = .next t ∧ FaultedRun .ae r 0x121 (om.setWidth 64) t) ∧
      (u.dfa.status = .loaded → u.invSet om = [] →
        ∃ t, exec (.aeInv om n) s = .next t ∧ EndedRun u .ae r.id t ∧ t.dfa.pending = 0 ∧ SameMemory s t) ∧
      (u.dfa.status = .loaded → u.invSet om ≠ [] →
        ∃ t, exec (.aeInv om n) s = .next t ∧ RunHas .ae r.id t (fun x => x.instr = r.instr ∧ x.work.checked = true) ∧
          t.dfa = u.dfa ∧ SameMemory s t)) ∧
    (∀ (r : Run) (om : BitVec 8) (n : BitVec 16) (p : Nat), (s.eng .ae).invRun = some r → r.instr = .aeInv om n →
      (s.eng .ae).fault = none → r.work.checked = true →
      lfind (fun p => nget 0 r.work.counts p < n.toNat + 1 && (s.portSt s.tile p).ends ≠ 0) (s.invSet om) = some p →
      let r1 := { r with work := { r.work with counts := nmod 0 r.work.counts p (· + 1) } }
      ∃ t, exec .endClaim s = .next t ∧ (t.portSt t.tile p).ends = (s.portSt s.tile p).ends - 1 ∧ SameMemory s t ∧
        (n.toNat + 1 ≤ r1.leastClaim (s.invSet om) → EndedRun s .ae r.id t ∧ t.dfa.pending = 0) ∧
        (r1.leastClaim (s.invSet om) < n.toNat + 1 → RunHas .ae r.id t fun x => x.work.counts = r1.work.counts)) ∧
    (∀ (im : BitVec 8),
      let ends (i : Instr) (m : Marker) : Prop :=
        ∀ r u, s.resumeAe i = some (r, u) →
          let ports := maskPorts 8 im.toNat
          let place (v : State) (p : Nat) : Option State :=
            if (v.pointHolder v.tile p).isSome then none
            else v.enter v.tile p { lanes := [], pred := 0, sid := (v.portSt v.tile p).sid, marker := some m }
          (u.dfa.status ≠ .loaded ∨ (∃ p ∈ ports, (u.portSt u.tile p).bound = false) →
            ∃ t, exec i s = .next t ∧ FaultedRun .ae r 0x121 (im.setWidth 64) t) ∧
          ∀ v, u.dfa.status = .loaded → (∀ p ∈ ports, (u.portSt u.tile p).bound = true) →
            (ports.drop r.work.i).foldl (fun v p => v.bind fun v => place v p) (some u) = some v →
            ∃ t, exec i s = .next t ∧ (∀ tile code, (t.point tile code).buf = (v.point tile code).buf) ∧
              EndedRun u .ae r.id t ∧ ((u.eng .ae).invRun = none → t.dfa.pending = 0) ∧ SameMemory s t ∧ SameOthers s t
      ends (.aeEnd im) .fin ∧ ends (.aeEndFlush im) .flush ∧ ends (.aeEndStart im) .start) ∧
    (∀ (pm : BitVec 16),
      let gates (i : Instr) (act : Bool) : Prop :=
        ∀ r u, s.resumeAe i = some (r, u) →
          (u.dfa.status ≠ .loaded → ∃ t, exec i s = .next t ∧ FaultedRun .ae r 0x121 (pm.setWidth 64) t) ∧
          (u.dfa.status = .loaded →
            ∃ t, exec i s = .next t ∧ EndedRun u .ae r.id t ∧ SameMemory s t ∧ SameOthers s t ∧
              ((u.eng .ae).invRun = none → t.dfa.pending = 0) ∧
              ∀ p, t.portSt t.tile p = if pm.getLsbD p then { u.portSt u.tile p with gate := act } else u.portSt u.tile p)
      gates (.aeGateOpen pm) true ∧ gates (.aeGateClose pm) false) ∧
    ∀ (c : StatCmd) (r : Run) (u v : State), s.resumeAe (.aeStat c) = some (r, u) → (c.wait = false ∨ u.quiescent = true) →
      (c.ext = none ∧ v = u ∨
        ∃ x, c.ext = some x ∧ u.runWrite .ae r x.base.toNat u.aeRecord false false = .done v) →
      ∃ t, exec (.aeStat c) s = .next t ∧ t.mem = v.mem ∧ EndedRun u .ae r.id t ∧
        t.dfa.invoc = (if c.clr then 0 else u.dfa.invoc) ∧ t.dfa.disc = (if c.clr then 0 else u.dfa.disc)

/-- O49. What the array computes and what moves in it (R35, R46, R147-R157, R167, R168, R175, R176, R178-R181, R189, R315). Each
enabled element of an integer operation is its exact integer, wrapped or with SAT clamped and flagged; the bit operations are those of
R181; `sel` picks lane words by its tokens; an integer compare sends the tokens of its predicates; an integer `radd` sums a lane
word; every value of a floating format converts into it unchanged, so the sign operations change the sign bit alone, and a NaN gives the
canonical one. A firing turns the group's rotating base by one and leaves the group inside its invocation; a fault in it stops the AE at
the `ae.inv` in progress, with none at the context that R167 names, and the array stays as it was; a draining firing counts down, and
after the last the group sends END and stands outside; END at every input begins the drain, START an invocation; WHISTLE is forwarded
once and cuts the group; packets and transfers arrive in order, and none while a group's fault stands. Links of no slots and results of
no lane word are as log entries 43 and 25 read them. -/
def Obligations.ArrayMoves : Prop :=
  (∀ (x : PeIn) (live : Bool) (d : Draws) (e : Nat),
    let p := x.op
    let w := widthOfCode p.type
    let i := e / (64 / w)
    let out := (peCompute x live d).1
    let a := elemOf x.a w e
    let b := elemOf x.b w e
    let r := elemOf out.lanes w e
    let va := BitVec.ofNat w a
    let vb := BitVec.ofNat w b
    let int (v : Nat) : Int := if signedCode p.type then (BitVec.ofNat w v).toInt else v
    let on := i < 4 ∧ lget false x.en i = true ∧ hasLane (srcsUsed p.opc).1 x.a i = true ∧
      hasLane (srcsUsed p.opc).2.1 x.b i = true ∧ hasLane (srcsUsed p.opc).2.2 x.c i = true
    (0x20 ≤ p.opc → p.opc ≤ 0x33 → ¬on → laneOf out.lanes i = none) ∧
    (∀ exact : Int, on →
      (p.opc = 0x20 ∧ exact = int a + int b ∨ p.opc = 0x21 ∧ exact = int a - int b ∨ p.opc = 0x22 ∧ exact = int a * int b ∨
        p.opc = 0x27 ∧ exact = (int a).natAbs ∨ p.opc = 0x28 ∧ exact = -int a ∨
        p.opc = 0x29 ∧ exact = int a * int b + int (elemOf x.c w e)) →
      let hi : Int := if signedCode p.type then 2 ^ (w - 1) - 1 else 2 ^ w - 1
      let lo : Int := if signedCode p.type then -(2 ^ (w - 1)) else 0
      (p.sat = false → BitVec.ofNat w r = BitVec.ofInt w exact) ∧
      (p.sat = true → BitVec.ofNat w r = BitVec.ofInt w (max lo (min hi exact)) ∧
        (exact < lo ∨ hi < exact → (peCompute x live d).2.flags &&& Flag.sat = Flag.sat))) ∧
    (on →
      (p.opc = 0x23 → BitVec.ofNat w r = BitVec.ofInt w (va.toInt * vb.toInt / 2 ^ w)) ∧ (p.opc = 0x24 → r = a * b / 2 ^ w) ∧
      (p.opc = 0x25 → BitVec.ofNat w r = BitVec.ofInt w (min (int a) (int b))) ∧
      (p.opc = 0x26 → BitVec.ofNat w r = BitVec.ofInt w (max (int a) (int b))) ∧
      (p.opc = 0x2A → BitVec.ofNat w r = va <<< (b % w)) ∧ (p.opc = 0x2B → BitVec.ofNat w r = va >>> (b % w)) ∧
      (p.opc = 0x2C → BitVec.ofNat w r = va.sshiftRight (b % w)) ∧ (p.opc = 0x2D → BitVec.ofNat w r = va &&& vb) ∧
      (p.opc = 0x2E → BitVec.ofNat w r = va ||| vb) ∧ (p.opc = 0x2F → BitVec.ofNat w r = va ^^^ vb) ∧
      (p.opc = 0x30 → BitVec.ofNat w r = va &&& ~~~vb) ∧ (p.opc = 0x31 → BitVec.ofNat w r = ~~~va) ∧
      (p.opc = 0x32 → r = ((List.range w).filter fun k => a.testBit k).length % 2 ^ w) ∧
      (p.opc = 0x33 → r ≤ w ∧ (∀ k, w - r ≤ k → k < w → a.testBit k = false) ∧ (r < w → a.testBit (w - 1 - r) = true))) ∧
    (0x2A ≤ p.opc → p.opc ≤ 0x33 → rndOf p.rnd ≠ .sr → (peCompute x live d).2 = d) ∧
    (p.opc = 0x18 → i < 4 → lget false x.en i = true →
      laneOf out.lanes i = if x.tokens.getLsbD i then laneOf x.a i else laneOf x.b i) ∧
    (0x14 ≤ p.opc → p.opc ≤ 0x17 → live = true →
      let holds (k : Nat) : Prop :=
        if p.opc = 0x14 then elemOf x.a w k = elemOf x.b w k
        else if p.opc = 0x15 then (BitVec.ofNat w (elemOf x.a w k)).toInt < (BitVec.ofNat w (elemOf x.b w k)).toInt
        else if p.opc = 0x16 then elemOf x.a w k < elemOf x.b w k else elemOf x.a w k ≠ 0
      ∃ t, out.token = some t ∧ ∀ j, j < 4 → t.getLsbD (j + 4) = t.getLsbD j ∧
        (t.getLsbD j = true ↔ lget false x.en j = true ∧ (laneOf x.a j).isSome = true ∧
          (p.opc ≠ 0x17 → (laneOf x.b j).isSome = true) ∧
          (p.imm.extractLsb' 0 2 = 0 → ∀ k, k < 64 / w → holds (64 / w * j + k)) ∧
          (p.imm.extractLsb' 0 2 = 1 → ∃ k, k < 64 / w ∧ holds (64 / w * j + k)) ∧
          (2 ≤ (p.imm.extractLsb' 0 2).toNat → holds (64 / w * j)))) ∧
    (p.opc = 0x48 → p.imm.getLsbD 0 = false → fmtOfCode p.type = none → i < 4 → lget false x.en i = true →
      (laneOf x.a i).isSome = true →
      laneOf out.lanes i =
        some (BitVec.ofNat 64 ((List.range (64 / w)).foldl (fun s k => s + elemOf x.a w (64 / w * i + k)) 0 % 2 ^ w))) ∧
    ∀ f, fmtOfCode p.type = some f → p.ftzi = false → p.ftzo = false → on →
      let nan (v : Nat) : Prop := (f.decode false v).isNan = true
      (nan a → p.opc = 9 ∨ p.opc = 0x0A ∨ p.opc = 0x0D ∨ 1 ≤ p.opc ∧ p.opc ≤ 3 ∨ p.opc = 0x0B ∨ p.opc = 0x0C → r = f.nan) ∧
      (nan b → 1 ≤ p.opc ∧ p.opc ≤ 3 ∨ p.opc = 0x0B → r = f.nan) ∧
      (¬nan a → (p.opc = 9 → r = a % 2 ^ (w - 1)) ∧ (p.opc = 0x0A → BitVec.ofNat w r = va ^^^ BitVec.ofNat w (2 ^ (w - 1))) ∧
        (p.opc = 0x0D → r = a % 2 ^ (w - 1) + b / 2 ^ (w - 1) * 2 ^ (w - 1)))) ∧
  (∀ (c : BitVec 4) (f : Fmt) (r : Rounding) (v : Nat), fmtOfCode c = some f → v < 2 ^ f.width →
    (f.decode false v).isNan = false → r.ftzo = false → r.sat = false → f.convert r (f.decode false v) = (v, 0)) ∧
  (∀ (s : State) (g : BitVec 3) (grp : Group),
    let gi := g.toNat
    let heads := (s.dfa.inputs (s.dfa.groupOps gi)).map s.head
    s.group gi = some grp →
    (s.groupReady gi = true → s.isDraining gi = false → (∀ m, Head.mark m ∉ heads) →
      (∀ u, s.fireGroup gi true = .done u → Settled u →
        ∃ t, exec (.groupFiring g) s = .next t ∧ t.group gi = some { grp with rb := grp.rb - 1, phase := .inside } ∧
          SameMemory s t ∧ SameOthers s t) ∧
      (∀ c v r, s.fireGroup gi true = .fault c v → (s.eng .ae).invRun = some r →
        ∃ t, exec (.groupFiring g) s = .next t ∧ FaultedRun .ae r c v t ∧ t.dfa = s.dfa ∧ SameMemory s t) ∧
      ∀ c v k, s.fireGroup gi true = .fault c v → (s.eng .ae).invRun = none → s.groupFaultOwner = some k →
        ∃ t f, exec (.groupFiring g) s = .next t ∧ (t.eng .ae).fault = some f ∧ f.code = c ∧ f.tval = v ∧ f.sect = 0 ∧
          f ∈ (t.ctxOf k).pending ∧ t.dfa = s.dfa ∧ SameMemory s t) ∧
    (∀ n b u, s.groupReady gi = true → Settled u →
      (grp.phase = .draining (n + 2) b → s.fireGroup gi false = .done u →
        ∃ t, exec (.drainingFiring g) s = .next t ∧ SameMemory s t ∧
          t.group gi = some { grp with rb := grp.rb - 1, phase := .draining (n + 1) b }) ∧
      (∀ v, grp.phase = .draining 1 b → s.fireGroup gi false = .done v → Settled v → v.endInvocation gi = .done u →
        ∃ t, exec (.drainingFiring g) s = .next t ∧ t.group gi = some { grp with rb := 0, phase := .outside } ∧
          SameMemory s t) ∧
      (grp.phase = .draining 0 b → s.endInvocation gi = .done u →
        ∃ t, exec (.drainingFiring g) s = .next t ∧ t.group gi = some { grp with rb := 0, phase := .outside } ∧
          SameMemory s t)) ∧
    (∀ u, s.groupReady gi = true → s.isDraining gi = false → s.alignMarkers gi = .done u → Settled u →
      ∃ t, exec (.markerHead g) s = .next t ∧ SameMemory s t ∧ SameOthers s t ∧
        ((∀ h ∈ heads, h = .mark .fin) → 1 < grp.s →
          t.group gi = some { grp with phase := .draining (grp.s - 1) false }) ∧
        ((∀ h ∈ heads, h = .mark .start) → grp.phase = .outside →
          t.group gi = some { grp with rb := 0, phase := .inside })) ∧
    ∀ v, grp.cut = false → s.dfa.status = .loaded → Head.mark .whistle ∈ heads → s.sendMarker gi .whistle = some v →
      ∃ t, exec (.snapshot g) s = .next t ∧ t.group gi = some { grp with cut := true } ∧ SameMemory s t) ∧
  (∀ (s : State) (k : Nat) (l : Link) (p : Packet) (rest : List Packet), nget? s.dfa.links k = some l →
    ((s.eng .ae).groupFault = true →
      exec (.linkPacketArrival k) s = .next s ∧ exec (.controlTransferArrival k) s = .next s) ∧
    ((s.eng .ae).groupFault = false →
    (l.transit = p :: rest → l.dst < 0x20 →
      ∃ t, exec (.linkPacketArrival k) s = .next t ∧
        nget? t.dfa.links k = some { l with transit := rest, arrived := l.arrived ++ [p] } ∧ SameMemory s t) ∧
    (∀ q, l.transit = p :: rest → 0x20 ≤ l.dst → p.marker ≠ some .whistle →
      (s.point s.tile l.pointOfDst).place l.pointOfDst p = some q →
      ∃ t, exec (.linkPacketArrival k) s = .next t ∧ t.point t.tile l.pointOfDst = q ∧
        nget? t.dfa.links k = some { l with transit := rest } ∧ SameMemory s t) ∧
    (l.transit = [] → 0x20 ≤ l.src → s.dfa.linkOfPort l.pointOfSrc = some (k, l) → l.through = false → l.load < l.capacity →
      (s.point s.tile l.pointOfSrc).buf = p :: rest →
      ∃ t, exec (.linkPacketArrival k) s = .next t ∧ nget? t.dfa.links k = some { l with transit := [p] } ∧
        (t.point t.tile l.pointOfSrc).buf = rest ∧ SameMemory s t))) ∧
  ∀ (s : State) (k : Nat) (c : Ctrl) (x : BitVec 8) (rest : List (BitVec 8)), nget? s.dfa.ctrls k = some c → c.transit = x :: rest →
    (s.eng .ae).groupFault = false →
    ∃ t, exec (.controlTransferArrival k) s = .next t ∧
      nget? t.dfa.ctrls k = some { c with transit := rest, arrived := c.arrived ++ [x] } ∧ SameMemory s t

/-! ### The matrix engine -/

/-- O50. Weight loads, scales and tokens (R203-R207): a column of a dense load holds the weights of its bytes, in the shadow
plane alone; a mask byte with other than four bits is MALFORMED_MASK; a load that has its last column sets the shadow's latch
and, with SWAP, puts a token behind the rows; `me.scl` puts a token with its scales; a token swaps the planes if a load has
completed, and sets the scales. The token's place is the model's reading (log 39). -/
def Obligations.WeightPlanes : Prop :=
  (∀ (s u : State) (r : Run) (c : WldCmd) (bs : List Byte) (b : Bool), s.resumeMe (.meWld c) = some (r, u) →
    let v := if r.work.checked then u else u.setMe { u.me with shadow := { u.me.shadow with latch := 0, resp := [] } }
    let a := c.ext.base.toNat + r.work.i * (wldSpec c).cstride
    c.srcp = false → r.work.i < 128 → nget? r.work.counts (128 + r.work.i) = none → inExt c.ext a (columnBytes c.fmt) = true →
    v.runRead .me r a (columnBytes c.fmt) c.pois false = .bytes bs b →
    ∃ t, exec (.meWld c) s = .next t ∧
      nget? t.me.shadow.cells r.work.i = some (cellsOf c.fmt (leNat bs) (reduction c.fmt false)) ∧
      t.me.shadow.latch = v.me.shadow.latch ∧ t.me.active = u.me.active ∧ t.me.pipe = u.me.pipe ∧
      RunHas .me r.id t (fun x => x.work.i = r.work.i + 1) ∧ SameMemory s t ∧ SameOthers s t) ∧
  (∀ (s u v2 v3 : State) (r r2 r3 : Run) (c : SpwCmd) (x y g n : Nat), s.resumeMe (.meSpw c) = some (r, u) →
    let v := if r.work.checked then u else u.setMe { u.me with shadow := { u.me.shadow with latch := 0, resp := [] } }
    let m := reduction c.fmt true / 8
    let r1 := { r with upc := microPc 0 0 r.work.i 0, work := { r.work with checked := true } }
    r.work.i < 128 → v.loadColumn (spwSpec c) r1 r.work.i = .value x r2 v2 →
    v2.loadMask (spwSpec c) r2 r.work.i m = .value y r3 v3 → badMask m 0 y = some (g, n) →
    ∃ t, exec (.meSpw c) s = .next t ∧
      FaultedRun .me r 0x123 (BitVec.ofNat 64 (r.work.i * 2 ^ 14 + g * 2 ^ 8 + n)) t ∧ SameMemory s t) ∧
  (∀ (s : State) (i : Instr) (l : LoadSpec),
    (∃ c, i = .meWld c ∧ l = wldSpec c) ∨ (∃ c, i = .meSpw c ∧ l = spwSpec c) → ∀ r u, s.resumeMe i = some (r, u) →
    128 ≤ r.work.i → (l.swap = true → ∀ x ∈ (u.eng .me).runs, isRowCmd x.instr = false) →
    ∃ t, exec i s = .next t ∧ t.me.shadow.latch = l.fmt ∧ t.me.shadow.sparse = l.sparse ∧ t.me.active = u.me.active ∧
      t.me.pipe = (if l.swap then u.me.pipe ++ [.token [] one32 []] else u.me.pipe) ∧ EndedRun u .me r.id t ∧
      SameMemory s t ∧ SameOthers s t) ∧
  (∀ (s u : State) (r : Run) (c : SclCmd), s.resumeMe (.meScl c) = some (r, u) →
    let puts (k : PipeItem) : Prop :=
      ∃ t, exec (.meScl c) s = .next t ∧ t.me.pipe = u.me.pipe ++ [k] ∧ t.me.active = u.me.active ∧ EndedRun u .me r.id t ∧
        SameMemory s t
    (c.ext = none → puts (.token [] c.scale [])) ∧
    ∀ x bs b, c.ext = some x → u.runRead .me r x.base.toNat 512 true false = .bytes bs b →
      ∃ resp, puts (.token (scalesOf bs) 0 resp)) ∧
  ∀ (s : State) (scales : NMap (BitVec 32)) (scale : BitVec 32) (resp : Clock) (rest : List PipeItem),
    s.me.pipe = .token scales scale resp :: rest →
    ∃ t, exec .swapTokenPass s = .next t ∧ t.me.pipe = rest ∧ t.me.active.scales = scales ∧ t.me.active.scale = scale ∧
      t.me.active.cells = (if s.me.shadow.latch = 0 then s.me.active.cells else s.me.shadow.cells) ∧
      t.me.active.latch = (if s.me.shadow.latch = 0 then s.me.active.latch else s.me.shadow.latch) ∧
      t.me.shadow.latch = 0 ∧ SameMemory s t ∧ SameOthers s t

/-- O51. Banks and rows (R202, R208-R217, R222). `me.acc` opens a FREE bank with its rows at the initial value, and an open one
is ME_BANK. A row of `me.row` or `me.gath` enters the pipeline for its accumulator row; at a bank that is not open it is
ME_BANK; a row command completes once its last row has been accumulated. The row at the head of the pipeline is added into its
accumulator row alone. `me.end` sets its bank RETIRING and, when the last packet is taken, FREE. A recurrence or a scan sets
the carry register where it says so, and completes after its last step. `me.dg` reads its tile, then its gradients, and completes:
where they end early, and with K = 0, it changes nothing of the tile. What starts beside what is the model's reading (log 39). -/
def Obligations.MatrixRows : Prop :=
  (∀ (s u : State) (r : Run) (c : AccCmd), s.resumeMe (.meAcc c) = some (r, u) →
    ((u.me.bank c.bank).state = .free →
      ∃ t, exec (.meAcc c) s = .next t ∧ (t.me.bank c.bank).state = .opened ∧ (t.me.bank c.bank).tag = r.sect ∧
        (t.me.bank c.bank).nrows = c.nrows.toNat + 1 ∧ (t.me.bank c.bank).depth = 0 ∧
        (c.init ≠ 1 → ∀ i, i ≤ c.nrows.toNat →
          (t.me.bank c.bank).row i = List.replicate 128 (match c.initv with | some x => x | none => 0)) ∧
        (c.init = 1 → ∀ i, (t.me.bank c.bank).row i = (u.me.bank c.bank).row i) ∧
        t.me.bank (!c.bank) = u.me.bank (!c.bank) ∧ EndedRun u .me r.id t ∧ SameMemory s t) ∧
    ((u.me.bank c.bank).state = .opened →
      ∃ t, exec (.meAcc c) s = .next t ∧ FaultedRun .me r 0x132 (BitVec.ofNat 64 c.bank.toNat) t ∧ t.me = u.me)) ∧
  (∀ (s u w : State) (r x : Run) (c : RowCmd) (v : Nat), s.resumeMe (.meRow c) = some (r, u) → r.work.finishing = false →
    let k := reduction u.me.active.latch u.me.active.sparse
    let row := (c.base.toNat + r.work.i * (match c.rstep with | some x => x.toNat | none => 1)) % 256
    (r.work.i ≤ c.count.toNat → u.me.tokenInPipe = false → (u.me.bank c.bank).state ≠ .opened →
      ∃ t, exec (.meRow c) s = .next t ∧ FaultedRun .me r 0x132 (BitVec.ofNat 64 c.bank.toNat) t) ∧
    (r.work.i ≤ c.count.toNat → u.me.tokenInPipe = false → (u.me.bank c.bank).state = .opened →
      pairs u.me.active.latch c.afmt = true → row < (u.me.bank c.bank).nrows →
      u.gatherWords portMa (runBits c.afmt k / 64) { r with upc := microCount r.work.i } 200 = .full v x w →
      (w.me.bank c.bank).depth < 256 * w.dcap →
      ∃ t, exec (.meRow c) s = .next t ∧
        t.me.pipe = w.me.pipe ++ [.row c.bank row c.afmt (cellsOf c.afmt v k) .plane r.id x.work.resp] ∧
        RunHas .me r.id t (fun y => y.work.i = r.work.i + 1) ∧ SameMemory s t) ∧
    (c.count.toNat < r.work.i → u.me.inPipe r.id = false →
      ∃ t, exec (.meRow c) s = .next t ∧ EndedRun u .me r.id t ∧ SameMemory s t)) ∧
  (∀ (s u w w2 : State) (r x : Run) (c : GathCmd) (v idx : Nat), s.resumeMe (.meGath c) = some (r, u) →
    r.work.finishing = false →
    let k := reduction u.me.active.latch u.me.active.sparse
    let row : Int := c.base.toNat + idx + (match c.ibias with | some b => b.toInt | none => 0)
    (r.work.i ≤ c.count.toNat → u.me.tokenInPipe = false → (u.me.bank c.bank).state = .opened →
      pairs u.me.active.latch c.afmt = true →
      u.gatherWords portMa (runBits c.afmt k / 64) { r with upc := microCount r.work.i } 200 = .full v x w →
      x.heldIndex = 0 → w.nextIndex w.tile portMi (if c.iw then 32 else 16) 200 = .value idx w2 →
      (idx = 2 ^ (if c.iw then 32 else 16) - 1 →
        ∃ t, exec (.meGath c) s = .next t ∧ t.me = w2.me ∧ RunHas .me r.id t (fun y => y.work.i = r.work.i + 1) ∧
          SameMemory s t) ∧
      (idx ≠ 2 ^ (if c.iw then 32 else 16) - 1 → 0 ≤ row → row < (u.me.bank c.bank).nrows →
        (w2.me.bank c.bank).depth < 256 * w2.dcap →
        ∃ t, exec (.meGath c) s = .next t ∧
          t.me.pipe = w2.me.pipe ++ [.row c.bank row.toNat c.afmt (cellsOf c.afmt v k) .plane r.id
            (x.work.resp.join (w.indexResp w.tile portMi (if c.iw then 32 else 16) 200))] ∧
          RunHas .me r.id t (fun y => y.work.i = r.work.i + 1) ∧ SameMemory s t)) ∧
    (c.count.toNat < r.work.i → u.me.inPipe r.id = false →
      ∃ t, exec (.meGath c) s = .next t ∧ EndedRun u .me r.id t ∧ SameMemory s t)) ∧
  (∀ (s : State) (bank : Bool) (row cmd : Nat) (afmt : BitVec 4) (a : List MCell) (src : PipeSrc) (resp : Clock)
      (rest : List PipeItem),
    s.me.pipe = .row bank row afmt a src cmd resp :: rest →
    let w := match src with
      | .plane => s.me.active.weights
      | .tile fmt cols masks => { fmt := fmt, cells := cols, masks := masks, k := 128 }
    ∃ t, exec .accumulatorWrite s = .next t ∧ t.me.pipe = rest ∧
      (t.me.bank bank).row row = (fireRow w (s.me.bank bank).sat afmt a ((s.me.bank bank).row row)).1 ∧
      (∀ j, j ≠ row → (t.me.bank bank).row j = (s.me.bank bank).row j) ∧ t.me.bank (!bank) = s.me.bank (!bank) ∧
      SameMemory s t ∧ SameOthers s t) ∧
  (∀ (s u : State) (r : Run) (c : EndCmd), s.resumeMe (.meEnd c) = some (r, u) →
    (r.work.startSent = false →
      ((u.me.bank c.bank).state ≠ .opened →
        ∃ t, exec (.meEnd c) s = .next t ∧ FaultedRun .me r 0x132 (BitVec.ofNat 64 c.bank.toNat) t) ∧
      ((u.me.bank c.bank).state = .opened →
        ∃ t, exec (.meEnd c) s = .next t ∧ (t.me.bank c.bank).state = .retiring ∧
          RunHas .me r.id t (fun y => y.work.startSent = true) ∧ SameMemory s t)) ∧
    (r.work.startSent = true → r.work.checked = true → (u.me.bank c.bank).nrows ≤ r.work.i →
      (u.point u.tile portMc).buf = [] →
      ∃ t, exec (.meEnd c) s = .next t ∧ (t.me.bank c.bank).state = .free ∧ EndedRun u .me r.id t ∧ SameMemory s t)) ∧
  (∀ (s : State) (i : Instr) (c : MeRecCmd), i = .meRecRec c ∨ i = .meRecScan c → ∀ r u, s.resumeMe i = some (r, u) →
    (r.work.k = 0 → c.cin = 1 →
      ∃ t, exec i s = .next t ∧ t.me.carryRow = List.replicate 128 (match c.initv with | some v => v | none => 0) ∧
        RunHas .me r.id t (fun y => y.work.k = 1) ∧ SameMemory s t) ∧
    (r.work.k = 3 → c.chain = false ∨ u.nextInChain = none →
      ∃ t, exec i s = .next t ∧ EndedRun u .me r.id t ∧ SameMemory s t)) ∧
  ∀ (s u w : State) (r x : Run) (c : DgCmd) (v : Nat), s.resumeMe (.meDg c) = some (r, u) →
    (nget? r.work.counts 0 = none → u.readColumn r c.ext 0 (16384 * elemBytes c.fmt + 2048) c.pois = .value v x w →
      ∃ t, exec (.meDg c) s = .next t ∧ RunHas .me r.id t (fun y => nget? y.work.counts 0 = some v) ∧ SameMemory s t) ∧
    (∀ n, nget? r.work.counts 0 = some n →
      (u.gatherWords portMa 8192 r 9000 = .ended x w →
        ∃ t, exec (.meDg c) s = .next t ∧ EndedRun u .me r.id t ∧ SameMemory s t) ∧
      (u.gatherWords portMa 8192 r 9000 = .full v x w →
        (∀ ks, u.runKeys .me r c.ext.base.toNat c.ext.bytes = some ks → ks.any (u.held u.tile) = false) →
        (x.work.complete = true → ∃ t, exec (.meDg c) s = .next t ∧ EndedRun u .me r.id t ∧ SameMemory s t) ∧
        (x.work.complete = false → (∀ ks, firstRace w x.clock (cmdAgent x.id) ks true false = none) →
          ∃ t, exec (.meDg c) s = .next t ∧ EndedRun u .me r.id t ∧ (c.kcnt = 0 → StoresOnly 0 0 s t))))

/-- O52. Patterns (R218, R219, R264-R271, R338). A compile registers its range in the watch tables, waits where one has no room, reads
its tile and builds an entry for the generation it started at, on the dense path where R267 says so; it is installed if the
generation still stands, else it starts again. `me.pat` runs from the entry of its key, and where there is none its identity's
compile is in the queue; its rows enter the pipeline; with its last row accumulated it completes and holds no pattern. `me.pcomp`
completes at once where the entry is there, and without WAIT once its compile is queued; an extent not reached is ENG_BOUND for
`me.pat`, and stops no `me.pcomp` without WAIT. That rows wrap at 256 is the model's reading (log 67). -/
def Obligations.PatternCache : Prop :=
  (∀ (s : State) (q : Compile) (rest : List Compile), s.cluster.compiles = q :: rest →
    let g0 := s.cluster.genOf q.key.id
    (q.built = none → s.register q = none → exec .patternCompile s = .next s) ∧
    (∀ v cols masks resp u, q.built = none → (rangeKeys q.key.range).any (s.held q.tile) = false → s.register q = some v →
      v.readTile q.clock q.cmd q.key.base q.key.fmt (rangeKeys q.key.range) = .done cols masks resp u →
      ∃ t e x, exec .patternCompile s = .next t ∧ t.cluster.compiles = x :: rest ∧ x.key = q.key ∧ x.built = some e ∧
        x.g0 = some g0 ∧ x.since ≠ none ∧ e.key = { q.key with gen := g0 } ∧ e.dense = densePath q.thresh masks ∧
        e.cols = cols ∧ SameMemory s t ∧ SameOthers s t) ∧
    ∀ e g, q.built = some e → q.g0 = some g →
      (g0 = g →
        ∃ t, exec .patternCompileComplete s = .next t ∧ t.cluster.compiles = rest ∧ e ∈ t.cluster.cache ∧
          SameMemory s t) ∧
      (g0 ≠ g →
        ∃ t, exec .patternCompileComplete s = .next t ∧ t.cluster.cache = s.cluster.cache ∧
          t.cluster.compiles = { q with g0 := none, built := none } :: rest ∧ SameMemory s t)) ∧
  (∀ (s u w : State) (r : Run) (c : PatCmd) (e : PatEntry), s.resumeMe (.mePat c) = some (r, u) →
    let keys := u.runKeys .me r c.ext.base.toNat c.ext.bytes
    (r.work.checked = false → keys = none →
      ∃ t, exec (.mePat c) s = .next t ∧ FaultedRun .me r 0x105 (u.unreached r c.ext) t) ∧
    (∀ ks, r.work.checked = false → keys = some ks →
      let k := u.patKey (patIdOf c.tid c.trow c.tcol) c.ext (patWeights c.afmt) ks
      (u.patHit k r.id = some (e, w) →
        (e.dense = false ∨ (rangeKeys k.range).any (u.held u.tile) = false ∧
          ∃ cols masks resp v, u.readTile r.clock r.id k.base k.fmt (rangeKeys k.range) = .done cols masks resp v) →
        ∃ t, exec (.mePat c) s = .next t ∧ t.me.pat = some (e.key.id, e.key.gen) ∧
          RunHas .me r.id t (fun y => y.work.checked = true) ∧ SameMemory s t) ∧
      (u.patHit k r.id = none → u.cluster.compiles.length < 32 →
        ∃ t, exec (.mePat c) s = .next t ∧ (∃ q ∈ t.cluster.compiles, q.key.id = k.id) ∧
          ((∀ q ∈ u.cluster.compiles, q.key.id ≠ k.id) → ∃ q ∈ t.cluster.compiles, q.key = k) ∧
          RunHas .me r.id t (fun y => y.work.checked = false) ∧ SameMemory s t)) ∧
    (r.work.checked = true → u.patOf r.id = some e → r.work.finishing = false →
      (c.count.toNat < r.work.i → u.me.inPipe r.id = false →
        ∃ t, exec (.mePat c) s = .next t ∧ EndedRun u .me r.id t ∧ t.me.pat = none ∧ SameMemory s t) ∧
      ∀ v x, r.work.i ≤ c.count.toNat → (u.me.bank c.bank).state = .opened →
        (c.base.toNat + r.work.i) % 256 < (u.me.bank c.bank).nrows →
        u.gatherWords portMa (runBits c.afmt 128 / 64) { r with upc := microCount r.work.i } 200 = .full v x w →
        (w.me.bank c.bank).depth < 256 * w.dcap →
        ∃ t, exec (.mePat c) s = .next t ∧
          t.me.pipe = w.me.pipe ++ [.row c.bank ((c.base.toNat + r.work.i) % 256) c.afmt (cellsOf c.afmt v 128)
            (.tile e.key.fmt e.cols e.masks) r.id (x.work.resp.join e.resp)] ∧
          RunHas .me r.id t (fun y => y.work.i = r.work.i + 1) ∧ SameMemory s t)) ∧
  ∀ (s u : State) (r : Run) (c : PcompCmd), s.resumeMe (.mePcomp c) = some (r, u) →
    let keys := u.runKeys .me r c.ext.base.toNat c.ext.bytes
    (keys = none → c.wait = false → ∃ t, exec (.mePcomp c) s = .next t ∧ EndedRun u .me r.id t ∧ SameMemory s t) ∧
    ∀ ks, keys = some ks →
      let k := u.patKey (patIdOf c.tid c.trow c.tcol) c.ext c.fmt ks
      ((∃ e ∈ u.cluster.cache, e.key = k) →
        ∃ t, exec (.mePcomp c) s = .next t ∧ EndedRun u .me r.id t ∧ t.cluster = u.cluster ∧ SameMemory s t) ∧
      ((∀ e ∈ u.cluster.cache, e.key ≠ k) → u.cluster.compiles.length < 32 →
        ∃ t, exec (.mePcomp c) s = .next t ∧ (∃ q ∈ t.cluster.compiles, q.key.id = k.id) ∧ SameMemory s t ∧
          (c.wait = false → EndedRun u .me r.id t) ∧ (c.wait = true → RunHas .me r.id t (fun y => y = r)))

/-! ### The scatter-accumulate engine -/

/-- O53. Atomic updates and hash tables (R231-R238), each step of a command whose feeds are its own. An update of `sa.op`
combines its element with what its place holds, by the command's operation, and `xchg` and `cas` keep what was there; a null
index touches nothing; an index outside the table is ENG_BOUND at its address; the command completes after its elements.
`sa.hash` inserts the next pair, and completes at END with its record; `sa.rehash` empties the new table, then moves each slot
of the old one. How many elements merge a tape of choices says (log 10); the emptied value half is free (log 26). -/
def Obligations.AtomicUpdates : Prop :=
  (∀ (c : SaOpCmd) (s : State),
    let updates (i : Instr) (aop : Nat) : Prop :=
      let p : SaSpec := { instr := i, aop := aop, c := c }
      ∀ r u, s.resume .sa i (s.eng .sa).runs.isEmpty = some (r, u) → u.feedsFree r.id p.feeds = true →
        let w := u.holdFeeds r.id p.feeds
        let v := if p.merges then w.choose.2 else w
        let j := { r with upc := microCount r.work.i }
        (r.work.complete = true → r.work.held = [] → c.resp = none →
          ∃ t, exec i s = .next t ∧ EndedRun u .sa r.id t ∧ SameMemory s t) ∧
        (r.work.complete = false → (6 ≤ aop → r.work.held.length < p.perPacket) → (p.merges = true → w.choose.1 % 64 = 0) →
          ∀ n x cmp r1 t1, v.takeUpdate p j = .got n x cmp r1 t1 →
            let a : Int := c.ext.base.toNat + (n : Int) * p.es
            (n = nullIndex p.iw →
              ∃ t, exec i s = .next t ∧ RunHas .sa r.id t (fun y => y.work.i = r.work.i + 1) ∧ SameMemory s t) ∧
            (n ≠ nullIndex p.iw → inExt c.ext a p.es = false →
              ∃ t, exec i s = .next t ∧ FaultedRun .sa r 0x105 (BitVec.ofInt 64 a) t ∧ SameMemory s t) ∧
            ∀ old r2 t2, n ≠ nullIndex p.iw → inExt c.ext a p.es = true →
              (t1.update .sa r1 a.toNat p.es (aop ≥ 6) fun old =>
                if aop = 7 then (if old = cmp then x else old, 0) else saCombine aop c.type c.sat old x) = .done old r2 t2 →
              ∃ t, exec i s = .next t ∧ t.mem = t2.mem ∧
                RunHas .sa r.id t (fun y => y.work.i = r.work.i + 1 ∧
                  y.work.held = if 6 ≤ aop then r2.work.held ++ [BitVec.ofNat 64 old] else r2.work.held))
    updates (.saOpAdd c) 0 ∧ updates (.saOpMin c) 1 ∧ updates (.saOpMax c) 2 ∧ updates (.saOpOr c) 3 ∧
      updates (.saOpAnd c) 4 ∧ updates (.saOpXor c) 5 ∧ updates (.saOpXchg c) 6 ∧ updates (.saOpCas c) 7) ∧
  (∀ (s u : State) (r : Run) (c : HashCmd), s.resume .sa (.saHash c) (s.eng .sa).runs.isEmpty = some (r, u) →
    r.work.checked = true → r.work.complete = false → u.feedsFree r.id [feedKey c.ksrc, feedKey c.vsrc] = true →
    let w := (u.holdFeeds r.id [feedKey c.ksrc, feedKey c.vsrc]).choose.2
    let j := { r with upc := microCount r.work.i }
    (u.holdFeeds r.id [feedKey c.ksrc, feedKey c.vsrc]).choose.1 % 64 = 0 →
    (∀ k b a v r1 t1 r2 t2, w.keyHead (feedKey c.ksrc) 64 = .key k b a → k ≠ emptyKey →
      a.feedNext { j with clock := j.clock.join (b.headResp b.tile (feedKey c.ksrc)) } (feedKey c.vsrc) 32 =
        some (some v, r1, t1) →
      t1.insert r1 c.ext (match c.hmul with | some m => m.toNat | none => 0) k v = .done r2 t2 →
      ∃ t, exec (.saHash c) s = .next t ∧ t.mem = t2.mem ∧ RunHas .sa r.id t (fun y => y.work.i = r2.work.i + 1)) ∧
    ∀ e, w.keyHead (feedKey c.ksrc) 64 = .mark .fin e →
      (c.rcd = none → ∃ t, exec (.saHash c) s = .next t ∧ EndedRun u .sa r.id t ∧ SameMemory s t) ∧
      ∀ x v, c.rcd = some x →
        e.runWrite .sa (j.stopHash 0 0) x.base.toNat (hashRecord r.work.j r.work.i 0 0) false false = .done v →
        ∃ t, exec (.saHash c) s = .next t ∧ t.mem = v.mem ∧ EndedRun u .sa r.id t) ∧
  ∀ (s u : State) (r : Run) (c : RehashCmd), s.resume .sa (.saRehash c) (s.eng .sa).runs.isEmpty = some (r, u) →
    let slots := c.new.bytes / 8
    let j := { r with upc := microCount r.work.j }
    (∀ old r1 t1, r.work.i < slots →
      (u.update .sa j (c.new.base.toNat + 8 * r.work.i) 8 false fun _ => (emptyValue u.ticks * 2 ^ 32 + emptyKey, 0)) =
        .done old r1 t1 →
      ∃ t, exec (.saRehash c) s = .next t ∧ t.mem = t1.mem ∧ RunHas .sa r.id t (fun y => y.work.i = r1.work.i + 1)) ∧
    (slots ≤ r.work.i → c.old.bytes / 8 ≤ r.work.j →
      ∃ t, exec (.saRehash c) s = .next t ∧ EndedRun u .sa r.id t ∧ SameMemory s t) ∧
    ∀ old r1 t1, slots ≤ r.work.i → r.work.j < c.old.bytes / 8 →
      u.bankRead j (c.old.base.toNat + 8 * r.work.j) 8 = .done old r1 t1 →
      (old % 2 ^ 32 = emptyKey →
        ∃ t, exec (.saRehash c) s = .next t ∧ RunHas .sa r.id t (fun y => y.work.j = r1.work.j + 1) ∧ SameMemory s t) ∧
      ∀ n b r2 t2 o r3 t3, old % 2 ^ 32 ≠ emptyKey →
        t1.probe r1 c.new (old % 2 ^ 32) (hashSlot c.hmul.toNat (old % 2 ^ 32) slots) 16 = .slot n b r2 t2 →
        (t2.update .sa r2 (c.new.base.toNat + 8 * n) 8 false fun _ => (old, 0)) = .done o r3 t3 →
        ∃ t, exec (.saRehash c) s = .next t ∧ t.mem = t3.mem ∧ RunHas .sa r.id t (fun y => y.work.j = r3.work.j + 1)

/-! ### The network engine -/

/-- O54. Rows, tokens, flags and external reads (R240-R242, R249-R253, R386, R387). `ne.gath` takes its next index and asks for the
row of R240, a null index giving a row of zeros; a reply enters the reorder buffer; a row goes to the packed extent, or the next
packet of rows to the port (DMEM = 0), and the command completes when it has delivered all. `ne.scat` writes its row where its index
says, a null index nowhere. `ne.tok`, once oldest, makes one arrival and completes. `ne.flag` arrives at its cell and completes when
the cell's round has passed. An external read under a grant of its kind, else XRD_GRANT, is posted in the grant's queue pair, and
waits where that is full or no aperture is free; its data go to its destination through BAR4; a fresh completion entry that names
it, or its timeout, writes the record, and with SYWEN makes one arrival. The aperture is the model's choice (log 29), the codes of
corners its reading (log 44), the layout of a queue pair's entries taken from outside the manual (log 85). -/
def Obligations.RowsTokensAndReads : Prop :=
  (∀ (s u : State) (r : Run) (c : NeMoveCmd), s.resume .ne (.neGath c) s.neMayStart = some (r, u) →
    (r.gathDone c = true → ∃ t, exec (.neGath c) s = .next t ∧ EndedRun u .ne r.id t ∧ SameMemory s t) ∧
    (∀ x ws v, r.gathDone c = false → c.dmem = true → c.ext1 = some x → u.robRow r.id r.work.k = some ws →
      u.runWrite .ne (({ r with upc := microCount r.work.k } : Run).part r.work.k) (x.base.toNat + r.work.k * rowBytes c)
        (ws.flatMap fun w => leBytes 8 w.toNat) false false = .done v →
      ∃ t, exec (.neGath c) s = .next t ∧ t.mem = v.mem ∧ RunHas .ne r.id t (fun y => y.work.k = r.work.k + 1)) ∧
    (∀ k v, r.gathDone c = false → c.dmem = false → u.gathPacket r c = some k → r.work.j < rowLanes c →
      u.deliver u.tile (pointKey c.port k.sid) r.id true { k with
        resp := (r.part (r.work.k + (r.work.j + k.count - 1) / rowLanes c)).clock.release (cmdAgent r.id) } = .done v →
      ∃ t, exec (.neGath c) s = .next t ∧ SameMemory s t ∧ (∀ tile code, t.point tile code = v.point tile code) ∧
        RunHas .ne r.id t fun y => y.work.startSent = true ∧ (y.work.endSent = true ↔ k.marker = some .fin) ∧
          y.work.k * rowLanes c + y.work.j = r.work.k * rowLanes c + r.work.j + k.count) ∧
    ∀ n r1 t1, r.gathDone c = false → u.gathSend r c = none → r.indicesOver c = false → u.robRoom c = true →
      u.feedsFree r.id [feedKey c.isrc] = true →
      (u.holdFeeds r.id [feedKey c.isrc]).feedNext r (feedKey c.isrc) (rowIndexWidth c) = some (some n, r1, t1) →
      (n = nullIndex (rowIndexWidth c) →
        ∃ t, exec (.neGath c) s = .next t ∧ SameMemory s t ∧
          t.robRow r.id r.work.i = some (List.replicate (rowLanes c) 0) ∧
          RunHas .ne r.id t fun y => y.work.i = r.work.i + 1) ∧
      ∀ a, n ≠ nullIndex (rowIndexWidth c) → (u.holdFeeds r.id [feedKey c.isrc]).rowAt c n = .at_ a →
        ∃ t, exec (.neGath c) s = .next t ∧ SameMemory s t ∧
          RunHas .ne r.id t fun y => y.work.i = r.work.i + 1 ∧ nget? y.work.counts r.work.i = some a) ∧
  (∀ (s : State) (slot row a : Nat) (r : Run) (c : NeMoveCmd) (bs : List Byte) (b : Bool),
    (s.eng .ne).run? slot = some r → r.instr = .neGath c → nget? r.work.counts row = some a →
    s.runRead .ne r a (rowBytes c) c.pois false = .bytes bs b →
    ∃ t, exec (.gatherReply slot row) s = .next t ∧ t.robRow r.id row = some (wordsOf (rowLanes c) bs) ∧
      RunHas .ne slot t (fun y => nget? y.work.counts row = none) ∧ SameMemory s t ∧ SameOthers s t) ∧
  (∀ (s u : State) (r : Run) (c : NeMoveCmd), s.resume .ne (.neScat c) s.neMayStart = some (r, u) →
    let feeds := feedKey c.isrc :: (if c.dmem then [] else [feedKey c.mid])
    let w := u.holdFeeds r.id feeds
    (r.indicesOver c = true → ∃ t, exec (.neScat c) s = .next t ∧ EndedRun u .ne r.id t ∧ SameMemory s t) ∧
    ∀ n, r.indicesOver c = false → u.feedsFree r.id feeds = true → nget? r.work.counts 0 = some n →
      rowLanes c ≤ r.work.k →
      let j := { r with upc := microCount r.work.i, work := { r.work with counts := [(0, n)] } }
      (n = nullIndex (rowIndexWidth c) →
        ∃ t, exec (.neScat c) s = .next t ∧ RunHas .ne r.id t (fun y => y.work.i = r.work.i + 1) ∧ SameMemory s t) ∧
      ∀ a r1 t1, n ≠ nullIndex (rowIndexWidth c) → w.rowAt c n = .at_ a →
        w.putRow j c a (rowLanes c + 1) = .done r1 t1 →
        ∃ t, exec (.neScat c) s = .next t ∧ t.mem = t1.mem ∧ RunHas .ne r.id t (fun y => y.work.i = r1.work.i + 1)) ∧
  (∀ (s u : State) (r first : Run) (rest : List Run) (scope : BitVec 4) (count : BitVec 16) (addr : Word) (k : Nat),
    s.resume .ne (.neTok scope count addr) s.neMayStart = some (r, u) → (u.eng .ne).runs = first :: rest → first.id = r.id →
    let j := { r with clock := r.clock.join (u.eng .ne).last }
    (logicalKey (u.places u.tile) addr.toNat = none →
      ∃ t, exec (.neTok scope count addr) s = .next t ∧ FaultedRun .ne r 0x150 addr t ∧ SameMemory s t) ∧
    ∀ v, logicalKey (u.places u.tile) addr.toNat = some k → u.keyInScope u.tile k scope.toNat = true →
      u.runArrive j addr.toNat k count.toNat scope.toNat = .done v →
      ∃ t, exec (.neTok scope count addr) s = .next t ∧ t.mem = v.mem ∧ EndedRun u .ne r.id t) ∧
  (∀ (s u : State) (r : Run) (x : Word) (ext : Ext), s.resumeFlag (.neFlag x ext) = some (r, u) →
    (∀ bs b k, r.work.startSent = false → u.runRead .ne r ext.base.toNat 32 true false = .bytes bs b →
      let d := FlagDesc.ofBytes bs
      let j := u.took .ne r ext.base.toNat 32
      let v := u.runNote .ne j ext.base.toNat 32 false
      v.cellKey d = some k → (rangeFrom k 32).any (v.held v.tile) = false → firstPoison v (rangeFrom k 32) = none →
      firstRace v j.clock (cmdAgent r.id) (rangeFrom k 32) true true = none →
      (∀ c, (Cell.ofNat (memNat v.mem k 32)).arrive d.part d.scope d.gid x = some c →
        ∃ t, exec (.neFlag x ext) s = .next t ∧ memNat t.mem k 32 = c.toNat % 2 ^ 256 ∧ StoresOnly k 32 s t ∧
          RunHas .ne r.id t (fun y => y.work.startSent = true ∧ nget 0 y.work.counts 2 = d.cell.toNat)) ∧
      ((Cell.ofNat (memNat v.mem k 32)).arrive d.part d.scope d.gid x = none →
        ∃ t, exec (.neFlag x ext) s = .next t ∧ FaultedRun .ne r 0x151 d.cell t ∧ SameMemory s t)) ∧
    ∀ k, logicalKey (u.places u.tile) (nget 0 r.work.counts 2) = some k →
      let met := (nget [] u.rels k).filter fun y => y.kind = .arrival (BitVec.ofNat 32 r.work.k)
      r.work.startSent = true → (Cell.ofNat (memNat u.mem k 32)).round ≠ r.work.k →
      (rangeFrom k 32).any (u.held u.tile) = false → firstPoison u (rangeFrom k 32) = none →
      firstRace u (u.acquire r.clock met u.tile (nget 0 r.work.counts 1)) (cmdAgent r.id) (rangeFrom k 32) false true = none →
      ∃ t, exec (.neFlag x ext) s = .next t ∧ EndedRun u .ne r.id t ∧ SameMemory s t) ∧
  (∀ (s u : State) (r : Run) (c : XrdCmd) (i : Instr) (kind : Nat), i = .neXrdNvme c ∧ kind = 0 ∨ i = .neXrdRdma c ∧ kind = 1 →
    (s.eng .ne).fault = none → lfind (fun r => r.instr = i && !r.work.startSent) (s.eng .ne).runs = none →
    s.neMayStart = true → s.startRun .ne i = some (r, u) →
    (u.granted c.grant.toNat kind = false →
      ∃ t, exec i s = .next t ∧ FaultedRun .ne r 0x154 (c.grant.setWidth 64) t ∧ t.xrds = s.xrds) ∧
    (u.granted c.grant.toNat kind = true → u.addrInScope c.dst.base.toNat c.scope.toNat = true →
      let q := nget {} u.fmc.pairs c.grant.toNat
      (u.aperture c.dst.bytes = none ∨ q.depth ≤ u.outstanding c.grant.toNat q + 1 → exec i s = .next u) ∧
      ∀ a, u.aperture c.dst.bytes = some a → u.outstanding c.grant.toNat q + 1 < q.depth →
        ∃ t p, exec i s = .next t ∧ t.xrds = s.xrds ++ [p] ∧ p.cmd = r.id ∧ p.tile = s.tile ∧ p.len = c.dst.bytes ∧
          p.aperture = a ∧ p.pair = c.grant.toNat ∧ p.slot = q.tail ∧ p.request = u.xrdRequest c kind ∧ p.done = none ∧
          (kind = 0 → p.entry = nvmeEntry p.id a c.dst.bytes p.request) ∧
          (kind = 1 → p.entry = rdmaEntry q.payload p.id a p.request) ∧
          nget? t.fmc.pairs c.grant.toNat = some { q with tail := (q.tail + 1) % q.depth } ∧
          RunHas .ne r.id t (fun y => y.work.startSent = true) ∧ SameMemory s t)) ∧
  ∀ (s : State) (p : XrdPost) (r : Run) (c : XrdCmd) (kind : Nat), s.xrds = [p] → p.tile = s.tile → p.done = none →
    (s.eng .ne).run? p.cmd = some r → r.instr = .neXrdNvme c ∧ kind = 0 ∨ r.instr = .neXrdRdma c ∧ kind = 1 →
    r.work.finishing = false →
    let ends (i : Instr) (u : State) (status : Nat) : Prop :=
      ∀ v, u.runWrite .ne r c.rcd.base.toNat (xrdRecord status p.written c.addr) true false = .done v →
        let syw := tileAddr v.ownRank (match c.tail with | some (o, _) => o.toNat * 16 | none => 0)
        (c.sywen = false →
          ∃ t, exec i s = .next t ∧ t.mem = v.mem ∧ t.xrds = [] ∧ EndedRun s .ne p.cmd t ∧ t.fmc.pairs = u.fmc.pairs) ∧
        ∀ k, c.sywen = true → logicalKey (v.places v.tile) syw = some k → v.held v.tile k = false →
          firstPoison v (sywKeys k) = none →
          firstRace v (r.clock.release (cmdAgent r.id)) (cmdAgent r.id) (sywKeys k) true true = none →
          ∃ t, exec i s = .next t ∧ memNat t.mem k 16 = ((v.sywAt k).arrive 1).toNat % 2 ^ 128 ∧
            (∀ a, isHbm a = false → a < k ∨ k + 16 ≤ a → memGet t.mem a = memGet v.mem a) ∧ t.xrds = [] ∧
            EndedRun s .ne p.cmd t ∧ t.fmc.pairs = u.fmc.pairs
    (∀ (cqe : List Byte) (q : QueuePair), nget? s.fmc.pairs p.pair = some q →
      (q.fresh cqe = false → exec (.xrdCompletion p.pair cqe) s = .next s) ∧
      (q.fresh cqe = true → q.names cqe p.id = true → q.status cqe ≠ 0xFFFF →
        (xrdStatus kind (q.status cqe) false = 0 → p.len ≤ p.written) →
        ends (.xrdCompletion p.pair cqe)
          { s with
            xrds := [{ p with done := some (q.status cqe) }]
            fmc := { s.fmc with pairs := nset s.fmc.pairs p.pair q.consumed } }
          (xrdStatus kind (q.status cqe) false))) ∧
    ends (.xrdTimeout p.id)
      { s with
        xrds := [{ p with done := some 0xFFFF }]
        fmc := { s.fmc with pairs := nmod {} s.fmc.pairs p.pair fun q => { q with late := q.late ++ [p.id] } } } 1 ∧
    ∀ (addr : BitVec 32) (data : List Byte) (v : State),
      (addr.toNat < p.aperture ∨ p.aperture + p.len ≤ addr.toNat → exec (.bar4PeerWrite addr data) s = .next s) ∧
      (p.aperture ≤ addr.toNat → addr.toNat < p.aperture + p.len →
        let off := addr.toNat - p.aperture
        s.runWrite .ne r (c.dst.base.toNat + off) (data.take (p.len - off)) false false = .done v →
        ∃ t q, exec (.bar4PeerWrite addr data) s = .next t ∧ t.mem = v.mem ∧ t.xrds = [q] ∧ q.done = none ∧
          q.ranges = addRange off (off + (data.take (p.len - off)).length) p.ranges)

/-- O55. Collectives (R243-R248, R368), each of `ne.red.sum`, `ne.red.min`, `ne.red.max` and `ne.smrg`: a participant whose round
agrees with its parameters, and whose contribution can be read, joins the round of its GID and its count; a router that holds all
of its subtree combines it, and the root's combination is the result; a destination's bytes are the result's; once every
destination holds the result every participant completes and the round is over. The order of combination and the sign of a dense
zero a tape of choices says (log 10); log 28 reads the delivery of a full window. -/
def Obligations.Collectives : Prop :=
  (∀ (s : State) (i : Instr) (o : Collective) (r : Run) (c : Contribution) (fl : Flags) (n : Nat), Collective.of i = some o →
    let k := nget 0 s.joins (joinKey s.hereRegion s.ownRank o.kind o.gid)
    (s.eng .ne).fault = none → lfind (fun r => r.instr = i && !r.work.startSent) (s.eng .ne).runs = some r →
    s.unitStops .ne (some r) = false → s.addrInScope o.ext.base.toNat o.scope = true →
    (∀ v, o.root = some v → ∃ tl, nget? (s.places s.tile) v = some tl ∧ s.inScope s.tile tl o.scope = true) →
    (∀ q ∈ s.rounds, q.region = s.hereRegion → q.gid = o.gid → q.number = k →
      ∀ p, Collective.of q.instr = some p → p.kind = o.kind → p.params = o.params) →
    s.bring r o = .data c fl n →
    ∃ t q, exec i s = .next t ∧ q ∈ t.rounds ∧ q.region = s.hereRegion ∧ q.gid = o.gid ∧ q.number = k ∧
      (s.tile, r.id) ∈ q.members ∧ c ∈ q.parts ∧
      nget 0 t.joins (joinKey s.hereRegion s.ownRank o.kind o.gid) = k + 1 ∧
      RunHas .ne r.id t (fun y => y.work.startSent = true) ∧ SameMemory s t ∧ SameOthers s t) ∧
  (∀ (s : State) (round router : Nat) (q : Round) (o : Collective), lfind (fun (q : Round) => q.id = round) s.rounds = some q →
    Collective.of q.instr = some o → q.done = false → o.part ≤ q.members.length → (∃ p ∈ q.parts, p.router = router) →
    (∀ p ∈ q.parts, p.router ≠ router → onWay (s.rootOf q o) router 16 p.router = false) → s.roundStops q = false →
    ∃ t x, exec (.routerCombine round router) s = .next t ∧ lfind (fun (q : Round) => q.id = round) t.rounds = some x ∧
      x.members = q.members ∧ (x.done = true ↔ router = s.rootOf q o) ∧
      (router ≠ s.rootOf q o → ∀ p ∈ x.parts, p.router = nextHop router (s.rootOf q o) ∨ p ∈ q.parts) ∧
      SameMemory s t ∧ SameOthers s t) ∧
  (∀ (s : State) (round : Nat) (q : Round) (o : Collective) (c : Contribution),
    lfind (fun (q : Round) => q.id = round) s.rounds = some q → Collective.of q.instr = some o → q.parts = [c] →
    q.done = true → s.roundStops q = false →
    (∀ m ∈ q.members, q.written.contains m.2 = true ∨ s.isDest q o m.1 = false) →
    ∃ t, exec (.collectiveResult round) s = .next t ∧ t.rounds = s.rounds.filter (fun x => x.id ≠ round) ∧ SameMemory s t) ∧
  ∀ (s v : State) (q : Round) (o own : Collective) (c : Contribution) (r : Run), s.rounds = [q] → Collective.of q.instr = some o →
    q.parts = [c] → q.done = true → s.roundStops q = false → q.members = [(s.tile, r.id)] → q.written = [] →
    s.isDest q o s.tile = true →
    (s.eng .ne).run? r.id = some r → Collective.of r.instr = some own → s.writePieces r (resultBytes o own c).1 = .done v →
    ∃ t, exec (.collectiveResult q.id) s = .next t ∧ t.mem = v.mem ∧ t.rounds = [] ∧ EndedRun s .ne r.id t

/-! ### The tacking unit -/

/-- O56. Tacking (R276-R282). `tk.match` scores one even token a step and then builds its map; what stands against it is a
fault. `tk.merge` computes its rows in order and writes them back, or delivers them at its port (PMODE = 1); `tk.bias` delivers or
writes its values; `tk.untack` reads its rows and writes them, or delivers them, where their tokens stood. What a command delivers
goes out eight lane words to a packet, END on the last, with which the command completes (R277). `tk.keep` makes its map KEPT,
`tk.free` makes it FREE but for the parent of a live map. A map that is FREE or LOST stops what needs it. -/
def Obligations.Tacking : Prop :=
  let sends (i : Instr) (s u : State) (r : Run) (port : BitVec 5) (sid : BitVec 9) (es : Nat) (past : Bool) : Prop :=
    let lanes := packElems (8 * es) (8 / es) ((r.work.held.take (fullPacket es)).map (·.toNat)) 8
    let last : Bool := past && r.work.held.length ≤ fullPacket es
    ∀ v, u.deliver u.tile (pointKey port sid) r.id false
        { lanes := lanes, pred := BitVec.allOnes 8 >>> (8 - lanes.length), sid := sid
          marker := if last then some .fin else none } = .done v →
      ∃ t, exec i s = .next t ∧ SameMemory s t ∧ (∀ tile code, (t.point tile code).buf = (v.point tile code).buf) ∧
        (last = true → EndedRun u .tk r.id t) ∧
        (last = false → RunHas .tk r.id t fun y => y.work.held = r.work.held.drop (fullPacket es))
  (∀ (s u : State) (r : Run) (c : MatchCmd), s.resumeTk (.tkMatch c) = some (r, u) →
    let n := c.n.toNat + 1
    (∀ code v, u.matchFault c = some (code, v) →
      ∃ t, exec (.tkMatch c) s = .next t ∧ FaultedRun .tk r code v t ∧ SameMemory s t) ∧
    (∀ keys r1 t1, u.matchFault c = none → 2 * r.work.i < n →
      u.readKeys c { r with upc := microPc 0 0 (2 * r.work.i) 0 }
        (2 * r.work.i :: (List.range n).filter fun t => t % 2 = 1) [] = .inl (keys, r1, t1) →
      ∃ t, exec (.tkMatch c) s = .next t ∧ RunHas .tk r.id t (fun y => y.work.i = r1.work.i + 1) ∧ SameMemory s t) ∧
    (u.matchFault c = none → n ≤ 2 * r.work.i →
      ∃ t, exec (.tkMatch c) s = .next t ∧ (t.tackMap c.map.toNat).state = .live ∧
        t.tackMap c.map.toNat =
          builtMap c (if c.parent = 0x1F then List.replicate n 1 else (u.tackMap c.parent.toNat).size) r.work.counts
            (r.work.got.map fun p => (p.2.toInt, p.1)) ∧
        EndedRun u .tk r.id t ∧ SameMemory s t)) ∧
  (∀ (s u : State) (r : Run) (c : TkRowsCmd), s.resumeTk (.tkMerge c) = some (r, u) → u.mapFault c.map.toNat = none →
    let m := u.tackMap c.map.toNat
    shortAt c.ext m.nin (tkElems c) (tkEs c) (tkStride c) = none →
    (∀ rows r1 t1, r.work.i < m.nout → (c.pmode = true → r.work.held.length < fullPacket (tkEs c)) →
      u.readRows c { r with upc := microPc 0 0 r.work.i 0 } ((List.range m.nin).filter fun t => lget 0 m.d t = r.work.i) [] =
        .inl (rows, r1, t1) →
      ∃ t, exec (.tkMerge c) s = .next t ∧ SameMemory s t ∧ RunHas .tk r.id t fun y => y.work.i = r.work.i + 1 ∧
        y.work.held.length = r1.work.held.length + tkElems c) ∧
    (∀ v, c.pmode = false → m.nout ≤ r.work.i → r.work.j < m.nout →
      u.writeElems { r with upc := microPc 0 0 r.work.j 0 } (c.ext.base.toNat + r.work.j * tkStride c) (tkEs c)
        ((r.work.held.drop (r.work.j * tkElems c)).take (tkElems c)) = .done v →
      ∃ t, exec (.tkMerge c) s = .next t ∧ t.mem = v.mem ∧ RunHas .tk r.id t (fun y => y.work.j = r.work.j + 1)) ∧
    (c.pmode = false → m.nout ≤ r.work.i → m.nout ≤ r.work.j →
      ∃ t, exec (.tkMerge c) s = .next t ∧ EndedRun u .tk r.id t ∧ SameMemory s t) ∧
    (c.pmode = true → m.nout ≤ r.work.i ∨ fullPacket (tkEs c) ≤ r.work.held.length →
      sends (.tkMerge c) s u r c.port c.sid (tkEs c) (m.nout ≤ r.work.i))) ∧
  (∀ (s u : State) (r : Run) (c : BiasCmd), s.resumeTk (.tkBias c) = some (r, u) → u.mapFault c.map.toNat = none →
    let m := u.tackMap c.map.toNat
    let es := widthOfCode c.fmt / 8
    (∀ x, c.ext = some x → shortAt x m.nout 1 es es = none) →
    (r.work.complete = false →
      ∃ t, exec (.tkBias c) s = .next t ∧ SameMemory s t ∧ RunHas .tk r.id t fun y => y.work.complete = true ∧
        y.work.held = (List.range m.nout).map fun n => (biasOf c.fmt (lget 1 m.size n)).1) ∧
    (r.work.complete = true → c.ext = none → sends (.tkBias c) s u r c.port c.sid es true) ∧
    ∀ x v, r.work.complete = true → c.ext = some x → u.writeElems r x.base.toNat es r.work.held = .done v →
      ∃ t, exec (.tkBias c) s = .next t ∧ t.mem = v.mem ∧ EndedRun u .tk r.id t) ∧
  (∀ (s u : State) (r : Run) (c : TkRowsCmd) (rows : List Nat), s.resumeTk (.tkUntack c) = some (r, u) →
    u.mapFault c.map.toNat = none →
    let m := u.tackMap c.map.toNat
    (if !c.chain then .inl m.d else if r.work.checked then .inl r.work.owns else u.untackRows 16 m m.d) = .inl rows →
    shortAt c.ext (if c.pmode then m.nout else max m.nout rows.length) (tkElems c) (tkEs c) (tkStride c) = none →
    (∀ es r1 t1, r.work.i < m.nout →
      u.readElems { r with upc := microPc 0 0 r.work.i 0 } (c.ext.base.toNat + r.work.i * tkStride c) (tkEs c) (tkElems c) =
        .row es r1 t1 →
      ∃ t, exec (.tkUntack c) s = .next t ∧ RunHas .tk r.id t (fun y => y.work.i = r1.work.i + 1 ∧
        (c.chain = true → y.work.checked = true ∧ y.work.owns = rows)) ∧ SameMemory s t) ∧
    (c.pmode = true → m.nout ≤ r.work.i →
      (r.work.k < rows.length → r.work.held.length < fullPacket (tkEs c) →
        ∃ t, exec (.tkUntack c) s = .next t ∧ SameMemory s t ∧ RunHas .tk r.id t fun y => y.work.k = r.work.k + 1 ∧
          y.work.held = r.work.held ++
            (List.range (tkElems c)).map fun e => nget 0 r.work.got (lget 0 rows r.work.k * tkElems c + e)) ∧
      (rows.length ≤ r.work.k ∨ fullPacket (tkEs c) ≤ r.work.held.length →
        sends (.tkUntack c) s u r c.port c.sid (tkEs c) (rows.length ≤ r.work.k))) ∧
    (∀ v, c.pmode = false → m.nout ≤ r.work.i → r.work.j < rows.length →
      u.writeElems { r with upc := microPc 0 0 r.work.j 0 } (c.ext.base.toNat + r.work.j * tkStride c) (tkEs c)
        ((List.range (tkElems c)).map fun e => nget 0 r.work.got (lget 0 rows r.work.j * tkElems c + e)) = .done v →
      ∃ t, exec (.tkUntack c) s = .next t ∧ t.mem = v.mem ∧ RunHas .tk r.id t (fun y => y.work.j = r.work.j + 1)) ∧
    (c.pmode = false → m.nout ≤ r.work.i → rows.length ≤ r.work.j →
      ∃ t, exec (.tkUntack c) s = .next t ∧ EndedRun u .tk r.id t ∧ SameMemory s t)) ∧
  ∀ (s u : State) (r : Run) (map : BitVec 4),
    (s.resumeTk (.tkKeep map) = some (r, u) →
      (u.mapFault map.toNat = none →
        ∃ t, exec (.tkKeep map) s = .next t ∧ t.tackMap map.toNat = { u.tackMap map.toNat with state := .kept } ∧
          EndedRun u .tk r.id t ∧ SameMemory s t) ∧
      ((u.tackMap map.toNat).state = .free →
        ∃ t, exec (.tkKeep map) s = .next t ∧ FaultedRun .tk r 0x160 (map.setWidth 64) t) ∧
      ((u.tackMap map.toNat).state = .lost →
        ∃ t, exec (.tkKeep map) s = .next t ∧ FaultedRun .tk r 0x161 (map.setWidth 64) t)) ∧
    (s.resumeTk (.tkFree map) = some (r, u) →
      ((u.tileAt u.tile).isParent map.toNat = false →
        ∃ t, exec (.tkFree map) s = .next t ∧ (t.tackMap map.toNat).state = .free ∧
          (∀ j, j ≠ map.toNat → t.tackMap j = u.tackMap j) ∧ EndedRun u .tk r.id t ∧ SameMemory s t) ∧
      ((u.tileAt u.tile).isParent map.toNat = true →
        ∃ t, exec (.tkFree map) s = .next t ∧ FaultedRun .tk r 0x160 (map.setWidth 64) t))

/-! ### The host's side -/

/-- O57. Ownership, the host's buffers and windows, and Usmond (R379-R383, R385, R388-R391, R396, R399). An acceptable OFFER is
pending; a CONFIRM that matches it makes its port captain and clears both offers; any other clears the port's own. The captain's
TOKEN renews the lease; an expiry leaves the module UNOWNED; a HANDOVER names the other port, and its cancellation ends it. A
write of a host that is not captain to LEASE, HANDOVER, the FMC's buffer or BAR2 is discarded with NOT_CAPTAIN; before boot the
captain's to BAR2 reaches the boot window, after it the pages of a host window. Usmond's commands but ATTEST are the captain's
alone. ATTEST writes the 384 bytes of the report, with the measurement registers, and its signature. BOOT starts the firmware where
every image passes, with every tile of the fuse map retired, else names the first that fails; UPDATE measures its image and has the
standby load it. A key is enrolled where there is none, and leaves by a release or a recovery whose signature verifies. Stogal's
key and the device's signature are uninterpreted, and FIPS 205 is taken from outside the spec (log 7). Log entries 55 and 56 read
what R381, R385, R389 and R391 leave open; the status register of a discarded write and RESULT 0 beside IMAGE_SIGNATURE are log
entry 86's. -/
def Obligations.OwnershipAndUsmond : Prop :=
  (∀ (p : HostPort) (v : Word) (s : State) (ms : BitVec 30) (token : BitVec 32),
    (claimFields v = (1, ms, token) →
      (100 ≤ ms.toNat ∧ ms.toNat ≤ 600000 ∧ token ≠ 0 ∧ s.own.acceptable p = true →
        ∃ t, exec (.claimOffer p v) s = .next t ∧ t.own.offer p = some (ms, token) ∧ t.own.offer (!p) = s.own.offer (!p) ∧
          t.own.state = s.own.state ∧ SameMemory s t) ∧
      (¬(100 ≤ ms.toNat ∧ ms.toNat ≤ 600000 ∧ token ≠ 0 ∧ s.own.acceptable p = true) →
        exec (.claimOffer p v) s = .next s)) ∧
    (claimFields v = (2, ms, token) →
      (s.own.offer p = some (ms, token) → s.own.acceptable p = true →
        ∃ t, exec (.claimConfirm p v) s = .next t ∧ t.own.state = .owned ∧ t.own.capt = p ∧ t.own.token = token ∧
          t.own.left = ms.setWidth 32 ∧ (∀ q, t.own.offer q = none) ∧ SameMemory s t) ∧
      (s.own.offer p ≠ some (ms, token) →
        ∃ t, exec (.claimConfirm p v) s = .next t ∧ t.own.offer p = none ∧ t.own.state = s.own.state ∧
          t.own.capt = s.own.capt)) ∧
    (s.own.isCaptain p = true →
      (v = s.own.token.setWidth 64 →
        ∃ t, exec (.lease p v) s = .next t ∧ t.own.left = s.own.leasems.setWidth 32 ∧ t.own.state = s.own.state) ∧
      (v.toNat / 2 ^ 33 = 0 → v.extractLsb' 0 32 = s.own.token →
        (v.getLsbD 32 ≠ p →
          ∃ t, exec (.handover p v) s = .next t ∧ t.own.state = .handover ∧ t.own.named = !p ∧ t.own.capt = s.own.capt) ∧
        (v.getLsbD 32 = p →
          ∃ t, exec (.handoverCancel p v) s = .next t ∧ t.own.state = .owned ∧ t.own.capt = s.own.capt))) ∧
    (s.own.isCaptain p = false →
      ∀ i, i = .lease p v ∨ i = .handover p v ∨ i = .handoverCancel p v →
        ∃ t, exec i s = .next t ∧ UsAnswered p 2 0x602 0 t ∧ t.own.state = s.own.state ∧ t.own.left = s.own.left ∧
          t.own.capt = s.own.capt ∧ t.own.named = s.own.named ∧ SameMemory s t) ∧
    (s.own.state ≠ .unowned →
      ∃ t, exec .leaseExpired s = .next t ∧ t.own.state = .unowned ∧ t.own.left = 0 ∧ SameMemory s t)) ∧
  (∀ (p : HostPort) (s : State) (offset : Nat) (v : Word) (data : List Byte),
    (s.own.isCaptain p = true → 0x20000 ≤ offset → offset + 8 ≤ 0x30000 →
      ∃ t, exec (.bar0RegisterWrite p offset v) s = .next t ∧ SameMemory s t ∧
        memNat (if p then t.own.fmcbuf1 else t.own.fmcbuf0) (offset % 65536) 8 = v.toNat) ∧
    (s.own.isCaptain p = false → 0x20000 ≤ offset → offset + 8 ≤ 0x30000 →
      ∃ t, exec (.bar0RegisterWrite p offset v) s = .next t ∧ SameMemory s t ∧ (t.own.fmcStat p).code = 0x602 ∧
        t.own.fmcbuf0 = s.own.fmcbuf0 ∧ t.own.fmcbuf1 = s.own.fmcbuf1) ∧
    (0x10000 ≤ offset → offset + 8 ≤ 0x20000 →
      ∃ t, exec (.bar0RegisterWrite p offset v) s = .next t ∧ SameMemory s t ∧
        memNat (if p then t.own.usbuf1 else t.own.usbuf0) (offset % 65536) 8 = v.toNat) ∧
    (s.own.isCaptain p = false →
      ∃ t, exec (.hostBar2Access p offset true data) s = .next t ∧ SameMemory s t ∧
        (s.own.booted = false → UsAnswered p 2 0x602 0 t) ∧
        (s.own.booted = true → (t.own.fmcStat p).code = 0x602 ∧ (t.own.fmcStat p).result = 2)) ∧
    (∃ t, exec (.hostBar2Access p offset false data) s = .next t ∧ SameMemory s t ∧ t.selfRefresh = false ∧ t.ctxs = s.ctxs) ∧
    (∀ w ks, s.own.isCaptain p = true → s.own.booted = true → s.regions = [] → s.fmc.queues = [] →
      lfind (fun w => w.port = p && w.offset ≤ offset && offset + data.length ≤ w.offset + w.len) s.fmc.wins = some w →
      s.vaKeys w.space (w.va.toNat + (offset - w.offset)) data.length = some ks → ks.Nodup →
      (∀ k ∈ ks, nget .runs s.hbmPart (stackOf k) ≠ .gated) →
      ∃ t, exec (.hostBar2Access p offset true data) s = .next t ∧
        ∀ i, i < data.length → memGet t.mem (lget 0 ks i) = lget 0 data i) ∧
    (s.own.isCaptain p = true → s.own.booted = false → s.own.bootWindow = true → offset + data.length ≤ 2 ^ 31 →
      s.regions = [] → s.fmc.queues = [] →
      ∃ t, exec (.hostBar2Access p offset true data) s = .next t ∧ memBytes t.mem offset data.length = data ∧
        SameMemoryBut offset data.length s t)) ∧
  (∀ (p : HostPort) (s : State) (i : Instr), isCaptainCommand p i = true → s.own.isCaptain p = false →
    ∃ t, exec i s = .next t ∧ UsAnswered p 2 0x602 0 t ∧ t.own.key = s.own.key ∧ t.own.booted = s.own.booted ∧
      SameMemory s t) ∧
  (∀ (p : HostPort) (s : State) (nonce : BitVec 256),
    ∃ t, exec (.attest p nonce) s = .next t ∧ UsAnswered p 0 0 0 t ∧ t.own.state = s.own.state ∧ t.own.key = s.own.key ∧
      t.own.mrs = s.own.mrs ∧ SameMemory s t ∧
      let buf := if p then t.own.usbuf1 else t.own.usbuf0
      let b := memBytes buf 0 384
      (nonce ≠ 0 →
        numAt b 0 8 = 1 ∧ numAt b 8 8 = (s.own.ownstat p).toNat ∧ numAt b 16 16 = s.own.serial.toNat ∧
        numAt b 32 8 = s.own.transfers.toNat ∧
        (b.drop 40).take 32 =
          (match s.own.key with | some (k, _, _) => Sha.digest k | none => List.replicate 32 0) ∧
        (∀ i, i < 8 → numAt b (72 + 32 * i) 32 = (nget 0 s.own.mrs i).toNat) ∧
        numAt b 328 32 = nonce.toNat ∧ numAt b 360 24 = 0 ∧
        ∀ i, i < (Config.attestSignature b).length → 384 + i < 65536 →
          memGet buf (384 + i) = lget 0 (Config.attestSignature b) i) ∧
      (nonce = 0 → ∀ i, i < Config.certificate.length → i < 65536 → memGet buf i = lget 0 Config.certificate i)) ∧
  ∀ (p : HostPort) (s : State), s.own.isCaptain p = true →
    (∀ key ps oid, s.own.key = some (key, ps, oid) →
      (∀ offset len, s.own.booted = false → offset + len ≤ 2 ^ 31 →
        let ims := bundleImages ps 64 (memBytes s.mem offset len)
        let ck := (s.checkBundle ims key ps [1, 2, 3, 4]).2
        ∃ t, exec (.boot p offset len) s = .next t ∧ t.own.booted = ck.isNone ∧
          UsAnswered p 0 (if ck.isNone then 0 else 0x601) (ck.getD 0) t ∧
          (ck.isNone = false ∨ s.fuses = [] → SameMemory s t) ∧
          (ck.isNone = true → t.fmc.running = true ∧ t.fmc.active = false ∧ t.own.bootWindow = false ∧
            (∀ f ∈ s.fuses, f % 32 ∈ (nget {} t.clusters (f / 32)).bad) ∧
            (∀ n, n < 1152 → s.fuses = [] → n % 24 ∉ (nget {} s.clusters (n / 24)).missing →
              (t.ctxOf (n * 4 + 2)).life = .live) ∧
            ∀ k im, lfind (fun (im : BundleImage) => im.kind = k) ims = some im →
              (k = 1 → nget? t.fmc.images 0 = some im.body ∧ nget? t.fmc.images 1 = some im.body) ∧
              (k = 2 → t.fwText = cellsFrom 0 im.body) ∧ (k = 3 ∨ k = 4 → nget? t.fmc.kinds k = some im.body))) ∧
      ∀ image, s.own.booted = true →
        let ok := match bundleImages ps 1 image with | [im] => im.kind = 1 && im.good key ps | _ => false
        (ok = false →
          ∃ t, exec (.update p image) s = .next t ∧ UsAnswered p 0 0x601 0 t ∧ t.fmc = s.fmc ∧ t.own.mrs = s.own.mrs ∧
            SameMemory s t) ∧
        ∀ im, bundleImages ps 1 image = [im] → ok = true →
          ∃ t, exec (.update p image) s = .next t ∧ UsAnswered p 0 0 0 t ∧ t.fmc.swap = some im.body ∧
            t.fmc.active = s.fmc.active ∧ nget? t.fmc.images (fmcNumber !s.fmc.active) = some im.body ∧
            nget 0 t.own.mrs 1 = mrOf (Sha.digest (mrBytes (nget 0 s.own.mrs 1) ++ im.digest)) ∧ SameMemory s t) ∧
    (s.own.booted = false → ∀ msg sig,
      let leaves (i : Instr) (ok : Bool) : Prop :=
        ∃ t, exec i s = .next t ∧ SameMemory s t ∧
          (if msg = s.own.transferMessage ∧ ok = true then
            t.own.key = none ∧ t.own.transfers = s.own.transfers + 1 ∧ UsAnswered p 0 0 0 t
          else t.own.key = s.own.key ∧ t.own.transfers = s.own.transfers ∧ UsAnswered p 0 0x601 0 t)
      leaves (.release p msg sig) (match s.own.key with | some (k, ps, _) => Signature.verify ps k msg sig | none => false) ∧
        leaves (.recover p msg sig) (Signature.verify 2 Config.stogalKey msg sig)) ∧
    ∀ key ps oid, s.own.booted = false → s.own.key = none → ps ≤ 2 →
      ∃ t, exec (.enrol p key ps oid) s = .next t ∧ t.own.key = some (key, ps, oid) ∧ UsAnswered p 0 0 0 t ∧ SameMemory s t

/-- O58. The FMC's requests (R325, R329, R335, R375, R384-R387, R393, R397, R398). A request of a port that is not captain is
NOT_CAPTAIN and changes nothing else; before boot it is REFUSED; while one is BUSY it is discarded. One in range has its effect and is
answered OK: a launch queue with the lowest free number, one destroyed with 0x502 in every entry not taken, a mapping made or taken
away, a window, a grant filled or emptied, the pod's descriptor, the quantum, a root submitted, the power limits, a cluster fenced and
its regions cut, or released, a tile retired and a spare in its place, a port down or up, a frame retired, a module reset. A MAP that
breaks R329 or the HBM limit in force is REFUSED; a RETIRE stays BUSY while one of its pages moves. A checkpoint cuts every placed
region and stays BUSY; service requests wait for its end, held. The bytes that nothing has written (log 1), the frames and whether a port
finds its peer (log 10, 32), the page codes, an empty MAP and a partial UNMAP (log 35), the argument of a root (log 36), a checkpoint's
order and a second one (log 60), and SPARE on a cluster that is not drained (log 86) are the model's. -/
def Obligations.FmcRequests : Prop :=
  (∀ (p : HostPort) (i : Instr) (s : State), isFmcRequest p i = true →
    (s.own.isCaptain p = false →
      ∃ t, exec i s = .next t ∧ (t.own.fmcStat p).result = 2 ∧
        (t.own.fmcStat p).code = (if s.own.justExpired p then 0x603 else 0x602) ∧ t.fmc = s.fmc ∧ t.regions = s.regions ∧
        SameMemory s t) ∧
    (s.own.isCaptain p = true → (s.own.fmcStat p).busy = true → exec i s = .next s) ∧
    (s.own.isCaptain p = true → (s.own.fmcStat p).busy = false → s.own.booted = false →
      ∃ t, exec i s = .next t ∧ Answered p 2 0 0 t ∧ t.fmc = s.fmc ∧ SameMemory s t)) ∧
  (∀ (p : HostPort) (s : State), Serves p s →
    (∀ space ring log2 doorbell n, 4 ≤ log2 → log2 ≤ 16 → ring.toNat % 32 = 0 → doorbell.toNat % 8 = 0 →
      lfind (fun i => (nget? s.fmc.queues i).isNone) (List.range 64) = some n →
      ∃ t, exec (.lqCreate p space ring log2 doorbell) s = .next t ∧ Answered p 0 0 (BitVec.ofNat 64 n) t ∧ SameMemory s t ∧
        nget? t.fmc.queues n = some { space := space, ring := ring, log2 := log2, doorbell := doorbell }) ∧
    (∀ n q, nget? s.fmc.queues n = some q →
      ∃ t, exec (.lqDestroy p n) s = .next t ∧ Answered p 0 0 0 t ∧ nget? t.fmc.queues n = none ∧
        (q.produced = q.taken → SameMemory s t) ∧
        t.mem = ((List.range (q.produced - q.taken).toNat).foldl (fun (u : State) i =>
          u.vaPut q.space (q.ring.toNat + 32 * ((q.taken.toNat + i) % 2 ^ 32 % 2 ^ q.log2) + 16) (leBytes 8 (2 ^ 63 + 0x502 * 2 ^ 32)))
          s).mem) ∧
    (∀ root va len page w source,
      (∀ shift, pageShift page = some shift → len ≠ 0 → len % 2 ^ shift = 0 → va.toNat % 2 ^ shift = 0 →
        va.toNat + len ≤ 2 ^ 56 → (∀ x, source = some x → x + len ≤ 0xC000000000) →
        (∀ u, s.hbmRoom root.toNat len = true → s.mapPages root.toNat shift w (len / 2 ^ shift) va.toNat source = some u →
          ∃ t, exec (.map p root va len page w source) s = .next t ∧ t.mem = u.mem ∧ t.fmc.mappings = u.fmc.mappings ∧
            Answered p 0 0 0 t) ∧
        (s.hbmRoom root.toNat len = false ∨ s.mapPages root.toNat shift w (len / 2 ^ shift) va.toNat source = none →
          ∃ t, exec (.map p root va len page w source) s = .next t ∧ Answered p 2 0 0 t ∧ t.fmc = s.fmc ∧ SameMemory s t)) ∧
      (len ≠ 0 → (∀ x, source = some x → x + len ≤ 0xC000000000) →
        (∀ shift, pageShift page = some shift →
          ¬(len % 2 ^ shift = 0 ∧ va.toNat % 2 ^ shift = 0 ∧ va.toNat + len ≤ 2 ^ 56)) →
        ∃ t, exec (.map p root va len page w source) s = .next t ∧ Answered p 2 0 0 t ∧ t.fmc = s.fmc ∧ SameMemory s t) ∧
      (len = 0 ∨ (∃ x, source = some x ∧ 0xC000000000 < x + len) →
        ∃ t, exec (.map p root va len page w source) s = .next t ∧ Answered p 1 0 0 t ∧ t.fmc = s.fmc ∧ SameMemory s t)) ∧
    (∀ root va len,
      let pages := s.fmc.mappings.filter fun m => m.space = root.toNat && m.va < va.toNat + len && va.toNat < m.va + 2 ^ m.log2
      (len = 0 ∨ (∃ m ∈ pages, m.va < va.toNat ∨ va.toNat + len < m.va + 2 ^ m.log2) →
        ∃ t, exec (.unmap p root va len) s = .next t ∧ Answered p 1 0 0 t ∧ t.fmc = s.fmc ∧ SameMemory s t) ∧
      (len ≠ 0 → pages = [] → ∃ t, exec (.unmap p root va len) s = .next t ∧ Answered p 0 0 0 t ∧ t.fmc = s.fmc ∧ SameMemory s t) ∧
      ∀ m pte shift, pages = [m] → len ≠ 0 → va.toNat ≤ m.va → m.va + 2 ^ m.log2 ≤ va.toNat + len →
        s.leafOf root.toNat m.va = some (pte, shift) → m.va % 2 ^ shift = 0 →
        (s.setPte pte (withBit (s.pteAt pte) 5 true)).leafOf root.toNat m.va = some (pte, shift) →
        s.tilesOf root.toNat = [] → s.tilePinned root.toNat m.va = false → s.fmcPinned root.toNat m.va = false →
        s.fmc.unmaps = [] →
        ∃ t, exec (.unmap p root va len) s = .next t ∧ Answered p 0 0 0 t ∧ t.fmc.unmaps = [] ∧ t.pteAt pte = 0 ∧
          t.fmc.mappings = s.fmc.mappings.filter fun x => !(x.space = root.toNat && x.va = m.va)) ∧
    (∀ space va len offset, len ≠ 0 → offset + len ≤ 2 ^ 34 →
      ((∀ w ∈ s.fmc.wins, w.port = p → offset + len ≤ w.offset ∨ w.offset + w.len ≤ offset) →
        ∃ t, exec (.hostwin p space va len offset) s = .next t ∧ Answered p 0 0 0 t ∧ SameMemory s t ∧
          t.fmc.wins = s.fmc.wins ++ [{ port := p, offset := offset, len := len, space := space, va := va }]) ∧
      ((∃ w ∈ s.fmc.wins, w.port = p ∧ w.offset < offset + len ∧ offset < w.offset + w.len) →
        ∃ t, exec (.hostwin p space va len offset) s = .next t ∧ Answered p 2 0 0 t ∧ SameMemory s t ∧ t.fmc = s.fmc)) ∧
    (∀ b, numAt b 0 1 = 1 → numAt b 1 1 ≤ 31 → grantOk b = true →
      (nget? s.fmc.grants (numAt b 1 1) = none →
        ∃ t, exec (.grant p b) s = .next t ∧ Answered p 0 0 0 t ∧ nget? t.fmc.grants (numAt b 1 1) = some b ∧
          nget? t.fmc.pairs (numAt b 1 1) = some { payload := b } ∧ SameMemory s t) ∧
      ((nget? s.fmc.grants (numAt b 1 1)).isSome = true →
        ∃ t, exec (.grant p b) s = .next t ∧ Answered p 2 0 0 t ∧ t.fmc = s.fmc ∧ SameMemory s t)) ∧
    (∀ b, numAt b 0 1 = 2 → b.length = 128 → numAt b 1 1 ≤ 31 → numAt b 2 126 = 0 →
      ∃ t, exec (.revoke p b) s = .next t ∧ Answered p 0 0 0 t ∧ nget? t.fmc.grants (numAt b 1 1) = none ∧
        nget? t.fmc.pairs (numAt b 1 1) = none ∧ SameMemory s t)) ∧
  (∀ (p : HostPort) (s : State), Serves p s →
    (∀ d : PodDesc, 1 ≤ d.hopw → d.hopw ≤ 13 → (∀ m ∈ d.modules, m.2 ≤ 1023) → (∀ l ∈ d.links, l.portA ≤ 23 ∧ l.portB ≤ 23) →
      ∃ t, exec (.pod p d) s = .next t ∧ Answered p 0 0 0 t ∧ t.fmc.podDesc = some d ∧ SameMemory s t) ∧
    (∀ q, (1 ≤ q ∧ q ≤ 1000 → ∃ t, exec (.policy p q) s = .next t ∧ Answered p 0 0 0 t ∧ t.fmc.quantum = q) ∧
      (¬(1 ≤ q ∧ q ≤ 1000) → ∃ t, exec (.policy p q) s = .next t ∧ Answered p 1 0 0 t ∧ t.fmc = s.fmc)) ∧
    (∀ addr, let x := s.submit addr.toNat addr (Config.freeWord s.ticks)
      ∃ t, exec (.root p addr) s = .next t ∧ t.mem = x.1.mem ∧ t.regions = x.1.regions ∧
        Answered p (if x.2.1 = 0 then 0 else 2) (BitVec.ofNat 12 x.2.1) (BitVec.ofNat 64 x.2.2) t) ∧
    (∀ b : List Byte, b.length = 8 → numAt b 6 2 = 0 → let cap := numAt b 4 2
      (cap = 0 ∨ 1500 ≤ cap ∧ cap ≤ 4500 →
        ∃ t, exec (.power p b) s = .next t ∧ Answered p 0 0 0 t ∧ t.fmc.ltol.toNat = numAt b 0 4 ∧
          t.fmc.pcap.toNat = (if cap = 0 then 4500 else cap) ∧ SameMemory s t) ∧
      (cap ≠ 0 ∧ (cap < 1500 ∨ 4500 < cap) →
        ∃ t, exec (.power p b) s = .next t ∧ Answered p 1 0 0 t ∧ t.fmc = s.fmc ∧ SameMemory s t)) ∧
    ∀ order : CheckpointOrder, s.Inv →
      ∃ t, exec (.checkpoint p order) s = .next t ∧ (t.own.fmcStat p).busy = true ∧
        t.fmc.ckptRegions = some ((s.regions.filter fun q => !q.2.place.isEmpty).map Prod.fst) ∧
        t.fmc.ckptComplete = order.complete ∧ t.fmc.ckptTier = order.tier ∧
        ∀ n r, nget? t.regions n = some r → r.place ≠ [] →
          (r.state = .running → r.abort.isSome = true) ∧ (r.state = .loading → r.whistleHeld = true)) ∧
  (∀ (p : HostPort) (s : State) (l : List Nat) (b : List Byte),
    s.own.isCaptain p = true → (s.own.fmcStat p).busy = false → s.own.booted = true → s.fmc.ckptRegions = some l →
    (∀ order, ∃ t, exec (.checkpoint p order) s = .next t ∧ Answered p 2 0 0 t ∧ t.fmc = s.fmc ∧ SameMemory s t) ∧
    let waits (i : Instr) (op : Nat) : Prop :=
      ∃ t, exec i s = .next t ∧ (t.own.fmcStat p).busy = true ∧ t.fmc = { s.fmc with held := s.fmc.held ++ [(p, op, b)] } ∧
        t.clusters = s.clusters ∧ t.uaports = s.uaports ∧ SameMemory s t
    waits (.drain p b) 1 ∧ waits (.undrain p b) 2 ∧ waits (.spare p b) 3 ∧ waits (.portdown p b) 4 ∧ waits (.portup p b) 5 ∧
      waits (.retire p b) 6 ∧ waits (.reset p b) 7) ∧
  ∀ (p : HostPort) (s : State) (b : List Byte) (n : Nat), Serves p s →
    let c := nget {} s.clusters (n / 32)
    (let turned (i : Instr) (op : Nat) : Prop := servicePayload op b = false →
      ∃ t, exec i s = .next t ∧ Answered p 1 0 0 t ∧ t.fmc = s.fmc ∧ t.clusters = s.clusters ∧ SameMemory s t
    turned (.drain p b) 1 ∧ turned (.undrain p b) 2 ∧ turned (.spare p b) 3 ∧ turned (.portdown p b) 4 ∧ turned (.portup p b) 5 ∧
      turned (.retire p b) 6 ∧ turned (.reset p b) 7) ∧
    (n < 48 → ServicePayload b 1 n → s.Inv →
      ∃ t, exec (.drain p b) s = .next t ∧ (nget {} t.clusters n).fenced = true ∧ (t.own.fmcStat p).busy = true ∧
        ({ cluster := n, port := some p } : Draining) ∈ t.fmc.drains ∧
        ∀ m r, nget? t.regions m = some r → (∃ q ∈ r.place, q.2 / 24 = n) →
          (r.state = .running → r.abort.isSome = true) ∧ (r.state = .loading → r.whistleHeld = true)) ∧
    (n < 48 → ServicePayload b 2 n →
      ∃ t, exec (.undrain p b) s = .next t ∧ (nget {} t.clusters n).fenced = false ∧ Answered p 0 0 0 t ∧ SameMemory s t) ∧
    (n / 32 < 48 → n % 32 < 26 → ServicePayload b 3 n →
      (c.fenced = false ∨ s.regionsOn (n / 32) ≠ [] →
        ∃ t, exec (.spare p b) s = .next t ∧ Answered p 2 0 0 t ∧ t.clusters = s.clusters ∧ SameMemory s t) ∧
      (c.fenced = true → s.regionsOn (n / 32) = [] →
        ∃ t, exec (.spare p b) s = .next t ∧ Answered p 0 0 0 t ∧ n % 32 ∈ (nget {} t.clusters (n / 32)).bad ∧
          ∀ x, n % 32 ∉ c.bad →
            lfind (fun y => nget y c.phys y = n % 32 && !c.missing.contains y) (List.range 24) = some x →
            match ({ c with bad := c.bad ++ [n % 32] } : Cluster).spares with
            | [] => x ∈ (nget {} t.clusters (n / 32)).missing
            | q :: _ => nget x (nget {} t.clusters (n / 32)).phys x = q)) ∧
    (n < 24 → ServicePayload b 4 n →
      ∃ t, exec (.portdown p b) s = .next t ∧ Answered p 0 0 0 t ∧ (t.uaport n).up = false ∧ SameMemory s t) ∧
    (n < 24 → ServicePayload b 5 n →
      let found := if s.choose.1 = 0 then s.peersIn s.podLinks n else []
      ∃ t, exec (.portup p b) s = .next t ∧ Answered p 0 0 0 t ∧ SameMemory s t ∧
        (found ≠ [] → (t.uaport n).up = true ∧ (t.uaport n).lanes = 4 ∧ (t.uaport n).found = found) ∧
        (found = [] → (t.uaport n).up = false)) ∧
    (n < 0xC00000 → ServicePayload b 6 n →
      ∃ t, exec (.retire p b) s = .next t ∧ n ∈ t.fmc.retiredFrames ∧
        (s.fmc.unmaps = [] → s.pagesIn (n * 65536, 65536) = [] → Answered p 0 0 0 t ∧ SameMemory s t) ∧
        ((t.own.fmcStat p).busy = true ↔ ∃ u ∈ t.fmc.unmaps, u.port = some p)) ∧
    (ServicePayload b 7 0 →
      ∃ t, exec (.reset p b) s = .next t ∧ t.own.key = s.own.key ∧ t.own.booted = false ∧ t.regions = [] ∧
        ∀ a, memGet t.mem a = Config.unwrittenByte)

/-! ### The FMC and the module -/

/-- O59. The active FMC and the memory manager (R314, R316, R318, R319, R322, R325, R335, R336, R345, R349, R352, R360, R362, R399).
A pass takes every entry of the launch queues, and a management image that waits takes over at its end where the standby has not
failed; with nothing to do it changes no context, tile or byte; one with no region placed ends a checkpoint, with HBM's bytes in the safe
tier, and answers it. The other FMC, if it has not failed, takes over with all that was recorded. A ring of a registered word is
recorded. A tile's acknowledgement is noted, and the last one of a launch that loaded starts the region's contexts. A tile that has cut
is saved, and the last ends the save; a store that fails leaves the region DRAINING; a cut that times out is abandoned. A shootdown
takes a page out of a tile's translations; a retired frame's page begins to move, and its move ends where there is a fresh frame. The
order of moves, the choices of a pass, the details of a cut, the tier's bytes, when a retirement begins and an update whose standby has
failed are the model's (log 2, 10, 31, 48, 60, 61, 72, 86). -/
def Obligations.SchedulingAndMemory : Prop :=
  (∀ (s : State), s.fmc.running = true →
    (s.fmc.held = [] →
      ∃ t, exec .schedulingPass s = .next t ∧ t.fmc.device = [] ∧ (∀ n q, nget? t.fmc.queues n = some q → q.taken = q.produced) ∧
        (s.fmc.failed.contains (!s.fmc.active) = false →
          t.fmc.swap = none ∧ t.fmc.active = (if s.fmc.swap.isSome then !s.fmc.active else s.fmc.active) ∧
          ∀ body, s.fmc.swap = some body → nget? t.fmc.images (fmcNumber s.fmc.active) = some body) ∧
        (s.fmc.failed.contains (!s.fmc.active) = true → t.fmc.active = s.fmc.active ∧ t.fmc.swap = s.fmc.swap)) ∧
    (s.fmc.unmaps = [] → s.fmc.rings = [] → s.fmc.drains = [] → s.fmc.held = [] → s.regions = [] →
      (s.fmc.device = [] → s.fmc.queues = [] → s.fmc.wakes = [] → s.fmc.firmware = [] → s.fmc.ends = [] →
        s.fmc.ckptRegions = none → (∀ q ∈ s.tiles, q.2.clockGated = false) →
        ∃ t, exec .schedulingPass s = .next t ∧ t.ctxs = s.ctxs ∧ t.tiles = s.tiles ∧ t.mem = s.mem ∧ t.regions = []) ∧
      (s.fmc.device = [] → s.fmc.queues = [] → ∀ l, s.fmc.ckptRegions = some l →
        ∃ t x, exec .schedulingPass s = .next t ∧ t.fmc.ckptRegions = none ∧ t.fmc.checkpoint = some x ∧
          x.complete = s.fmc.ckptComplete ∧ x.tier = s.fmc.ckptTier ∧ (∀ a, isHbm a = true → nget? x.mem a = nget? s.mem a) ∧
          (∀ k, isHbm (32 * k) = true → (nget {} s.sectors k).poison = true → k ∈ x.poison) ∧
          ∀ p, s.fmc.ckptPort = some p → Answered p (if s.fmc.ckptComplete then 0 else 2) 0 0 t)) ∧
    (s.fmc.failed.contains (!s.fmc.active) = false →
      ∃ t, exec .fmcFailover s = .next t ∧ t.fmc.active = !s.fmc.active ∧ s.fmc.active ∈ t.fmc.failed ∧ t.regions = s.regions ∧
        t.roster = s.roster ∧ t.fmc.rings = s.fmc.rings ∧ t.fmc.wakes = s.fmc.wakes ∧ t.fmc.queues = s.fmc.queues ∧
        t.wake = s.wake ∧ SameMemory s t) ∧
    (s.fmc.failed.contains (!s.fmc.active) = true → exec .fmcFailover s = .next s)) ∧
  (∀ (s : State) (space : Nat) (addr : Word),
    ((space, addr) ∉ s.doorbells →
      exec (.doorbellRing space addr) s = .next { s with selfRefresh := false, deepIdle := false }) ∧
    ((space, addr) ∈ s.doorbells →
      ∃ t, exec (.doorbellRing space addr) s = .next t ∧ (space, addr) ∈ t.fmc.rings ∧ t.selfRefresh = false)) ∧
  (∀ (s : State) (tile : Nat) (r : Region) (im : Image), s.regionAt tile = some r →
    let rank := s.rankAt tile
    r.state = .loading → r.abort = none → rank ∉ r.acks → r.started = false →
    nget? s.images (imageKey r.space r.words.image) = some im →
    let code := (s.loadTile r (lfind (fun t => t.rank = rank) im.tiles) tile).2
    let r1 := { r with acks := r.acks ++ [rank], loadCodes := nset r.loadCodes rank code }
    (r.acks.length + 1 ≠ r.place.length →
      ∃ t, exec (.launchLoadAck tile) s = .next t ∧ nget? t.regions r.id = some r1) ∧
    (r.acks.length + 1 = r.place.length → r.whistleHeld = false → r1.loadCode = none →
      ∃ t x, exec (.launchLoadAck tile) s = .next t ∧ nget? t.regions r.id = some x ∧ x.state = .running ∧ x.started = true ∧
        ∀ y ∈ im.tiles, y.startA = true → ∀ n, nget? r.place y.rank = some n →
          (t.ctxOf (r.id * 2 ^ 32 + y.rank * 4)).life = .live ∧
          (t.ctxOf (r.id * 2 ^ 32 + y.rank * 4)).pc = BitVec.ofNat 64 r.textBase + im.entry)) ∧
  (∀ (s w : State) (tile : Nat) (r : Region), s.regionAt tile = some r → r.state = .draining → r.abort = none →
    let rank := (s.placeWhistles tile).rankAt tile
    r.started = true → (s.tileAt tile).cut ≠ .none → (s.placeWhistles tile).tileCut tile = true →
    ((s.placeWhistles tile).tileAt tile).part ≠ .gated → (s.placeWhistles tile).areaMoves r = false →
    (s.placeWhistles tile).choose = (0, w) → rank ∉ r.saved →
    (∀ v, w.saveTile r tile rank = (v, none) → r.saved.length + 1 ≠ r.place.length →
      ∃ t, exec (.tileSave tile) s = .next t ∧ (t.tileAt tile).cut = .saved ∧ t.mem = v.mem ∧
        nget? t.regions r.id = some { r with saved := r.saved ++ [rank] }) ∧
    (∀ v, w.saveTile r tile rank = (v, none) → r.saved.length + 1 = r.place.length →
      ∃ t x, exec (.tileSave tile) s = .next t ∧ nget? t.regions r.id = some x ∧ x.state = .saved ∧ x.place = [] ∧
        x.saveSeq = r.saveSeq + 1 ∧ x.savedTiles.length = r.place.length) ∧
    ∀ v va, w.saveTile r tile rank = (v, some va) →
      ∃ t x, exec (.tileSave tile) s = .next t ∧ nget? t.regions r.id = some x ∧ x.state = .draining ∧ x.saved = r.saved) ∧
  (∀ (s : State) (n : Nat) (r : Region), nget? s.regions n = some r →
    (r.state ≠ .draining → exec (.whistleTimeout n) s = .next s) ∧
    (s.Inv → r.state = .draining → r.abort = none → r.started = true →
      ∃ t x, exec (.whistleTimeout n) s = .next t ∧ nget? t.regions n = some x ∧ x.state = .running)) ∧
  (∀ (s : State) (tile space : Nat) (va : Word) (u : Unmapping), u ∈ s.fmc.unmaps → u.space = space → u.va = va.toNat →
    tile ∈ u.waitFor →
    ∃ t, exec (.shootdown tile space va) s = .next t ∧
      (∀ x ∈ t.fmc.unmaps, x.space = space → x.va = va.toNat → tile ∉ x.waitFor) ∧
      ∀ e ∈ (t.tileAt tile).tlb, ¬(e.space = space ∧ e.frame.va = va.toNat)) ∧
  (∀ (s : State) (frame : Nat), s.fmc.unmaps = [] →
    (frame ∉ s.fmc.retiredFrames → exec (.frameRetire frame) s = .next s) ∧
    ∀ m pte shift, frame ∈ s.fmc.retiredFrames → s.pagesIn (frame * 65536, 65536) = [m] →
      s.leafOf m.space m.va = some (pte, shift) → m.va % 2 ^ shift = 0 →
      ∃ t u, exec (.frameRetire frame) s = .next t ∧ t.fmc.unmaps = [u] ∧ u.space = m.space ∧ u.va = m.va ∧ u.move = some frame ∧
        u.waitFor = s.tilesOf m.space) ∧
  ∀ (s : State) (frame : Nat) (u : Unmapping) (leaf : Nat × Nat),
    lfind (fun u => u.move = some frame && s.unmapReady u) s.fmc.unmaps = some u → s.leafOf u.space u.va = some leaf →
    (s.takeFrames (2 ^ leaf.2) = none → exec (.frameRetire frame) s = .next s) ∧
    ∀ new v, s.takeFrames (2 ^ leaf.2) = some (new, v) →
      ∃ t, exec (.frameRetire frame) s = .next t ∧ t.fmc.unmaps = s.fmc.unmaps.filter (fun x => x ≠ u)

/-- O60. Errors, links and power (R321-R324, R365, R371-R373, R375, R377, R391, R394-R396). An uncorrectable error poisons its sector
and, in HBM, has its frame retired; a corrected error and a retried flit change nothing. A partition in error stands still and runs
again after its recovery. A region on a failing tile is cut; then a spare takes the tile's place while there is one. Links that exist
degrade by lanes, a port with none left goes down. Landing records enter the mesh in sequence, a write of another size is an error, and
with a credit returned the mesh hands on a packet and a write that waits and may go goes out; an atomic is answered with an error. A
safe-tier access of the module named reads or writes the reserved bytes, any other is an error. Module reset and power loss leave the
owner key store alone; a PCIe link reset clears what its own port has BUSY or pending. A unit enters the deepest power state that it may,
losing what R394 says, and comes back; a droop slows its island. The regions of a partition, its frozen time and what an error starts are
read as in log 33, 59 and 61; lost bytes read as in log 1; when the mesh hands a packet on is the model's choice (log 77). -/
def Obligations.ErrorsLinksAndPower : Prop :=
  (∀ (s : State) (key : Nat) (site : ErrorSite) (l : LinkId),
    (∃ t, exec (.uncorrectableError key) s = .next t ∧ (nget {} t.sectors (key / 32)).poison = true ∧
      SameMemory s t ∧ (isHbm key = true → key / 65536 ∈ t.fmc.retiredFrames)) ∧
    exec (.correctableError site) s = .next s ∧ exec (.linkParityError l) s = .next s) ∧
  (∀ (s : State) (p : Partition) (differs : Bool),
    (s.partOf p = .runs → ∃ t, exec (.partitionFreeze p) s = .next t ∧ t.partOf p = .freezing ∧ SameMemory s t) ∧
    (s.partOf p = .freezing → ∃ t, exec (.partitionClockGate p) s = .next t ∧ t.partOf p = .gated ∧ SameMemory s t) ∧
    (s.partOf p = .gated → ∃ t, exec (.partitionRecovery p differs) s = .next t ∧ t.partOf p = .runs) ∧
    (s.partOf p ≠ .gated → exec (.partitionRecovery p differs) s = .next s)) ∧
  (∀ (s : State) (c n : Nat), n < 24 →
    let x : Cluster := { nget {} s.clusters c with bad := (nget {} s.clusters c).bad ++ [s.physTile (c * 24 + n)] }
    (∀ r, s.regionAt (c * 24 + n) = some r → nget? s.regions r.id = some r → r.state = .running → r.abort = none →
      ∃ t q, exec (.tileSparing c n) s = .next t ∧ nget? t.regions r.id = some q ∧ q.state = .draining) ∧
    (s.regionAt (c * 24 + n) = none →
      (∀ q rest, x.spares = q :: rest →
        ∃ t, exec (.tileSparing c n) s = .next t ∧ t.physTile (c * 24 + n) = q ∧ s.physTile (c * 24 + n) ∈ (nget {} t.clusters c).bad ∧
          t.tileAt (c * 24 + n) = {} ∧
          ∀ a, within (scratchRange (c * 24 + n)) a = true → memGet t.mem a = Config.unwrittenByte) ∧
      (x.spares = [] →
        ∃ t, exec (.tileSparing c n) s = .next t ∧ n ∈ (nget {} t.clusters c).missing ∧ SameMemory s t))) ∧
  (∀ (s : State) (router port srcPort module : Nat) (dir : BitVec 2) (l : Landing) (ws : List Word) (addr : Word)
      (data : List Byte),
    let c := nget {} s.clusters router
    let u := s.uaport port
    (meshLink router dir = true →
      ∃ t, exec (.meshLaneFailure router dir) s = .next t ∧ SameMemory s t ∧
        (nget 0 c.spareLanes dir.toNat < 2 →
          nget 0 (nget {} t.clusters router).spareLanes dir.toNat = nget 0 c.spareLanes dir.toNat + 1) ∧
        (2 ≤ nget 0 c.spareLanes dir.toNat → dir.toNat ∈ (nget {} t.clusters router).halfWidth)) ∧
    (meshLink router dir = false → exec (.meshLaneFailure router dir) s = .next s) ∧
    (u.up = false → exec (.ualinkLaneFailure port) s = .next s) ∧
    (u.up = true → 1 < u.lanes →
      ∃ t, exec (.ualinkLaneFailure port) s = .next t ∧ (t.uaport port).lanes = u.lanes / 2 ∧ (t.uaport port).up = true) ∧
    (u.up = true → u.lanes ≤ 1 →
      ∃ t, exec (.ualinkLaneFailure port) s = .next t ∧ (t.uaport port).up = false ∧ SameMemory s t) ∧
    (u.up = true → uaSize (8 * ws.length) 0 = false →
      ∃ t, exec (.landingRecord port srcPort ws) s = .next t ∧ (t.uaport port).errors = u.errors + 1 ∧
        (t.uaport port).mesh = u.mesh ∧ SameMemory s t) ∧
    (u.up = true → uaSize (8 * ws.length) 0 = true → landings srcPort 16 ws = [l] → u.early = [] →
      l.seq = nget 0 u.nextSeq l.key →
      ∃ t, exec (.landingRecord port srcPort ws) s = .next t ∧ t.deepIdle = false ∧ (t.uaport port).returned = u.returned + 1 ∧
        nget 0 (t.uaport port).nextSeq l.key = nget 0 u.nextSeq l.key + 1 ∧
        (l.dmod = s.module → l.dclus < 48 → (t.uaport port).mesh = u.mesh ++ [(l.key, l.words)]) ∧
        (l.dmod ≠ s.module ∨ 48 ≤ l.dclus → (t.uaport port).mesh = u.mesh ∧ (t.uaport port).dropped = u.dropped + 1)) ∧
    (∃ t, exec (.creditReturn port) s = .next t ∧ SameMemory s t ∧
      (u.outbox = [] →
        (t.uaport port).credits = min 4096 (u.credits + 1) ∧ (t.uaport port).sent = u.sent.drop 1) ∧
      (∀ w rest, u.outbox = w :: rest →
        ({ u with sent := u.sent.drop 1, credits := min 4096 (u.credits + 1) } : UaPort).maySend w = true →
        (t.uaport port).outbox = rest ∧ (t.uaport port).sent = u.sent.drop 1 ++ [w] ∧
          (t.uaport port).credits + 1 = min 4096 (u.credits + 1)) ∧
      ∀ k m v, u.mesh = [(k, m)] → k % 4 = 3 →
        let h := (lget 0 m 0).toNat
        bitsOf h 46 42 < 24 → s.landPacket (bitsOf h 52 47 * 24 + bitsOf h 46 42) m = some v →
        (t.uaport port).mesh = [] ∧ t.tiles = v.tiles) ∧
    (∃ t, exec (.ualinkAtomicReceived port addr) s = .next t ∧ (t.uaport port).errors = u.errors + 1 ∧ SameMemory s t) ∧
    (∀ trained found, ∃ t, exec (.topologyDiscovery trained found) s = .next t ∧ t.fmc.discovered = s.fmc.running ∧
      (∀ q, q < 24 → (t.uaport q).up = trained.contains q ∧
        (trained.contains q = true → (t.uaport q).found = s.peersIn found q)) ∧ SameMemory s t) ∧
    ((∀ m base size, s.fmc.safeTier = some (m, base, size) →
        m ≠ module ∨ addr.toNat < 2 ^ 32 ∨ size < addr.toNat - 2 ^ 32 + data.length ∨ uaSize data.length addr.toNat = false) →
      ∀ w, ∃ t, exec (.safeTierAccess port module addr w data) s = .next t ∧ (t.uaport port).errors = u.errors + 1 ∧
        SameMemory s t) ∧
    ∀ base size, s.fmc.safeTier = some (module, base, size) → 2 ^ 32 ≤ addr.toNat →
      addr.toNat - 2 ^ 32 + data.length ≤ min size hbmEnd → uaSize data.length addr.toNat = true →
      (∃ t, exec (.safeTierAccess port module addr false data) s = .next t ∧
        (t.uaport port).response = memBytes s.mem (base + (addr.toNat - 2 ^ 32)) data.length ∧ SameMemory s t) ∧
      (s.regions = [] → s.fmc.queues = [] →
        ∃ t, exec (.safeTierAccess port module addr true data) s = .next t ∧
          memBytes t.mem (base + (addr.toNat - 2 ^ 32)) data.length = data ∧
          SameMemoryBut (base + (addr.toNat - 2 ^ 32)) data.length s t)) ∧
  (∀ (s : State) (p : HostPort),
    (∃ t, exec .powerOnReset s = .next t ∧ t.own.key = s.own.key ∧ t.own.transfers = s.own.transfers ∧ t.own.state = .unowned ∧
      t.own.booted = false ∧ t.own.bootWindow = true ∧ t.fuses = s.fuses ∧ (∀ a, memGet t.mem a = Config.unwrittenByte) ∧
      t.regions = [] ∧ t.ctxs = [] ∧
      nget 0 t.own.mrs 0 = mrOf (Sha.digest (mrBytes 0 ++ mrBytes Config.romDigest)) ∧ ∀ i, i ≠ 0 → nget 0 t.own.mrs i = 0) ∧
    (∃ t, exec .powerLoss s = .next t ∧ t.own.key = s.own.key ∧ t.own.transfers = s.own.transfers ∧ t.own.state = .unowned ∧
      t.own.booted = false ∧ (∀ a, memGet t.mem a = Config.unwrittenByte) ∧ t.regions = [] ∧ t.ctxs = []) ∧
    (∃ t, exec (.pcieLinkReset p) s = .next t ∧ t.own.offer p = none ∧
      t.own.fmcStat p = (if (s.own.fmcStat p).busy then {} else s.own.fmcStat p) ∧
      t.own.usStat p = (if (s.own.usStat p).busy then {} else s.own.usStat p) ∧ (∀ u ∈ t.fmc.unmaps, u.port ≠ some p) ∧
      (∀ d ∈ t.fmc.drains, d.port ≠ some p) ∧ (∀ h ∈ t.fmc.held, h.1 ≠ p) ∧ t.fmc.ckptPort ≠ some p ∧
      (if p then t.own.link1 else t.own.link0) = false ∧ t.own.state = s.own.state ∧ t.own.offer (!p) = s.own.offer (!p) ∧
      t.own.fmcStat (!p) = s.own.fmcStat (!p) ∧ t.ctxs = s.ctxs ∧ SameMemory s t) ∧
    ∃ t, exec (.pcieLinkTraining p) s = .next t ∧ (if p then t.own.link1 else t.own.link0) = true ∧ t.own.state = s.own.state ∧
      SameMemory s t) ∧
  ∀ (s : State) (n : Nat),
    let tol := s.fmc.ltol.toNat
    let lost (t : State) (q : Nat) : Prop := t.tileAt q = { part := (s.tileAt q).part } ∧
      ∀ a, within (scratchRange q) a = true → memGet t.mem a = Config.unwrittenByte
    (1 ≤ tol → s.tileQuiet n = true → ¬(20 ≤ tol ∧ s.islandQuiet (s.islandOf n) = true) →
      ¬(100 ≤ tol ∧ s.clusterQuiet (n / 24) = true) →
      ∃ t, exec (.powerStateEntry (.tile n)) s = .next t ∧ (t.tileAt n).clockGated = true ∧ SameMemory s t ∧ t.ctxs = s.ctxs) ∧
    (tol < 1 ∨ s.tileQuiet n = false ∨ (20 ≤ tol ∧ s.islandQuiet (s.islandOf n) = true) ∨
        (100 ≤ tol ∧ s.clusterQuiet (n / 24) = true) →
      exec (.powerStateEntry (.tile n)) s = .next s) ∧
    (100 ≤ tol → s.clusterQuiet n = true → (nget {} s.clusters n).retention = false →
      ∃ t, exec (.powerStateEntry (.cluster n)) s = .next t ∧ (nget {} t.clusters n).retention = true ∧
        (∀ q ∈ clusterTiles n, lost t q) ∧
        ∀ a, (∀ q ∈ clusterTiles n, within (scratchRange q) a = false) → memGet t.mem a = memGet s.mem a) ∧
    (2000 ≤ tol → (∀ q ∈ s.regions, q.2.words.run = true → q.2.state ≠ .running ∧ q.2.state ≠ .loading) →
      ∃ t, exec (.powerStateEntry .hbm) s = .next t ∧ t.selfRefresh = true ∧ SameMemory s t) ∧
    (20 ≤ tol → s.islandQuiet n = true → n ∉ s.gatedIslands → ¬(100 ≤ tol ∧ s.clusterQuiet (n / 10) = true) →
      ∃ t, exec (.powerStateEntry (.island n)) s = .next t ∧ n ∈ t.gatedIslands ∧ ∀ q ∈ s.islandTiles n, lost t q) ∧
    (50000 ≤ tol → s.selfRefresh = true → s.untaken = false → s.deepIdle = false →
      ∃ t, exec (.powerStateEntry .deepIdle) s = .next t ∧ t.deepIdle = true ∧
        ∀ a, isHbm a = true → memGet t.mem a = memGet s.mem a) ∧
    (∃ t, exec (.powerStateExit .deepIdle) s = .next t ∧ t.deepIdle = false ∧ t.selfRefresh = s.selfRefresh ∧ SameMemory s t) ∧
    (∃ t, exec (.powerStateExit (.tile n)) s = .next t ∧ (t.tileAt n).clockGated = false ∧ SameMemory s t) ∧
    (∃ t, exec (.powerStateExit (.island n)) s = .next t ∧ n ∉ t.gatedIslands ∧ SameMemory s t) ∧
    (∃ t, exec (.powerStateExit (.cluster n)) s = .next t ∧ (nget {} t.clusters n).retention = false ∧ SameMemory s t) ∧
    (∃ t, exec (.powerStateExit .hbm) s = .next t ∧ t.selfRefresh = false ∧ t.deepIdle = false ∧ SameMemory s t) ∧
    ∃ t, exec (.droopDetect n) s = .next t ∧ nget 0 t.islands n = 8 ∧ t.ctxs = s.ctxs ∧ t.tiles = s.tiles ∧ SameMemory s t
end

