-- ==== Sys2Proof/Laws/Maps.lean ====
section
/-! SUPPORT. What reading a map gives after a write or an erasure, and that both keep the keys rising. -/

namespace Sys2Proof.Machine

variable {α : Type}

/-- Reading with a default is reading, or the default. -/
theorem nget_eq (d : α) (m : NMap α) (k : Nat) : nget d m k = (nget? m k).getD d := by
  induction m with
  | nil => rfl
  | cons p t ih => by_cases h : p.1 = k <;> simp [nget, nget?, h, ih]

/-- A written key reads as the value written. -/
@[simp] theorem nget?_nset_self (m : NMap α) (k : Nat) (v : α) : nget? (nset m k v) k = some v := by
  induction m with
  | nil => simp [nset, nget?]
  | cons p t ih =>
    simp only [nset]
    split
    · simp [nget?]
    · split
      · simp [nget?]
      · rename_i h; simp [nget?, h, ih]

/-- A write leaves every other key alone. -/
theorem nget?_nset_ne (m : NMap α) {j k : Nat} (h : j ≠ k) (v : α) : nget? (nset m j v) k = nget? m k := by
  induction m with
  | nil => simp [nset, nget?, h]
  | cons p t ih =>
    simp only [nset]
    split
    · simp [nget?, h]
    · split
      · rename_i hp; simp [nget?, h, hp]
      · simp [nget?, ih]

/-- A written key reads as the value written, with a default. -/
@[simp] theorem nget_nset_self (d : α) (m : NMap α) (k : Nat) (v : α) : nget d (nset m k v) k = v := by
  simp [nget_eq]

/-- A write leaves every other key alone, with a default. -/
theorem nget_nset_ne (d : α) (m : NMap α) {j k : Nat} (h : j ≠ k) (v : α) : nget d (nset m j v) k = nget d m k := by
  simp [nget_eq, nget?_nset_ne m h]

/-- Reading after a write, by cases on the key. -/
theorem nget_nset (d : α) (m : NMap α) (j k : Nat) (v : α) :
    nget d (nset m j v) k = if j = k then v else nget d m k := by
  split
  · subst_vars; simp
  · exact nget_nset_ne d m ‹_› v

/-- An erased key is not listed. -/
@[simp] theorem nget?_nerase_self (m : NMap α) (k : Nat) : nget? (nerase m k) k = none := by
  induction m with
  | nil => rfl
  | cons p t ih => by_cases h : p.1 = k <;> simp [nerase, nget?, h, ih]

/-- An erasure leaves every other key alone. -/
theorem nget?_nerase_ne (m : NMap α) {j k : Nat} (h : j ≠ k) : nget? (nerase m j) k = nget? m k := by
  induction m with
  | nil => rfl
  | cons p t ih =>
    by_cases hp : p.1 = j
    · have : p.1 ≠ k := fun e => h (hp.symm.trans e)
      simp [nerase, nget?, hp, ih, h]
    · simp [nerase, nget?, hp, ih]

/-- An erased key reads as the default. -/
@[simp] theorem nget_nerase_self (d : α) (m : NMap α) (k : Nat) : nget d (nerase m k) k = d := by simp [nget_eq]

/-- An erasure leaves every other key alone, with a default. -/
theorem nget_nerase_ne (d : α) (m : NMap α) {j k : Nat} (h : j ≠ k) : nget d (nerase m j) k = nget d m k := by
  simp [nget_eq, nget?_nerase_ne m h]

/-- A rising map, as its head below every later key. -/
theorem nsorted_cons (p : Nat × α) (t : NMap α) :
    nsorted (p :: t) = true ↔ (∀ q ∈ t, p.1 < q.1) ∧ nsorted t = true := by
  induction t generalizing p with
  | nil => simp [nsorted]
  | cons q t ih =>
    rw [show nsorted (p :: q :: t) = (decide (p.1 < q.1) && nsorted (q :: t)) from rfl]
    simp only [Bool.and_eq_true, decide_eq_true_eq, List.mem_cons, forall_eq_or_imp]
    constructor
    · rintro ⟨h, hs⟩
      exact ⟨⟨h, fun r hr => Nat.lt_trans h (((ih q).1 hs).1 r hr)⟩, hs⟩
    · rintro ⟨⟨h, -⟩, hs⟩
      exact ⟨h, hs⟩

/-- The entries after a write: the new one, or old ones. -/
theorem mem_nset {m : NMap α} {k : Nat} {v : α} {q : Nat × α} (h : q ∈ nset m k v) : q = (k, v) ∨ q ∈ m := by
  induction m with
  | nil => exact .inl (by simpa [nset] using h)
  | cons p t ih =>
    simp only [nset] at h
    split at h
    · exact (List.mem_cons.1 h).imp_right id
    · split at h
      · exact (List.mem_cons.1 h).imp_right (List.mem_cons_of_mem _)
      · rcases List.mem_cons.1 h with rfl | h
        · exact .inr (List.mem_cons_self ..)
        · exact (ih h).imp_right (List.mem_cons_of_mem _)

/-- The entries after an erasure are old ones. -/
theorem mem_nerase {m : NMap α} {k : Nat} {q : Nat × α} (h : q ∈ nerase m k) : q ∈ m := by
  induction m with
  | nil => exact h
  | cons p t ih =>
    simp only [nerase] at h
    split at h
    · exact List.mem_cons_of_mem _ (ih h)
    · rcases List.mem_cons.1 h with rfl | h
      · exact List.mem_cons_self ..
      · exact List.mem_cons_of_mem _ (ih h)

/-- A listed key's entry is in the map. -/
theorem mem_of_nget? {m : NMap α} {k : Nat} {v : α} (h : nget? m k = some v) : (k, v) ∈ m := by
  induction m with
  | nil => simp [nget?] at h
  | cons p t ih =>
    obtain ⟨j, w⟩ := p
    simp only [nget?] at h
    split at h
    · cases h; subst_vars; exact List.mem_cons_self ..
    · exact List.mem_cons_of_mem _ (ih h)

/-- A write keeps the keys rising. -/
theorem nsorted_nset {m : NMap α} (h : nsorted m = true) (k : Nat) (v : α) : nsorted (nset m k v) = true := by
  induction m with
  | nil => rfl
  | cons p t ih =>
    have hp := (nsorted_cons p t).1 h
    simp only [nset]
    split
    · refine (nsorted_cons _ _).2 ⟨fun q hq => ?_, h⟩
      rcases List.mem_cons.1 hq with rfl | hq
      · assumption
      · exact Nat.lt_trans ‹k < p.1› (hp.1 q hq)
    · split
      · rename_i e
        exact (nsorted_cons _ _).2 ⟨fun q hq => e ▸ hp.1 q hq, hp.2⟩
      · refine (nsorted_cons _ _).2 ⟨fun q hq => ?_, ih hp.2⟩
        rcases mem_nset hq with rfl | hq
        · show p.1 < k
          omega
        · exact hp.1 q hq

/-- An erasure keeps the keys rising. -/
theorem nsorted_nerase {m : NMap α} (h : nsorted m = true) (k : Nat) : nsorted (nerase m k) = true := by
  induction m with
  | nil => rfl
  | cons p t ih =>
    have hp := (nsorted_cons p t).1 h
    simp only [nerase]
    split
    · exact ih hp.2
    · exact (nsorted_cons _ _).2 ⟨fun q hq => hp.1 q (mem_nerase hq), ih hp.2⟩

/-- Reading a map whose every value has been changed. -/
theorem nget_map {β : Type} (d : α) (f : α → β) (m : NMap α) (k : Nat) :
    nget (f d) (m.map fun p => (p.1, f p.2)) k = f (nget d m k) := by
  induction m with
  | nil => rfl
  | cons p t ih => by_cases h : p.1 = k <;> simp [nget, h, ih]

/-- A rising map less some entries is rising. -/
theorem nsorted_filter {m : NMap α} (h : nsorted m = true) (p : Nat × α → Bool) : nsorted (m.filter p) = true := by
  induction m with
  | nil => rfl
  | cons q t ih =>
    have hq := (nsorted_cons q t).1 h
    rw [List.filter_cons]
    split
    · exact (nsorted_cons _ _).2 ⟨fun r hr => hq.1 r (List.mem_filter.1 hr).1, ih hq.2⟩
    · exact ih hq.2

/-- Reading a map less the keys that a test refuses. -/
theorem nget_filter_key (d : α) (m : NMap α) (p : Nat → Bool) (k : Nat) :
    nget d (m.filter fun q => p q.1) k = if p k then nget d m k else d := by
  induction m with
  | nil => simp [nget]
  | cons q t ih =>
    obtain ⟨j, w⟩ := q
    rw [List.filter_cons]
    by_cases hj : j = k
    · subst hj
      cases hp : p j <;> simp [nget, ih, hp]
    · cases hp : p j <;> simp [nget, ih, hj]

/-- A change of a key keeps the keys rising. -/
theorem nsorted_nmod {m : NMap α} (h : nsorted m = true) (d : α) (k : Nat) (f : α → α) :
    nsorted (nmod d m k f) = true := nsorted_nset h k _

end Sys2Proof.Machine
end

