-- ==== Sys2Proof/Laws/State.lean ====
section
/-! SUPPORT. What each field of the state holds after each of the model's writers of it: one lemma per field per writer, and
what the readers of contexts, tiles, engines and regions see. -/

namespace Sys2Proof.Machine

open Sys2Proof

variable (s : State)

/-! ### `State.setCtxOf` -/

@[simp] theorem State.setCtxOf_ticks (k : Nat) (c : Context) : (s.setCtxOf k c).ticks = s.ticks := rfl
@[simp] theorem State.setCtxOf_agenda (k : Nat) (c : Context) : (s.setCtxOf k c).agenda = s.agenda := rfl
@[simp] theorem State.setCtxOf_choices (k : Nat) (c : Context) : (s.setCtxOf k c).choices = s.choices := rfl
@[simp] theorem State.setCtxOf_tile (k : Nat) (c : Context) : (s.setCtxOf k c).tile = s.tile := rfl
@[simp] theorem State.setCtxOf_slot (k : Nat) (c : Context) : (s.setCtxOf k c).slot = s.slot := rfl
@[simp] theorem State.setCtxOf_mem (k : Nat) (c : Context) : (s.setCtxOf k c).mem = s.mem := rfl
@[simp] theorem State.setCtxOf_sectors (k : Nat) (c : Context) : (s.setCtxOf k c).sectors = s.sectors := rfl
@[simp] theorem State.setCtxOf_rels (k : Nat) (c : Context) : (s.setCtxOf k c).rels = s.rels := rfl
@[simp] theorem State.setCtxOf_scFence (k : Nat) (c : Context) : (s.setCtxOf k c).scFence = s.scFence := rfl
@[simp] theorem State.setCtxOf_nextAgent (k : Nat) (c : Context) : (s.setCtxOf k c).nextAgent = s.nextAgent := rfl
@[simp] theorem State.setCtxOf_tiles (k : Nat) (c : Context) : (s.setCtxOf k c).tiles = s.tiles := rfl
@[simp] theorem State.setCtxOf_clusters (k : Nat) (c : Context) : (s.setCtxOf k c).clusters = s.clusters := rfl
@[simp] theorem State.setCtxOf_roster (k : Nat) (c : Context) : (s.setCtxOf k c).roster = s.roster := rfl
@[simp] theorem State.setCtxOf_wake (k : Nat) (c : Context) : (s.setCtxOf k c).wake = s.wake := rfl
@[simp] theorem State.setCtxOf_regions (k : Nat) (c : Context) : (s.setCtxOf k c).regions = s.regions := rfl
@[simp] theorem State.setCtxOf_spaces (k : Nat) (c : Context) : (s.setCtxOf k c).spaces = s.spaces := rfl
@[simp] theorem State.setCtxOf_images (k : Nat) (c : Context) : (s.setCtxOf k c).images = s.images := rfl
@[simp] theorem State.setCtxOf_fwText (k : Nat) (c : Context) : (s.setCtxOf k c).fwText = s.fwText := rfl
@[simp] theorem State.setCtxOf_module (k : Nat) (c : Context) : (s.setCtxOf k c).module = s.module := rfl
@[simp] theorem State.setCtxOf_fmc (k : Nat) (c : Context) : (s.setCtxOf k c).fmc = s.fmc := rfl
@[simp] theorem State.setCtxOf_own (k : Nat) (c : Context) : (s.setCtxOf k c).own = s.own := rfl
@[simp] theorem State.setCtxOf_rounds (k : Nat) (c : Context) : (s.setCtxOf k c).rounds = s.rounds := rfl
@[simp] theorem State.setCtxOf_joins (k : Nat) (c : Context) : (s.setCtxOf k c).joins = s.joins := rfl
@[simp] theorem State.setCtxOf_xrds (k : Nat) (c : Context) : (s.setCtxOf k c).xrds = s.xrds := rfl
@[simp] theorem State.setCtxOf_uaports (k : Nat) (c : Context) : (s.setCtxOf k c).uaports = s.uaports := rfl
@[simp] theorem State.setCtxOf_hbmPart (k : Nat) (c : Context) : (s.setCtxOf k c).hbmPart = s.hbmPart := rfl
@[simp] theorem State.setCtxOf_islands (k : Nat) (c : Context) : (s.setCtxOf k c).islands = s.islands := rfl
@[simp] theorem State.setCtxOf_gatedIslands (k : Nat) (c : Context) : (s.setCtxOf k c).gatedIslands = s.gatedIslands := rfl
@[simp] theorem State.setCtxOf_selfRefresh (k : Nat) (c : Context) : (s.setCtxOf k c).selfRefresh = s.selfRefresh := rfl
@[simp] theorem State.setCtxOf_deepIdle (k : Nat) (c : Context) : (s.setCtxOf k c).deepIdle = s.deepIdle := rfl
@[simp] theorem State.setCtxOf_fuses (k : Nat) (c : Context) : (s.setCtxOf k c).fuses = s.fuses := rfl

/-! ### `State.setCtx` -/

@[simp] theorem State.setCtx_ticks (c : Context) : (s.setCtx c).ticks = s.ticks := rfl
@[simp] theorem State.setCtx_agenda (c : Context) : (s.setCtx c).agenda = s.agenda := rfl
@[simp] theorem State.setCtx_choices (c : Context) : (s.setCtx c).choices = s.choices := rfl
@[simp] theorem State.setCtx_tile (c : Context) : (s.setCtx c).tile = s.tile := rfl
@[simp] theorem State.setCtx_slot (c : Context) : (s.setCtx c).slot = s.slot := rfl
@[simp] theorem State.setCtx_mem (c : Context) : (s.setCtx c).mem = s.mem := rfl
@[simp] theorem State.setCtx_sectors (c : Context) : (s.setCtx c).sectors = s.sectors := rfl
@[simp] theorem State.setCtx_rels (c : Context) : (s.setCtx c).rels = s.rels := rfl
@[simp] theorem State.setCtx_scFence (c : Context) : (s.setCtx c).scFence = s.scFence := rfl
@[simp] theorem State.setCtx_nextAgent (c : Context) : (s.setCtx c).nextAgent = s.nextAgent := rfl
@[simp] theorem State.setCtx_tiles (c : Context) : (s.setCtx c).tiles = s.tiles := rfl
@[simp] theorem State.setCtx_clusters (c : Context) : (s.setCtx c).clusters = s.clusters := rfl
@[simp] theorem State.setCtx_roster (c : Context) : (s.setCtx c).roster = s.roster := rfl
@[simp] theorem State.setCtx_wake (c : Context) : (s.setCtx c).wake = s.wake := rfl
@[simp] theorem State.setCtx_regions (c : Context) : (s.setCtx c).regions = s.regions := rfl
@[simp] theorem State.setCtx_spaces (c : Context) : (s.setCtx c).spaces = s.spaces := rfl
@[simp] theorem State.setCtx_images (c : Context) : (s.setCtx c).images = s.images := rfl
@[simp] theorem State.setCtx_fwText (c : Context) : (s.setCtx c).fwText = s.fwText := rfl
@[simp] theorem State.setCtx_module (c : Context) : (s.setCtx c).module = s.module := rfl
@[simp] theorem State.setCtx_fmc (c : Context) : (s.setCtx c).fmc = s.fmc := rfl
@[simp] theorem State.setCtx_own (c : Context) : (s.setCtx c).own = s.own := rfl
@[simp] theorem State.setCtx_rounds (c : Context) : (s.setCtx c).rounds = s.rounds := rfl
@[simp] theorem State.setCtx_joins (c : Context) : (s.setCtx c).joins = s.joins := rfl
@[simp] theorem State.setCtx_xrds (c : Context) : (s.setCtx c).xrds = s.xrds := rfl
@[simp] theorem State.setCtx_uaports (c : Context) : (s.setCtx c).uaports = s.uaports := rfl
@[simp] theorem State.setCtx_hbmPart (c : Context) : (s.setCtx c).hbmPart = s.hbmPart := rfl
@[simp] theorem State.setCtx_islands (c : Context) : (s.setCtx c).islands = s.islands := rfl
@[simp] theorem State.setCtx_gatedIslands (c : Context) : (s.setCtx c).gatedIslands = s.gatedIslands := rfl
@[simp] theorem State.setCtx_selfRefresh (c : Context) : (s.setCtx c).selfRefresh = s.selfRefresh := rfl
@[simp] theorem State.setCtx_deepIdle (c : Context) : (s.setCtx c).deepIdle = s.deepIdle := rfl
@[simp] theorem State.setCtx_fuses (c : Context) : (s.setCtx c).fuses = s.fuses := rfl

/-! ### `State.setTile` -/

@[simp] theorem State.setTile_ticks (t : Nat) (v : Tile) : (s.setTile t v).ticks = s.ticks := rfl
@[simp] theorem State.setTile_agenda (t : Nat) (v : Tile) : (s.setTile t v).agenda = s.agenda := rfl
@[simp] theorem State.setTile_choices (t : Nat) (v : Tile) : (s.setTile t v).choices = s.choices := rfl
@[simp] theorem State.setTile_tile (t : Nat) (v : Tile) : (s.setTile t v).tile = s.tile := rfl
@[simp] theorem State.setTile_slot (t : Nat) (v : Tile) : (s.setTile t v).slot = s.slot := rfl
@[simp] theorem State.setTile_mem (t : Nat) (v : Tile) : (s.setTile t v).mem = s.mem := rfl
@[simp] theorem State.setTile_sectors (t : Nat) (v : Tile) : (s.setTile t v).sectors = s.sectors := rfl
@[simp] theorem State.setTile_rels (t : Nat) (v : Tile) : (s.setTile t v).rels = s.rels := rfl
@[simp] theorem State.setTile_scFence (t : Nat) (v : Tile) : (s.setTile t v).scFence = s.scFence := rfl
@[simp] theorem State.setTile_nextAgent (t : Nat) (v : Tile) : (s.setTile t v).nextAgent = s.nextAgent := rfl
@[simp] theorem State.setTile_ctxs (t : Nat) (v : Tile) : (s.setTile t v).ctxs = s.ctxs := rfl
@[simp] theorem State.setTile_clusters (t : Nat) (v : Tile) : (s.setTile t v).clusters = s.clusters := rfl
@[simp] theorem State.setTile_roster (t : Nat) (v : Tile) : (s.setTile t v).roster = s.roster := rfl
@[simp] theorem State.setTile_wake (t : Nat) (v : Tile) : (s.setTile t v).wake = s.wake := rfl
@[simp] theorem State.setTile_regions (t : Nat) (v : Tile) : (s.setTile t v).regions = s.regions := rfl
@[simp] theorem State.setTile_spaces (t : Nat) (v : Tile) : (s.setTile t v).spaces = s.spaces := rfl
@[simp] theorem State.setTile_images (t : Nat) (v : Tile) : (s.setTile t v).images = s.images := rfl
@[simp] theorem State.setTile_fwText (t : Nat) (v : Tile) : (s.setTile t v).fwText = s.fwText := rfl
@[simp] theorem State.setTile_module (t : Nat) (v : Tile) : (s.setTile t v).module = s.module := rfl
@[simp] theorem State.setTile_fmc (t : Nat) (v : Tile) : (s.setTile t v).fmc = s.fmc := rfl
@[simp] theorem State.setTile_own (t : Nat) (v : Tile) : (s.setTile t v).own = s.own := rfl
@[simp] theorem State.setTile_rounds (t : Nat) (v : Tile) : (s.setTile t v).rounds = s.rounds := rfl
@[simp] theorem State.setTile_joins (t : Nat) (v : Tile) : (s.setTile t v).joins = s.joins := rfl
@[simp] theorem State.setTile_xrds (t : Nat) (v : Tile) : (s.setTile t v).xrds = s.xrds := rfl
@[simp] theorem State.setTile_uaports (t : Nat) (v : Tile) : (s.setTile t v).uaports = s.uaports := rfl
@[simp] theorem State.setTile_hbmPart (t : Nat) (v : Tile) : (s.setTile t v).hbmPart = s.hbmPart := rfl
@[simp] theorem State.setTile_islands (t : Nat) (v : Tile) : (s.setTile t v).islands = s.islands := rfl
@[simp] theorem State.setTile_gatedIslands (t : Nat) (v : Tile) : (s.setTile t v).gatedIslands = s.gatedIslands := rfl
@[simp] theorem State.setTile_selfRefresh (t : Nat) (v : Tile) : (s.setTile t v).selfRefresh = s.selfRefresh := rfl
@[simp] theorem State.setTile_deepIdle (t : Nat) (v : Tile) : (s.setTile t v).deepIdle = s.deepIdle := rfl
@[simp] theorem State.setTile_fuses (t : Nat) (v : Tile) : (s.setTile t v).fuses = s.fuses := rfl

/-! ### `State.setEng` -/

@[simp] theorem State.setEng_ticks (e : Engine) (v : EngineSt) : (s.setEng e v).ticks = s.ticks := rfl
@[simp] theorem State.setEng_agenda (e : Engine) (v : EngineSt) : (s.setEng e v).agenda = s.agenda := rfl
@[simp] theorem State.setEng_choices (e : Engine) (v : EngineSt) : (s.setEng e v).choices = s.choices := rfl
@[simp] theorem State.setEng_tile (e : Engine) (v : EngineSt) : (s.setEng e v).tile = s.tile := rfl
@[simp] theorem State.setEng_slot (e : Engine) (v : EngineSt) : (s.setEng e v).slot = s.slot := rfl
@[simp] theorem State.setEng_mem (e : Engine) (v : EngineSt) : (s.setEng e v).mem = s.mem := rfl
@[simp] theorem State.setEng_sectors (e : Engine) (v : EngineSt) : (s.setEng e v).sectors = s.sectors := rfl
@[simp] theorem State.setEng_rels (e : Engine) (v : EngineSt) : (s.setEng e v).rels = s.rels := rfl
@[simp] theorem State.setEng_scFence (e : Engine) (v : EngineSt) : (s.setEng e v).scFence = s.scFence := rfl
@[simp] theorem State.setEng_nextAgent (e : Engine) (v : EngineSt) : (s.setEng e v).nextAgent = s.nextAgent := rfl
@[simp] theorem State.setEng_ctxs (e : Engine) (v : EngineSt) : (s.setEng e v).ctxs = s.ctxs := rfl
@[simp] theorem State.setEng_clusters (e : Engine) (v : EngineSt) : (s.setEng e v).clusters = s.clusters := rfl
@[simp] theorem State.setEng_roster (e : Engine) (v : EngineSt) : (s.setEng e v).roster = s.roster := rfl
@[simp] theorem State.setEng_wake (e : Engine) (v : EngineSt) : (s.setEng e v).wake = s.wake := rfl
@[simp] theorem State.setEng_regions (e : Engine) (v : EngineSt) : (s.setEng e v).regions = s.regions := rfl
@[simp] theorem State.setEng_spaces (e : Engine) (v : EngineSt) : (s.setEng e v).spaces = s.spaces := rfl
@[simp] theorem State.setEng_images (e : Engine) (v : EngineSt) : (s.setEng e v).images = s.images := rfl
@[simp] theorem State.setEng_fwText (e : Engine) (v : EngineSt) : (s.setEng e v).fwText = s.fwText := rfl
@[simp] theorem State.setEng_module (e : Engine) (v : EngineSt) : (s.setEng e v).module = s.module := rfl
@[simp] theorem State.setEng_fmc (e : Engine) (v : EngineSt) : (s.setEng e v).fmc = s.fmc := rfl
@[simp] theorem State.setEng_own (e : Engine) (v : EngineSt) : (s.setEng e v).own = s.own := rfl
@[simp] theorem State.setEng_rounds (e : Engine) (v : EngineSt) : (s.setEng e v).rounds = s.rounds := rfl
@[simp] theorem State.setEng_joins (e : Engine) (v : EngineSt) : (s.setEng e v).joins = s.joins := rfl
@[simp] theorem State.setEng_xrds (e : Engine) (v : EngineSt) : (s.setEng e v).xrds = s.xrds := rfl
@[simp] theorem State.setEng_uaports (e : Engine) (v : EngineSt) : (s.setEng e v).uaports = s.uaports := rfl
@[simp] theorem State.setEng_hbmPart (e : Engine) (v : EngineSt) : (s.setEng e v).hbmPart = s.hbmPart := rfl
@[simp] theorem State.setEng_islands (e : Engine) (v : EngineSt) : (s.setEng e v).islands = s.islands := rfl
@[simp] theorem State.setEng_gatedIslands (e : Engine) (v : EngineSt) : (s.setEng e v).gatedIslands = s.gatedIslands := rfl
@[simp] theorem State.setEng_selfRefresh (e : Engine) (v : EngineSt) : (s.setEng e v).selfRefresh = s.selfRefresh := rfl
@[simp] theorem State.setEng_deepIdle (e : Engine) (v : EngineSt) : (s.setEng e v).deepIdle = s.deepIdle := rfl
@[simp] theorem State.setEng_fuses (e : Engine) (v : EngineSt) : (s.setEng e v).fuses = s.fuses := rfl

/-! ### `State.setRegion` -/

@[simp] theorem State.setRegion_ticks (r : Region) : (s.setRegion r).ticks = s.ticks := rfl
@[simp] theorem State.setRegion_agenda (r : Region) : (s.setRegion r).agenda = s.agenda := rfl
@[simp] theorem State.setRegion_choices (r : Region) : (s.setRegion r).choices = s.choices := rfl
@[simp] theorem State.setRegion_tile (r : Region) : (s.setRegion r).tile = s.tile := rfl
@[simp] theorem State.setRegion_slot (r : Region) : (s.setRegion r).slot = s.slot := rfl
@[simp] theorem State.setRegion_mem (r : Region) : (s.setRegion r).mem = s.mem := rfl
@[simp] theorem State.setRegion_sectors (r : Region) : (s.setRegion r).sectors = s.sectors := rfl
@[simp] theorem State.setRegion_rels (r : Region) : (s.setRegion r).rels = s.rels := rfl
@[simp] theorem State.setRegion_scFence (r : Region) : (s.setRegion r).scFence = s.scFence := rfl
@[simp] theorem State.setRegion_nextAgent (r : Region) : (s.setRegion r).nextAgent = s.nextAgent := rfl
@[simp] theorem State.setRegion_ctxs (r : Region) : (s.setRegion r).ctxs = s.ctxs := rfl
@[simp] theorem State.setRegion_tiles (r : Region) : (s.setRegion r).tiles = s.tiles := rfl
@[simp] theorem State.setRegion_clusters (r : Region) : (s.setRegion r).clusters = s.clusters := rfl
@[simp] theorem State.setRegion_roster (r : Region) : (s.setRegion r).roster = s.roster := rfl
@[simp] theorem State.setRegion_wake (r : Region) : (s.setRegion r).wake = s.wake := rfl
@[simp] theorem State.setRegion_spaces (r : Region) : (s.setRegion r).spaces = s.spaces := rfl
@[simp] theorem State.setRegion_images (r : Region) : (s.setRegion r).images = s.images := rfl
@[simp] theorem State.setRegion_fwText (r : Region) : (s.setRegion r).fwText = s.fwText := rfl
@[simp] theorem State.setRegion_module (r : Region) : (s.setRegion r).module = s.module := rfl
@[simp] theorem State.setRegion_fmc (r : Region) : (s.setRegion r).fmc = s.fmc := rfl
@[simp] theorem State.setRegion_own (r : Region) : (s.setRegion r).own = s.own := rfl
@[simp] theorem State.setRegion_rounds (r : Region) : (s.setRegion r).rounds = s.rounds := rfl
@[simp] theorem State.setRegion_joins (r : Region) : (s.setRegion r).joins = s.joins := rfl
@[simp] theorem State.setRegion_xrds (r : Region) : (s.setRegion r).xrds = s.xrds := rfl
@[simp] theorem State.setRegion_uaports (r : Region) : (s.setRegion r).uaports = s.uaports := rfl
@[simp] theorem State.setRegion_hbmPart (r : Region) : (s.setRegion r).hbmPart = s.hbmPart := rfl
@[simp] theorem State.setRegion_islands (r : Region) : (s.setRegion r).islands = s.islands := rfl
@[simp] theorem State.setRegion_gatedIslands (r : Region) : (s.setRegion r).gatedIslands = s.gatedIslands := rfl
@[simp] theorem State.setRegion_selfRefresh (r : Region) : (s.setRegion r).selfRefresh = s.selfRefresh := rfl
@[simp] theorem State.setRegion_deepIdle (r : Region) : (s.setRegion r).deepIdle = s.deepIdle := rfl
@[simp] theorem State.setRegion_fuses (r : Region) : (s.setRegion r).fuses = s.fuses := rfl

/-! ### `State.done` -/

@[simp] theorem State.done_ticks : (s.done).ticks = s.ticks := rfl
@[simp] theorem State.done_agenda : (s.done).agenda = s.agenda := rfl
@[simp] theorem State.done_choices : (s.done).choices = s.choices := rfl
@[simp] theorem State.done_tile : (s.done).tile = s.tile := rfl
@[simp] theorem State.done_slot : (s.done).slot = s.slot := rfl
@[simp] theorem State.done_mem : (s.done).mem = s.mem := rfl
@[simp] theorem State.done_sectors : (s.done).sectors = s.sectors := rfl
@[simp] theorem State.done_rels : (s.done).rels = s.rels := rfl
@[simp] theorem State.done_scFence : (s.done).scFence = s.scFence := rfl
@[simp] theorem State.done_nextAgent : (s.done).nextAgent = s.nextAgent := rfl
@[simp] theorem State.done_tiles : (s.done).tiles = s.tiles := rfl
@[simp] theorem State.done_clusters : (s.done).clusters = s.clusters := rfl
@[simp] theorem State.done_roster : (s.done).roster = s.roster := rfl
@[simp] theorem State.done_wake : (s.done).wake = s.wake := rfl
@[simp] theorem State.done_regions : (s.done).regions = s.regions := rfl
@[simp] theorem State.done_spaces : (s.done).spaces = s.spaces := rfl
@[simp] theorem State.done_images : (s.done).images = s.images := rfl
@[simp] theorem State.done_fwText : (s.done).fwText = s.fwText := rfl
@[simp] theorem State.done_module : (s.done).module = s.module := rfl
@[simp] theorem State.done_fmc : (s.done).fmc = s.fmc := rfl
@[simp] theorem State.done_own : (s.done).own = s.own := rfl
@[simp] theorem State.done_rounds : (s.done).rounds = s.rounds := rfl
@[simp] theorem State.done_joins : (s.done).joins = s.joins := rfl
@[simp] theorem State.done_xrds : (s.done).xrds = s.xrds := rfl
@[simp] theorem State.done_uaports : (s.done).uaports = s.uaports := rfl
@[simp] theorem State.done_hbmPart : (s.done).hbmPart = s.hbmPart := rfl
@[simp] theorem State.done_islands : (s.done).islands = s.islands := rfl
@[simp] theorem State.done_gatedIslands : (s.done).gatedIslands = s.gatedIslands := rfl
@[simp] theorem State.done_selfRefresh : (s.done).selfRefresh = s.selfRefresh := rfl
@[simp] theorem State.done_deepIdle : (s.done).deepIdle = s.deepIdle := rfl
@[simp] theorem State.done_fuses : (s.done).fuses = s.fuses := rfl

/-! ### `State.finish` -/

@[simp] theorem State.finish_ticks (rd : Reg) (v : Word) : (s.finish rd v).ticks = s.ticks := rfl
@[simp] theorem State.finish_agenda (rd : Reg) (v : Word) : (s.finish rd v).agenda = s.agenda := rfl
@[simp] theorem State.finish_choices (rd : Reg) (v : Word) : (s.finish rd v).choices = s.choices := rfl
@[simp] theorem State.finish_tile (rd : Reg) (v : Word) : (s.finish rd v).tile = s.tile := rfl
@[simp] theorem State.finish_slot (rd : Reg) (v : Word) : (s.finish rd v).slot = s.slot := rfl
@[simp] theorem State.finish_mem (rd : Reg) (v : Word) : (s.finish rd v).mem = s.mem := rfl
@[simp] theorem State.finish_sectors (rd : Reg) (v : Word) : (s.finish rd v).sectors = s.sectors := rfl
@[simp] theorem State.finish_rels (rd : Reg) (v : Word) : (s.finish rd v).rels = s.rels := rfl
@[simp] theorem State.finish_scFence (rd : Reg) (v : Word) : (s.finish rd v).scFence = s.scFence := rfl
@[simp] theorem State.finish_nextAgent (rd : Reg) (v : Word) : (s.finish rd v).nextAgent = s.nextAgent := rfl
@[simp] theorem State.finish_tiles (rd : Reg) (v : Word) : (s.finish rd v).tiles = s.tiles := rfl
@[simp] theorem State.finish_clusters (rd : Reg) (v : Word) : (s.finish rd v).clusters = s.clusters := rfl
@[simp] theorem State.finish_roster (rd : Reg) (v : Word) : (s.finish rd v).roster = s.roster := rfl
@[simp] theorem State.finish_wake (rd : Reg) (v : Word) : (s.finish rd v).wake = s.wake := rfl
@[simp] theorem State.finish_regions (rd : Reg) (v : Word) : (s.finish rd v).regions = s.regions := rfl
@[simp] theorem State.finish_spaces (rd : Reg) (v : Word) : (s.finish rd v).spaces = s.spaces := rfl
@[simp] theorem State.finish_images (rd : Reg) (v : Word) : (s.finish rd v).images = s.images := rfl
@[simp] theorem State.finish_fwText (rd : Reg) (v : Word) : (s.finish rd v).fwText = s.fwText := rfl
@[simp] theorem State.finish_module (rd : Reg) (v : Word) : (s.finish rd v).module = s.module := rfl
@[simp] theorem State.finish_fmc (rd : Reg) (v : Word) : (s.finish rd v).fmc = s.fmc := rfl
@[simp] theorem State.finish_own (rd : Reg) (v : Word) : (s.finish rd v).own = s.own := rfl
@[simp] theorem State.finish_rounds (rd : Reg) (v : Word) : (s.finish rd v).rounds = s.rounds := rfl
@[simp] theorem State.finish_joins (rd : Reg) (v : Word) : (s.finish rd v).joins = s.joins := rfl
@[simp] theorem State.finish_xrds (rd : Reg) (v : Word) : (s.finish rd v).xrds = s.xrds := rfl
@[simp] theorem State.finish_uaports (rd : Reg) (v : Word) : (s.finish rd v).uaports = s.uaports := rfl
@[simp] theorem State.finish_hbmPart (rd : Reg) (v : Word) : (s.finish rd v).hbmPart = s.hbmPart := rfl
@[simp] theorem State.finish_islands (rd : Reg) (v : Word) : (s.finish rd v).islands = s.islands := rfl
@[simp] theorem State.finish_gatedIslands (rd : Reg) (v : Word) : (s.finish rd v).gatedIslands = s.gatedIslands := rfl
@[simp] theorem State.finish_selfRefresh (rd : Reg) (v : Word) : (s.finish rd v).selfRefresh = s.selfRefresh := rfl
@[simp] theorem State.finish_deepIdle (rd : Reg) (v : Word) : (s.finish rd v).deepIdle = s.deepIdle := rfl
@[simp] theorem State.finish_fuses (rd : Reg) (v : Word) : (s.finish rd v).fuses = s.fuses := rfl

/-! ### `State.wait` -/

@[simp] theorem State.wait_ticks (i : Instr) : (s.wait i).ticks = s.ticks := rfl
@[simp] theorem State.wait_agenda (i : Instr) : (s.wait i).agenda = s.agenda := rfl
@[simp] theorem State.wait_choices (i : Instr) : (s.wait i).choices = s.choices := rfl
@[simp] theorem State.wait_tile (i : Instr) : (s.wait i).tile = s.tile := rfl
@[simp] theorem State.wait_slot (i : Instr) : (s.wait i).slot = s.slot := rfl
@[simp] theorem State.wait_mem (i : Instr) : (s.wait i).mem = s.mem := rfl
@[simp] theorem State.wait_sectors (i : Instr) : (s.wait i).sectors = s.sectors := rfl
@[simp] theorem State.wait_rels (i : Instr) : (s.wait i).rels = s.rels := rfl
@[simp] theorem State.wait_scFence (i : Instr) : (s.wait i).scFence = s.scFence := rfl
@[simp] theorem State.wait_nextAgent (i : Instr) : (s.wait i).nextAgent = s.nextAgent := rfl
@[simp] theorem State.wait_tiles (i : Instr) : (s.wait i).tiles = s.tiles := rfl
@[simp] theorem State.wait_clusters (i : Instr) : (s.wait i).clusters = s.clusters := rfl
@[simp] theorem State.wait_roster (i : Instr) : (s.wait i).roster = s.roster := rfl
@[simp] theorem State.wait_wake (i : Instr) : (s.wait i).wake = s.wake := rfl
@[simp] theorem State.wait_regions (i : Instr) : (s.wait i).regions = s.regions := rfl
@[simp] theorem State.wait_spaces (i : Instr) : (s.wait i).spaces = s.spaces := rfl
@[simp] theorem State.wait_images (i : Instr) : (s.wait i).images = s.images := rfl
@[simp] theorem State.wait_fwText (i : Instr) : (s.wait i).fwText = s.fwText := rfl
@[simp] theorem State.wait_module (i : Instr) : (s.wait i).module = s.module := rfl
@[simp] theorem State.wait_fmc (i : Instr) : (s.wait i).fmc = s.fmc := rfl
@[simp] theorem State.wait_own (i : Instr) : (s.wait i).own = s.own := rfl
@[simp] theorem State.wait_rounds (i : Instr) : (s.wait i).rounds = s.rounds := rfl
@[simp] theorem State.wait_joins (i : Instr) : (s.wait i).joins = s.joins := rfl
@[simp] theorem State.wait_xrds (i : Instr) : (s.wait i).xrds = s.xrds := rfl
@[simp] theorem State.wait_uaports (i : Instr) : (s.wait i).uaports = s.uaports := rfl
@[simp] theorem State.wait_hbmPart (i : Instr) : (s.wait i).hbmPart = s.hbmPart := rfl
@[simp] theorem State.wait_islands (i : Instr) : (s.wait i).islands = s.islands := rfl
@[simp] theorem State.wait_gatedIslands (i : Instr) : (s.wait i).gatedIslands = s.gatedIslands := rfl
@[simp] theorem State.wait_selfRefresh (i : Instr) : (s.wait i).selfRefresh = s.selfRefresh := rfl
@[simp] theorem State.wait_deepIdle (i : Instr) : (s.wait i).deepIdle = s.deepIdle := rfl
@[simp] theorem State.wait_fuses (i : Instr) : (s.wait i).fuses = s.fuses := rfl

/-! ### `State.setMe` -/

@[simp] theorem State.setMe_ticks (m : Matrix) : (s.setMe m).ticks = s.ticks := rfl
@[simp] theorem State.setMe_agenda (m : Matrix) : (s.setMe m).agenda = s.agenda := rfl
@[simp] theorem State.setMe_choices (m : Matrix) : (s.setMe m).choices = s.choices := rfl
@[simp] theorem State.setMe_tile (m : Matrix) : (s.setMe m).tile = s.tile := rfl
@[simp] theorem State.setMe_slot (m : Matrix) : (s.setMe m).slot = s.slot := rfl
@[simp] theorem State.setMe_mem (m : Matrix) : (s.setMe m).mem = s.mem := rfl
@[simp] theorem State.setMe_sectors (m : Matrix) : (s.setMe m).sectors = s.sectors := rfl
@[simp] theorem State.setMe_rels (m : Matrix) : (s.setMe m).rels = s.rels := rfl
@[simp] theorem State.setMe_scFence (m : Matrix) : (s.setMe m).scFence = s.scFence := rfl
@[simp] theorem State.setMe_nextAgent (m : Matrix) : (s.setMe m).nextAgent = s.nextAgent := rfl
@[simp] theorem State.setMe_ctxs (m : Matrix) : (s.setMe m).ctxs = s.ctxs := rfl
@[simp] theorem State.setMe_clusters (m : Matrix) : (s.setMe m).clusters = s.clusters := rfl
@[simp] theorem State.setMe_roster (m : Matrix) : (s.setMe m).roster = s.roster := rfl
@[simp] theorem State.setMe_wake (m : Matrix) : (s.setMe m).wake = s.wake := rfl
@[simp] theorem State.setMe_regions (m : Matrix) : (s.setMe m).regions = s.regions := rfl
@[simp] theorem State.setMe_spaces (m : Matrix) : (s.setMe m).spaces = s.spaces := rfl
@[simp] theorem State.setMe_images (m : Matrix) : (s.setMe m).images = s.images := rfl
@[simp] theorem State.setMe_fwText (m : Matrix) : (s.setMe m).fwText = s.fwText := rfl
@[simp] theorem State.setMe_module (m : Matrix) : (s.setMe m).module = s.module := rfl
@[simp] theorem State.setMe_fmc (m : Matrix) : (s.setMe m).fmc = s.fmc := rfl
@[simp] theorem State.setMe_own (m : Matrix) : (s.setMe m).own = s.own := rfl
@[simp] theorem State.setMe_rounds (m : Matrix) : (s.setMe m).rounds = s.rounds := rfl
@[simp] theorem State.setMe_joins (m : Matrix) : (s.setMe m).joins = s.joins := rfl
@[simp] theorem State.setMe_xrds (m : Matrix) : (s.setMe m).xrds = s.xrds := rfl
@[simp] theorem State.setMe_uaports (m : Matrix) : (s.setMe m).uaports = s.uaports := rfl
@[simp] theorem State.setMe_hbmPart (m : Matrix) : (s.setMe m).hbmPart = s.hbmPart := rfl
@[simp] theorem State.setMe_islands (m : Matrix) : (s.setMe m).islands = s.islands := rfl
@[simp] theorem State.setMe_gatedIslands (m : Matrix) : (s.setMe m).gatedIslands = s.gatedIslands := rfl
@[simp] theorem State.setMe_selfRefresh (m : Matrix) : (s.setMe m).selfRefresh = s.selfRefresh := rfl
@[simp] theorem State.setMe_deepIdle (m : Matrix) : (s.setMe m).deepIdle = s.deepIdle := rfl
@[simp] theorem State.setMe_fuses (m : Matrix) : (s.setMe m).fuses = s.fuses := rfl

/-! ### `State.setDfa` -/

@[simp] theorem State.setDfa_ticks (d : Dfa) : (s.setDfa d).ticks = s.ticks := rfl
@[simp] theorem State.setDfa_agenda (d : Dfa) : (s.setDfa d).agenda = s.agenda := rfl
@[simp] theorem State.setDfa_choices (d : Dfa) : (s.setDfa d).choices = s.choices := rfl
@[simp] theorem State.setDfa_tile (d : Dfa) : (s.setDfa d).tile = s.tile := rfl
@[simp] theorem State.setDfa_slot (d : Dfa) : (s.setDfa d).slot = s.slot := rfl
@[simp] theorem State.setDfa_mem (d : Dfa) : (s.setDfa d).mem = s.mem := rfl
@[simp] theorem State.setDfa_sectors (d : Dfa) : (s.setDfa d).sectors = s.sectors := rfl
@[simp] theorem State.setDfa_rels (d : Dfa) : (s.setDfa d).rels = s.rels := rfl
@[simp] theorem State.setDfa_scFence (d : Dfa) : (s.setDfa d).scFence = s.scFence := rfl
@[simp] theorem State.setDfa_nextAgent (d : Dfa) : (s.setDfa d).nextAgent = s.nextAgent := rfl
@[simp] theorem State.setDfa_ctxs (d : Dfa) : (s.setDfa d).ctxs = s.ctxs := rfl
@[simp] theorem State.setDfa_clusters (d : Dfa) : (s.setDfa d).clusters = s.clusters := rfl
@[simp] theorem State.setDfa_roster (d : Dfa) : (s.setDfa d).roster = s.roster := rfl
@[simp] theorem State.setDfa_wake (d : Dfa) : (s.setDfa d).wake = s.wake := rfl
@[simp] theorem State.setDfa_regions (d : Dfa) : (s.setDfa d).regions = s.regions := rfl
@[simp] theorem State.setDfa_spaces (d : Dfa) : (s.setDfa d).spaces = s.spaces := rfl
@[simp] theorem State.setDfa_images (d : Dfa) : (s.setDfa d).images = s.images := rfl
@[simp] theorem State.setDfa_fwText (d : Dfa) : (s.setDfa d).fwText = s.fwText := rfl
@[simp] theorem State.setDfa_module (d : Dfa) : (s.setDfa d).module = s.module := rfl
@[simp] theorem State.setDfa_fmc (d : Dfa) : (s.setDfa d).fmc = s.fmc := rfl
@[simp] theorem State.setDfa_own (d : Dfa) : (s.setDfa d).own = s.own := rfl
@[simp] theorem State.setDfa_rounds (d : Dfa) : (s.setDfa d).rounds = s.rounds := rfl
@[simp] theorem State.setDfa_joins (d : Dfa) : (s.setDfa d).joins = s.joins := rfl
@[simp] theorem State.setDfa_xrds (d : Dfa) : (s.setDfa d).xrds = s.xrds := rfl
@[simp] theorem State.setDfa_uaports (d : Dfa) : (s.setDfa d).uaports = s.uaports := rfl
@[simp] theorem State.setDfa_hbmPart (d : Dfa) : (s.setDfa d).hbmPart = s.hbmPart := rfl
@[simp] theorem State.setDfa_islands (d : Dfa) : (s.setDfa d).islands = s.islands := rfl
@[simp] theorem State.setDfa_gatedIslands (d : Dfa) : (s.setDfa d).gatedIslands = s.gatedIslands := rfl
@[simp] theorem State.setDfa_selfRefresh (d : Dfa) : (s.setDfa d).selfRefresh = s.selfRefresh := rfl
@[simp] theorem State.setDfa_deepIdle (d : Dfa) : (s.setDfa d).deepIdle = s.deepIdle := rfl
@[simp] theorem State.setDfa_fuses (d : Dfa) : (s.setDfa d).fuses = s.fuses := rfl

/-! ### `State.setTackMap` -/

@[simp] theorem State.setTackMap_ticks (m : Nat) (v : TackMap) : (s.setTackMap m v).ticks = s.ticks := rfl
@[simp] theorem State.setTackMap_agenda (m : Nat) (v : TackMap) : (s.setTackMap m v).agenda = s.agenda := rfl
@[simp] theorem State.setTackMap_choices (m : Nat) (v : TackMap) : (s.setTackMap m v).choices = s.choices := rfl
@[simp] theorem State.setTackMap_tile (m : Nat) (v : TackMap) : (s.setTackMap m v).tile = s.tile := rfl
@[simp] theorem State.setTackMap_slot (m : Nat) (v : TackMap) : (s.setTackMap m v).slot = s.slot := rfl
@[simp] theorem State.setTackMap_mem (m : Nat) (v : TackMap) : (s.setTackMap m v).mem = s.mem := rfl
@[simp] theorem State.setTackMap_sectors (m : Nat) (v : TackMap) : (s.setTackMap m v).sectors = s.sectors := rfl
@[simp] theorem State.setTackMap_rels (m : Nat) (v : TackMap) : (s.setTackMap m v).rels = s.rels := rfl
@[simp] theorem State.setTackMap_scFence (m : Nat) (v : TackMap) : (s.setTackMap m v).scFence = s.scFence := rfl
@[simp] theorem State.setTackMap_nextAgent (m : Nat) (v : TackMap) : (s.setTackMap m v).nextAgent = s.nextAgent := rfl
@[simp] theorem State.setTackMap_ctxs (m : Nat) (v : TackMap) : (s.setTackMap m v).ctxs = s.ctxs := rfl
@[simp] theorem State.setTackMap_clusters (m : Nat) (v : TackMap) : (s.setTackMap m v).clusters = s.clusters := rfl
@[simp] theorem State.setTackMap_roster (m : Nat) (v : TackMap) : (s.setTackMap m v).roster = s.roster := rfl
@[simp] theorem State.setTackMap_wake (m : Nat) (v : TackMap) : (s.setTackMap m v).wake = s.wake := rfl
@[simp] theorem State.setTackMap_regions (m : Nat) (v : TackMap) : (s.setTackMap m v).regions = s.regions := rfl
@[simp] theorem State.setTackMap_spaces (m : Nat) (v : TackMap) : (s.setTackMap m v).spaces = s.spaces := rfl
@[simp] theorem State.setTackMap_images (m : Nat) (v : TackMap) : (s.setTackMap m v).images = s.images := rfl
@[simp] theorem State.setTackMap_fwText (m : Nat) (v : TackMap) : (s.setTackMap m v).fwText = s.fwText := rfl
@[simp] theorem State.setTackMap_module (m : Nat) (v : TackMap) : (s.setTackMap m v).module = s.module := rfl
@[simp] theorem State.setTackMap_fmc (m : Nat) (v : TackMap) : (s.setTackMap m v).fmc = s.fmc := rfl
@[simp] theorem State.setTackMap_own (m : Nat) (v : TackMap) : (s.setTackMap m v).own = s.own := rfl
@[simp] theorem State.setTackMap_rounds (m : Nat) (v : TackMap) : (s.setTackMap m v).rounds = s.rounds := rfl
@[simp] theorem State.setTackMap_joins (m : Nat) (v : TackMap) : (s.setTackMap m v).joins = s.joins := rfl
@[simp] theorem State.setTackMap_xrds (m : Nat) (v : TackMap) : (s.setTackMap m v).xrds = s.xrds := rfl
@[simp] theorem State.setTackMap_uaports (m : Nat) (v : TackMap) : (s.setTackMap m v).uaports = s.uaports := rfl
@[simp] theorem State.setTackMap_hbmPart (m : Nat) (v : TackMap) : (s.setTackMap m v).hbmPart = s.hbmPart := rfl
@[simp] theorem State.setTackMap_islands (m : Nat) (v : TackMap) : (s.setTackMap m v).islands = s.islands := rfl
@[simp] theorem State.setTackMap_gatedIslands (m : Nat) (v : TackMap) : (s.setTackMap m v).gatedIslands = s.gatedIslands := rfl
@[simp] theorem State.setTackMap_selfRefresh (m : Nat) (v : TackMap) : (s.setTackMap m v).selfRefresh = s.selfRefresh := rfl
@[simp] theorem State.setTackMap_deepIdle (m : Nat) (v : TackMap) : (s.setTackMap m v).deepIdle = s.deepIdle := rfl
@[simp] theorem State.setTackMap_fuses (m : Nat) (v : TackMap) : (s.setTackMap m v).fuses = s.fuses := rfl

/-! ### `State.setCluster` -/

@[simp] theorem State.setCluster_ticks (c : Cluster) : (s.setCluster c).ticks = s.ticks := rfl
@[simp] theorem State.setCluster_agenda (c : Cluster) : (s.setCluster c).agenda = s.agenda := rfl
@[simp] theorem State.setCluster_choices (c : Cluster) : (s.setCluster c).choices = s.choices := rfl
@[simp] theorem State.setCluster_tile (c : Cluster) : (s.setCluster c).tile = s.tile := rfl
@[simp] theorem State.setCluster_slot (c : Cluster) : (s.setCluster c).slot = s.slot := rfl
@[simp] theorem State.setCluster_mem (c : Cluster) : (s.setCluster c).mem = s.mem := rfl
@[simp] theorem State.setCluster_sectors (c : Cluster) : (s.setCluster c).sectors = s.sectors := rfl
@[simp] theorem State.setCluster_rels (c : Cluster) : (s.setCluster c).rels = s.rels := rfl
@[simp] theorem State.setCluster_scFence (c : Cluster) : (s.setCluster c).scFence = s.scFence := rfl
@[simp] theorem State.setCluster_nextAgent (c : Cluster) : (s.setCluster c).nextAgent = s.nextAgent := rfl
@[simp] theorem State.setCluster_ctxs (c : Cluster) : (s.setCluster c).ctxs = s.ctxs := rfl
@[simp] theorem State.setCluster_tiles (c : Cluster) : (s.setCluster c).tiles = s.tiles := rfl
@[simp] theorem State.setCluster_roster (c : Cluster) : (s.setCluster c).roster = s.roster := rfl
@[simp] theorem State.setCluster_wake (c : Cluster) : (s.setCluster c).wake = s.wake := rfl
@[simp] theorem State.setCluster_regions (c : Cluster) : (s.setCluster c).regions = s.regions := rfl
@[simp] theorem State.setCluster_spaces (c : Cluster) : (s.setCluster c).spaces = s.spaces := rfl
@[simp] theorem State.setCluster_images (c : Cluster) : (s.setCluster c).images = s.images := rfl
@[simp] theorem State.setCluster_fwText (c : Cluster) : (s.setCluster c).fwText = s.fwText := rfl
@[simp] theorem State.setCluster_module (c : Cluster) : (s.setCluster c).module = s.module := rfl
@[simp] theorem State.setCluster_fmc (c : Cluster) : (s.setCluster c).fmc = s.fmc := rfl
@[simp] theorem State.setCluster_own (c : Cluster) : (s.setCluster c).own = s.own := rfl
@[simp] theorem State.setCluster_rounds (c : Cluster) : (s.setCluster c).rounds = s.rounds := rfl
@[simp] theorem State.setCluster_joins (c : Cluster) : (s.setCluster c).joins = s.joins := rfl
@[simp] theorem State.setCluster_xrds (c : Cluster) : (s.setCluster c).xrds = s.xrds := rfl
@[simp] theorem State.setCluster_uaports (c : Cluster) : (s.setCluster c).uaports = s.uaports := rfl
@[simp] theorem State.setCluster_hbmPart (c : Cluster) : (s.setCluster c).hbmPart = s.hbmPart := rfl
@[simp] theorem State.setCluster_islands (c : Cluster) : (s.setCluster c).islands = s.islands := rfl
@[simp] theorem State.setCluster_gatedIslands (c : Cluster) : (s.setCluster c).gatedIslands = s.gatedIslands := rfl
@[simp] theorem State.setCluster_selfRefresh (c : Cluster) : (s.setCluster c).selfRefresh = s.selfRefresh := rfl
@[simp] theorem State.setCluster_deepIdle (c : Cluster) : (s.setCluster c).deepIdle = s.deepIdle := rfl
@[simp] theorem State.setCluster_fuses (c : Cluster) : (s.setCluster c).fuses = s.fuses := rfl

/-! ### Readers over writers -/

@[simp] theorem State.ctxOf_setCtxOf_self (k : Nat) (c : Context) : (s.setCtxOf k c).ctxOf k = c := by
  simp [State.ctxOf, State.setCtxOf]

theorem State.ctxOf_setCtxOf_ne {j k : Nat} (h : j ≠ k) (c : Context) : (s.setCtxOf j c).ctxOf k = s.ctxOf k :=
  nget_nset_ne _ _ h _

@[simp] theorem State.keyAt_setCtxOf (k : Nat) (c : Context) (t n : Nat) : (s.setCtxOf k c).keyAt t n = s.keyAt t n := rfl
@[simp] theorem State.key_setCtxOf (k : Nat) (c : Context) : (s.setCtxOf k c).key = s.key := rfl
@[simp] theorem State.key_setCtx (c : Context) : (s.setCtx c).key = s.key := rfl
@[simp] theorem State.key_setTile (t : Nat) (v : Tile) : (s.setTile t v).key = s.key := rfl
@[simp] theorem State.key_setEng (e : Engine) (v : EngineSt) : (s.setEng e v).key = s.key := rfl
@[simp] theorem State.ctx_setCtx (c : Context) : (s.setCtx c).ctx = c := by simp [State.ctx, State.setCtx]
@[simp] theorem State.ctx_setTile (t : Nat) (v : Tile) : (s.setTile t v).ctx = s.ctx := rfl
@[simp] theorem State.ctx_setEng (e : Engine) (v : EngineSt) : (s.setEng e v).ctx = s.ctx := rfl

theorem State.ctxOf_setCtx_ne {k : Nat} (h : s.key ≠ k) (c : Context) : (s.setCtx c).ctxOf k = s.ctxOf k :=
  s.ctxOf_setCtxOf_ne h c

@[simp] theorem State.tileAt_setTile_self (t : Nat) (v : Tile) : (s.setTile t v).tileAt t = v := by
  simp [State.tileAt, State.setTile]

theorem State.tileAt_setTile_ne {t u : Nat} (h : t ≠ u) (v : Tile) : (s.setTile t v).tileAt u = s.tileAt u :=
  nget_nset_ne _ _ h _

@[simp] theorem State.tileAt_setCtxOf (k : Nat) (c : Context) (t : Nat) : (s.setCtxOf k c).tileAt t = s.tileAt t := rfl
@[simp] theorem State.tileAt_setCtx (c : Context) (t : Nat) : (s.setCtx c).tileAt t = s.tileAt t := rfl
@[simp] theorem State.eng_setCtxOf (k : Nat) (c : Context) (e : Engine) : (s.setCtxOf k c).eng e = s.eng e := rfl
@[simp] theorem State.eng_setCtx (c : Context) (e : Engine) : (s.setCtx c).eng e = s.eng e := rfl

/-- Engine ids differ for different engines (R4). -/
theorem Engine.id_injective {e f : Engine} (h : e.id = f.id) : e = f := by
  cases e <;> cases f <;> first | rfl | exact absurd h (by decide)

@[simp] theorem State.eng_setEng_self (e : Engine) (v : EngineSt) : (s.setEng e v).eng e = v := by
  simp [State.eng, State.setEng, Tile.engine, Tile.setEngine]

theorem State.eng_setEng_ne {e f : Engine} (h : e ≠ f) (v : EngineSt) : (s.setEng e v).eng f = s.eng f := by
  simp [State.eng, State.setEng, Tile.engine, Tile.setEngine, nget_nset_ne _ _ fun x => h (Engine.id_injective x)]

@[simp] theorem State.me_setMe (m : Matrix) : (s.setMe m).me = m := by simp [State.me, State.setMe]
@[simp] theorem State.dfa_setDfa (d : Dfa) : (s.setDfa d).dfa = d := by simp [State.dfa, State.setDfa]
@[simp] theorem State.eng_setMe (m : Matrix) (e : Engine) : (s.setMe m).eng e = s.eng e := by
  simp [State.eng, State.setMe, Tile.engine]
@[simp] theorem State.eng_setDfa (d : Dfa) (e : Engine) : (s.setDfa d).eng e = s.eng e := by
  simp [State.eng, State.setDfa, Tile.engine]
@[simp] theorem State.me_setEng (e : Engine) (v : EngineSt) : (s.setEng e v).me = s.me := by
  simp [State.me, State.setEng, Tile.setEngine]
@[simp] theorem State.dfa_setEng (e : Engine) (v : EngineSt) : (s.setEng e v).dfa = s.dfa := by
  simp [State.dfa, State.setEng, Tile.setEngine]

/-! ### Registers -/

/-- x0 reads as zero (R13). -/
@[simp] theorem Context.reg_zero (c : Context) : c.reg 0 = 0 := rfl

/-- A write to x0 is discarded (R13). -/
@[simp] theorem Context.setReg_zero (c : Context) (v : Word) : c.setReg 0 v = c := rfl

/-- Another register reads back what was written. -/
theorem Context.reg_setReg_self (c : Context) {r : Reg} (h : r ≠ 0) (v : Word) : (c.setReg r v).reg r = v := by
  unfold Context.reg Context.setReg
  rw [if_neg h, if_neg h]
  simp

/-- A write leaves every other register alone. -/
theorem Context.reg_setReg_ne (c : Context) {r q : Reg} (h : r ≠ q) (v : Word) : (c.setReg r v).reg q = c.reg q := by
  have hn : r.toNat ≠ q.toNat := fun e => h (BitVec.eq_of_toNat_eq e)
  unfold Context.setReg Context.reg
  split
  · rfl
  · split
    · rfl
    · exact nget_nset_ne _ _ hn v

/-! ### What a register write and the end of an instruction leave of a context -/

@[simp] theorem Context.setReg_pc (c : Context) (r : Reg) (v : Word) : (c.setReg r v).pc = c.pc := by
  unfold Context.setReg; split <;> rfl
@[simp] theorem Context.setReg_flags (c : Context) (r : Reg) (v : Word) : (c.setReg r v).flags = c.flags := by
  unfold Context.setReg; split <;> rfl
@[simp] theorem Context.setReg_tvec (c : Context) (r : Reg) (v : Word) : (c.setReg r v).tvec = c.tvec := by
  unfold Context.setReg; split <;> rfl
@[simp] theorem Context.setReg_epc (c : Context) (r : Reg) (v : Word) : (c.setReg r v).epc = c.epc := by
  unfold Context.setReg; split <;> rfl
@[simp] theorem Context.setReg_trap (c : Context) (r : Reg) (v : Word) : (c.setReg r v).trap = c.trap := by
  unfold Context.setReg; split <;> rfl
@[simp] theorem Context.setReg_tval (c : Context) (r : Reg) (v : Word) : (c.setReg r v).tval = c.tval := by
  unfold Context.setReg; split <;> rfl
@[simp] theorem Context.setReg_empc (c : Context) (r : Reg) (v : Word) : (c.setReg r v).empc = c.empc := by
  unfold Context.setReg; split <;> rfl
@[simp] theorem Context.setReg_instret (c : Context) (r : Reg) (v : Word) : (c.setReg r v).instret = c.instret := by
  unfold Context.setReg; split <;> rfl
@[simp] theorem Context.setReg_trapactive (c : Context) (r : Reg) (v : Word) : (c.setReg r v).trapactive = c.trapactive := by
  unfold Context.setReg; split <;> rfl
@[simp] theorem Context.setReg_resolving (c : Context) (r : Reg) (v : Word) : (c.setReg r v).resolving = c.resolving := by
  unfold Context.setReg; split <;> rfl
@[simp] theorem Context.setReg_pending (c : Context) (r : Reg) (v : Word) : (c.setReg r v).pending = c.pending := by
  unfold Context.setReg; split <;> rfl
@[simp] theorem Context.setReg_parkNow (c : Context) (r : Reg) (v : Word) : (c.setReg r v).parkNow = c.parkNow := by
  unfold Context.setReg; split <;> rfl
@[simp] theorem Context.setReg_gather (c : Context) (r : Reg) (v : Word) : (c.setReg r v).gather = c.gather := by
  unfold Context.setReg; split <;> rfl
@[simp] theorem Context.setReg_gatherNow (c : Context) (r : Reg) (v : Word) : (c.setReg r v).gatherNow = c.gatherNow := by
  unfold Context.setReg; split <;> rfl
@[simp] theorem Context.setReg_expanding (c : Context) (r : Reg) (v : Word) : (c.setReg r v).expanding = c.expanding := by
  unfold Context.setReg; split <;> rfl
@[simp] theorem Context.setReg_life (c : Context) (r : Reg) (v : Word) : (c.setReg r v).life = c.life := by
  unfold Context.setReg; split <;> rfl
@[simp] theorem Context.setReg_frozen (c : Context) (r : Reg) (v : Word) : (c.setReg r v).frozen = c.frozen := by
  unfold Context.setReg; split <;> rfl
@[simp] theorem Context.setReg_exitVal (c : Context) (r : Reg) (v : Word) : (c.setReg r v).exitVal = c.exitVal := by
  unfold Context.setReg; split <;> rfl
@[simp] theorem Context.setReg_triggered (c : Context) (r : Reg) (v : Word) : (c.setReg r v).triggered = c.triggered := by
  unfold Context.setReg; split <;> rfl
@[simp] theorem Context.setReg_waiting (c : Context) (r : Reg) (v : Word) : (c.setReg r v).waiting = c.waiting := by
  unfold Context.setReg; split <;> rfl
@[simp] theorem Context.setReg_parked (c : Context) (r : Reg) (v : Word) : (c.setReg r v).parked = c.parked := by
  unfold Context.setReg; split <;> rfl
@[simp] theorem Context.setReg_walk (c : Context) (r : Reg) (v : Word) : (c.setReg r v).walk = c.walk := by
  unfold Context.setReg; split <;> rfl
@[simp] theorem Context.setReg_left (c : Context) (r : Reg) (v : Word) : (c.setReg r v).left = c.left := by
  unfold Context.setReg; split <;> rfl
@[simp] theorem Context.setReg_clock (c : Context) (r : Reg) (v : Word) : (c.setReg r v).clock = c.clock := by
  unfold Context.setReg; split <;> rfl
@[simp] theorem Context.setReg_relFences (c : Context) (r : Reg) (v : Word) : (c.setReg r v).relFences = c.relFences := by
  unfold Context.setReg; split <;> rfl
@[simp] theorem Context.setReg_acquired (c : Context) (r : Reg) (v : Word) : (c.setReg r v).acquired = c.acquired := by
  unfold Context.setReg; split <;> rfl
@[simp] theorem Context.setReg_stores (c : Context) (r : Reg) (v : Word) : (c.setReg r v).stores = c.stores := by
  unfold Context.setReg; split <;> rfl
@[simp] theorem Context.done_x (c : Context) : c.done.x = c.x := rfl
@[simp] theorem Context.done_flags (c : Context) : c.done.flags = c.flags := rfl
@[simp] theorem Context.done_tvec (c : Context) : c.done.tvec = c.tvec := rfl
@[simp] theorem Context.done_epc (c : Context) : c.done.epc = c.epc := rfl
@[simp] theorem Context.done_trap (c : Context) : c.done.trap = c.trap := rfl
@[simp] theorem Context.done_tval (c : Context) : c.done.tval = c.tval := rfl
@[simp] theorem Context.done_empc (c : Context) : c.done.empc = c.empc := rfl
@[simp] theorem Context.done_trapactive (c : Context) : c.done.trapactive = c.trapactive := rfl
@[simp] theorem Context.done_resolving (c : Context) : c.done.resolving = c.resolving := rfl
@[simp] theorem Context.done_pending (c : Context) : c.done.pending = c.pending := rfl
@[simp] theorem Context.done_parkNow (c : Context) : c.done.parkNow = c.parkNow := rfl
@[simp] theorem Context.done_gather (c : Context) : c.done.gather = c.gather := rfl
@[simp] theorem Context.done_gatherNow (c : Context) : c.done.gatherNow = c.gatherNow := rfl
@[simp] theorem Context.done_expanding (c : Context) : c.done.expanding = c.expanding := rfl
@[simp] theorem Context.done_life (c : Context) : c.done.life = c.life := rfl
@[simp] theorem Context.done_frozen (c : Context) : c.done.frozen = c.frozen := rfl
@[simp] theorem Context.done_exitVal (c : Context) : c.done.exitVal = c.exitVal := rfl
@[simp] theorem Context.done_triggered (c : Context) : c.done.triggered = c.triggered := rfl
@[simp] theorem Context.done_parked (c : Context) : c.done.parked = c.parked := rfl
@[simp] theorem Context.done_left (c : Context) : c.done.left = c.left := rfl
@[simp] theorem Context.done_clock (c : Context) : c.done.clock = c.clock := rfl
@[simp] theorem Context.done_relFences (c : Context) : c.done.relFences = c.relFences := rfl
@[simp] theorem Context.done_acquired (c : Context) : c.done.acquired = c.acquired := rfl
@[simp] theorem Context.done_stores (c : Context) : c.done.stores = c.stores := rfl
@[simp] theorem Context.done_pc (c : Context) : c.done.pc = c.pc + 4 := rfl
@[simp] theorem Context.done_instret (c : Context) : c.done.instret = c.instret + 1 := rfl
@[simp] theorem Context.done_waiting (c : Context) : c.done.waiting = none := rfl
@[simp] theorem Context.done_walk (c : Context) : c.done.walk = none := rfl
@[simp] theorem Context.done_reg (c : Context) (r : Reg) : c.done.reg r = c.reg r := rfl
@[simp] theorem State.ctx_done : s.done.ctx = s.ctx.done := by simp [State.done]
@[simp] theorem State.ctx_finish (rd : Reg) (v : Word) : (s.finish rd v).ctx = (s.ctx.setReg rd v).done := by
  simp [State.finish]
@[simp] theorem State.ctx_wait (i : Instr) : (s.wait i).ctx = { s.ctx with waiting := some i } := by
  simp [State.wait]
@[simp] theorem State.key_finish (rd : Reg) (v : Word) : (s.finish rd v).key = s.key := rfl
@[simp] theorem State.key_done : s.done.key = s.key := rfl

end Sys2Proof.Machine
end

