-- ==== Sys2Proof/Laws/Context.lean ====
section
/-! SUPPORT. What the shared operations of the control core do: an instruction's end, a wait, a trap entry, in the words that the
statements use. -/

namespace Sys2Proof.Machine

open Sys2Proof

variable {s t u : State}

/-! ### The frames -/

/-- Nothing differs from itself. -/
theorem SameMemory.refl (s : State) : SameMemory s s := fun _ => rfl

/-- Memory that is the same list reads the same. -/
theorem SameMemory.of_eq (h : t.mem = s.mem) : SameMemory s t := fun a => by rw [h]

theorem SameMemory.trans (h : SameMemory s t) (k : SameMemory t u) : SameMemory s u := fun a => (k a).trans (h a)

theorem SameOthers.refl (s : State) : SameOthers s s := fun _ _ => rfl

theorem SameOthers.trans (h : SameOthers s t) (hk : t.key = s.key) (k : SameOthers t u) : SameOthers s u :=
  fun j hj => (k j (hk ▸ hj)).trans (h j hj)

theorem OnlyContext.refl (s : State) : OnlyContext s s := ⟨⟨rfl, rfl, rfl, rfl, rfl⟩, .refl s, .refl s, rfl⟩

theorem OnlyContext.trans (h : OnlyContext s t) (k : OnlyContext t u) : OnlyContext s u := by
  obtain ⟨⟨a, b, c, d, e⟩, m, o, hk⟩ := h
  obtain ⟨⟨a', b', c', d', e'⟩, m', o', hk'⟩ := k
  exact ⟨⟨a'.trans a, b'.trans b, c'.trans c, d'.trans d, e'.trans e⟩, m.trans m', o.trans hk o', hk'.trans hk⟩

theorem SameRegs.refl (s : State) : SameRegs s s := fun _ => rfl

theorem SameRegs.trans (h : SameRegs s t) (k : SameRegs t u) : SameRegs s u := fun r => (k r).trans (h r)

/-- A context keeps its special registers where nothing is done to it. -/
theorem Context.SameSpecial.refl (c : Context) : c.SameSpecial c := by simp [Context.SameSpecial]

theorem Context.SameSpecial.trans {c d e : Context} (h : c.SameSpecial d) (k : d.SameSpecial e) : c.SameSpecial e := by
  simp only [Context.SameSpecial] at *
  simp [*]

/-! ### Writing the acting context -/

/-- A write of the acting context reaches nothing else. -/
theorem OnlyContext.setCtx (s : State) (c : Context) : OnlyContext s (s.setCtx c) :=
  ⟨⟨rfl, rfl, rfl, rfl, rfl⟩, .of_eq rfl, fun _ h => State.ctxOf_setCtx_ne s (Ne.symm h) c, rfl⟩

/-- The registers of a state whose acting context is a known one. -/
theorem State.reg_setCtx (s : State) (c : Context) (r : Reg) : (s.setCtx c).reg r = c.reg r := by simp [State.reg]

/-- A register written in the acting context, its others as they were (R13). -/
theorem WritesReg.of_setReg (s : State) (rd : Reg) (v : Word) (c : Context) (h : c.x = (s.ctx.setReg rd v).x) :
    WritesReg s (s.setCtx c) rd v := by
  have e (r : Reg) : (s.setCtx c).reg r = (s.ctx.setReg rd v).reg r := by
    rw [State.reg_setCtx]; simp [Context.reg, h]
  refine ⟨fun r hr => (e r).trans (Context.reg_setReg_ne _ (Ne.symm hr) v), ?_⟩
  rw [e]
  split
  · subst_vars; rfl
  · exact Context.reg_setReg_self _ ‹_› v

/-- All that an instruction's end with a value for rd does: rd written, pc advanced, one more retired, the wait over. -/
theorem State.finish_spec (s : State) (rd : Reg) (v : Word) :
    WritesReg s (s.finish rd v) rd v ∧ s.ctx.Completed (s.finish rd v).ctx ∧ s.ctx.SameSpecial (s.finish rd v).ctx ∧
      OnlyContext s (s.finish rd v) :=
  ⟨.of_setReg s rd v _ rfl, by simp [Context.Completed], by simp [Context.SameSpecial], .setCtx _ _⟩

/-- All that an instruction's end without a value does. -/
theorem State.done_spec (s : State) :
    SameRegs s s.done ∧ s.ctx.Completed s.done.ctx ∧ s.ctx.SameSpecial s.done.ctx ∧ OnlyContext s s.done :=
  ⟨fun r => State.reg_setCtx s _ r, by simp [Context.Completed], by simp [Context.SameSpecial], .setCtx _ _⟩

/-- All that a wait does: the instruction is noted, and has none of its effect (R88). -/
theorem State.wait_spec (s : State) (i : Instr) :
    (s.wait i).ctx.waiting = some i ∧ (s.wait i).ctx.pc = s.ctx.pc ∧ (s.wait i).ctx.instret = s.ctx.instret ∧
      SameRegs s (s.wait i) ∧ s.ctx.SameSpecial (s.wait i).ctx ∧ OnlyContext s (s.wait i) :=
  ⟨by simp, by simp, by simp, fun r => State.reg_setCtx s _ r, by simp [Context.SameSpecial], .setCtx _ _⟩

/-- All that the end of a parking wait does (R110): an instruction's end, with park-now clear. -/
theorem State.finishWait_spec (s : State) (rd : Reg) (v : Word) :
    WritesReg s (s.finishWait rd v) rd v ∧ s.ctx.Completed (s.finishWait rd v).ctx ∧
      s.ctx.SameSpecial (s.finishWait rd v).ctx ∧ (s.finishWait rd v).ctx.parkNow = false ∧
      OnlyContext s (s.finishWait rd v) := by
  obtain ⟨⟨hr, hd⟩, -, -, ho⟩ := s.finish_spec rd v
  have e (r : Reg) : (s.finishWait rd v).reg r = (s.finish rd v).reg r := State.reg_setCtx _ _ r
  exact ⟨⟨fun r h => (e r).trans (hr r h), (e rd).trans hd⟩, by simp [State.finishWait, Context.Completed],
    by simp [State.finishWait, Context.SameSpecial], by simp [State.finishWait], ho.trans (.setCtx _ _)⟩

/-- All that the closing of the acting context's epoch does (R303). -/
theorem State.release_spec (s : State) :
    SameRegs s s.release ∧ s.release.ctx = { s.ctx with clock := s.ctx.clock.release (ctxAgent s.key) } ∧
      OnlyContext s s.release := ⟨fun r => State.reg_setCtx s _ r, by simp [State.release], .setCtx _ _⟩

/-- All that a join of the acting context's clock does. -/
theorem State.join_spec (s : State) (c : Clock) :
    SameRegs s (s.join c) ∧ (s.join c).ctx = { s.ctx with clock := s.ctx.clock.join c } ∧ OnlyContext s (s.join c) :=
  ⟨fun r => State.reg_setCtx s _ r, by simp [State.join], .setCtx _ _⟩

/-! ### Traps -/

/-- A precise trap of a context that handles it (R90). -/
theorem State.trap_of_handles (h : s.ctx.handles = true) (code : BitVec 12) (tval : Word) :
    s.trap code tval = s.setCtx (s.ctx.enter (trapWord false 0 0 7 code) tval s.ctx.pc) := by simp [State.trap, h]

/-- All that a precise trap of a context that handles it does (R90). -/
theorem State.trap_spec (h : s.ctx.handles = true) (code : BitVec 12) (tval : Word) :
    let d := (s.trap code tval).ctx
    d.epc = s.ctx.pc ∧ d.trap = trapWord false 0 0 7 code ∧ d.tval = tval ∧ d.trapactive = true ∧
      d.pc = s.ctx.tvec &&& ~~~3 ∧ d.instret = s.ctx.instret ∧ d.flags = s.ctx.flags ∧ d.tvec = s.ctx.tvec ∧
      d.empc = s.ctx.empc ∧ d.pending = s.ctx.pending ∧ SameRegs s (s.trap code tval) ∧ OnlyContext s (s.trap code tval) := by
  rw [State.trap_of_handles h]
  refine ⟨?_, ?_, ?_, ?_, ?_, ?_, ?_, ?_, ?_, ?_, fun r => State.reg_setCtx s _ r, .setCtx _ _⟩ <;> simp [Context.enter]

/-- The low two bits cleared, as the concatenation that R90 writes. -/
theorem clearLow2 (w : Word) : w &&& ~~~3 = w.extractLsb' 2 62 ++ (0 : BitVec 2) := by
  ext i h
  simp only [BitVec.getElem_and, BitVec.getElem_not, BitVec.getElem_append, BitVec.getElem_extractLsb']
  split
  · have : i = 0 ∨ i = 1 := by omega
    rcases this with rfl | rfl <;> simp
  · have e : 2 + (i - 2) = i := by omega
    have h3 : (3 : Word)[i] = false := by
      have : 3 < 2 ^ i := Nat.lt_of_lt_of_le (by decide : 3 < 2 ^ 2) (Nat.pow_le_pow_right (by decide) (by omega))
      simpa [BitVec.getElem_eq_testBit_toNat] using Nat.testBit_lt_two_pow this
    rw [e, h3, BitVec.getLsbD_eq_getElem h]
    simp

end Sys2Proof.Machine
end

