-- ==== Sys2Proof/Laws/Memory.lean ====
section
/-! SUPPORT. Bytes of memory: read after write, and that every write keeps the canonical form. -/

namespace Sys2Proof.Machine

open Sys2Proof

/-- The canonical form, as its two halves. -/
theorem Memory.wf_iff (m : List Host.Cell) :
    Memory.wf m = true ↔ nsorted m = true ∧ ∀ c ∈ m, c.2 ≠ Config.unwrittenByte := by
  simp [Memory.wf]

/-- Empty memory is canonical. -/
theorem Memory.wf_nil : Memory.wf [] = true := rfl

/-- The byte written reads back. -/
@[simp] theorem memGet_memSet_self (m : List Host.Cell) (k : Nat) (b : Byte) : memGet (memSet m k b) k = b := by
  unfold memGet memSet
  split
  · simp [*]
  · simp

/-- A byte's write leaves every other byte alone. -/
theorem memGet_memSet_ne (m : List Host.Cell) {j k : Nat} (h : j ≠ k) (b : Byte) :
    memGet (memSet m j b) k = memGet m k := by
  unfold memGet memSet
  split
  · exact nget_nerase_ne _ m h
  · exact nget_nset_ne _ m h b

/-- A byte's write keeps the canonical form. -/
theorem Memory.wf_memSet {m : List Host.Cell} (h : Memory.wf m = true) (k : Nat) (b : Byte) :
    Memory.wf (memSet m k b) = true := by
  obtain ⟨hs, hn⟩ := (Memory.wf_iff m).1 h
  refine (Memory.wf_iff _).2 ?_
  unfold memSet
  split
  · exact ⟨nsorted_nerase hs k, fun c hc => hn c (mem_nerase hc)⟩
  · refine ⟨nsorted_nset hs k b, fun c hc => ?_⟩
    rcases mem_nset hc with rfl | hc
    · assumption
    · exact hn c hc

/-- Writing bytes keeps the canonical form. -/
theorem Memory.wf_memPut {m : List Host.Cell} (h : Memory.wf m = true) (cells : List Host.Cell) :
    Memory.wf (memPut m cells) = true := by
  induction cells generalizing m with
  | nil => exact h
  | cons c t ih => exact ih (Memory.wf_memSet h c.1 c.2)

/-- Writing a little-endian number keeps the canonical form. -/
theorem Memory.wf_memPutNat {m : List Host.Cell} (h : Memory.wf m = true) (k n v : Nat) :
    Memory.wf (memPutNat m k n v) = true := Memory.wf_memPut h _

/-- A byte that no cell of a write names reads as before. -/
theorem memGet_memPut_other {cells : List Host.Cell} {k : Nat} (h : ∀ c ∈ cells, c.1 ≠ k) (m : List Host.Cell) :
    memGet (memPut m cells) k = memGet m k := by
  induction cells generalizing m with
  | nil => rfl
  | cons c t ih =>
    rw [memPut, ih (fun d hd => h d (List.mem_cons_of_mem _ hd)), memGet_memSet_ne m (h c (List.mem_cons_self ..))]

/-- The keys of bytes laid out from a key upward. -/
theorem cellsFrom_key {bs : List Byte} {k : Nat} {c : Host.Cell} (h : c ∈ cellsFrom k bs) :
    k ≤ c.1 ∧ c.1 < k + bs.length := by
  induction bs generalizing k with
  | nil => simp [cellsFrom] at h
  | cons b t ih =>
    rcases List.mem_cons.1 h with rfl | h
    · simp
    · have := ih h
      simp only [List.length_cons]
      omega

/-- Each key of bytes laid out from a key upward is named. -/
theorem exists_mem_cellsFrom (k : Nat) (bs : List Byte) (i : Nat) (h : i < bs.length) : ∃ c ∈ cellsFrom k bs, c.1 = k + i := by
  induction bs generalizing k i with
  | nil => simp at h
  | cons b t ih =>
    cases i with
    | zero => exact ⟨_, .head _, rfl⟩
    | succ i =>
      obtain ⟨c, hc, e⟩ := ih (k + 1) i (by simpa using h)
      exact ⟨c, .tail _ hc, by omega⟩

/-- Bytes laid out from a key upward name as many cells. -/
@[simp] theorem cellsFrom_length (k : Nat) (bs : List Byte) : (cellsFrom k bs).length = bs.length := by
  induction bs generalizing k with
  | nil => rfl
  | cons b t ih => simp [cellsFrom, ih]

/-- Bytes laid out from a key upward read back at their keys. -/
theorem memGet_memPut_cellsFrom (m : List Host.Cell) (k : Nat) (bs : List Byte) (i : Nat) (h : i < bs.length) :
    memGet (memPut m (cellsFrom k bs)) (k + i) = bs[i] := by
  induction bs generalizing m k i with
  | nil => simp at h
  | cons b t ih =>
    rw [cellsFrom, memPut]
    cases i with
    | zero =>
      rw [memGet_memPut_other fun c hc => by have := cellsFrom_key hc; omega]
      simp
    | succ i =>
      rw [show k + (i + 1) = k + 1 + i by omega, ih _ _ _ (by simpa using h)]
      simp

/-- The bytes of a number are as many as asked for. -/
@[simp] theorem leBytes_length (n v : Nat) : (leBytes n v).length = n := by
  induction n generalizing v with
  | zero => rfl
  | succ n ih => simp [leBytes, ih]

/-- The number that its own bytes hold, cut to their width. -/
theorem leNat_leBytes (n v : Nat) : leNat (leBytes n v) = v % 256 ^ n := by
  induction n generalizing v with
  | zero => simp [leBytes, leNat, Nat.mod_one]
  | succ n ih =>
    have h : (BitVec.ofNat 8 v).toNat = v % 256 := rfl
    rw [leBytes, leNat, ih, h, Nat.pow_succ', Nat.mod_mul]

/-- The bytes read are as many as asked for. -/
@[simp] theorem memBytes_length (m : List Host.Cell) (k n : Nat) : (memBytes m k n).length = n := by simp [memBytes]

/-- A number written reads back, cut to its width. -/
theorem memNat_memPutNat (m : List Host.Cell) (k n v : Nat) : memNat (memPutNat m k n v) k n = v % 256 ^ n := by
  have : memBytes (memPutNat m k n v) k n = leBytes n v := by
    apply List.ext_getElem (by simp)
    intro i hi _
    simp only [memBytes, List.getElem_map, List.getElem_range]
    exact memGet_memPut_cellsFrom _ _ _ _ (by simpa using hi)
  rw [memNat, this, leNat_leBytes]

end Sys2Proof.Machine
end

