-- ==== Sys2Proof/Laws/Writers.lean ====
section
/-! SUPPORT. The operations that write memory, whoever they write for: what each leaves alone, and that each keeps memory's
canonical form and the regions under their ids. -/

namespace Sys2Proof.Machine

open Sys2Proof

variable {s t u : State}

/-- What every write of memory and every test of the wake unit leaves: contexts, tiles, the roster and the wake unit, who acts,
the free values; memory's canonical form and the ids of the regions are kept. Memory, the stamps and releases of its sectors,
generations, the FMC's lists and the regions' WAKEP may change. -/
structure MemWrite (s t : State) : Prop where
  ctxs : t.ctxs = s.ctxs
  tiles : t.tiles = s.tiles
  roster : t.roster = s.roster
  wake : t.wake = s.wake
  tile : t.tile = s.tile
  slot : t.slot = s.slot
  ticks : t.ticks = s.ticks
  agenda : t.agenda = s.agenda
  choices : t.choices = s.choices
  uaports : t.uaports = s.uaports
  own : t.own = s.own
  rounds : t.rounds = s.rounds
  xrds : t.xrds = s.xrds
  wf : Memory.wf s.mem = true → Memory.wf t.mem = true
  ids : (∀ p ∈ s.regions, p.2.id = p.1) → ∀ p ∈ t.regions, p.2.id = p.1

namespace MemWrite

theorem refl (s : State) : MemWrite s s := ⟨rfl, rfl, rfl, rfl, rfl, rfl, rfl, rfl, rfl, rfl, rfl, rfl, rfl, id, id⟩

theorem trans (h : MemWrite s t) (k : MemWrite t u) : MemWrite s u :=
  ⟨k.ctxs.trans h.ctxs, k.tiles.trans h.tiles, k.roster.trans h.roster, k.wake.trans h.wake, k.tile.trans h.tile,
    k.slot.trans h.slot, k.ticks.trans h.ticks, k.agenda.trans h.agenda, k.choices.trans h.choices,
    k.uaports.trans h.uaports, k.own.trans h.own, k.rounds.trans h.rounds, k.xrds.trans h.xrds, k.wf ∘ h.wf,
    k.ids ∘ h.ids⟩

/-- A fold of such writes is one. -/
theorem foldl {α : Type} {f : State → α → State} (h : ∀ s a, MemWrite s (f s a)) (l : List α) (s : State) :
    MemWrite s (l.foldl f s) := by
  induction l generalizing s with
  | nil => exact refl s
  | cons a l ih => exact (h s a).trans (ih _)

theorem ctxOf (h : MemWrite s t) (k : Nat) : t.ctxOf k = s.ctxOf k := by simp [State.ctxOf, h.ctxs]

theorem key (h : MemWrite s t) : t.key = s.key := by
  simp [State.key, State.keyAt, h.roster, h.tile, h.slot]

theorem ctx (h : MemWrite s t) : t.ctx = s.ctx := by rw [State.ctx, h.key, h.ctxOf, State.ctx]

theorem reg (h : MemWrite s t) : SameRegs s t := fun r => by rw [State.reg, h.ctx, State.reg]

theorem others (h : MemWrite s t) : SameOthers s t := fun k _ => h.ctxOf k

theorem tileAt (h : MemWrite s t) (n : Nat) : t.tileAt n = s.tileAt n := by simp [State.tileAt, h.tiles]

theorem eng (h : MemWrite s t) (e : Engine) : t.eng e = s.eng e := by simp [State.eng, h.tileAt, h.tile]

theorem inv (h : MemWrite s t) (i : s.Inv) : t.Inv := by
  obtain ⟨a, b, c, d⟩ := i
  exact ⟨h.wf a, by rwa [h.ctxs], h.ids c, by rwa [h.uaports]⟩

end MemWrite

/-! ### Writes of the FMC -/

/-- A write at a virtual address changes memory alone (R331). -/
theorem State.vaPut_memWrite (s : State) (space va : Nat) (bs : List Byte) : MemWrite s (s.vaPut space va bs) :=
  ⟨rfl, rfl, rfl, rfl, rfl, rfl, rfl, rfl, rfl, rfl, rfl, rfl, rfl, fun h => Memory.wf_memPut (Memory.wf_memPut h _) _, id⟩

theorem State.mirror_memWrite (s : State) (r : Region) : MemWrite s (s.mirror r) :=
  (s.vaPut_memWrite ..).trans (State.vaPut_memWrite ..)

/-- The mirror of a region's words leaves the regions' records alone. -/
@[simp] theorem State.mirror_regions (s : State) (r : Region) : (s.mirror r).regions = s.regions := rfl

theorem State.setRegion_memWrite (s : State) (r : Region) : MemWrite s (s.setRegion r) :=
  ⟨rfl, rfl, rfl, rfl, rfl, rfl, rfl, rfl, rfl, rfl, rfl, rfl, rfl, id, fun h p hp => by
    rcases mem_nset hp with rfl | hp
    · rfl
    · exact h p hp⟩

/-- A region's record written with the words of its RCB (R339). -/
theorem State.putRegion_memWrite (s : State) (r : Region) : MemWrite s (s.putRegion r) := by
  unfold State.putRegion
  split
  · exact s.setRegion_memWrite r
  · exact (s.setRegion_memWrite r).trans (State.mirror_memWrite ..)

/-- The record that a region's write leaves. -/
@[simp] theorem State.putRegion_regions (s : State) (r : Region) : (s.putRegion r).regions = nset s.regions r.id r := by
  unfold State.putRegion
  split <;> rfl

theorem State.postWake_memWrite (s : State) (k : Nat) : MemWrite s (s.postWake k) :=
  ⟨rfl, rfl, rfl, rfl, rfl, rfl, rfl, rfl, rfl, rfl, rfl, rfl, rfl, id, id⟩

/-- The wake unit's tests (R354). -/
theorem State.testWakes_memWrite (s : State) : MemWrite s s.testWakes := by
  refine MemWrite.foldl (fun s p => ?_) _ _
  dsimp only
  split
  · split
    · split
      · exact s.putRegion_memWrite _
      · exact s.postWake_memWrite _
    · exact .refl s
  · exact .refl s

/-- What a fold's steps keep, the fold keeps. -/
theorem foldl_keeps {α : Type} {f : State → α → State} {p : State → Prop} (h : ∀ s a, p s → p (f s a)) (l : List α)
    (hs : p s) : p (l.foldl f s) := by
  induction l generalizing s with
  | nil => exact hs
  | cons a l ih => exact ih (h s a hs)

/-- The wake unit's tests touch no byte and no region's record where no region is DRAINING (R354, R359). -/
theorem State.testWakes_of_not_draining (h : ∀ q ∈ s.regions, q.2.state ≠ .draining) :
    s.testWakes.mem = s.mem ∧ s.testWakes.regions = s.regions := by
  refine foldl_keeps (p := fun t => t.mem = s.mem ∧ t.regions = s.regions) (fun t w ht => ?_) _ ⟨rfl, rfl⟩
  dsimp only
  split
  · split
    · rename_i r hr
      rw [ht.2] at hr
      rw [if_neg (h (_, r) (mem_of_nget? hr))]
      exact ht
    · exact ht
  · exact ht

/-! ### Where the FMC's writes go -/

/-- A page found lies in HBM, at its alignment (R330): the address that an entry gives. -/
theorem walkFrom_pa {m : List Host.Cell} {va a : Nat} {ls : List (Nat × Nat × Nat × Nat)} {f : Frame}
    (hl : ∀ l ∈ ls, l ∈ pageLevels)
    (h : (∃ w d p, walkFrom m va a ls = .page f w d p) ∨ walkFrom m va a ls = .pending f ∨ walkFrom m va a ls = .moving f) :
    f.va = va / 2 ^ f.log2 * 2 ^ f.log2 ∧ f.pa + 2 ^ f.log2 ≤ hbmEnd := by
  induction ls generalizing a with
  | nil => simp [walkFrom] at h
  | cons l ls ih =>
    obtain ⟨lvl, shift, width, align⟩ := l
    simp only [walkFrom] at h
    have hm := hl _ (.head _)
    split at h
    · simp at h
    · rename_i hd
      split at h
      · rename_i hleaf
        have key : f.va = va / 2 ^ shift * 2 ^ shift ∧ f.log2 = shift ∧
            f.pa = memNat m (a + 8 * (va / 2 ^ shift % 2 ^ width)) 8 / 256 % 2 ^ 40 * 256 := by
          rcases h with ⟨w, d, p, h⟩ | h | h
          all_goals
            split at h
            · first | (cases h; exact ⟨rfl, rfl, rfl⟩) | simp at h
            · split at h
              · first | (cases h; exact ⟨rfl, rfl, rfl⟩) | simp at h
              · first | (cases h; exact ⟨rfl, rfl, rfl⟩) | simp at h
        obtain ⟨hv, hg, hp⟩ := key
        refine ⟨by rw [hv, hg], ?_⟩
        simp only [pteDefective, hleaf, if_true, Bool.or_eq_true, decide_eq_true_eq, not_or, Bool.not_eq_true'] at hd
        rw [hg, hp]
        generalize memNat m (a + 8 * (va / 2 ^ shift % 2 ^ width)) 8 / 256 % 2 ^ 40 * 256 = x at hd ⊢
        have h1 : ¬ x ≥ hbmEnd := by simpa using hd.2.1.2
        have h2 : x % 2 ^ shift = 0 := by simpa using hd.2.2
        simp only [pageLevels, List.mem_cons, Prod.mk.injEq, List.not_mem_nil, or_false] at hm
        rcases hm with ⟨rfl, rfl, -, -⟩ | ⟨rfl, rfl, -, -⟩ | ⟨rfl, rfl, -, -⟩ | ⟨rfl, rfl, -, -⟩
        · simp [pteLeaf] at hleaf
        all_goals simp only [hbmEnd] at h1 ⊢; omega
      · exact ih (fun l hl' => hl l (.tail _ hl')) h

/-- A byte that the memory manager finds lies in HBM (R330). -/
theorem State.vaKey_isHbm {space va k : Nat} (h : s.vaKey space va = some k) : isHbm k = true := by
  have key : ∀ f, ((∃ w d p, s.walk space va = .page f w d p) ∨ s.walk space va = .pending f ∨ s.walk space va = .moving f) →
      f.pa + (va - f.va) < hbmEnd := by
    intro f hf
    unfold State.walk at hf
    split at hf
    · split at hf
      · simp at hf
      · obtain ⟨hv, hp⟩ := walkFrom_pa (fun _ h => h) hf
        have : va - f.va < 2 ^ f.log2 := by
          rw [hv]
          have h1 := Nat.div_add_mod va (2 ^ f.log2)
          have h2 := Nat.mod_lt va (Nat.two_pow_pos f.log2)
          rw [Nat.mul_comm (va / 2 ^ f.log2)]
          omega
        omega
    · simp at hf
  unfold State.vaKey at h
  simp only [isHbm, decide_eq_true_eq]
  split at h
  · rename_i f w d p e; cases h; exact key f (.inl ⟨w, d, p, e⟩)
  · rename_i f e; cases h; exact key f (.inr (.inl e))
  · rename_i f e; cases h; exact key f (.inr (.inr e))
  · simp at h

theorem SameLocal.refl (s : State) : SameLocal s s := fun _ _ => rfl

theorem SameLocal.trans (h : SameLocal s t) (k : SameLocal t u) : SameLocal s u := fun a ha => (k a ha).trans (h a ha)

theorem State.vaPut_sameLocal (s : State) (space va : Nat) (bs : List Byte) : SameLocal s (s.vaPut space va bs) := by
  intro a ha
  refine (memGet_memPut_other (fun c hc e => ?_) _).trans (memGet_memPut_other (fun c hc e => ?_) _)
  · obtain ⟨x, -, hx⟩ := List.mem_filterMap.1 hc
    split at hx
    · split at hx
      · rename_i hk
        cases hx
        simp [← e, hk] at ha
      · simp at hx
    · simp at hx
  obtain ⟨x, -, hx⟩ := List.mem_filterMap.1 hc
  split at hx
  · rename_i k hk
    cases hx
    simp [← e, s.vaKey_isHbm hk] at ha
  · simp at hx

theorem State.putRegion_sameLocal (s : State) (r : Region) : SameLocal s (s.putRegion r) := by
  unfold State.putRegion
  split
  · exact fun _ _ => rfl
  · exact SameLocal.trans (fun a ha => (s.setRegion r).vaPut_sameLocal _ _ _ a ha) (State.vaPut_sameLocal _ _ _ _)

theorem State.testWakes_sameLocal (s : State) : SameLocal s s.testWakes := by
  refine foldl_keeps (p := SameLocal s) (fun t w ht => ?_) _ (.refl s)
  dsimp only
  split
  · split
    · split
      · exact ht.trans (t.putRegion_sameLocal _)
      · exact ht
    · exact ht
  · exact ht

/-! ### The write of memory -/

/-- A ring of a registered word (R345, R359). -/
theorem State.ring_memWrite (s : State) (space : Nat) (addr : Word) : MemWrite s (s.ring space addr) := by
  refine MemWrite.trans (t := { s with fmc := { s.fmc with
    rings := if s.fmc.rings.contains (space, addr) then s.fmc.rings else s.fmc.rings ++ [(space, addr)] } })
    ⟨rfl, rfl, rfl, rfl, rfl, rfl, rfl, rfl, rfl, rfl, rfl, rfl, rfl, id, id⟩ (MemWrite.foldl (fun s p => ?_) _ _)
  split
  · exact s.putRegion_memWrite _
  · exact .refl s

/-- The rings of a write (R345). -/
theorem State.ringKeys_memWrite (s : State) (keys : List Nat) : MemWrite s (s.ringKeys keys) := by
  unfold State.ringKeys
  dsimp only
  split
  · exact .refl s
  · refine MemWrite.foldl (fun s d => ?_) _ _
    split
    · split
      · exact s.ring_memWrite ..
      · exact .refl s
    · exact .refl s

/-- Bytes reaching memory. -/
theorem State.putBytes_memWrite (s : State) (cells : List Host.Cell) (marked atomic : Bool) :
    MemWrite s (s.putBytes cells marked atomic) :=
  have h : MemWrite s ({ s with
      mem := memPut s.mem (cells.map s.guard), rels := relsAfter s.rels (cells.map Prod.fst) marked atomic } : State) :=
    ⟨rfl, rfl, rfl, rfl, rfl, rfl, rfl, rfl, rfl, rfl, rfl, rfl, rfl, fun h => Memory.wf_memPut h _, id⟩
  have g (v : State) (keys : List Nat) : MemWrite v (v.raiseGens keys) :=
    ⟨rfl, rfl, rfl, rfl, rfl, rfl, rfl, rfl, rfl, rfl, rfl, rfl, rfl, id, id⟩
  ((h.trans (g _ _)).trans (State.ringKeys_memWrite ..)).trans (State.testWakes_memWrite _)

/-- A write by an agent. -/
theorem State.write_memWrite (s : State) (c : Clock) (a : Nat) (cells : List Host.Cell) (marked atomic : Bool) :
    MemWrite s (s.write c a cells marked atomic) :=
  MemWrite.trans (t := { s with
      sectors := noteWriter (stampWrite s.sectors c a (cells.map Prod.fst) marked) (s.writerOf a)
        (BitVec.ofNat 16 (epochOf c a)) (cells.map Prod.fst) })
    ⟨rfl, rfl, rfl, rfl, rfl, rfl, rfl, rfl, rfl, rfl, rfl, rfl, rfl, id, id⟩ (State.putBytes_memWrite ..)

/-- All that a write does to memory whose bytes all lie outside HBM (R345, R354, R359): it rings nothing; no byte outside HBM but
its own changes, and where no region is DRAINING, none in HBM and no region's record either. -/
theorem State.write_local (s : State) (c : Clock) (a : Nat) (cells : List Host.Cell) (marked atomic : Bool)
    (h : ∀ x ∈ cells, isHbm x.1 = false) :
    let t := s.write c a cells marked atomic
    (∀ j, isHbm j = false → memGet t.mem j = memGet (memPut s.mem cells) j) ∧
      ((∀ q ∈ s.regions, q.2.state ≠ .draining) → t.mem = memPut s.mem cells ∧ t.regions = s.regions) := by
  have e : (cells.map (·.1)).filter isHbm = [] := by
    simp only [List.filter_eq_nil_iff, List.mem_map]
    rintro _ ⟨x, hx, rfl⟩
    simp [h x hx]
  have g (v : State) : cells.map v.guard = cells := by
    conv => rhs; rw [← List.map_id cells]
    exact List.map_congr_left fun x hx => by simp [State.guard, h x hx]
  simp only [State.write, State.putBytes, State.ringKeys, e, List.isEmpty_nil, if_true, g]
  exact ⟨fun j hj => State.testWakes_sameLocal _ j hj, fun hd => State.testWakes_of_not_draining hd⟩

/-- Every byte outside HBM that a write does not name reads as before, where none of its own lies in HBM; where no region is
DRAINING, every byte in HBM too. -/
theorem State.write_other (s : State) (c : Clock) (a : Nat) (k : Nat) (bs : List Byte) (marked atomic : Bool)
    (h : ∀ x ∈ cellsFrom k bs, isHbm x.1 = false) (j : Nat) (hj : j < k ∨ k + bs.length ≤ j)
    (hh : isHbm j = false ∨ ∀ q ∈ s.regions, q.2.state ≠ .draining) :
    memGet (s.write c a (cellsFrom k bs) marked atomic).mem j = memGet s.mem j := by
  have e : memGet (memPut s.mem (cellsFrom k bs)) j = memGet s.mem j :=
    memGet_memPut_other (fun x hx => by have := cellsFrom_key hx; omega) _
  rcases hh with hh | hh
  · exact ((s.write_local c a _ marked atomic h).1 j hh).trans e
  · rw [((s.write_local c a _ marked atomic h).2 hh).1]; exact e

/-- The number written reads back, where none of its bytes lies in HBM. -/
theorem State.write_reads (s : State) (c : Clock) (a : Nat) (k n v : Nat) (marked atomic : Bool)
    (h : ∀ x ∈ cellsFrom k (leBytes n v), isHbm x.1 = false) :
    memNat (s.write c a (cellsFrom k (leBytes n v)) marked atomic).mem k n = v % 256 ^ n := by
  rw [← memNat_memPutNat s.mem k n v, memNat, memNat]
  congr 1
  refine List.map_congr_left fun i hi => (s.write_local c a _ marked atomic h).1 _ ?_
  obtain ⟨x, hx, e⟩ := exists_mem_cellsFrom k (leBytes n v) i (by simpa using List.mem_range.1 hi)
  exact e ▸ h x hx

/-- The note of a read changes the stamps alone (R303). -/
theorem noteRead_memWrite (s : State) (c : Clock) (a : Nat) (keys : List Nat) (marked : Bool) :
    MemWrite s (noteRead s c a keys marked) :=
  ⟨rfl, rfl, rfl, rfl, rfl, rfl, rfl, rfl, rfl, rfl, rfl, rfl, rfl, id, id⟩

/-- An arrival at a synchronisation word (R29). -/
theorem State.sywArrive_memWrite (s : State) (c : Clock) (a tile k bytes scope : Nat) :
    MemWrite s (s.sywArrive c a tile k bytes scope) :=
  (State.write_memWrite ..).trans ⟨rfl, rfl, rfl, rfl, rfl, rfl, rfl, rfl, rfl, rfl, rfl, rfl, rfl, id, id⟩

/-- A write of a command: memory takes the bytes, or nothing is said. -/
theorem State.runWrite_memWrite {s u : State} {e : Engine} {r : Run} {a : Nat} {bs : List Byte} {marked atomic : Bool}
    (h : s.runWrite e r a bs marked atomic = .done u) : MemWrite s u := by
  unfold State.runWrite at h
  split at h
  · simp at h
  · split at h
    · simp at h
    · split at h
      · simp at h
      · cases h; exact State.write_memWrite ..

/-- A command's arrival at a synchronisation word. -/
theorem State.runArrive_memWrite {s u : State} {r : Run} {a k bytes scope : Nat}
    (h : s.runArrive r a k bytes scope = .done u) : MemWrite s u := by
  unfold State.runArrive at h
  split at h
  · simp at h
  · split at h
    · simp at h
    · split at h
      · simp at h
      · cases h; exact State.sywArrive_memWrite ..

/-- One record written to a ring (R313). -/
theorem State.putRecord_memWrite (s : State) (d : Region) (r : FaultRec) : MemWrite s (s.putRecord d r) := by
  unfold State.putRecord
  dsimp only
  have h := (s.vaPut_memWrite d.space (d.words.fqbase.toNat + 64 * (d.fqhead.toNat % 2 ^ (d.words.fqsize.toNat + 4)))
    r.bytes).trans (State.putRegion_memWrite _ { d with fqhead := d.fqhead + 1 })
  split
  · exact h
  · split
    · exact h
    · split
      · exact h
      · exact h.trans (State.sywArrive_memWrite ..)

/-! ### The tables that the FMC writes -/

/-- A page-table entry written (R331). -/
theorem State.setPte_memWrite (s : State) (pte v : Nat) : MemWrite s (s.setPte pte v) :=
  ⟨rfl, rfl, rfl, rfl, rfl, rfl, rfl, rfl, rfl, rfl, rfl, rfl, rfl, fun h => Memory.wf_memPutNat h .., id⟩

/-- Canonical memory less some cells is canonical. -/
theorem Memory.wf_filter {m : List Host.Cell} (h : Memory.wf m = true) (p : Host.Cell → Bool) :
    Memory.wf (m.filter p) = true := by
  obtain ⟨hs, hn⟩ := (Memory.wf_iff m).1 h
  exact (Memory.wf_iff _).2 ⟨nsorted_filter hs p, fun c hc => hn c (List.mem_filter.1 hc).1⟩

/-- A range made to read as zeros (R303, R352). -/
theorem State.wipe_memWrite (s : State) (r : Nat × Nat) : MemWrite s (s.wipe r) :=
  ⟨rfl, rfl, rfl, rfl, rfl, rfl, rfl, rfl, rfl, rfl, rfl, rfl, rfl, fun h => Memory.wf_filter h _, id⟩

/-- A byte of a wiped range reads as one that nothing has written; every other byte reads as before. -/
theorem State.memGet_wipe (s : State) (r : Nat × Nat) (a : Nat) :
    memGet (s.wipe r).mem a = if within r a then Config.unwrittenByte else memGet s.mem a := by
  show nget _ (s.mem.filter fun c => !within r c.1) a = _
  rw [nget_filter_key _ s.mem (fun k => !within r k) a]
  cases within r a <;> rfl

/-- Frames taken by the manager touch nothing but its own list (log entry 32). -/
theorem State.takeFrames_memWrite {n a : Nat} (h : s.takeFrames n = some (a, t)) : MemWrite s t := by
  unfold State.takeFrames at h
  obtain ⟨x, -, e⟩ := Option.map_eq_some_iff.1 h
  cases e
  exact ⟨rfl, rfl, rfl, rfl, rfl, rfl, rfl, rfl, rfl, rfl, rfl, rfl, rfl, id, id⟩

/-- The bytes of a range put over another (R317, R336). -/
theorem State.copyRange_memWrite (s : State) (a b n : Nat) : MemWrite s (s.copyRange a b n) :=
  (s.wipe_memWrite (b, n)).trans
    ⟨rfl, rfl, rfl, rfl, rfl, rfl, rfl, rfl, rfl, rfl, rfl, rfl, rfl, fun h => Memory.wf_memPut h _, id⟩

/-- A page moved to another frame (R336). -/
theorem State.moveRange_memWrite (s : State) (a b n : Nat) : MemWrite s (s.moveRange a b n) :=
  ((s.wipe_memWrite (b, n)).trans (State.wipe_memWrite _ (a, n))).trans
    ⟨rfl, rfl, rfl, rfl, rfl, rfl, rfl, rfl, rfl, rfl, rfl, rfl, rfl, fun h => Memory.wf_memPut h _, id⟩

/-- A frame filled by MAP (R384). -/
theorem State.fillFrame_memWrite (s : State) (source : Option Nat) (a n : Nat) : MemWrite s (s.fillFrame source a n) := by
  unfold State.fillFrame
  dsimp only
  split
  · exact s.wipe_memWrite _
  · exact (s.wipe_memWrite (a, n)).trans
      ⟨rfl, rfl, rfl, rfl, rfl, rfl, rfl, rfl, rfl, rfl, rfl, rfl, rfl, fun h => Memory.wf_memPut h _, id⟩

/-- A page's leaf written, with the tables it needs (R329). -/
theorem State.putLeaf_memWrite {va stop e a : Nat} {ls : List (Nat × Nat × Nat × Nat)}
    (h : s.putLeaf va stop e a ls = some u) : MemWrite s u := by
  induction ls generalizing s a with
  | nil => simp [State.putLeaf] at h
  | cons l ls ih =>
    obtain ⟨lvl, shift, width, al⟩ := l
    simp only [State.putLeaf] at h
    split at h
    · split at h
      · simp at h
      · cases h; exact s.setPte_memWrite ..
    · split at h
      · simp at h
      · split at h
        · exact ih h
        · split at h
          · simp at h
          · rename_i hf
            exact (((State.takeFrames_memWrite hf).trans (State.wipe_memWrite ..)).trans (State.setPte_memWrite ..)).trans (ih h)

/-- The root table of an address space, made where there is none. -/
theorem State.spaceRoot_memWrite {space r : Nat} (h : s.spaceRoot space = some (r, u)) : MemWrite s u := by
  unfold State.spaceRoot at h
  split at h
  · cases h; exact .refl _
  · obtain ⟨⟨x, v⟩, hf, e⟩ := Option.map_eq_some_iff.1 h
    cases e
    exact ((State.takeFrames_memWrite hf).trans (State.wipe_memWrite _ _)).trans
      ⟨rfl, rfl, rfl, rfl, rfl, rfl, rfl, rfl, rfl, rfl, rfl, rfl, rfl, id, id⟩

/-- A page mapped (R384). -/
theorem State.mapPage_memWrite {space va shift : Nat} {w : Bool} {source : Option Nat}
    (h : s.mapPage space va shift w source = some u) : MemWrite s u := by
  unfold State.mapPage at h
  split at h
  · simp at h
  · rename_i root v hv
    split at h
    · simp at h
    · rename_i f v' hf
      split at h
      · simp at h
      · rename_i x hx
        have h2 := (State.spaceRoot_memWrite hv).trans
          (((State.takeFrames_memWrite hf).trans (v'.fillFrame_memWrite source f (2 ^ shift))).trans (State.putLeaf_memWrite hx))
        cases h
        exact h2.trans ⟨rfl, rfl, rfl, rfl, rfl, rfl, rfl, rfl, rfl, rfl, rfl, rfl, rfl, id, id⟩

/-- Pages mapped in order. -/
theorem State.mapPages_memWrite {s u : State} {space shift : Nat} {w : Bool} {n va : Nat} {source : Option Nat}
    (h : s.mapPages space shift w n va source = some u) : MemWrite s u := by
  induction n generalizing s va source with
  | zero => cases h; exact .refl _
  | succ n ih =>
    simp only [State.mapPages] at h
    split at h
    · simp at h
    · rename_i v hv; exact (State.mapPage_memWrite hv).trans (ih h)

/-- The D bits that a host's write sets (R385). -/
theorem State.dirty_memWrite (s : State) (space va n : Nat) : MemWrite s (s.dirty space va n) := by
  refine MemWrite.foldl (fun s i => ?_) _ _
  split
  · split
    · exact .refl s
    · exact s.setPte_memWrite ..
  · exact .refl s

/-- A host's bytes reaching memory (R385). -/
theorem State.hostWrite_memWrite (s : State) (cells : List Host.Cell) : MemWrite s (s.hostWrite cells) := s.write_memWrite ..

end Sys2Proof.Machine
end

