-- ==== Sys2Proof/Laws/Invariant.lean ====
section
/-! SUPPORT. The machine's invariant under the shared operations: writes of contexts and tiles, traps, the fault queue, the end of
commands, of sections and of regions. -/

namespace Sys2Proof.Machine

open Sys2Proof

variable {s t : State}

/-- A state with the same memory, contexts, regions and ports meets the invariant with the other. -/
theorem State.Inv.of_eq (h : s.Inv) (hm : t.mem = s.mem) (hc : t.ctxs = s.ctxs) (hr : t.regions = s.regions)
    (hu : t.uaports = s.uaports) : t.Inv := by
  simpa only [State.Inv, hm, hc, hr, hu] using h

/-- A context that holds nothing under x0 may be written (R13). -/
theorem State.Inv.setCtxOf (h : s.Inv) (k : Nat) {c : Context} (hc : nget? c.x 0 = none) : (s.setCtxOf k c).Inv :=
  ⟨h.1, fun p hp => by
    rcases mem_nset hp with rfl | hp
    · exact hc
    · exact h.2.1 p hp, h.2.2⟩

/-- No context holds anything under x0. -/
theorem State.Inv.x0 (h : s.Inv) (k : Nat) : nget? (s.ctxOf k).x 0 = none := by
  unfold State.ctxOf
  rw [nget_eq]
  cases e : nget? s.ctxs k with
  | none => rfl
  | some c => exact h.2.1 _ (mem_of_nget? e)

/-- A register write holds nothing under x0 (R13). -/
theorem Context.setReg_x0 {c : Context} (h : nget? c.x 0 = none) (r : Reg) (v : Word) : nget? (c.setReg r v).x 0 = none := by
  unfold Context.setReg
  split
  · exact h
  · have : r.toNat ≠ 0 := fun e => ‹¬r = 0› (BitVec.eq_of_toNat_eq (by simpa using e))
    exact (nget?_nset_ne _ this v).trans h

theorem State.Inv.setCtx (h : s.Inv) {c : Context} (hc : nget? c.x 0 = none) : (s.setCtx c).Inv := h.setCtxOf _ hc

/-- A write of the acting context that leaves its registers. -/
theorem State.Inv.setCtx_of_x (h : s.Inv) {c : Context} (hc : c.x = s.ctx.x) : (s.setCtx c).Inv :=
  h.setCtx (by rw [hc]; exact h.x0 _)

theorem State.Inv.done (h : s.Inv) : s.done.Inv := h.setCtx_of_x rfl

theorem State.Inv.wait (h : s.Inv) (i : Instr) : (s.wait i).Inv := h.setCtx_of_x rfl

theorem State.Inv.release (h : s.Inv) : s.release.Inv := h.setCtx_of_x rfl

theorem State.Inv.join (h : s.Inv) (c : Clock) : (s.join c).Inv := h.setCtx_of_x rfl

theorem State.Inv.finish (h : s.Inv) (rd : Reg) (v : Word) : (s.finish rd v).Inv :=
  h.setCtx (Context.setReg_x0 (h.x0 _) rd v)

theorem State.Inv.finishWait (h : s.Inv) (rd : Reg) (v : Word) : (s.finishWait rd v).Inv := (h.finish rd v).setCtx_of_x rfl

theorem State.Inv.setTile (h : s.Inv) (n : Nat) (v : Tile) : (s.setTile n v).Inv := h

theorem State.Inv.setEng (h : s.Inv) (e : Engine) (v : EngineSt) : (s.setEng e v).Inv := h

theorem State.Inv.setRegion (h : s.Inv) (r : Region) : (s.setRegion r).Inv := (s.setRegion_memWrite r).inv h

theorem State.Inv.putRegion (h : s.Inv) (r : Region) : (s.putRegion r).Inv := (s.putRegion_memWrite r).inv h

theorem State.Inv.testWakes (h : s.Inv) : s.testWakes.Inv := s.testWakes_memWrite.inv h

theorem State.Inv.write (h : s.Inv) (c : Clock) (a : Nat) (cells : List Host.Cell) (marked atomic : Bool) :
    (s.write c a cells marked atomic).Inv := (s.write_memWrite c a cells marked atomic).inv h

/-- A fold of steps that keep the invariant keeps it. -/
theorem State.Inv.foldl {α : Type} {f : State → α → State} (hf : ∀ s a, s.Inv → (f s a).Inv) (l : List α) (h : s.Inv) :
    (l.foldl f s).Inv := by
  induction l generalizing s with
  | nil => exact h
  | cons a l ih => exact ih (hf s a h)

/-! ### Commands and sections -/

theorem State.Inv.endRun (h : s.Inv) (tile : Nat) (e : Engine) (id : Nat) : (s.endRun tile e id).Inv := by
  unfold State.endRun
  split <;> exact h

theorem State.Inv.setRun (h : s.Inv) (e : Engine) (r : Run) : (s.setRun e r).Inv := h

theorem State.Inv.complete (h : s.Inv) (e : Engine) (r : Run) : (s.complete e r).Inv := (h.setRun e r).endRun ..

theorem State.Inv.stopRun (h : s.Inv) (tile : Nat) (e : Engine) (r : Run) : (s.stopRun tile e r).Inv := by
  unfold State.stopRun
  split
  · exact h
  · split
    · exact h
    · exact h.endRun ..

theorem State.Inv.cancelSect (h : s.Inv) (tile : Nat) (e : Engine) (n : BitVec 9) : (s.cancelSect tile e n).1.Inv :=
  .foldl (s := s.setTile tile _) (fun _ r hs => hs.stopRun tile e r) _ h

theorem State.Inv.cancelSects (h : s.Inv) (tile : Nat) (e : Engine) (l : List (BitVec 9)) (n : Nat) :
    (s.cancelSects tile e l n).1.Inv := by
  induction l generalizing s n with
  | nil => exact h
  | cons q l ih => exact ih (h.cancelSect tile e q) _

theorem State.Inv.cancelAll (h : s.Inv) (tile : Nat) (e : Engine) : (s.cancelAll tile e).Inv := by
  unfold State.cancelAll
  exact .foldl (fun _ _ hs => hs.endRun ..) _ ((h.setTile ..).cancelSects ..)

/-- What must end is recorded (R361). -/
theorem State.Inv.endRegion (h : s.Inv) (rid : Nat) (code : BitVec 12) (value : BitVec 32) :
    (s.endRegion rid code value).Inv := by
  unfold State.endRegion
  split
  · exact h
  · split
    · exact h
    · exact State.Inv.of_eq (h.setRegion _) rfl rfl rfl rfl

/-- A region's contexts and sections are stopped (R361 step 1). -/
theorem State.Inv.stopRegion (h : s.Inv) (r : Region) : (s.stopRegion r).Inv := by
  unfold State.stopRegion State.cancelRegion
  refine State.Inv.of_eq (s := _) (.foldl (fun _ _ hs => .foldl (fun _ _ hs => hs.cancelAll ..) _ hs) _ ?_) rfl rfl rfl rfl
  refine ⟨h.1, fun p hp => ?_, h.2.2⟩
  obtain ⟨q, hq, rfl⟩ := List.mem_map.1 hp
  split
  · exact h.2.1 q hq
  · exact h.2.1 q hq

/-- ABORT (R89). -/
theorem State.Inv.abortRegion (h : s.Inv) (rid : Nat) (code : BitVec 12) (value : BitVec 32) :
    (s.abortRegion rid code value).Inv := by
  unfold State.abortRegion
  dsimp only
  split
  · split
    · exact h.endRegion ..
    · exact (h.endRegion ..).stopRegion _
  · exact h.endRegion ..

/-! ### The fault queue and traps -/

theorem State.Inv.writeRecords (h : s.Inv) (l : List FaultRec) (blocked : List Nat) : (s.writeRecords l blocked).Inv := by
  induction l generalizing s blocked with
  | nil => exact h
  | cons r l ih =>
    simp only [State.writeRecords]
    have keep (u : State) (x : FaultRec) (hu : u.Inv) :
        ({ u with fmc := { u.fmc with records := u.fmc.records ++ [x] } } : State).Inv := hu
    have put (u : State) (d : Region) (x : FaultRec) (hu : u.Inv) : (u.putRecord d x).Inv := (u.putRecord_memWrite d x).inv hu
    split
    · apply ih
      split
      · exact h
      · exact h.endRegion ..
    · split
      · split
        · exact ih h _
        · split
          · exact ih (h.endRegion ..) _
          · apply ih; exact keep _ _ h
      · have hp (u : State) (d : Region) (x : FaultRec) (n : Nat) (hu : u.Inv) :
            ((match nget? u.regions r.region with | some q => u.setRegion { q with seq := n } | none => u).putRecord d x).Inv := by
          apply put
          split
          · exact hu.setRegion _
          · exact hu
        have on (u : State) (hu : u.Inv) (x : FaultRec) (b : Prop) [Decidable b] :
            (if r.info = true then u.writeRecords l blocked
              else if b then (u.endRegion r.region (r.trap.extractLsb' 0 12) 0).writeRecords l blocked
              else ({ u with fmc := { u.fmc with records := u.fmc.records ++ [x] } } : State).writeRecords l blocked).Inv := by
          split
          · exact ih hu _
          · split
            · exact ih (hu.endRegion ..) _
            · exact ih (keep _ _ hu) _
        exact on _ (hp s _ _ _ h) _ _

theorem State.Inv.flushRecords (h : s.Inv) (new : List FaultRec) : (s.flushRecords new).Inv :=
  h.writeRecords ..

theorem State.Inv.event (h : s.Inv) (rid : Nat) (code : BitVec 12) (loc : BitVec 32) (tval : Word) (info : Bool) :
    (s.event rid code loc tval info).Inv := h.flushRecords _

theorem State.Inv.freeze (h : s.Inv) (key tile slot : Nat) (trap tval epc empc : Word) (e g : Option (Engine × Nat)) :
    (s.freeze key tile slot trap tval epc empc e g).Inv := by
  unfold State.freeze
  have hc : (s.setCtxOf key { s.ctxOf key with
      frozen := true, resolving := e, waiting := none, walk := none, gatherNow := none, expanding := none }).Inv :=
    h.setCtxOf key (h.x0 key)
  dsimp only
  split
  · exact hc
  · exact hc.flushRecords _

/-- A trap, wherever it goes (R90, R313). -/
theorem State.Inv.trap (h : s.Inv) (code : BitVec 12) (tval : Word) : (s.trap code tval).Inv := by
  unfold State.trap
  dsimp only
  split
  · exact h.setCtx (h.x0 _)
  · exact h.freeze ..

theorem State.Inv.haltRun (h : s.Inv) (tile : Nat) (e : Engine) (r : Run) : (s.haltRun tile e r).Inv := h

theorem State.Inv.resolveFault (h : s.Inv) (tile : Nat) (e : Engine) : (s.resolveFault tile e).Inv := by
  unfold State.resolveFault
  dsimp only
  split
  · exact h
  · split
    · exact h
    · split
      · split
        · exact h
        · split
          · exact State.Inv.haltRun (s := s.setTile ..) h ..
          · split
            · apply State.Inv.haltRun; exact State.Inv.setTile (State.Inv.setTile h ..) ..
            · exact State.Inv.endRun (s := s.setTile ..) h ..
      · exact h

theorem State.Inv.resolveIn (h : s.Inv) (r : Region) (e : Engine) (rank : Nat) : (s.resolveIn r e rank).Inv := by
  unfold State.resolveIn
  split
  · exact h.setRegion _
  · exact h.resolveFault ..
  · exact h

theorem State.Inv.resolveFor (h : s.Inv) (key : Nat) (p : Engine × Nat) : (s.resolveFor key p).Inv := by
  unfold State.resolveFor
  split
  · exact h.resolveIn ..
  · split
    · exact h.resolveFault ..
    · exact h

theorem State.Inv.trapReturn (h : s.Inv) : s.trapReturn.Inv := by
  unfold State.trapReturn
  dsimp only
  split
  · apply State.Inv.resolveFor; exact h.setCtx_of_x rfl
  · exact h.setCtx_of_x rfl

theorem State.Inv.cutExpansion (h : s.Inv) : s.cutExpansion.Inv := by
  unfold State.cutExpansion
  split
  · exact h
  · exact .foldl (fun _ _ hs => hs.cancelSect ..) _ (h.setCtx_of_x rfl)

theorem State.Inv.deliverFault (h : s.Inv) : s.deliverFault.Inv := by
  unfold State.deliverFault
  have hs : (if s.faultDue then s.cutExpansion else s).Inv := by
    split
    · exact h.cutExpansion
    · exact h
  generalize (if s.faultDue then s.cutExpansion else s) = u at hs
  dsimp only
  split
  · exact hs
  · split
    · exact hs
    · split
      · apply State.Inv.freeze; exact hs.setCtx_of_x rfl
      · split
        · exact hs.setCtx (hs.x0 _)
        · apply State.Inv.freeze; exact hs.setCtx_of_x rfl

theorem State.Inv.engineFault (h : s.Inv) (tile : Nat) (e : Engine) (owner : Nat) (run : Option Nat) (f : EngFault) :
    (s.engineFault tile e owner run f).Inv := State.Inv.setCtxOf (s := s.setTile ..) h _ (h.x0 _)

theorem State.Inv.postFault (h : s.Inv) (tile : Nat) (e : Engine) (r : Run) (code : BitVec 12) (tval : Word) :
    (s.postFault tile e r code tval).Inv := h.engineFault ..

theorem State.Inv.faultNow (h : s.Inv) (e : Engine) (r : Run) (code : BitVec 12) (tval : Word) :
    (s.faultNow e r code tval).Inv := (h.setRun e r).postFault ..

theorem State.Inv.runFault (h : s.Inv) (tile : Nat) (e : Engine) (r : Run) (code : BitVec 12) (tval : Word) :
    (s.runFault tile e r code tval).Inv := by
  unfold State.runFault
  split
  · exact h
  · exact h.postFault ..

theorem State.Inv.faultAt (h : s.Inv) (e : Engine) (r : Run) (code : BitVec 12) (tval : Word) :
    (s.faultAt e r code tval).Inv := (h.setRun e r).runFault ..

/-! ### Waits that park, stores held back -/

theorem State.Inv.park (h : s.Inv) (d : WaitDesc) : (s.park d).Inv := by
  unfold State.park
  exact State.Inv.testWakes (s := _) (State.Inv.setCtx (s := s.setTile ..) h (h.x0 _))

theorem State.Inv.parkOrWait (h : s.Inv) (i : Instr) (d : WaitDesc) : (s.parkOrWait i d).Inv := by
  unfold State.parkOrWait
  split
  · exact h.park d
  · exact h.wait i

theorem State.Inv.performStore (h : s.Inv) : s.performStore.Inv := by
  unfold State.performStore
  split
  · exact h
  · rename_i p rest _
    have hs : ({ s with sectors := s.noteLate p } : State).Inv := h
    exact (State.putBytes_memWrite _ _ _ _).inv (hs.setCtx_of_x (c := { s.ctx with stores := rest }) rfl)

theorem State.Inv.performStores (h : s.Inv) : s.performStores.Inv := .foldl (fun _ _ hs => hs.performStore) _ h

/-! ### Memory rewritten by the machine itself -/

/-- The D bit that a translation sets (R331). -/
theorem State.Inv.useLeaf (h : s.Inv) (wr : Bool) (e : TlbEntry) : (s.useLeaf wr e).Inv := by
  unfold State.useLeaf
  dsimp only
  split
  · exact ⟨Memory.wf_memPutNat h.1 .., h.2⟩
  · exact h

theorem State.Inv.wipe (h : s.Inv) (r : Nat × Nat) : (s.wipe r).Inv := (s.wipe_memWrite r).inv h

theorem State.Inv.copyRange (h : s.Inv) (a b n : Nat) : (s.copyRange a b n).Inv := (s.copyRange_memWrite a b n).inv h

/-- A configuration image loaded into the array (R161). -/
theorem State.Inv.loadImage (h : s.Inv) (im : CfgImage) : (s.loadImage im).1.Inv := by
  unfold State.loadImage
  dsimp only
  apply State.Inv.setTile
  exact State.Inv.foldl (fun _ _ hs => State.Inv.setTile hs ..) _ h

/-- What is done at another tile. -/
theorem State.Inv.onTile {f : State → State} (hf : ∀ u, u.Inv → (f u).Inv) (h : s.Inv) (tile : Nat) :
    (s.onTile tile f).Inv := hf { s with tile := tile } h

/-- A tile's load at a launch (R352): its memory, its units, its launch configuration. -/
theorem State.Inv.loadTile (h : s.Inv) (r : Region) (im : Option ImageTile) (tile : Nat) : (s.loadTile r im tile).1.Inv := by
  have hb : ((((s.rouse tile).wipe (scratchRange tile)).wipe (shareRange tile)).setTile tile
      ((((s.rouse tile).wipe (scratchRange tile)).wipe (shareRange tile)).tileAt tile).bare).Inv :=
    State.Inv.setTile (State.Inv.wipe (State.Inv.wipe (s := s.rouse tile) h _) _) ..
  unfold State.loadTile
  dsimp only
  split
  · exact hb
  · rename_i im
    have hm (m : List Host.Cell) (u : State) (hu : u.Inv) : ({ u with mem := memPut u.mem m } : State).Inv :=
      ⟨Memory.wf_memPut hu.1 _, hu.2⟩
    split
    · apply hm; exact hb
    · split
      · apply hm; exact hb
      · apply State.Inv.onTile
        · intro u hu; exact (hu.loadImage _).setTile ..
        · apply hm; exact hb

/-- The reset of a partition (R323). -/
theorem State.Inv.resetPart (h : s.Inv) (p : Partition) : (s.resetPart p).Inv := by
  unfold State.resetPart
  split
  · refine State.Inv.setTile (State.Inv.wipe (.foldl (fun u k hu => ?_) _ h) _) ..
    dsimp only
    split
    · exact hu.setCtxOf k rfl
    · exact hu
  · exact State.Inv.of_eq (h.wipe _) rfl rfl rfl rfl
  · exact h
  · exact ⟨Memory.wf_filter h.1 _, h.2⟩
  · exact ⟨h.1, h.2.1, h.2.2.1, nsorted_nset h.2.2.2 _ _⟩

end Sys2Proof.Machine
end

