-- ==== Sys2Proof/Laws/Engine.lean ====
section
/-! SUPPORT. What the engines' shared operations do: a command started, its record written, its end, its fault, and the points and
extents it lets go. -/

namespace Sys2Proof.Machine

open Sys2Proof

variable {s t u : State}

/-! ### Lists of commands -/

/-- A test changed where it holds finds the changed element. -/
theorem lfind_lmod {α : Type} {p : α → Bool} {f : α → α} (hf : ∀ a, p a = true → p (f a) = true) (l : List α) :
    lfind p (lmod p f l) = (lfind p l).map f := by
  induction l with
  | nil => rfl
  | cons a l ih =>
    by_cases h : p a = true
    · simp [lmod, lfind, h, hf a h]
    · simp [lmod, lfind, h, ih]

/-- A test that nothing passes drops nothing. -/
theorem ldrop_of_lfind {α : Type} {p : α → Bool} {l : List α} (h : lfind p l = none) : ldrop p l = l := by
  induction l with
  | nil => rfl
  | cons a l ih =>
    by_cases ha : p a = true
    · simp [lfind, ha] at h
    · simp [lfind, ha] at h
      simp [ldrop, ha, ih h]

/-- A dropped element is the first that the test accepts, changed or not. -/
theorem ldrop_lmod {α : Type} {p : α → Bool} {f : α → α} (hf : ∀ a, p a = true → p (f a) = true) (l : List α) :
    ldrop p (lmod p f l) = ldrop p l := by
  induction l with
  | nil => rfl
  | cons a l ih =>
    by_cases h : p a = true
    · simp [lmod, ldrop, h, hf a h]
    · simp [lmod, ldrop, h, ih]

/-- What is found passes the test. -/
theorem lfind_some {α : Type} {p : α → Bool} {l : List α} {a : α} (h : lfind p l = some a) : p a = true ∧ a ∈ l := by
  induction l with
  | nil => simp [lfind] at h
  | cons b l ih =>
    by_cases hb : p b = true
    · simp [lfind, hb] at h; subst h; exact ⟨hb, List.mem_cons_self ..⟩
    · simp [lfind, hb] at h; exact ⟨(ih h).1, List.mem_cons_of_mem _ (ih h).2⟩

/-! ### A command's record -/

/-- A command's record written is the one found by its number. -/
theorem State.run?_setRun {e : Engine} {r q : Run} (h : (s.eng e).run? r.id = some q) :
    ((s.setRun e r).eng e).run? r.id = some r := by
  have : lfind (fun x => x.id = r.id) (lmod (fun x => x.id = r.id) (fun _ => r) (s.eng e).runs) = (some q).map fun _ => r := by
    rw [lfind_lmod (by simp)]
    exact congrArg _ h
  simpa [State.setRun, EngineSt.modRun, EngineSt.run?] using this

/-- All that a command's record written does to the machine. -/
theorem State.setRun_spec (s : State) (e : Engine) (r : Run) :
    (s.setRun e r).mem = s.mem ∧ (s.setRun e r).ctxs = s.ctxs ∧ (s.setRun e r).tile = s.tile ∧
      (s.setRun e r).key = s.key ∧ (∀ f, f ≠ e → (s.setRun e r).eng f = s.eng f) ∧
      ((s.setRun e r).eng e).queue = (s.eng e).queue ∧ ((s.setRun e r).eng e).fault = (s.eng e).fault ∧
      ((s.setRun e r).eng e).sects = (s.eng e).sects :=
  ⟨rfl, rfl, rfl, rfl, fun _ h => State.eng_setEng_ne s (Ne.symm h) _, by simp [State.setRun, EngineSt.modRun],
    by simp [State.setRun, EngineSt.modRun], by simp [State.setRun, EngineSt.modRun]⟩

/-! ### Points and extents let go -/

/-- What the points of a command let go of reaches no engine (R121, R130). -/
@[simp] theorem State.eng_freePoints (s : State) (run : Nat) (e : Engine) : (s.freePoints run).eng e = s.eng e := by
  let f : Tile → Tile := fun t => { t with points := t.points.map fun q => (q.1, q.2.letGo run) }
  show (nget {} (s.tiles.map fun p => (p.1, f p.2)) s.tile).engine e = (nget {} s.tiles s.tile).engine e
  rw [show ({} : Tile) = f {} from rfl, nget_map {} f]
  rfl

/-- An engine of a tile written reads back. -/
@[simp] theorem Tile.engine_setEngine_self (t : Tile) (e : Engine) (v : EngineSt) : (t.setEngine e v).engine e = v := by
  simp [Tile.engine, Tile.setEngine]

/-- An engine written leaves the others alone. -/
theorem Tile.engine_setEngine_ne (t : Tile) {e f : Engine} (h : e ≠ f) (v : EngineSt) :
    (t.setEngine e v).engine f = t.engine f := nget_nset_ne _ _ (fun k => h (Engine.id_injective k)) _

/-- What a command's extents let go of reaches no queue, section, fault or command of any engine (R24, R333). -/
theorem Tile.engine_releaseCmd (t : Tile) (e f : Engine) (cmd : Nat) :
    ∃ xs, (t.releaseCmd e cmd).engine f = { t.engine f with extents := xs } := by
  by_cases h : e = f
  · subst h
    exact ⟨_, Tile.engine_setEngine_self ..⟩
  · exact ⟨(t.engine f).extents, Tile.engine_setEngine_ne _ h _⟩

/-! ### A command's end -/

/-- The end of a command that is not in progress is nothing. -/
theorem State.endRun_none {tile : Nat} {e : Engine} {id : Nat} (h : ((s.tileAt tile).engine e).run? id = none) :
    s.endRun tile e id = s := by simp [State.endRun, h]

/-- All that the end of a command of the acting tile does to the machine: it is in progress no longer; memory, contexts and the
other engines' commands are the same. -/
theorem State.endRun_spec (s : State) (e : Engine) (id : Nat) :
    let t := s.endRun s.tile e id
    EndedRun s e id t ∧ t.mem = s.mem ∧ t.ctxs = s.ctxs ∧ t.roster = s.roster ∧ t.regions = s.regions ∧ t.tile = s.tile ∧
      t.key = s.key ∧ (t.eng e).queue = (s.eng e).queue ∧ (∀ f, f ≠ e → (t.eng f).runs = (s.eng f).runs) := by
  cases hr : (s.eng e).run? id with
  | none =>
    rw [State.endRun_none hr]
    exact ⟨(ldrop_of_lfind hr).symm, rfl, rfl, rfl, rfl, rfl, rfl, rfl, fun _ _ => rfl⟩
  | some r =>
    have hr' : ((s.tileAt s.tile).engine e).run? id = some r := hr
    let seen := r.clock.release (cmdAgent r.id)
    let g := ((s.eng e).modSect r.sect fun q => { q with flags := q.flags ||| r.flags, seen := q.seen.join seen })
    let g' : EngineSt := { g with runs := ldrop (fun x => x.id = id) g.runs, last := g.last.join seen }
    let u : Tile := { s.tileAt s.tile with me := (s.tileAt s.tile).me.unbind r.instr }
    have ht : s.endRun s.tile e id =
        (s.setTile s.tile ((u.setEngine e g').releaseCmd e id)).freePoints id := by
      simp only [State.endRun, hr']; rfl
    have he (f : Engine) : ∃ xs, (s.endRun s.tile e id).eng f = { (u.setEngine e g').engine f with extents := xs } := by
      rw [ht, State.eng_freePoints]
      obtain ⟨xs, h⟩ := Tile.engine_releaseCmd (u.setEngine e g') e f id
      exact ⟨xs, by simpa [State.eng] using h⟩
    obtain ⟨xs, hx⟩ := he e
    rw [Tile.engine_setEngine_self] at hx
    refine ⟨by rw [EndedRun, hx]; rfl, by rw [ht]; rfl, by rw [ht]; rfl, by rw [ht]; rfl, by rw [ht]; rfl, by rw [ht]; rfl,
      by rw [ht]; rfl, by rw [hx]; rfl, fun f hf => ?_⟩
    obtain ⟨ys, hy⟩ := he f
    rw [hy, Tile.engine_setEngine_ne _ (Ne.symm hf)]
    rfl

/-- All that a command's completion does. -/
theorem State.complete_spec (s : State) (e : Engine) (r : Run) :
    let t := s.complete e r
    EndedRun s e r.id t ∧ t.mem = s.mem ∧ t.ctxs = s.ctxs ∧ t.key = s.key ∧ t.tile = s.tile ∧
      (t.eng e).queue = (s.eng e).queue ∧ (∀ f, f ≠ e → (t.eng f).runs = (s.eng f).runs) := by
  obtain ⟨h1, h2, h3, -, -, h4, h5, h6, h7⟩ := (s.setRun e r).endRun_spec e r.id
  obtain ⟨m, c, tl, k, o, qu, -, -⟩ := s.setRun_spec e r
  refine ⟨?_, h2.trans m, h3.trans c, h5.trans k, h4.trans tl, h6.trans qu, fun f hf => (h7 f hf).trans (by rw [o f hf])⟩
  refine Eq.trans h1 ?_
  simpa [State.setRun, EngineSt.modRun] using ldrop_lmod (f := fun _ => r) (by simp) (s.eng e).runs

/-- All that a command's fault does (R22, R310): the engine is FAULTED at it, and its context has the fault posted. -/
theorem State.faultNow_spec {e : Engine} {r : Run} (code : BitVec 12) (tval : Word) :
    let t := s.faultNow e r code tval
    FaultedRun e r code tval t ∧ t.mem = s.mem ∧ t.regions = s.regions ∧ t.tile = s.tile ∧ t.key = s.key ∧
      (t.eng e).runs = ((s.setRun e r).eng e).runs ∧ (t.eng e).queue = (s.eng e).queue ∧
      (∀ k, k ≠ r.owner → t.ctxOf k = s.ctxOf k) ∧ ∀ f, f ≠ e → t.eng f = s.eng f := by
  have mem_insert : ∀ (f : EngFault) (l : List EngFault), f ∈ insertFault f l := by
    intro f l
    induction l with
    | nil => simp [insertFault]
    | cons g l ih => unfold insertFault; split <;> simp [ih]
  let v := s.setRun e r
  let f : EngFault :=
    { engine := e, code := code, sect := r.sect, widx := 0, upc := r.upc, tval := tval, rank := v.rankAt s.tile }
  let g : EngineSt := { v.eng e with fault := some f, faultRun := some r.id }
  let c : Context := { v.ctxOf r.owner with pending := insertFault f (v.ctxOf r.owner).pending }
  have ht : s.faultNow e r code tval = (v.setEng e g).setCtxOf r.owner c := rfl
  have hg : ((v.setEng e g).setCtxOf r.owner c).eng e = g := by simp
  refine ⟨⟨f, by rw [ht, hg], rfl, rfl, rfl, by rw [ht, hg], ?_⟩, rfl, rfl, rfl, rfl, by rw [ht, hg], ?_, fun j hj => ?_, fun d hd => ?_⟩
  · rw [ht, State.ctxOf_setCtxOf_self]
    exact mem_insert f _
  · rw [ht, hg]
    exact (s.setRun_spec e r).2.2.2.2.2.1
  · rw [ht, State.ctxOf_setCtxOf_ne _ (Ne.symm hj)]
    rfl
  · rw [ht, State.eng_setCtxOf, State.eng_setEng_ne _ (Ne.symm hd)]
    exact (s.setRun_spec e r).2.2.2.2.1 d hd

/-- A failing access that does not wait is a fault (R22, R323). -/
theorem State.faultAt_eq {e : Engine} {r : Run} {code : BitVec 12} (h : code ≠ heldCode) (tval : Word) :
    s.faultAt e r code tval = s.faultNow e r code tval := by
  simp only [State.faultAt, State.runFault, if_neg h, State.faultNow]

/-- An access that waits for a frozen partition leaves its command as it was (R323). -/
theorem State.faultAt_held {e : Engine} {r : Run} (tval : Word) : s.faultAt e r heldCode tval = s.setRun e r := by
  simp [State.faultAt, State.runFault]

/-! ### A command's start -/

/-- All that the start of the command at the head does (R56, R62): its words leave the queue, and it is in progress with nothing
done. -/
theorem State.startRun_spec {e : Engine} {i : Instr} {r : Run} (h : s.startRun e i = some (r, u)) :
    r.instr = i ∧ r.work = {} ∧ (s.eng e).headReady = true ∧ s.unitStops e none = false ∧
      ∃ ws, (s.eng e).headCmd = some ws ∧
        u = s.setEng e { s.eng e with queue := (s.eng e).queue.drop ws.length, runs := (s.eng e).runs ++ [r] } := by
  unfold State.startRun at h
  dsimp only at h
  split at h
  · simp at h
  · rename_i hb
    simp only [Bool.or_eq_true, Bool.not_eq_true', not_or, Bool.not_eq_true, Bool.not_eq_false] at hb
    split at h
    · simp at h
    · rename_i ws hw
      split at h
      · cases h
        exact ⟨rfl, rfl, hb.1, hb.2, ws, hw, rfl⟩
      · simp at h

/-- What taking up a command does (R62): one in progress is taken as it is, or the one at the head starts. -/
theorem State.resume_spec {e : Engine} {i : Instr} {ok : Bool} {r : Run} (h : s.resume e i ok = some (r, u)) :
    r.instr = i ∧ (s.eng e).fault = none ∧ u.mem = s.mem ∧ u.ctxs = s.ctxs ∧ u.regions = s.regions ∧
      u.roster = s.roster ∧ u.tile = s.tile ∧ u.key = s.key ∧ (∀ f, f ≠ e → u.eng f = s.eng f) ∧
      (u = s ∧ r ∈ (s.eng e).runs ∨ ok = true ∧ s.startRun e i = some (r, u)) := by
  unfold State.resume at h
  split at h
  · simp at h
  · rename_i hf
    have hf : (s.eng e).fault = none := by simpa using hf
    split at h
    · rename_i x hx
      split at h
      · simp at h
      · cases h
        have := lfind_some hx
        exact ⟨by simpa using this.1, hf, rfl, rfl, rfl, rfl, rfl, rfl, fun _ _ => rfl, .inl ⟨rfl, this.2⟩⟩
    · split at h
      · obtain ⟨h1, -, -, -, ws, -, rfl⟩ := State.startRun_spec h
        exact ⟨h1, hf, rfl, rfl, rfl, rfl, rfl, rfl, fun f hf => State.eng_setEng_ne s (Ne.symm hf) _, .inr ⟨‹_›, h⟩⟩
      · simp at h

end Sys2Proof.Machine
end

