-- ==== Sys2Proof/Laws/Scalar.lean ====
section
/-! SUPPORT. Scalar accesses, pushes and parking waits, case by case: the keys that the core reaches lie outside HBM, what each check
answers, what an instruction does with the answer to a push. -/

namespace Sys2Proof.Machine

open Sys2Proof

variable {s : State}

/-! ### Keys (R33, R34) -/

/-- A logical scratchpad address reaches a scratchpad or an L2, never HBM (R33). -/
theorem logicalKey_ge {place : NMap Nat} {addr k : Nat} (h : logicalKey place addr = some k) : 2 ^ 48 ≤ k := by
  simp only [logicalKey] at h
  split at h
  · simp at h
  · split at h
    · split at h
      · simp at h
      · split at h
        · cases h; unfold l2Key; omega
        · simp at h
    · split at h
      · simp at h
      · split at h
        · cases h; unfold scratchKey; omega
        · simp at h

/-- A control-core access reaches a scratchpad or an L2, never HBM (R34). -/
theorem State.scalarKey_ge {addr : Word} {k : Nat} (h : s.scalarKey addr = some k) : 2 ^ 48 ≤ k := by
  unfold State.scalarKey at h
  split at h
  · exact logicalKey_ge h
  · simp at h

/-- No byte from such a key upward lies in HBM. -/
theorem cellsFrom_local {k : Nat} (h : 2 ^ 48 ≤ k) (bs : List Byte) : ∀ x ∈ cellsFrom k bs, isHbm x.1 = false := by
  intro x hx
  have := cellsFrom_key hx
  simp only [isHbm, hbmEnd, decide_eq_false_iff_not]
  omega

/-! ### Checks (R86) -/

/-- What the address checks answer with a key: the address is aligned and reaches it. -/
theorem State.checkAddr_at {addr : Word} {n k : Nat} :
    s.checkAddr addr n = .at_ k ↔ addr.toNat % n = 0 ∧ s.scalarKey addr = some k := by
  unfold State.checkAddr
  by_cases h : addr.toNat % n = 0
  · cases hk : s.scalarKey addr <;> simp [h]
  · simp [h]

/-- What the checks of a load answer with a key. -/
theorem State.checkLoad_at {addr : Word} {n k : Nat} {marked : Bool} :
    s.checkLoad addr n marked = .at_ k ↔ addr.toNat % n = 0 ∧ s.scalarKey addr = some k ∧
      firstPoison s (rangeFrom k n) = none ∧
      firstRace s s.ctx.clock (ctxAgent s.key) (rangeFrom k n) false marked = none := by
  unfold State.checkLoad
  cases h : s.checkAddr addr n with
  | trap c =>
    have : ∀ k, s.checkAddr addr n ≠ .at_ k := by simp [h]
    simp only [reduceCtorEq, false_iff]
    exact fun ⟨a, b, _⟩ => this k (State.checkAddr_at.2 ⟨a, b⟩)
  | at_ j =>
    obtain ⟨ha, hb⟩ := State.checkAddr_at.1 h
    simp only [hb, ha, Option.some.injEq, true_and]
    cases hp : firstPoison s (rangeFrom j n) <;>
      cases hr : firstRace s s.ctx.clock (ctxAgent s.key) (rangeFrom j n) false marked <;> simp <;>
      intros <;> subst_vars <;> simp_all

/-- What the checks of a store answer with a key. -/
theorem State.checkStore_at {addr : Word} {n k : Nat} {marked : Bool} :
    s.checkStore addr n marked = .at_ k ↔ addr.toNat % n = 0 ∧ s.scalarKey addr = some k ∧
      firstRace s s.ctx.clock (ctxAgent s.key) (rangeFrom k n) true marked = none := by
  unfold State.checkStore
  cases h : s.checkAddr addr n with
  | trap c =>
    have : ∀ k, s.checkAddr addr n ≠ .at_ k := by simp [h]
    simp only [reduceCtorEq, false_iff]
    exact fun ⟨a, b, _⟩ => this k (State.checkAddr_at.2 ⟨a, b⟩)
  | at_ j =>
    obtain ⟨ha, hb⟩ := State.checkAddr_at.1 h
    simp only [hb, ha, Option.some.injEq, true_and]
    cases hr : firstRace s s.ctx.clock (ctxAgent s.key) (rangeFrom j n) true marked <;> simp <;>
      intros <;> subst_vars <;> simp_all

/-- Every `st.rel` that the context holds back is among those it performs: with none, nothing happens (R298). -/
@[simp] theorem State.performStores_nil (h : s.ctx.stores = []) : s.performStores = s := by
  simp [State.performStores, h]

/-- A load of a context that holds no `st.rel` back reads memory (R290). -/
theorem State.loadNat_nil (h : s.ctx.stores = []) (k n : Nat) : s.loadNat k n = memNat s.mem k n := by
  simp [State.loadNat, h, lfind, memNat, memBytes]

/-! ### Waits and pushes -/

/-- A parking wait that may not park at once stalls (R109, R110). -/
theorem State.parkOrWait_stall (h : s.ctx.parkNow = false) (h' : s.parksAtOnce = false) (i : Instr) (d : WaitDesc) :
    s.parkOrWait i d = s.wait i := by simp [State.parkOrWait, h, h']

@[simp] theorem State.afterPush_stall (i : Instr) (k : State → State) : s.afterPush i .stall k = s.wait i := rfl
@[simp] theorem State.afterPush_trap (i : Instr) (k : State → State) (c : BitVec 12) (v : Word) :
    s.afterPush i (.trap c v) k = s.trap c v := rfl
@[simp] theorem State.afterPush_done (i : Instr) (k : State → State) (t : State) : s.afterPush i (.done t) k = k t := rfl

/-- All that a sound header does to its engine and to the machine (R61, R96). -/
theorem State.offerHeader_done {e : Engine} {p : Word} {kind : SectKind} {t : State} (h : s.offerHeader e p kind = .done t) :
    (s.eng e).busyFor s.key = false ∧ (s.eng e).sects.length < 255 ∧ p.extractLsb' 54 10 ≠ (0 : BitVec 10) ∧
      s.depsInRange e (p.extractLsb' 0 54) = true ∧
      t = s.release.setEng e { (s.eng e).addSect s.key p kind none s.release.ctx.clock with
        claim := some { owner := s.key, slot := BitVec.ofNat 2 (s.slot + 1) } } := by
  unfold State.offerHeader at h
  dsimp only at h
  split at h
  · simp at h
  · rename_i hb
    simp only [Bool.or_eq_true, decide_eq_true_eq, not_or, Bool.not_eq_true] at hb
    split at h
    · simp at h
    · split at h
      · simp at h
      · rename_i hl
        split at h
        · simp at h
        · rename_i hd
          cases h
          exact ⟨hb.1, by omega, hl, by simpa using hd, rfl⟩

end Sys2Proof.Machine
end

