-- ==== Sys2Proof/Laws/Sha.lean ====
section
/-! SUPPORT. The length of a digest, whatever the message (R388, R390). -/

namespace Sys2Proof.Sha

theorem bytesBe_length (n v : Nat) : (bytesBe n v).length = n := by simp [bytesBe]

/-- One block leaves eight words. -/
theorem Kind.step_length (k : Kind) (h : List Nat) (b : List Byte) (hh : h.length = 8) : (k.step h b).length = 8 := by
  simp [Kind.step, hh]

/-- Any number of blocks leave eight words. -/
theorem Kind.fold_length (k : Kind) (bs : List (List Byte)) :
    ∀ h : List Nat, h.length = 8 → (bs.foldl k.step h).length = 8 := by
  induction bs with
  | nil => exact fun _ hh => hh
  | cons b bs ih => exact fun h hh => ih _ (k.step_length h b hh)

theorem sha256_start_length : sha256.start.length = 8 := by decide +kernel

theorem flat_length (n : Nat) (l : List Nat) : (l.flatMap (bytesBe n)).length = n * l.length := by
  induction l with
  | nil => rfl
  | cons x l ih => simp only [List.flatMap_cons, List.length_append, bytesBe_length, ih, List.length_cons, Nat.mul_succ, Nat.add_comm]

/-- A digest has 32 bytes. -/
theorem digest_length (m : List Byte) : (digest m).length = 32 := by
  rw [digest, Kind.hash, flat_length, Kind.fold_length _ _ _ sha256_start_length]
  rfl

end Sys2Proof.Sha
end

