-- ==== Sys2Proof/Tests/Slice0.lean ====
section
/-! SUPPORT. Tests: ill-formed terms that `wellFormed` refuses, words written out from the spec's encodings, a witness of the
hypotheses of each statement, and a few results of single steps. -/

namespace Sys2Proof.Tests

-- one after another: a theorem that waits for the kernel would hold a thread, and a stack, of its own
set_option Elab.async false

open Sys2Proof Sys2Proof.Machine

/-! ### Ill-formed terms (R52-R60, R323, R371, R392) -/

theorem test_ill_csr_not_listed : wellFormed (.csrWrite .rw 0x123 1 2) = false := by decide
theorem test_ill_csr_write_of_flags : wellFormed (.csrWrite .rw 0x800 1 2) = false := by decide
theorem test_ill_csr_write_of_fwshare : wellFormed (.csrWrite .rs 0x8F0 1 2) = false := by decide
theorem test_ill_flags_without_write : wellFormed (.lxFlagsWrite .rs 1 0) = false := by decide
theorem test_ill_fwshare_without_write : wellFormed (.lxFwshareWrite .rci 1 0) = false := by decide
theorem test_ill_illegal_instruction : wellFormed (.illegalInstruction 0x00100073) = false := by decide
theorem test_ill_partitions :
    wellFormed (.partitionFreeze (.tile 1152)) = false ∧ wellFormed (.partitionFreeze (.cluster 48)) = false ∧
    wellFormed (.partitionClockGate (.router 48)) = false ∧ wellFormed (.partitionClockGate (.hbm 16)) = false ∧
    wellFormed (.partitionRecovery (.ualink 24) true) = false := by decide
theorem test_ill_power_units :
    wellFormed (.powerStateEntry (.tile 1152)) = false ∧ wellFormed (.powerStateEntry (.island 512)) = false ∧
    wellFormed (.powerStateExit (.cluster 48)) = false ∧ wellFormed (.droopDetect 512) = false := by decide
theorem test_ill_links :
    wellFormed (.linkParityError (.mesh 48 0)) = false ∧ wellFormed (.linkParityError (.chain 1152)) = false ∧
    wellFormed (.linkParityError (.stream 1152)) = false ∧ wellFormed (.linkParityError (.ualink 24)) = false := by decide
theorem test_ill_error_sites :
    wellFormed (.correctableError (.icache 1152)) = false ∧
    wellFormed (.correctableError (.hbmSymbol (2 ^ 48))) = false := by decide
theorem test_ill_tiles :
    wellFormed (.launchLoadAck 1152) = false ∧ wellFormed (.tileSave 1152) = false ∧
    wellFormed (.shootdown 1152 0 0) = false ∧ wellFormed (.tileSparing 48 0) = false ∧
    wellFormed (.tileSparing 0 24) = false := by decide
theorem test_ill_routers_and_ports :
    wellFormed (.routerCombine 0 48) = false ∧ wellFormed (.meshLaneFailure 48 0) = false ∧
    wellFormed (.ualinkLaneFailure 24) = false ∧ wellFormed (.landingRecord 24 0 []) = false ∧
    wellFormed (.creditReturn 24) = false ∧ wellFormed (.ualinkAtomicReceived 24 0) = false ∧
    wellFormed (.safeTierAccess 24 0 0 false []) = false := by decide

/-- An extent for test commands. -/
def ext (base : Word) : Ext := { gran := 0, len := 0, base := base }

/-- An `se.aff` of one word of 8 bytes in scratchpad; the direction, the number of elements less one and the stride as given. -/
def aff (dir : Bool) (n0 : BitVec 16) (s0 : BitVec 19) (x : Ext) : AffCmd :=
  { dir := dir, port := 1, esize := 3, pkt := 0, start := false, fin := false, pois := false, sid := 0, n0 := n0, s0 := s0,
    off := 0, ext := x, dims := [] }

/-- An `ne.gath` into scratchpad (`x1`) of rows of one lane word, its indices immediate or at a feed. -/
def move (dmem : Bool) (x : Ext) (x1 : Option Ext) : NeMoveCmd :=
  { iw := 2, shard := false, dmem := dmem, port := 0, scope := 0, pois := false, sh := 0, isrc := 0x201, mid := 0,
    rowlw := 0, b30 := false, b29 := false, atype := 0, nidx := 0, ext := x, ext1 := x1, rstride := none }

/-- A `tk.merge` or `tk.untack` of rows of one element. -/
def rows (chain : Bool) (x : Ext) : TkRowsCmd :=
  { fmt := 0, map := 0, pmode := false, port := 0, chain := chain, f := 0, sid := 0, ext := x, rstride := none }

theorem test_ill_three_dimensions :
    wellFormed (.seAff { aff false 0 0 (ext 0) with dims := [⟨0, 0⟩, ⟨0, 0⟩, ⟨0, 0⟩] }) = false := by decide
theorem test_ill_gather_fields :
    wellFormed (.neGath { move true (ext 0) none with mid := 1 }) = false ∧
    wellFormed (.neGath { move true (ext 0) none with atype := 1 }) = false := by decide
theorem test_ill_merge_with_chain : wellFormed (.tkMerge (rows true (ext 0))) = false := by decide

/-! ### Words printed in the manual -/

theorem test_decode_qcancel : decode 0x0605950B = .ok (.qcancel .me 10 11) := rfl
theorem test_decode_enq : decode 0x02D6100B = .ok (.enqL .me 0 12 13) := rfl
theorem test_decode_bar_arr : decode 0x0855952B = .ok (.barArr 10 11 5 1) := rfl
theorem test_decode_syw_wait : decode 0x02C5C52B = .ok (.sywWait 10 11 12 1) := rfl
theorem test_decode_ld_acq : decode 0x1085A55B = .ok (.ldAcqW 10 11 8 1) := rfl
theorem test_decode_st_rel : decode 0x20B5387B = .ok (.stRelD 11 10 16 2) := rfl
theorem test_decode_fence_acq : decode 0x3200407B = .ok (.fenceAcq 3) := rfl
theorem test_decode_launch : decode 0x68C5F55B = .ok (.launch 10 11 12 13) := rfl
/-- 22_program_loss_scale.md: `flg.gather a0, t3, s0`. -/
theorem test_decode_flg_gather : decode 0x0E8E052B = .ok (.flgGather 10 28 8) := rfl
/-- `addi a0, a1, -1`, `ld a0, 8(a1)`, `sd a0, 8(a1)`, `beq a0, a1, +8` and `mul a0, a1, a2` in the layouts of RV64IM (R85). -/
theorem test_decode_base :
    decode 0xFFF58513 = .ok (.integerOperation (.imm .addi 10 11 0xFFF)) ∧
    decode 0x0085B503 = .ok (.load .d 10 11 8) ∧ decode 0x00A5B423 = .ok (.store .d 11 10 8) ∧
    decode 0x00B50463 = .ok (.jumpBranch (.branch .eq 10 11 4)) ∧
    decode 0x02C58533 = .ok (.integerOperation (.reg .mul 10 11 12)) := ⟨rfl, rfl, rfl, rfl, rfl⟩
/-- `csrrw zero, lx.tvec, a0` and `csrrs a0, lx.flags, zero` (R91). -/
theorem test_decode_csr :
    decode 0x80151073 = .ok (.csrWrite .rw 0x801 0 10) ∧ decode 0x80002573 = .ok (.csrWrite .rs 0x800 10 0) := ⟨rfl, rfl⟩

/-- R126: the index stream of the worked example. -/
theorem test_decode_se_aff :
    decodeCmd .se [0x010796000180058000200000, 0x019800178000000000000400] =
      some (.seAff { dir := false, port := 0x1E, esize := 1, pkt := 3, start := false, fin := false, pois := false, sid := 3,
                     n0 := 11, s0 := 2, off := 0, ext := { gran := 0, len := 23, base := 0x8000000000000400 },
                     dims := [] }) := by decide
/-- 24_program_token_merge.md: the `in1` stream with its dimension word. -/
theorem test_decode_se_aff_dim :
    decodeCmd .se [0x010050000100018000000000, 0x0118000B80000000000000A0, 0x01A000000005000000000002] =
      some (.seAff { dir := false, port := 1, esize := 1, pkt := 0, start := false, fin := false, pois := false, sid := 2,
                     n0 := 3, s0 := 0, off := 0, ext := { gran := 0, len := 11, base := 0x80000000000000A0 },
                     dims := [⟨5, 2⟩] }) := by decide
/-- 20_program_embedding_bag.md: the hashed rows and the recurrence of the sum. -/
theorem test_decode_se_ind :
    decodeCmd .se [0x0200D0200380600300000003, 0x0298003F8000000000000060] =
      some (.seInd { dir := false, port := 3, esize := 1, pkt := 0, start := false, fin := false, pois := false, iw := 2,
                     sid := 7, isrc := 1, iport := true, rowlen := 3, nidx := 3,
                     ext := { gran := 0, len := 63, base := 0x8000000000000060 }, tail := none }) := by decide
/-- 19_program_sparse_dot.md: DST `in2`, SRC `out0`, SID 4, NINIT 1, NFWD 2. -/
theorem test_decode_se_rec :
    decodeCmd .se [0x038090000200000100000002] =
      some (.seRec { dst := 2, src := 8, start := false, sid := 4, ninit := 1, nfwd := 2, init := none }) := by decide
/-- R138: `se.bar.arr.wait bar=5, scope=1, count=2`. -/
theorem test_decode_se_bar :
    decodeCmd .se [0x058620000000000000000205] =
      some (.seBar { arr := true, wait := true, scope := 1, gen := 0, count := 2, bar := 5 }) := by decide
/-- R143: the copy of 6144 bytes with a SYW. -/
theorem test_decode_ce_copy :
    decodeCmd .ce [0x010400000200000000001800, 0x011817FF0000004000000000, 0x01A817FF8000051800010000] =
      some (.ceCopy { sywen := true, sywl2 := false, pois := false, sywoff := 0x2000, row := 6144,
                      src := { gran := 0, len := 6143, base := 0x4000000000 },
                      dst := { gran := 0, len := 6143, base := 0x8000051800010000 }, strided := none }) := by decide
/-- R160, R163, R164: `ae.cfg`, `ae.inv n=4, outs=1`, `ae.gate.open ports=0x0101`. -/
theorem test_decode_ae :
    decodeCmd .ae [0x010000000000000000000000, 0x019800FF8000000000008000] =
      some (.aeCfg false { gran := 0, len := 255, base := 0x8000000000008000 }) ∧
    decodeCmd .ae [0x028000010000000000000003] = some (.aeInv 1 3) ∧
    decodeCmd .ae [0x048000010000000000000101] = some (.aeGateOpen 0x0101) := by decide
/-- 09_matrix_engine.md, "A loop, word by word". -/
theorem test_decode_me :
    decodeCmd .me [0x010400000000000000000000, 0x01983FFF8000000000004000] =
      some (.meWld { fmt := 4, swap := false, pois := false, ip := false, hist := false, srcp := false,
                     ext := { gran := 0, len := 0x3FFF, base := 0x8000000000004000 }, cstride := none }) ∧
    decodeCmd .me [0x02800000000000003E800000] = some (.meScl { mode := 0, scale := 0x3E800000, ext := none }) ∧
    decodeCmd .me [0x058000000000000000000000] =
      some (.meAcc { bank := false, init := 0, int := false, sat := false, nrows := 0, initv := none }) ∧
    decodeCmd .me [0x038200000000000000000000] =
      some (.meRow { bank := false, afmt := 4, count := 0, base := 0, rstep := none }) ∧
    decodeCmd .me [0x068100000000000000000000] =
      some (.meEnd { bank := false, ofmt := 1, rnd := 0, sat := false, noscl := false, drop := false }) := by decide
/-- R271: `me.pcomp.i8.wait id=0x123, trow=1, tcol=2`. -/
theorem test_decode_me_pcomp :
    decodeCmd .me [0x0A0680000001230102000000, 0x0A9863FF8000000000040000] =
      some (.mePcomp { fmt := 6, wait := true, tid := 0x123, trow := 1, tcol := 2,
                       ext := { gran := 1, len := 9215, base := 0x8000000000040000 } }) := by decide
/-- R230: `sa.op.add.fp32 idx=3, val=out1, n=64`. -/
theorem test_decode_sa_op :
    decodeCmd .sa [0x0100140000E010000000003F, 0x01980FFF8000000000080000] =
      some (.saOpAdd { type := 1, iw := 1, sat := false, nomrg := false, isrc := 3, vsrc := 0x201, n := 63,
                       ext := { gran := 0, len := 4095, base := 0x8000000000080000 }, resp := none }) := by decide
/-- R251 and R246. -/
theorem test_decode_ne :
    decodeCmd .ne [0x068200018000051800020000] = some (.neTok 2 1 0x8000051800020000) ∧
    decodeCmd .ne [0x040108000007002000200000, 0x0418B03F8000000000020000, 0x04A000000000000000000003] =
      some (.neSmrg { type := 1, sat := false, scope := 1, thr := 0, gid := 7, part := 2, nwin := 2,
                      ext := { gran := 2, len := 12351, base := 0x8000000000020000 }, nin := some 3 }) := by decide
/-- R277: `tk.match.fp16 map=2, n=8, r=2, dim=4`; 24_program_token_merge.md: `tk.merge`, `tk.bias`, `tk.free`. -/
theorem test_decode_tk :
    decodeCmd .tk [0x01022F8000700200C0000000, 0x0198003F8000000000030000] =
      some (.tkMatch { kfmt := 2, map := 2, parent := 0x1F, n := 7, rcnt := 2, d := 3,
                       ext := { gran := 0, len := 63, base := 0x8000000000030000 }, rstride := none }) ∧
    decodeCmd .tk [0x02020000000C000000000000, 0x0298003F8000000000000040] =
      some (.tkMerge { fmt := 2, map := 0, pmode := false, port := 0, chain := false, f := 3, sid := 0,
                       ext := { gran := 0, len := 63, base := 0x8000000000000040 }, rstride := none }) ∧
    decodeCmd .tk [0x030200000000000000000000, 0x0398000B80000000000000A0] =
      some (.tkBias { fmt := 2, map := 0, port := 0, sid := 0,
                      ext := some { gran := 0, len := 11, base := 0x80000000000000A0 } }) ∧
    decodeCmd .tk [0x068000000000000000000000] = some (.tkFree 0) := by decide

/-! ### States for the witnesses -/

/-- Region 1 on tile 0, one live context in slot A with these registers; offset k of its scratchpad is the byte of key
2^48 + k. -/
def base (x : NMap Word) : State :=
  let s := State.reset.withFetchWord 32 0x13
  s.setCtx { s.ctx with x := x }

/-- An address in the scratchpad of logical tile 0. -/
def scr (off : Nat) : Word := BitVec.ofNat 64 (2 ^ 63 + off)

/-- The state with the acting context changed. -/
def ctxAs (f : Context → Context) (s : State) : State := s.setCtx (f s.ctx)

/-- Region 1 changed. -/
def regionAs (f : Region → Region) (s : State) : State :=
  { s with regions := s.regions.map fun p => (p.1, f p.2) }

/-- Words in the scratchpad from an offset on. -/
def withWords (off : Nat) (ws : List Word) (s : State) : State :=
  { s with mem := memPut s.mem (cellsFrom (2 ^ 48 + off) (ws.flatMap fun w => leBytes 8 w.toNat)) }

/-- A section of the context that has started, its commands pushed. -/
def sect1 : Sect := { num := 1, owner := 2 ^ 32, len := 1, left := 0, deps := 0, started := true }

/-- A command in progress. -/
def run1 (i : Instr) (w : Work) : Run := { id := 7, instr := i, sect := 1, owner := 2 ^ 32, work := w }

/-- A command in progress on an engine of tile 0. -/
def running (e : Engine) (i : Instr) (w : Work) (s : State) : State :=
  s.setEng e { s.eng e with enq := 1, sects := [sect1], runs := [run1 i w] }

/-- A whole command at the head of an engine's queue. -/
def queued (e : Engine) (ws : List EngineWord) (s : State) : State :=
  s.setEng e { s.eng e with
    enq := 1, sects := [sect1], queue := ws.map fun w => { word := w, sect := 1, cmd := 7 } }

/-- A command's words. -/
def wordsOfCmd (i : Instr) : List EngineWord := match encodeCmd i with | some (_, ws) => ws | none => []

/-- The invariant, as a test that evaluates. -/
def invOk (s : State) : Bool :=
  Memory.wf s.mem && s.ctxs.all (fun p => (nget? p.2.x 0).isNone) && s.regions.all (fun p => p.2.id = p.1)
    && nsorted s.uaports

theorem inv_of_invOk {s : State} (h : invOk s = true) : s.Inv := by
  simp only [invOk, Bool.and_eq_true, List.all_eq_true, decide_eq_true_eq, Option.isNone_iff_eq_none] at h
  exact ⟨h.1.1.1, h.1.1.2, h.1.2, h.2⟩

/-- The state that a meaning answers. -/
def after (i : Instr) (s : State) : State := match exec i s with | .next t => t | _ => {}

/-! ### Encodings (O2-O5) -/

theorem witness_DecodeOfEncode :
    wellFormed (.enqL .me 0 12 13) = true ∧ encode (.enqL .me 0 12 13) = some 0x02D6100B := by decide
theorem witness_EncodeOfDecode : decode 0x68C5F55B = .ok (.launch 10 11 12 13) := rfl
theorem witness_CommandDecodeOfEncode :
    wellFormed (.neTok 2 1 0x8000051800020000) = true ∧
    encodeCmd (.neTok 2 1 0x8000051800020000) = some (.ne, [0x068200018000051800020000]) := by decide
theorem witness_CommandWordsNumbered :
    let x := ext 0x8000000000000000
    encodeCmd (.neXrdNvme { grant := 0, scope := 0, sywen := true, addr := 0, dst := x, rcd := x, tail := some (1, 2) })
      ≠ none ∧ (wordsOfCmd (.neXrdNvme
        { grant := 0, scope := 0, sywen := true, addr := 0, dst := x, rcd := x, tail := some (1, 2) })).length = 4 := by
  decide

/-! ### The machine as a whole (O8, O9) -/

theorem witness_StepKeepsInvariant : (base []).Inv ∧ ∃ t, step (base []) = .next t :=
  ⟨inv_of_invOk (by decide), ⟨_, rfl⟩⟩
/-- One state for each of the three cases: an instruction, a word the decoder refuses, a posted fault. -/
theorem witness_StepRunsDecoded :
    (base []).agenda = [{ tile := 0, slot := 0, what := .core }] ∧ (base []).issues = true ∧ (base []).faultDue = false ∧
    fetchWord (base []).textOf (base []).ctx.pc.toNat = some 0x13 ∧
    decode 0x13 = .ok (.integerOperation (.imm .addi 0 0 0)) := ⟨rfl, rfl, rfl, by decide, rfl⟩
theorem witness_StepRunsDecoded_refused :
    fetchWord (State.reset.withFetchWord 32 0).textOf 0 = some 0 ∧ rejected 0 = true := ⟨by decide, by decide⟩
/-- A fault posted to a context. -/
def posted : EngFault := { engine := .ce, code := 0x105, sect := 1, widx := 2, upc := 3, tval := 4 }
theorem witness_StepRunsDecoded_fault :
    (ctxAs (fun c => { c with pending := [posted] }) (base [])).issues = true ∧
    (ctxAs (fun c => { c with pending := [posted] }) (base [])).faultDue = true := by decide
/-- A load of the L2 of a cluster that is frozen, and of one that runs. -/
theorem witness_StepRunsDecoded_held :
    let s (p : PartSt) : State := { base [(1, BitVec.ofNat 64 (2 ^ 63 + 31 * 2 ^ 35))] with clusters := [(0, { part := p })] }
    (s .gated).issueHeld (.load .d 3 1 0) = true ∧ (s .runs).issueHeld (.load .d 3 1 0) = false := by decide

/-! ### The base instruction set (O11-O15) -/

theorem witness_DivisionCorners :
    (base [(1, 7)]).reg 2 = 0 ∧ ((base [(2, 0xFF00000000)]).reg 2).setWidth 32 = (0 : BitVec 32) ∧
    (base [(1, 0x8000000000000000), (2, 0xFFFFFFFFFFFFFFFF)]).reg 1 = BitVec.intMin 64 ∧
    (base [(1, 0x8000000000000000), (2, 0xFFFFFFFFFFFFFFFF)]).reg 2 = -1 ∧
    ((base [(1, 0x80000000), (2, 0xFFFFFFFF)]).reg 1).setWidth 32 = BitVec.intMin 32 ∧
    ((base [(1, 0x80000000), (2, 0xFFFFFFFF)]).reg 2).setWidth 32 = (-1 : BitVec 32) := by decide
theorem test_div_overflow :
    (after (.integerOperation (.reg .div 3 1 2)) (base [(1, 0x8000000000000000), (2, 0xFFFFFFFFFFFFFFFF)])).reg 3 =
      0x8000000000000000 := by decide
/-- The last doubleword of the scratchpad of 1 MiB. -/
theorem witness_LoadResultAndFrame :
    (base [(1, scr 0xFFFF8)]).checkLoad ((base [(1, scr 0xFFFF8)]).reg 1 + imm12 0) (loadBytes .d) false =
      .at_ (2 ^ 48 + 0xFFFF8) ∧ (base [(1, scr 0xFFFF8)]).ctx.stores = [] := by decide
theorem witness_StoreResultAndFrame :
    (base [(1, scr 0xFFFF8)]).checkStore ((base [(1, scr 0xFFFF8)]).reg 1 + imm12 7) (storeBytes .b) false =
      .at_ (2 ^ 48 + 0xFFFFF) := by decide
/-- Off its size; past the end of the scratchpad. -/
theorem witness_ScalarAccessTraps :
    (scr 4).toNat % loadBytes .d ≠ 0 ∧ (scr 0x100000).toNat % loadBytes .d = 0 ∧
    (base []).scalarKey (scr 0x100000) = none := by decide
/-- A poisoned sector, and one that another context wrote. -/
theorem witness_ScalarAccessTraps_sectors :
    let p := { base [] with sectors := [((2 ^ 48) / 32, { poison := true })] }
    let q := { base [] with
      sectors := [((2 ^ 48) / 32, { accs := [{ agent := 99, epoch := 1, write := true, marked := false }] })] }
    (firstPoison p (rangeFrom (2 ^ 48) 8)).isSome = true ∧ (firstPoison q (rangeFrom (2 ^ 48) 8)).isSome = false ∧
    (firstRace q q.ctx.clock (ctxAgent q.key) (rangeFrom (2 ^ 48) 8) false false).isSome = true ∧
    (firstRace q q.ctx.clock (ctxAgent q.key) (rangeFrom (2 ^ 48) 8) true false).isSome = true := by decide
/-- A jump to a multiple of 4, one to a multiple of 2, a branch taken and one not taken. -/
theorem witness_JumpsAndBranches :
    ((base []).ctx.pc + immJ 4).toNat % 4 = 0 ∧ ((base []).ctx.pc + immJ 1).toNat % 4 ≠ 0 ∧
    branchTaken .ltu ((base [(1, 1)]).reg 0) ((base [(1, 1)]).reg 1) = true ∧
    branchTaken .ltu ((base [(1, 1)]).reg 1) ((base [(1, 1)]).reg 0) = false := by decide

/-! ### Traps, services and CSRs (O16-O20) -/

/-- A context with a handler at 0x100. -/
def handled : State := ctxAs (fun c => { c with tvec := 0x100, pc := 0x40 }) (base [])

theorem witness_PreciseTrapEntry :
    handled.ctx.trapactive = false ∧ handled.ctx.tvec.extractLsb' 2 62 ≠ (0 : BitVec 62) := by decide
/-- The same in slot F. -/
theorem witness_PreciseTrapEntry_firmware :
    let s := ctxAs (fun c => { c with tvec := 0x100 }) { base [] with slot := 2 }
    s.slot = 2 ∧ s.ctx.trapactive = false ∧ s.ctx.tvec.extractLsb' 2 62 ≠ (0 : BitVec 62) := by decide
/-- No handler; a word for each instruction that F may not run. -/
theorem witness_PreciseTrapEntry_freezes :
    ¬ ((base []).ctx.trapactive = false ∧ (base []).ctx.tvec.extractLsb' 2 62 ≠ (0 : BitVec 62)) ∧
    encode .yield ≠ none ∧ encode .trigger ≠ none ∧ encode (.waitdep 3) ≠ none ∧ encode (.cwait 3 1) ≠ none ∧
    encode (.launch 3 1 2 0) ≠ none ∧ encode (.contract 3 1) ≠ none ∧ encode (.flgGather 3 1 2) ≠ none := by decide
theorem test_ebreak_enters_handler :
    (after .ebreak handled).ctx.pc = 0x100 ∧ (after .ebreak handled).ctx.epc = 0x40 ∧
    (after .ebreak handled).ctx.trap = 0x38005 := by decide
theorem witness_TrapReturn :
    (base []).ctx.resolving = none ∧
    (let s := ctxAs (fun c => { c with resolving := some (.ce, 0) }) (base [])
     s.ctx.resolving = some (.ce, 0) ∧ isFirmware s.key = false ∧
     (s.regionOf s.key).any (fun r => (r.savedTile? 0).isNone && nget? r.place 0 = some 0) = true) := by decide
theorem witness_EngineFaultEntry :
    let s := ctxAs (fun c => { c with pending := [posted] }) handled
    s.ctx.pending = posted :: [] ∧ s.ctx.life = .live ∧ s.ctx.parked = false ∧ s.ctx.frozen = false ∧
    s.ctx.trapactive = false ∧ s.ctx.tvec.extractLsb' 2 62 ≠ (0 : BitVec 62) ∧
    (ctxAs (fun c => { c with trapactive := true }) s).ctx.trapactive = true ∧
    (ctxAs (fun c => { c with trapactive := true }) s).ctx.pending = posted :: [] := by decide
theorem witness_CsrForms :
    CsrForm.writes .rs 0 = false ∧ CsrForm.writes .rw 0 = true ∧ (0xC00 : BitVec 12).toNat / 2 ^ 10 = 3 ∧
    (base []).slot ≠ 2 ∧ ({ base [] with slot := 2 } : State).slot = 2 := by decide
theorem test_csr_tvec_low_bits : (after (.csrWrite .rw 0x801 0 1) (base [(1, 0x107)])).ctx.tvec = 0x104 := by decide
theorem test_fwshare_at_most_64 :
    ((after (.lxFwshareWrite .rw 0 1) (ctxAs (fun c => { c with x := [(1, 100)] }) { base [] with slot := 2 })).tileAt 0).fwshare =
      64 := by decide
/-- With a section unretired, with none, and with the wait begun. -/
theorem witness_EcallServices :
    (base []).Inv ∧ (base []).slot ≠ 2 ∧ (base []).unresolved = none ∧ (base []).hasSections (base []).key = false ∧
    (running .ce (.engineNop .ce) {} (base [])).hasSections (base []).key = true ∧
    (ctxAs (fun c => { c with waiting := some .ecallExit }) (base [])).ctx.waiting = some .ecallExit ∧
    (ctxAs (fun c => { c with pending := [posted] }) (base [])).unresolved = some posted ∧
    ∃ r, nget? (base []).regions (regionOfKey (base []).key) = some r ∧ r.abort = none ∧ r.state ≠ .ended :=
  ⟨inv_of_invOk (by decide), by decide, by decide, by decide, by decide, by decide, by decide,
    loadedRegion 0 0x13, by decide, by decide, by decide⟩

/-! ### Ordered accesses and fences (O21-O23) -/

theorem witness_Fences :
    (0 : BitVec 4) = 0 ∧ (15 : BitVec 4) ≠ 0 ∧ (base []).ctx.stores = [] ∧
    (after (.stRelD 2 1 0 1) { base [(1, scr 0), (2, 5)] with choices := [1] }).ctx.stores ≠ [] := by decide
/-- An address that passes, a misaligned one, and a release that meets the acquire. -/
theorem witness_AcquireLoads :
    let s := { base [(1, scr 8)] with rels := [(2 ^ 48 + 8, [{ tile := 0, scope := 1, clock := [(3, 1)] }])] }
    s.checkLoad (s.reg 1 + (0 : BitVec 8).signExtend 64) (loadBytes .w) true = .at_ (2 ^ 48 + 8) ∧
    s.checkLoad (s.reg 1 + (1 : BitVec 8).signExtend 64) (loadBytes .w) true = .trap 0x002 ∧
    s.relsAt (2 ^ 48 + 8) (loadBytes .w) = [{ tile := 0, scope := 1, clock := [(3, 1)] }] ∧
    s.meets { tile := 0, scope := 1, clock := [(3, 1)] } s.tile 1 = true ∧
    s.ctx.holdsBack (2 ^ 48 + 8) (loadBytes .w) = false ∧
    (after (.stRelD 2 1 0 1) { s with choices := [1] }).ctx.holdsBack (2 ^ 48 + 8) (loadBytes .w) = true ∧
    let x : Late := { agent := 4, rel := { tile := 0, scope := 0, clock := [(4, 1)] }, old := [(2 ^ 48 + 8, 0)], oldRels := [] }
    ∀ y ∈ (nget {} ({ s with sectors := [((2 ^ 48 + 8) / 32, { late := [x] })] } : State).sectors ((2 ^ 48 + 8) / 32)).late,
      s.meets y.rel s.tile 0 = true := by decide
/-- R307, independent reads at scope 0: of a `st.rel` by another tile an acquire at scope 0 may read what stood before it; at scope
1, where each lies in the other's, it reads the new value. -/
theorem test_independent_reads :
    let x (sc : Nat) : Late := { agent := 4, rel := { tile := 1, scope := sc, clock := [(4, 1)] }, old := [(2 ^ 48 + 8, 0)], oldRels := [] }
    let s (sc : Nat) := { base [(1, scr 8)] with
      mem := [(2 ^ 48 + 8, 1)], sectors := [((2 ^ 48 + 8) / 32, { late := [x sc] })], choices := [1] }
    (after (.ldAcqW 3 1 0 0) (s 0)).reg 3 = 0 ∧ (after (.ldAcqW 3 1 0 1) (s 1)).reg 3 = 1 := by decide
/-- Performed at once, and held back; a misaligned address. -/
theorem witness_ReleaseStores :
    let s := base [(1, scr 8), (2, 5)]
    s.performStores.checkStore (s.reg 1 + (0 : BitVec 8).signExtend 64) (storeBytes .d) true = .at_ (2 ^ 48 + 8) ∧
    s.performStores.checkStore (s.reg 1 + (1 : BitVec 8).signExtend 64) (storeBytes .d) true = .trap 0x002 ∧
    s.performStores.choose.1 = 0 ∧ ({ s with choices := [1] } : State).performStores.choose.1 ≠ 0 := by decide

/-! ### Barriers and synchronisation words (O24-O26) -/

/-- Barrier 5 of tile 0. -/
def barrierAs (b : Barrier) (s : State) : State := s.setTile 0 { s.tileAt 0 with barriers := [(5, b)] }

/-- Unarmed with counts of 0, 1, 255 and 256; armed for 2, with its own count, another and another scope. -/
theorem witness_BarrierArrival :
    ((base []).barrier 0 5).part = 0 ∧ (base []).wake = [] ∧ ((base [(1, 256)]).reg 1).toNat = 256 ∧
    ((base [(1, 255)]).reg 1).toNat = 255 ∧ ((barrierAs { part := 2, arr := 1, scope := 1 } (base [])).barrier 0 5).part = 2 ∧
    ((barrierAs { part := 2, arr := 1, scope := 1 } (base [])).barrier 0 5).scope = 1 := by decide
theorem test_barrier_completes :
    ((after (.barArr 3 0 5 1) (barrierAs { part := 2, arr := 1, gen := 0xFFFF, scope := 1 } (base []))).barrier 0 5).gen = 0 := by
  decide
/-- A generation reached, one not reached, with the wait begun; a SYW armed and one not armed. -/
theorem witness_GenerationWaits :
    let s := barrierAs { part := 2, gen := 4 } (base [(1, 4), (2, 5), (3, scr 16), (4, scr 8)])
    (s.barrier 0 5).part ≠ 0 ∧ ((s.barrier 0 5).gen - (s.reg 1).setWidth 16).toNat < 2 ^ 15 ∧
    2 ^ 15 ≤ ((s.barrier 0 5).gen - (s.reg 2).setWidth 16).toNat ∧ s.ctx.parkNow = false ∧
    (regionAs (fun r => { r with words := { r.words with parkt := 1 } }) s).parksAtOnce = false ∧
    s.checkSyw (s.reg 3) false = .at_ (2 ^ 48 + 16) ∧ s.checkSyw (s.reg 4) false = .trap 0x002 ∧
    (s.sywAt (2 ^ 48 + 16)).armed = false ∧
    ((after (.sywArm 3 5) (ctxAs (fun c => { c with x := [(3, scr 16), (5, 1)] }) s)).sywAt (2 ^ 48 + 16)).armed = true := by
  decide
/-- A sound TARGET, a TARGET of 0, a nonzero high bit; a poisoned sector; one that another context wrote. -/
theorem witness_SywArm :
    let s := base [(1, scr 16), (2, 6144), (3, 0x10000000001)]
    let q := { s with
      sectors := [((2 ^ 48) / 32, { accs := [{ agent := 99, epoch := 1, write := true, marked := false }] })] }
    (scr 8).toNat % 16 ≠ 0 ∧ s.scalarKey (scr 16) = some (2 ^ 48 + 16) ∧ s.scalarKey (scr 0x100000) = none ∧
    (s.reg 2).toNat % 2 ^ 40 ≠ 0 ∧ (s.reg 2).toNat / 2 ^ 40 = 0 ∧ (s.reg 3).toNat / 2 ^ 40 ≠ 0 ∧
    (firstPoison s (rangeFrom (2 ^ 48 + 16) 16)).isSome = false ∧
    (firstPoison { s with sectors := [((2 ^ 48) / 32, { poison := true })] } (rangeFrom (2 ^ 48 + 16) 16)).isSome = true ∧
    (firstRace s s.ctx.clock (ctxAgent s.key) (rangeFrom (2 ^ 48 + 16) 16) true true).isSome = false ∧
    (firstRace q q.ctx.clock (ctxAgent q.key) (rangeFrom (2 ^ 48 + 16) 16) true true).isSome = true ∧
    ∀ p ∈ s.regions, p.2.state ≠ .draining := by decide

/-! ### Yield, triggers, launches, waits for other regions (O27-O31) -/

/-- Every context that the image started has triggered but the acting one. -/
theorem witness_YieldAndTrigger :
    (base []).Inv ∧ (base []).slot ≠ 2 ∧ ∃ r, nget? (base []).regions (regionOfKey (base []).key) = some r ∧
      ∀ j ∈ r.starts, j = (base []).key ∨ ((base []).ctxOf j).triggered = true ∨ ((base []).ctxOf j).life = .ended :=
  ⟨inv_of_invOk (by decide), by decide, loadedRegion 0 0x13, by decide, by decide⟩
theorem witness_YieldAndTrigger_again :
    (base []).ctx.triggered = false ∧ (ctxAs (fun c => { c with triggered := true }) (base [])).ctx.triggered = true := by decide
/-- Two producers, 2 and 3, in this state of triggering and with these codes. -/
def producers (trig : Bool) (c2 c3 : BitVec 12) : State :=
  let s := regionAs (fun r => { r with prods := [2, 3], words := { r.words with parkt := 1 } }) (base [])
  { s with regions := s.regions ++
      [(2, { id := 2, addr := 64, space := 0, state := .ended, trig := true, code := c2 }),
       (3, { id := 3, addr := 128, space := 0, state := if trig then .ended else .running, trig := trig, code := c3 })] }
/-- All triggered with no code and with the second one's, in the form of the statement; one not triggered. -/
theorem witness_WaitForProducers :
    let trig (s : State) : Bool := [2, 3].all fun p => match nget? s.regions p with | some q => q.trig | none => true
    let code (s : State) (p : Nat) : Word :=
      match nget? s.regions p with | some q => if q.state = .ended then q.code.setWidth 64 else 0 | none => 0
    trig (producers true 0 0) = true ∧ code (producers true 0 0) 2 = 0 ∧ code (producers true 0 0) 3 = 0 ∧
    code (producers true 0 0x401) 2 = 0 ∧ code (producers true 0 0x401) 3 = 0x401 ∧
    code (producers true 0x503 0) 2 = 0x503 ∧ code (producers true 0x503 0) 3 = 0 ∧
    trig (producers false 0 0) = false ∧ (producers false 0 0).ctx.parkNow = false ∧
    (producers false 0 0).parksAtOnce = false ∧ (producers true 0 0).slot ≠ 2 := by decide
theorem test_waitdep_code : (after (.waitdep 3) (producers true 0x503 0x401)).reg 3 = 0x401 := by decide
/-- A misaligned RCB, a reserved flag, every slot held, a slot free. -/
theorem witness_LaunchChild :
    let s := regionAs (fun r => { r with words := { r.words with cslots := 1 } }) (base [(1, 0x1040), (2, 0x1041), (3, 2)])
    (s.reg 1).toNat % 64 = 0 ∧ (s.reg 2).toNat % 64 ≠ 0 ∧ (s.reg 3).toNat / 2 ≠ 0 ∧ (s.reg 0).toNat / 2 = 0 ∧
    s.slot ≠ 2 ∧ s.fmc.nextRegion < 2 ^ 32 ∧ ({ s with regions := [] } : State).regionOf s.key = none ∧
    (match s.regionOf s.key with | some r => r.cheld < r.words.cslots.toNat | none => false) = true ∧
    (match (base []).regionOf (base []).key with
      | some r => r.words.cslots.toNat ≤ r.cheld ∧ r.id ≠ ({ s.fmc with nextRegion := 7 } : Fmc).nextRegion
      | none => false) = true := by decide
/-- A child of region 1 that may be waited on, in this state. -/
def child (st : RcbState) : State :=
  let s := regionAs (fun r => { r with words := { r.words with parkt := 1 } }) (base [(1, 2)])
  { s with regions := s.regions ++
      [(2, { id := 2, addr := 64, space := 0, parent := some 1, launched := true, state := st, code := 0x503, value := 9 })] }
theorem witness_WaitForChild :
    (child .ended).Inv ∧ (child .ended).slot ≠ 2 ∧ (base []).childOf 1 7 = none ∧
    ((child .ended).childOf 1 2).any (fun c => c.state = .ended && c.id ≠ 1) = true ∧
    ((child .running).childOf 1 2).any (fun c => c.state ≠ .ended) = true ∧
    (child .running).ctx.parkNow = false ∧ (child .running).parksAtOnce = false :=
  ⟨inv_of_invOk (by decide), by decide⟩
theorem test_cwait_status : (after (.cwait 3 1) (child .ended)).reg 3 = 0x900000503 := by decide
/-- A child taken, one under DETACH, and one of another region. -/
theorem witness_WaitForChild_none :
    let s (f : Region → Region) : State :=
      { child .ended with regions := (child .ended).regions.map fun p => if p.1 = 2 then (2, f p.2) else p }
    ([fun r => { r with taken := true }, fun r => { r with detach := true }, fun (r : Region) => { r with parent := some 9 }].all fun f =>
      ((nget? (s f).regions 2).any fun c => c.taken || c.detach || c.parent ≠ some 1) && ((s f).childOf 1 2).isNone) = true ∧
    nget? (child .ended).regions 3 = none ∧ (nget? (child .ended).regions 1).isSome = true ∧
    (ctxAs (fun c => { c with waiting := some (.cwait 3 1) }) (child .ended)).ctx.waiting = some (.cwait 3 1) := by decide
/-- A context in a wait for barrier 5, with a threshold and with none. -/
def waits (parkt : BitVec 16) : State :=
  ctxAs (fun c => { c with waiting := some (.barWait 3 1 5) })
    (regionAs (fun r => { r with words := { r.words with parkt := parkt } }) (base [(1, 4)]))
theorem witness_ParkThreshold :
    (waits 8).waitDesc = some (.bar 0 5 4) ∧ (waits 8).parkHeld = false ∧
    (ctxAs (fun c => { c with trapactive := true }) (waits 8)).parkHeld = true ∧
    ((waits 8).regionOf (waits 8).key).any (fun r => r.words.parkt ≠ 0xFFFF) = true ∧
    ((waits 0xFFFF).regionOf (waits 0xFFFF).key).any (fun r => r.words.parkt = 0xFFFF) = true ∧
    (waits 0xFFFF).ctx.parkNow = false ∧ (ctxAs (fun c => { c with parkNow := true }) (waits 0xFFFF)).ctx.parkNow = true := by decide

/-- The condition true already; a slot whose whistle is held. -/
theorem witness_ParkThreshold_cases :
    (barrierAs { part := 2, gen := 4 } (waits 8)).waitDesc = some (.bar 0 5 4) ∧
    (barrierAs { part := 2, gen := 4 } (waits 8)).condHolds (regionOfKey (waits 8).key) (.bar 0 5 4) = true ∧
    (waits 8).condHolds (regionOfKey (waits 8).key) (.bar 0 5 4) = false ∧
    (let s : State := { waits 8 with roster := [(0, { (nget {} (waits 8).roster 0) with state := .draining })] }
     s.waitDesc = some (.bar 0 5 4) ∧ s.parkHeld = false ∧ s.condHolds (regionOfKey s.key) (.bar 0 5 4) = false ∧
      (nget {} s.roster (s.tile * 2 + s.slot)).state = .draining) := by decide

/-! ### Feeding the engines (O32-O39) -/

/-- A header's payload: LENGTH and dependencies. -/
def payload (len deps : Nat) : Word := BitVec.ofNat 64 (len * 2 ^ 54 + deps)

/-- LENGTH 0 and 1023, a dependency in range and one out of it, an unfinished section. -/
theorem witness_SectionHeaderPush :
    let s := base []
    let g := s.eng .me
    let u := s.setEng .me { g with enq := 511, sects := [{ sect1 with left := 1 }] }
    s.slot ≤ 2 ∧ g.busyFor s.key = false ∧ g.sects.length < 255 ∧ g.opened = none ∧ g.unfinished s.key = none ∧
    (payload 0 0).extractLsb' 54 10 = (0 : BitVec 10) ∧ (payload 1023 0).extractLsb' 54 10 ≠ (0 : BitVec 10) ∧
    s.depsInRange .me ((payload 1023 0).extractLsb' 0 54) = true ∧
    s.depsInRange .me ((payload 1 7).extractLsb' 0 54) = false ∧
    ((u.eng .me).unfinished u.key).isSome = true ∧ (u.eng .me).busyFor u.key = false := by decide
theorem test_section_number_wraps :
    ((after (.sect .me 3 1) ((base [(1, payload 1 0)]).setEng .me { (base []).eng .me with enq := 511 })).eng .me).enq = 1 := by
  decide
/-- A context that has pushed a header of one command on the ME, with the word of `me.acc` in registers 1 and 2. -/
def pushing : State :=
  let s := base [(1, 0), (2, 0x05800000), (3, 0x07000000)]
  s.setEng .me { s.eng .me with enq := 1, sects := [{ sect1 with left := 1, started := false }] }
/-- A word that is accepted, one with an opcode of no command, a queue that is full. -/
theorem witness_EngineWordPush :
    let w (n : Nat) : EngineWord := BitVec.ofNat 96 n
    (match pushing.offer .me (w 0x058000000000000000000000) false with | .done _ => true | _ => false) = true ∧
    (match pushing.offer .me (w 0x7F8000000000000000000000) false with | .trap _ _ => true | _ => false) = true ∧
    (pushing.setEng .me { pushing.eng .me with queue := List.replicate 64 { word := 0, sect := 1, cmd := 7 } }).offer .me
      (w 0x058000000000000000000000) false = .stall := by decide
/-- A word with an extent in device memory: the page has to be walked. -/
theorem witness_EngineWordPush_walk :
    let s := pushing.setEng .me { pushing.eng .me with
      sects := [{ sect1 with left := 1, started := false }]
      opened := some { op := 1, last := 0, exts := 0, words := [0x010400000000000000000000], cmd := 7 } }
    (match s.offer .me 0x01983FFF0000000000010000 false with | .walk => true | _ => false) = true := by decide
theorem test_enq_free_entries : (after (.enqL .me 4 1 2) pushing).reg 4 = 63 := by decide
/-- The same push, once it has stalled and once it waits for a walk. -/
theorem witness_StalledPushRetries :
    let s := ctxAs (fun c => { c with waiting := some (.enqL .me 4 1 2), walk := some 0 }) pushing
    s.ctx.waiting = some (.enqL .me 4 1 2) ∧ isPush (.enqL .me 4 1 2) = true ∧ s.ctx.walk ≠ none ∧
    (match s.offer .me 0x058000000000000000000000 false with | .done _ => true | _ => false) = true ∧
    (match s.offer .me 0x058000000000000000000000 true with | .done _ => true | _ => false) = true := by decide
theorem witness_QueueStatus :
    (3 : Reg) ≠ 0 ∧ ((base []).eng .tk).extents.length ≤ 32 ∧ ((base []).eng .tk).program = none ∧
    (let g : EngineSt := { program := some { addr := 0, count := 1, next := 0, fork := 1, owner := 0, cmd := 3, sect := 0 }
                           runs := [run1 (.engineNop .tk) {}] }
     g.program.any (fun p => g.runs.all fun r => p.cmd < r.id) = true) := by decide
theorem test_qstat_at_reset : (after (.qstat .me 3 true) (base [])).reg 3 = 0x0000400000000000 := by decide
/-- n = 0, n outside the window, n at its edge, and a section of the context with a word in the queue. -/
theorem witness_QueueCancel :
    let s := (base []).setEng .me { (base []).eng .me with
      enq := 300, sects := [{ sect1 with num := 46 }], queue := [{ word := 0x058000000000000000000000, sect := 46, cmd := 7 }] }
    let g := s.eng .me
    (0 : BitVec 9) = 0 ∧ 254 < dist g.enq 45 ∧ dist g.enq 46 ≤ 254 ∧ g.enq ≠ 0 ∧
    (∃ q ∈ g.sects, q.owner = s.key ∧ q.kind ≠ .gather ∧ dist g.enq q.num ≤ dist g.enq 46) := by decide
/-- A section of the context that is still being pushed, and the program of a fork. -/
theorem witness_QueueCancel_claim :
    let p : Program := { addr := 0, count := 1, next := 0, fork := 300, owner := 2 ^ 32, cmd := 3, sect := 0 }
    let s := (base []).setEng .me { (base []).eng .me with
      enq := 300, sects := [{ sect1 with num := 300, left := 2 }], program := some p, claim := some { owner := 2 ^ 32, slot := 1 } }
    let g := s.eng .me
    g.sect? 300 = some { sect1 with num := 300, left := 2 } ∧ g.program = some p ∧ dist g.enq 300 ≤ 254 ∧ (300 : BitVec 9) ≠ 0 ∧
    ({ sect1 with num := 300, left := 2 } : Sect).owner = s.key ∧ sect1.kind = .pushed := by decide
/-- A fork block at offset 0x100 for the ME and the CE: data extent at 0x200, programs in it. -/
def forkState (mask : Word) : State :=
  withWords 0x100 [scr 0x200, 256, scr 0x200, 1, scr 0x20C, 1] (base [(1, scr 0x100), (2, mask)])
theorem witness_ForkAndJoin :
    let s := forkState (BitVec.ofNat 64 (2 ^ Engine.me.id + 2 ^ Engine.ce.id))
    let es := maskedEngines (s.reg 2)
    (0 : Word).extractLsb' 0 7 = (0 : BitVec 7) ∧ (0x81 : Word).toNat / 128 ≠ 0 ∧ (0x81 : Word).extractLsb' 0 7 ≠ (0 : BitVec 7) ∧
    es = [.me, .ce] ∧ (s.reg 2).extractLsb' 0 7 ≠ (0 : BitVec 7) ∧ (s.reg 2).toNat / 128 = 0 ∧
    (match s.readAligned (s.reg 1) 16 6 with
      | .words ws _ => ws = [scr 0x200, 256, scr 0x200, 1, scr 0x20C, 1] && !forkDefect ws
          && !s.badBase (lget 0 ws 0).toNat && isScratchAddr (lget 0 ws 0).toNat
      | .trap _ _ => false) = true ∧
    (∀ e ∈ es, (s.eng e).unfinished s.key = none ∧ (s.eng e).queue.length ≤ 62 ∧ (s.eng e).claimedByOther s.key = false ∧
      (s.eng e).forked = false ∧ (s.eng e).freeExtent.isSome = true ∧ (s.eng e).sects.length < 255) := by decide
/-- The data extent in a page of device memory that the tile holds a leaf of. -/
theorem witness_ForkAndJoin_device :
    let f := withWords 0x100 [0x10000, 256, 0x10000, 1, 0x1000C, 1]
      (base [(1, scr 0x100), (2, BitVec.ofNat 64 (2 ^ Engine.me.id + 2 ^ Engine.ce.id))])
    let s := f.setTile 0 { f.tileAt 0 with
      tlb := [{ space := f.spaceHere, frame := { va := 0x10000, pa := 0x20000, log2 := 16 }, w := true, d := true, pte := 0 }] }
    (match s.readAligned (s.reg 1) 16 6 with
      | .words ws u => !forkDefect ws && !s.badBase (lget 0 ws 0).toNat && !isScratchAddr (lget 0 ws 0).toNat
          && (match u.translateFor false true (lget 0 ws 0).toNat (lget 0 ws 1).toNat with | .ready _ _ => true | _ => false)
      | .trap _ _ => false) = true := by decide
/-- An awaited section that retired CANCELLED. -/
theorem witness_ForkAndJoin_cancelled :
    let g : EngineSt := { (base []).eng .me with enq := 1, ret := 1, retired := [{ sect1 with cancelled := true }] }
    (1 : BitVec 9) ∈ g.awaited 1 ∧ (g.retiredOf 1).any (·.cancelled) = true ∧ (Engine.me, 1) ∈ tagSects (sectTag [(.me, 1)]) := by
  decide
/-- A tag of sections that are done, with the wait begun, and of one that is not. -/
theorem witness_ForkAndJoin_rdv :
    let tag := sectTag [(.me, 1)]
    let s := (base [(1, tag)]).setEng .me { (base []).eng .me with enq := 1, ret := 1 }
    let t := (base [(1, tag)]).setEng .me { (base []).eng .me with enq := 1, sects := [sect1] }
    s.tagDone (s.reg 1) = true ∧ t.tagDone (t.reg 1) = false ∧
    (ctxAs (fun c => { c with waiting := some (.rdv 3 1) }) s).ctx.waiting = some (.rdv 3 1) := by decide
/-- The nonzero bytes, by offset, of a block that multiplies one E4M3 element by one into FP32 (R259, R260). -/
def block : List (Nat × Byte) :=
  [(6, 48), (7, 1), (8, 1), (12, 1), (16, 1), (69, 8), (70, 1), (71, 4), (73, 4), (79, 128), (80, 1), (133, 68), (134,
   1), (135, 4), (136, 1), (137, 4), (143, 128), (144, 1), (197, 4), (198, 1), (200, 4), (201, 4), (207, 128), (208,
   4)]
/-- These bytes at offset 0x100 of the scratchpad, which the context has read before. -/
def blockState (m : List (Nat × Byte)) : State :=
  { base [(1, scr 0x100), (2, scr 0x108)] with
    mem := m.map fun p => (2 ^ 48 + 0x100 + p.1, p.2)
    sectors := (rangeFrom ((2 ^ 48 + 0x100) / 32) 8).map fun j =>
      (j, { accs := [{ agent := 2 ^ 33, epoch := 1, write := false, marked := false }] }) }
theorem readBlock_again {s : State} (n k : Nat) (addr : Word)
    (h : ∀ i, i < n → s.checkLoad (addr + 8 * BitVec.ofNat 64 i) 8 false = .at_ (k + 8 * i))
    (g : ∀ i, i < n → stampKeys s.sectors s.ctx.clock (ctxAgent s.key) (rangeFrom (k + 8 * i) 8) false false = s.sectors) :
    s.readBlock addr n = .words ((List.range n).map fun i => BitVec.ofNat 64 (s.loadNat (k + 8 * i) 8)) s := by
  induction n generalizing addr k with
  | zero => rfl
  | succ n ih =>
    have h0 := h 0 (by omega)
    rw [show addr + 8 * BitVec.ofNat 64 0 = addr by simp] at h0
    have g0 : noteRead s s.ctx.clock (ctxAgent s.key) (rangeFrom k 8) false = s := by
      have := g 0 (by omega)
      rw [Nat.mul_zero, Nat.add_zero] at this
      rw [noteRead, this]
    simp only [State.readBlock, h0, Nat.mul_zero, Nat.add_zero, g0]
    rw [ih (k + 8) (addr + 8) (fun i hi => ?_) (fun i hi => ?_), List.range_succ_eq_map]
    · simp [Function.comp_def, Nat.mul_add, Nat.add_assoc, Nat.add_comm]
    · have := h (i + 1) (by omega)
      rw [show addr + 8 + 8 * BitVec.ofNat 64 i = addr + 8 * BitVec.ofNat 64 (i + 1) by
        rw [BitVec.ofNat_add, BitVec.mul_add, BitVec.add_assoc]; congr 1; rw [BitVec.add_comm]; rfl, this]
      congr 1; omega
    · have := g (i + 1) (by omega)
      rw [show k + 8 + 8 * i = k + 8 * (i + 1) by omega, this]
theorem reads_aligned {s : State} {a : Word} (h : a.toNat % 64 = 0) : s.readAligned a 64 32 = s.readBlock a 32 :=
  if_neg (not_not_intro h)
theorem reads_misaligned {s : State} {a : Word} (h : a.toNat % 64 ≠ 0) : s.readAligned a 64 32 = .trap 0x002 a := if_pos h
theorem aligned_100 : (scr 0x100).toNat % 64 = 0 := by decide
theorem misaligned_108 : (scr 0x108).toNat % 64 ≠ 0 := by decide
/-- The 32 words there. -/
def blockWords (s : State) : List Word := (List.range 32).map fun i => BitVec.ofNat 64 (s.loadNat (2 ^ 48 + 0x100 + 8 * i) 8)
theorem reads_block (m : List (Nat × Byte))
    (h : ∀ i, i < 32 → (blockState m).checkLoad (scr 0x100 + 8 * BitVec.ofNat 64 i) 8 false = .at_ (2 ^ 48 + 0x100 + 8 * i))
    (g : ∀ i, i < 32 → stampKeys (blockState m).sectors (blockState m).ctx.clock (ctxAgent (blockState m).key)
      (rangeFrom (2 ^ 48 + 0x100 + 8 * i) 8) false false = (blockState m).sectors) :
    (blockState m).readAligned (scr 0x100) 64 32 = .words (blockWords (blockState m)) (blockState m) :=
  (reads_aligned aligned_100).trans (readBlock_again 32 (2 ^ 48 + 0x100) (scr 0x100) h g)
/-- A sound block is read. -/
theorem witness_Contraction :
    (blockState block).readAligned (scr 0x100) 64 32 = .words (blockWords (blockState block)) (blockState block) ∧
    contractDefect (blockWords (blockState block)) = false ∧ (blockState block).ctx.expanding = none ∧
    (blockState block).reg 1 = scr 0x100 ∧    (blockState block).slot ≠ 2 :=
  ⟨reads_block block (by decide +kernel) (by decide +kernel), by decide +kernel⟩
/-- A block of zeros is read, which is defective. -/
theorem witness_Contraction_defect :
    (blockState []).readAligned (scr 0x100) 64 32 = .words (blockWords (blockState [])) (blockState []) ∧
    contractDefect (blockWords (blockState [])) = true :=
  ⟨reads_block [] (by decide +kernel) (by decide +kernel), by decide +kernel⟩
/-- A sound block whose C lies in pages that no table maps. -/
def blockFar : List (Nat × Byte) := (block.filter fun p => p.1 < 200) ++ [(202, 1), (208, 4)]
theorem witness_Contraction_barred :
    (blockState blockFar).readAligned (scr 0x100) 64 32 = .words (blockWords (blockState blockFar)) (blockState blockFar) ∧
    contractDefect (blockWords (blockState blockFar)) = false ∧
    (blockState blockFar).contractBarred (blockWords (blockState blockFar)) = some 0x10000 ∧
    (blockState block).contractBarred (blockWords (blockState block)) = none :=
  ⟨reads_block blockFar (by decide +kernel) (by decide +kernel), by decide +kernel⟩
/-- A block off 64 bytes is not read. -/
theorem witness_Contraction_trap : (base []).readAligned (scr 0x108) 64 32 = .trap 0x002 (scr 0x108) :=
  reads_misaligned misaligned_108
/-- A `contract` in expansion, and its pushes when it has made all of them. -/
theorem witness_Contraction_end (x : Expansion) :
    (ctxAs (fun c => { c with expanding := some x }) (base [])).ctx.expanding = some x ∧
    ∀ b, (contractPushes b).drop (contractPushes b).length = [] :=
  ⟨by rw [ctxAs, State.ctx_setCtx], fun _ => List.drop_length⟩
/-- It makes at least one push, a header's or a word's; with every queue another context's, a header stalls, and with no section a
word traps. -/
theorem any_or_other {α : Type} (l m : List α) (p : α → Bool) (h : m ≠ []) : (if l.any p then l else m) ≠ [] := by
  cases l <;> simp [h]
  split <;> simp [h]
theorem witness_Contraction_push (b : List Word) : ∃ e h w rest, contractPushes b = (e, h, w) :: rest := by
  have h : contractPushes b ≠ [] := any_or_other _ _ _ (by decide)
  obtain ⟨⟨e, h', w⟩, rest, hx⟩ := List.exists_cons_of_ne_nil h
  exact ⟨e, h', w, rest, hx⟩
theorem witness_Contraction_stall (v : Word) (e : Engine) :
    (allEngines.foldl (fun s e => s.setEng e { s.eng e with claim := some { owner := 9, slot := 1 } }) (base [])).offerHeader
      e v .pushed = .stall := by cases e <;> rfl
theorem witness_Contraction_word (w : EngineWord) (e : Engine) :
    (base []).offer e w false = .trap 0x013 ((w.extractLsb' 64 32).setWidth 64) := by
  have h1 : ((base []).eng e).freeExtent.isNone = false := by cases e <;> rfl
  have h2 : ((base []).eng e).busyFor (base []).key = false := by cases e <;> rfl
  have h3 : ((base []).eng e).unfinished (base []).key = none := by cases e <;> rfl
  simp only [State.offer, h1, h2, h3, Bool.and_false, Bool.or_false]
  rfl
/-- A sound descriptor, its cell at 0x200. -/
def gatherState : State := withWords 0x100 [0x100000000, scr 0x200] (base [(1, 5), (2, scr 0x100)])
/-- Before the push; after it, without and with the round's OR; with the wait begun. -/
theorem witness_FlagGather :
    let s := gatherState
    let t := after (.flgGather 3 1 2) s
    let u := t.setEng .ne { t.eng .ne with results := [(1, (5, []))] }
    s.slot ≠ 2 ∧ s.ctx.gatherNow = none ∧ s.ctx.gather = none ∧
    (match s.readAligned (s.reg 2) 16 4 with | .words ws _ => !s.gatherDefect ws | .trap _ _ => false) = true ∧
    (s.eng .ne).unfinished s.key = none ∧ (s.eng .ne).busyFor s.key = false ∧ (s.eng .ne).queue.length ≤ 61 ∧
    (s.eng .ne).sects.length < 255 ∧
    t.ctx.gatherNow = some 1 ∧ nget? (t.eng .ne).results 1 = none ∧ u.ctx.gatherNow = some 1 ∧
    (let v := ctxAs (fun c => { c with gatherNow := none }) u
     v.ctx.gatherNow = none ∧ v.ctx.gather = some (v.ctx.pc, 1)) ∧
    nget? (u.eng .ne).results 1 = some (5, []) ∧ u.ctx.waiting = some (.flgGather 3 1 2) := by decide

/-! ### Queues, sections and programs (O40, O41) -/

/-- A header at the head of the ME's queue, its dependency on the CE. -/
def header (dep : Nat) : State :=
  let s := base []
  s.setEng .me { s.eng .me with
    enq := 1, sects := [{ sect1 with started := false, left := 1, deps := BitVec.ofNat 54 dep }]
    queue := [{ word := mkWord 0xFF true 0 0 (payload 1 dep), sect := 1, cmd := 0 }] }
/-- A dependency satisfied, and one not; a section that is complete; a command at the head. -/
theorem witness_SectionsStartAndRetire :
    let s := header 0
    (s.eng .me).sect? 1 = some { sect1 with started := false, left := 1 } ∧ (s.eng .me).fault = none ∧
    s.unitStops .me none = false ∧ s.depsSatisfied .me 0 = true ∧
    (∃ d, d < 2 ^ 18 ∧ (header d).depsSatisfied .me (BitVec.ofNat 54 d) = false) ∧
    (({ (base []).eng .me with enq := 1, sects := [sect1] } : EngineSt).complete sect1 = true) :=
  ⟨by decide, by decide, by decide, by decide, ⟨7, by decide, by decide⟩, by decide⟩
/-- A section that retires with no contraction due, and as the last of one. -/
theorem witness_SectionsStartAndRetire_contraction :
    let tag := sectTag [(.me, 1)]
    let s (js : List Contraction) : State :=
      let s := (base []).setEng .me { (base []).eng .me with enq := 1, sects := [{ sect1 with cancelled := true }] }
      s.setTile 0 { s.tileAt 0 with contractions := js }
    let due (s : State) := (s.tileAt s.tile).contractions.filter fun j => (s.retire .me { sect1 with cancelled := true } []).tagDone j.tag
    let j : Contraction := { block := [], owner := 2 ^ 32, tag := tag, cmd := 9, clock := [] }
    due (s []) = [] ∧ due (s [j]) = [j] ∧ ((s [j]).eng .me).fault = none ∧
    (((s [j]).eng .me).complete { sect1 with cancelled := true } = true) ∧
    (match (s [j]).endContractions ((s [j]).retire .me { sect1 with cancelled := true } []) { sect1 with cancelled := true } [j] with
      | .done _ _ _ => true | _ => false) = true := by decide
/-- The command at the head as a whole. -/
theorem witness_CommandAtHead :
    let ws := wordsOfCmd (.engineNop .me)
    CommandAtHead (queued .me ws (base [])) .me (ws.map fun w => { word := w, sect := 1, cmd := 7 }) := by
  refine ⟨by decide, by decide, by decide, by decide⟩
theorem witness_CommandAtHead_ae :
    let ws := wordsOfCmd (.engineNop .ae)
    let s := queued .ae ws (base [])
    CommandAtHead s .ae (ws.map fun w => { word := w, sect := 1, cmd := 7 }) ∧ (s.eng .ae).runs = [] :=
  ⟨⟨by decide, by decide, by decide, by decide⟩, by decide⟩
/-- An ME program at offset 0x200 whose next entry is this word; the section in fetch where the word is a command's. -/
def fetchState (w : EngineWord) (inside : Bool) : State :=
  let s := { base [] with mem := memPut [] (cellsFrom (2 ^ 48 + 0x200) (leBytes 12 w.toNat)) }
  let q : Sect := { sect1 with num := 2, left := 1, kind := .fetched, prog := some 7 }
  s.setEng .me { s.eng .me with
    enq := 2, sects := if inside then [sect1, q] else [sect1]
    program := some { addr := scr 0x200, count := 2, next := 0, fork := 1, owner := 2 ^ 32, cmd := 7
                      sect := if inside then 2 else 0 } }
/-- The bytes of the entry, as a command of the program reads them. -/
def fetched (s : State) : Option EngineWord :=
  match (s.eng .me).program with
  | none => none
  | some p =>
    match s.runRead .me (p.run .me) (p.addr.toNat + 12 * p.next) 12 true false with
    | .bytes bs _ => some (BitVec.ofNat 96 (leNat bs))
    | .fault _ _ => none
theorem witness_ProgramFetch :
    let h := mkWord 0xFF true 0 0 (payload 1 0)
    let s := fetchState h false
    (s.eng .me).fault = none ∧ s.unitStops .me none = false ∧ (s.eng .me).queue.length < 64 ∧ fetched s = some h ∧
    h.op = 0xFF ∧ h.last = true ∧ h.widx = 0 ∧ h.f = 0 ∧ h.o.extractLsb' 54 10 ≠ (0 : BitVec 10) ∧
    s.depsInRange .me (h.o.extractLsb' 0 54) = true ∧ (s.eng .me).sects.length < 255 ∧
    (s.eng .me).program.any (fun p => p.next < p.count && p.opened = [] && (s.eng .me).fetching p = none) = true := by decide
theorem witness_ProgramFetch_word :
    let w : EngineWord := 0x058000000000000000000000
    let s := fetchState w true
    fetched s = some w ∧ w.op ≠ 0xFF ∧ w.isExt = false ∧
    (s.eng .me).program.any (fun p => p.next < p.count && sequenceDefect .me { ws := p.opened ++ [w] } true = none &&
        firstDefect (cmdChecks s.checkEnv .me { ws := p.opened ++ [w] }) = none &&
        ((s.eng .me).fetching p).any (fun q => q.left = 1 && !q.discard)) = true := by decide

/-! ### The stream engine and the copy engine (O42-O45) -/

/-- An extent of this many bytes. -/
def extOf (len : Nat) (base : Word) : Ext := { gran := 0, len := BitVec.ofNat 14 (len - 1), base := base }
/-- The bytes a read gives, and whether one of them is poisoned. -/
def bytesOf : Reading → Option (List Byte × Bool)
  | .bytes bs b => some (bs, b)
  | .fault _ _ => none
/-- The state a write gives. -/
def written : Writing → Option State
  | .done s => some s
  | .fault _ _ => none
/-- The state a delivery gives. -/
def delivered : Delivery → Option State
  | .done s => some s
  | _ => none
/-- A stream of two doublewords between scratchpad offset 0x40 and `ma`, or `mc`; `len` bytes of extent. -/
def streamOf (dir : Bool) (len : Nat) : AffCmd :=
  { aff dir 1 8 (extOf len (scr 0x40)) with port := if dir then 0x15 else 0x10 }

theorem witness_StreamCommandsStart :
    let ws := wordsOfCmd (.seAff (streamOf false 16))
    let s := queued .se ws (base [])
    CommandAtHead s .se (ws.map fun w => { word := w, sect := 1, cmd := 7 }) ∧ s.seMayStart true = true ∧
    s.seMayStart false = true :=
  ⟨⟨by decide, by decide, by decide, by decide⟩, by decide, by decide⟩
/-- The next element inside its extent, and outside it. -/
theorem witness_ReadStreamSteps :
    let p (len : Nat) : State := running .se (.seAff (streamOf false len)) {} (base [])
    let r (len : Nat) : Run := run1 (.seAff (streamOf false len)) {}
    (p 16).runOf .se 7 = some (r 16) ∧ (p 4).runOf .se 7 = some (r 4) ∧ (r 16).work.i < (r 16).total.1 ∧
    (elementOf (r 16).instr (r 16).work.counts 0).addr = some (scr 0x40).toNat ∧
    (patternOf (r 16).instr).any (fun q => !q.write && inExt q.ext (scr 0x40).toNat q.es) = true ∧
    (patternOf (r 4).instr).any (fun q => !inExt q.ext (scr 0x40).toNat q.es && (r 4).due q 0) = true ∧
    ((((p 16).eng .se).runs.map fun x => x.work.reqs.length).foldl (· + ·) 0) < 256 := by decide
/-- A request out; its data returned; its last element delivered. -/
theorem witness_ReadStreamSteps_data :
    let i : Instr := .seAff (streamOf false 16)
    let s (w : Work) : State := running .se i w (base [])
    let out : Work := { i := 1, reqs := [{ id := 0, first := 0, count := 1 }] }
    let back : Work := { i := 1, got := [(0, 5)] }
    ((s out).runOf .se 7).any (fun r => (lfind (fun x => x.id = 0) r.work.reqs).any (fun q => !q.returned && q.count = 1)
      && !r.work.halted && bytesOf ((s out).runRead .se r (scr 0x40).toNat 8 false false) = some (List.replicate 8 0, false)) = true ∧
    ((s back).runOf .se 7).any (fun r => (patternOf i).any fun p => (r.nextPacket p).any fun d =>
      d.packet.lanes = [5] && (delivered ((s back).deliverAll r (pointKey p.port p.sid) d.packet ((s back).targets r p))).isSome) = true ∧
    (run1 i { i := 2, j := 2 }).isStream = true ∧ (run1 i { i := 2, j := 2 }).streamDone = true := by decide

/-- An indirect stream that takes an index, and one whose source has ended. -/
def indOf : IndCmd :=
  { dir := false, port := 0x10, esize := 3, pkt := 0, start := false, fin := false, pois := false, iw := 1, sid := 0, isrc := 0x200
    iport := false, rowlen := 0, nidx := 3, ext := extOf 64 (scr 0x40), tail := none }
def indexing (k : Packet) : State :=
  (running .se (.seInd indOf) {} (base [])).setPoint 0 (indSource indOf) { buf := [k] }
theorem witness_ReadStreamSteps_index :
    let r : Run := run1 (.seInd indOf) {}
    let k (m : Option Marker) : Packet := { lanes := if m.isSome then [] else [2], pred := if m.isSome then 0 else 1, sid := 0, marker := m }
    let ok (m : Option Marker) : Bool := (indexing (k m)).runOf .se 7 = some r && (indexing (k m)).mayTake 7 (indSource indOf)
    ok none = true ∧ ok (some .fin) = true ∧ r.total.1 ≤ r.work.i ∧ r.total.2 = false ∧ (patternOf r.instr).any (fun q => !q.write) = true ∧
    (match (indexing (k none)).nextIndex 0 (indSource indOf) (indWidth indOf) 40 with | .value v _ => v = 2 | _ => false) = true ∧
    (match (indexing (k (some .fin))).nextIndex 0 (indSource indOf) (indWidth indOf) 40 with | .ended _ => true | _ => false) = true := by
  decide
/-- A paused stream; an element of a request as it returns. -/
theorem witness_ReadStreamSteps_paused :
    let i : Instr := .seAff (streamOf false 16)
    let s : State := running .se i { paused := true } (base [])
    (s.runOf .se 7).any (fun r => r.isStream && r.work.paused) = true ∧ ((s.eng .se).run? (run1 i {}).id).isSome = true ∧
    (elementOf i [] 1).addr.isSome = true := by decide

/-- A write stream at its second element, a packet of one lane word at `mc`, its PRED bit as given. -/
def writing (pred : BitVec 8) : State :=
  (running .se (.seAff (streamOf true 16)) { i := 1 } (base [])).setPoint 0 0x15
    { buf := [{ lanes := [5], pred := pred, sid := 0 }] }
theorem witness_WriteStreamsAndBarriers :
    let ok (s : State) (pr : Bool) : Bool :=
      (s.runOf .se 7).any fun r =>
        let h := s.hold r.id 0x15
        let r1 := { r with
          upc := (elementOf r.instr r.work.counts r.work.i).upc, clock := r.clock.join (h.elemResp h.tile 0x15 64) }
        !r.work.halted && !r.work.paused && r.instr = .seAff (streamOf true 16) && s.mayTake r.id 0x15 && r.work.i + 1 = r.total.1
          && (match h.peek h.tile 0x15 with | some (.lane _ _, _) => true | _ => false)
          && (match h.takeElem h.tile 0x15 64 with
            | some (.value v y, t) => v = 5 && y = pr
                && (written (t.runWrite .se r1 (scr 0x48).toNat (leBytes 8 v) false false)).isSome
            | _ => false)
          && (elementOf r.instr r.work.counts r.work.i).addr = some (scr 0x48).toNat
          && inExt (streamOf true 16).ext (scr 0x48).toNat 8
    ok (writing 1) true = true ∧ ok (writing 0) false = true := by decide
/-- An element that is not the last, in the same packet and as the packet's end. -/
theorem witness_WriteStreamsAndBarriers_inner :
    let i : Instr := .seAff (streamOf true 16)
    let ok (ls : List Word) (p : BitVec 8) (begun : Bool) : Bool :=
      let s := (running .se i {} (base [])).setPoint 0 0x15 { buf := [{ lanes := ls, pred := p, sid := 0 }] }
      (s.runOf .se 7).any fun r =>
        let h := s.hold r.id 0x15
        let r1 := { r with
          upc := (elementOf r.instr r.work.counts r.work.i).upc, clock := r.clock.join (h.elemResp h.tile 0x15 64) }
        s.mayTake r.id 0x15 && r.work.i + 1 < r.total.1 && (match (h.fitHead h.tile 0x15 64).peek h.tile 0x15 with | some (.lane _ _, _) => true | _ => false)
          && (match h.takeElem h.tile 0x15 64 with
            | some (.value v y, t) =>
              if y then (written (t.runWrite .se r1 (scr 0x40).toNat (leBytes 8 v) false false)).any fun z => (z.point 0 0x15).begun = begun
              else (t.point 0 0x15).begun = begun
            | _ => false)
    ok [5, 6] 3 true = true ∧ ok [5, 6] 2 true = true ∧ ok [5] 1 false = true ∧ ok [5] 0 false = true := by decide
/-- A recurrence that forwards a packet whole, and one that NFWD cuts. -/
theorem witness_WriteStreamsAndBarriers_forward :
    let ok (n : Nat) (st : Bool) (m : Option Marker) : Bool :=
      let c : RecCmd := { dst := 0x10, src := 0x15, start := st, sid := 0, ninit := 0, nfwd := BitVec.ofNat 32 n, init := none }
      let k : Packet := { lanes := [5, 6], pred := 3, sid := 0, marker := m }
      let s := (running .se (.seRec c) {} (base [])).setPoint 0 0x15 { buf := [k] }
      (s.runOf .se 7).any fun r => c.ninit.toNat ≤ r.work.i && !r.forwardedAll c && s.mayTake r.id 0x15
        && (s.openHead s.tile 0x15).any fun u => (u.point u.tile 0x15).buf = [k]
          && (delivered (u.deliverAll r 0x10 (forwardOf c true 0 k).packet [u.tile])).isSome
    ok (2 ^ 32 - 1) false none = true ∧ ok 1 true none = true ∧ ok 2 true (some .fin) = true ∧ ok 1 false (some .start) = true ∧
    (let c : RecCmd := { dst := 0x10, src := 0x15, start := true, sid := 0, ninit := 0, nfwd := 1, init := none }
     (1 : Nat) < ({ lanes := [5, 6], pred := 3, sid := 0 } : Packet).count ∧ c.start = true) := by decide
theorem witness_WriteStreamsAndBarriers_rec :
    let c : RecCmd := { dst := 0x10, src := 0x15, start := true, sid := 0, ninit := 1, nfwd := 0, init := some 9 }
    let s := running .se (.seRec c) {} (base [])
    (s.runOf .se 7).any (fun r => r.instr = .seRec c && r.work.i < c.ninit.toNat && (delivered (s.deliverAll r c.dst.toNat
      { lanes := [9], pred := 1, sid := c.sid, marker := some .start } [s.tile])).isSome) = true := by decide
/-- A `se.bar`, at a barrier that another participant has reached, that has passed the generation, and that is not armed. -/
theorem witness_WriteStreamsAndBarriers_bar :
    let c (a w : Bool) : BarCmd := { arr := a, wait := w, scope := 1, gen := 4, count := 0, bar := 5 }
    let s (a w : Bool) (b : Barrier) : State := barrierAs b (running .se (.seBar (c a w)) {} (base []))
    ((s true false { part := 2, scope := 1 }).eng .se).runs = [run1 (.seBar (c true false)) {}] ∧
    (match ((s true false { part := 2, scope := 1 }).barrier 0 5).arrive 0 1 0 [] with | .arrived _ _ => true | _ => false) = true ∧
    (run1 (.seBar (c true false)) {}).work.startSent = false ∧
    (((s false true { part := 2, gen := 4 }).barrier 0 5).gen - 4).toNat < 2 ^ 15 ∧
    2 ^ 15 ≤ (((s false true { part := 2, gen := 3 }).barrier 0 5).gen - 4).toNat ∧
    ((s false true {}).barrier 0 5).part = 0 := by decide

/-- A copy and a fill of 8 bytes from scratchpad offset 0x40 to 0x80. -/
def copy8 : CopyCmd :=
  { sywen := false, sywl2 := false, pois := false, sywoff := 0, row := 8, src := extOf 8 (scr 0x40), dst := extOf 8 (scr 0x80)
    strided := none }
def fill8 : FillCmd :=
  { sywen := false, sywl2 := false, pois := false, psize := 0, sywoff := 0, bytes := 8, dst := extOf 8 (scr 0x80), pat := some 7 }
theorem witness_CopiesAndFills :
    let s := running .ce (.ceCopy copy8) {} (base [])
    let ch := chunksOfCopy copy8
    CommandAtHead (queued .ce (wordsOfCmd (.ceCopy copy8)) (base [])) .ce
      ((wordsOfCmd (.ceCopy copy8)).map fun w => { word := w, sect := 1, cmd := 7 }) ∧
    ch.total = 1 ∧ (ch.at_ 0).bytes = 8 ∧ firstOutside copy8.src (copyAddrs copy8 0).1 8 = none ∧
    firstOutside copy8.dst (copyAddrs copy8 0).2 8 = none ∧ (s.eng .ce).fault = none ∧
    ((s.eng .ce).run? 7).any (fun r => !s.unitStops .ce (some r) &&
      (bytesOf (s.runRead .ce { r with upc := ch.upc 0 } (copyAddrs copy8 0).1 8 copy8.pois false)).isSome) = true :=
  ⟨⟨by decide, by decide, by decide, by decide⟩, by decide, by decide, by decide, by decide, by decide, by decide⟩
/-- The chunk read and not yet written; a fill's chunk. -/
theorem witness_CopiesAndFills_write :
    let s := running .ce (.ceCopy copy8) { i := 1, reqs := [{ id := 0, first := 0, count := 8 }] } (base [])
    let t := running .ce (.ceFill fill8) {} (base [])
    let k := (chunksOfFill fill8).at_ 0
    ((s.eng .ce).run? 7).any (fun r => r.work.owns = [] &&
      (written (s.runWrite .ce (({ r with upc := (chunksOfCopy copy8).upc 0 } : Run).part 0) (copyAddrs copy8 0).2 (r.heldChunk 0 8)
        false false)).isSome) = true ∧ (s.tileAt s.tile).cut ≠ .saved ∧ t.unitStops .ce (some (run1 (.ceFill fill8) {})) = false ∧
    firstOutside fill8.dst (fill8.dst.base.toNat + k.off) k.bytes = none ∧
    ((t.eng .ce).run? 7).any (fun r =>
      (written (t.runWrite .ce (({ r with upc := (chunksOfFill fill8).upc 0 } : Run).part 0)
        (fill8.dst.base.toNat + k.off) (fillBytes fill8 k.off k.bytes) false false)).isSome) = true := by decide
/-- The same with SYWEN: the chunk written, its bytes arrive. -/
theorem witness_CopiesAndFills_syw :
    let c : CopyCmd := { copy8 with sywen := true, sywoff := 4 }
    let f : FillCmd := { fill8 with sywen := true, sywoff := 4 }
    let s := running .ce (.ceCopy c) { i := 1, reqs := [{ id := 0, first := 0, count := 8 }] } (base [])
    let t := running .ce (.ceFill f) {} (base [])
    let arrives (s : State) (dst : Ext) (off : Word) (j : Run) (bs : List Byte) : Bool :=
      (written (s.runWrite .ce j off.toNat bs false false)).any fun u =>
        (logicalKey (u.places u.tile) (s.sywAddr dst 4 false)).any fun k =>
          (written (u.runArrive ((j.reached 0).part 0) (s.sywAddr dst 4 false) k bs.length)).isSome
    ((s.eng .ce).run? 7).any (fun r => arrives s c.dst (scr 0x80) (({ r with upc := (chunksOfCopy c).upc 0 } : Run).part 0)
      (r.heldChunk 0 8)) = true ∧
    ((t.eng .ce).run? 7).any (fun r => arrives t f.dst (scr 0x80) (({ r with upc := (chunksOfFill f).upc 0 } : Run).part 0)
      (fillBytes f 0 8)) = true := by decide
theorem test_fill_repeats_pattern :
    memNat (after (.copyChunkWrite 7) (running .ce (.ceFill fill8) {} (base []))).mem (2 ^ 48 + 0x80) 8 = 0x0707070707070707 := by
  decide

/-! ### Commands of the other engines (O46) -/

theorem witness_CommandsStart :
    let i : Instr := .meAcc { bank := false, init := 0, int := false, sat := false, nrows := 0, initv := none }
    let s := queued .me (wordsOfCmd i) (base [])
    CommandAtHead s .me ((wordsOfCmd i).map fun w => { word := w, sect := 1, cmd := 7 }) ∧
    ∀ x ∈ (s.eng .me).runs, x.instr ≠ i := ⟨⟨by decide, by decide, by decide, by decide⟩, by decide⟩

/-! ### The dataflow array (O47-O49) -/

/-- The words of an image of one group and one `fadd.fp16 out0, in0, in1` on PE 0 (R67; the operation as in
20_program_embedding_bag.md). -/
def imageWords : List Word :=
  [0xE000090100000019, 0xE600000000002000, 0xE700000000000000, 0x012020821B400000, 0xE200094000000000, 0xE210114000000000,
   0xE280294000000000, 0xE180002000000000, 0xE184002000000000, 0xE102002000000000]
theorem test_image_is_sound : (checkImage 80 imageWords).toOption.isSome = true := by decide +kernel
/-- An `ae.cfg` of the 16 bytes at scratchpad offset 0x100. -/
def cfg16 : Instr := .aeCfg false (extOf 16 (scr 0x100))
/-- An image of one PORT loads; zero bytes are none. -/
theorem witness_ArrayImageLoad :
    let s (w : Word) : State := withWords 0x100 [w, 0xE200094000000000] (running .ae cfg16 {} (base []))
    let read (w : Word) : Option (List Byte × Bool) := bytesOf ((s w).runRead .ae (run1 cfg16 {}) (scr 0x100).toNat 16 true false)
    ((s 0).eng .ae).runs = run1 cfg16 {} :: [] ∧ ((s 0).eng .ae).fault = none ∧ (s 0).quiescent = true ∧
    (read 0xE000010100000019).any (fun q => (checkImage 16 (wordsOf 2 q.1)).toOption.isSome) = true ∧
    (read 0).any (fun q => (checkImage 16 (wordsOf 2 q.1)).toOption.isNone) = true := by decide
theorem witness_ArrayImageLoad_start :
    CommandAtHead (queued .ae (wordsOfCmd cfg16) (base [])) .ae ((wordsOfCmd cfg16).map fun w => { word := w, sect := 1, cmd := 7 }) ∧
    ((queued .ae (wordsOfCmd cfg16) (base [])).eng .ae).runs = [] :=
  ⟨⟨by decide, by decide, by decide, by decide⟩, by decide⟩

/-- `ae.cfg.skip` of an image that stands loaded. -/
theorem witness_ArrayImageLoad_skip :
    let i : Instr := .aeCfg true (extOf 16 (scr 0x100))
    let s0 := withWords 0x100 [0xE000010100000019, 0xE200094000000000] (running .ae i {} (base []))
    let s := s0.setTile 0 { s0.tileAt 0 with dfa := { status := .loaded, image := 0x19 } }
    (s.eng .ae).runs = [run1 i {}] ∧ (s.eng .ae).fault = none ∧ s.quiescent = true ∧ s.dfa.status = .loaded ∧
    8 ≤ (extOf 16 (scr 0x100)).bytes ∧
    (bytesOf (s.runRead .ae (run1 i {}) (scr 0x100).toNat 8 true false)).any (fun q =>
      leNat q.1 / 2 ^ 56 % 256 = 0xE0 && BitVec.ofNat 32 (leNat q.1) = s.dfa.image) = true := by decide
/-- That array loaded: PE 0 with one operation, its group in this phase with S stages, these packets arrived on its links. -/
def array (op : Word) (phase : Phase) (s : Nat) (a b : List Packet) : Dfa :=
  { status := .loaded, image := 0x19, ops := [(0, [op])]
    groups := [(0, { mask := 1, ii := 1, s := s, strict := false, phase := phase })]
    links :=
      [(0, { src := 0x20, dst := 0, side := 0, slots := 1, routed := false, hops := 0, arrived := a }),
       (1, { src := 0x21, dst := 0, side := 0, slots := 1, routed := false, hops := 0, arrived := b }),
       (2, { src := 0, dst := 0x20, side := 0, slots := 1, routed := false, hops := 0 })]
    ports := [(0, { bound := true }), (1, { bound := true }), (8, { bound := true, ends := 1 })] }
/-- The array in tile 0. -/
def withArray (d : Dfa) (s : State) : State := s.setTile 0 { s.tileAt 0 with dfa := d }
/-- A packet of one lane word, and a marker. -/
def lane (w : Word) : Packet := { lanes := [w], pred := 1, sid := 0 }
def mark (m : Marker) : Packet := { lanes := [], pred := 0, sid := 0, marker := some m }
def fadd : Word := 0x012020821B400000

/-- Each command of the AE on a loaded array and on one that is not; an END at `out0`; a marker that enters `in0`. -/
theorem witness_ArrayCommands :
    let d := array fadd .outside 1 [] []
    let ok (i : Instr) (w : Work) (d : Dfa) (p : Run → State → Bool) : Bool :=
      ((withArray d (running .ae i w (base []))).resumeAe i).any fun q => p q.1 q.2
    ok (.aeInv 1 0) {} d (fun r u => !r.work.checked && u.dfa.status = .loaded && u.invSet 1 ≠ []) = true ∧
    ok (.aeInv 2 0) {} d (fun r u => !r.work.checked && u.dfa.status = .loaded && u.invSet 2 = []) = true ∧
    ok (.aeInv 1 0) {} {} (fun r u => !r.work.checked && u.dfa.status ≠ .loaded) = true ∧
    ok (.aeEnd 1) {} d (fun r u => maskPorts 8 1 = [0] && (u.portSt u.tile 0).bound && r.work.i = 0
      && u.pointHolder u.tile 0 = none && (u.enter u.tile 0 (mark .fin)).isSome) = true ∧
    ok (.aeEndFlush 1) {} d (fun _ u => (u.enter u.tile 0 (mark .flush)).isSome) = true ∧
    ok (.aeEndStart 1) {} d (fun _ u => (u.enter u.tile 0 (mark .start)).isSome) = true ∧
    ok (.aeGateOpen 1) {} d (fun _ u => u.dfa.status = .loaded) = true ∧
    ok (.aeGateClose 1) {} {} (fun _ u => u.dfa.status ≠ .loaded) = true ∧
    ok (.aeStat { wait := true, clr := true, ext := none }) {} d (fun _ u => u.quiescent) = true ∧
    ok (.aeStat { wait := false, clr := false, ext := some (extOf 64 (scr 0x100)) }) {} d (fun r u =>
      (written (u.runWrite .ae r (scr 0x100).toNat u.aeRecord false false)).isSome) = true := by decide
theorem witness_ArrayCommands_claim :
    let s := withArray (array fadd .outside 1 [] []) (running .ae (.aeInv 1 0) { checked := true } (base []))
    (s.eng .ae).invRun = some (run1 (.aeInv 1 0) { checked := true }) ∧ (s.eng .ae).fault = none ∧
    lfind (fun p => nget 0 [] p < (0 : BitVec 16).toNat + 1 && (s.portSt s.tile p).ends ≠ 0) (s.invSet 1) = some 8 ∧
    (run1 (.aeInv 1 0) { counts := [(8, 1)] }).leastClaim (s.invSet 1) = 1 := by decide

/-- What an attempt of a group comes to. -/
def fired : GroupStep → Option State
  | .done s => some s
  | _ => none
def groupFault : GroupStep → Option (BitVec 12)
  | .fault c _ => some c
  | _ => none
/-- Operands that every operation of O49 is enabled on, of each kind of type; a format's values, NaN among them. -/
def peIn (opc : Nat) (type : BitVec 4) (a b : Word) : PeIn :=
  { op := { opc := opc, type := type, rnd := 0, ftzi := false, ftzo := false, sat := false, dst := 0, a := 0, b := 0, c := 0, gate := 0
            imm := 0 }
    a := [some a], b := [some b], c := [some 5], en := [true], count := 1, tokens := 1, pe := 0 }
theorem witness_ArrayMoves_operations :
    (([0x20, 0x21, 0x22, 0x23, 0x24, 0x25, 0x26, 0x27, 0x28, 0x29, 0x2A, 0x2B, 0x2C, 0x2D, 0x2E, 0x2F, 0x30, 0x31, 0x32, 0x33, 0x18, 0x14,
        0x15, 0x16, 0x17, 0x48].all fun opc =>
      let x := peIn opc 8 3 4
      lget false x.en 0 && hasLane (srcsUsed opc).1 x.a 0 && hasLane (srcsUsed opc).2.1 x.b 0 && hasLane (srcsUsed opc).2.2 x.c 0)) = true ∧
    fmtOfCode 8 = none ∧ rndOf 0 ≠ .sr ∧ fmtOfCode 2 = some .fp16 ∧ (Fmt.fp16.decode false 0x7E00).isNan = true ∧
    (Fmt.fp16.decode false 0x3C00).isNan = false ∧ 0x3C00 < 2 ^ Fmt.fp16.width := by decide
/-- 3 - 4 in UINT8 without and with SAT (R46, R178); -2 in FP16 (R175). -/
theorem test_integer_wraps_and_clamps :
    laneOf (peCompute (peIn 0x21 13 3 4) true { gen := 1, flags := 0 }).1.lanes 0 = some 0xFF ∧
    laneOf (peCompute { peIn 0x21 13 3 4 with op := { (peIn 0x21 13 3 4).op with sat := true } } true { gen := 1, flags := 0 }).1.lanes 0 =
      some 0 := by decide
theorem test_negation : (laneOf (peCompute (peIn 0x0A 2 0x4000 0) true { gen := 1, flags := 0 }).1.lanes 0).any
    (fun v => v.extractLsb' 0 16 = (0xC000 : BitVec 16)) = true := by decide
/-- A firing; one that a mask of no bits stops (`spdot` of a constant that is zero); the last draining firings; the heads
END, START and WHISTLE. -/
theorem witness_ArrayMoves :
    let s (op : Word) (ph : Phase) (n : Nat) (a b : List Packet) : State := withArray (array op ph n a b) (base [])
    let live := s fadd .outside 1 [lane 0x3C00] [lane 0x3C00]
    let masks := withArray (array 0x51C0204204000000 .outside 1 [lane 0, lane 0] []) (running .ae (.aeInv 1 0) {} (base []))
    let last := s fadd (.draining 0 false) 3 [] []
    live.groupReady 0 = true ∧ live.isDraining 0 = false ∧
    (fired (live.fireGroup 0 true)).any (fun u => lfind (fun l => l.2.shows) u.dfa.links = none) = true ∧
    masks.groupReady 0 = true ∧ groupFault (masks.fireGroup 0 true) = some 0x123 ∧ (masks.eng .ae).invRun.isSome = true ∧
    (let none_ := withArray masks.dfa (base [])
     groupFault (none_.fireGroup 0 true) = some 0x123 ∧ (none_.eng .ae).invRun = none ∧ none_.groupFaultOwner = some (2 ^ 32)) ∧
    (live.eng .ae).groupFault = false ∧ ({ live.eng .ae with fault := some { posted with code := 0x120 } } : EngineSt).groupFault = true ∧
    (fired ((s fadd (.draining 1 false) 3 [] []).fireGroup 0 false)).any (fun v => lfind (fun l => l.2.shows) v.dfa.links = none
      && (fired (v.endInvocation 0)).any fun u => lfind (fun l => l.2.shows) u.dfa.links = none) = true ∧
    (fired ((s fadd (.draining 2 false) 3 [] []).fireGroup 0 false)).isSome = true ∧
    last.groupReady 0 = true ∧ (fired (last.endInvocation 0)).isSome = true := by decide
theorem witness_ArrayMoves_markers :
    let s (n : Nat) (m : Marker) : State := withArray (array fadd .outside n [mark m] [mark m]) (base [])
    let heads (s : State) : List Head := (s.dfa.inputs (s.dfa.groupOps 0)).map s.head
    (s 2 .fin).groupReady 0 = true ∧ heads (s 2 .fin) = [.mark .fin, .mark .fin] ∧
    (fired ((s 2 .fin).alignMarkers 0)).isSome = true ∧ heads (s 1 .start) = [.mark .start, .mark .start] ∧
    (fired ((s 1 .start).alignMarkers 0)).isSome = true ∧ Head.mark .whistle ∈ heads (s 1 .whistle) ∧
    ((s 1 .whistle).sendMarker 0 .whistle).isSome = true := by decide
/-- A packet in transit to the PE, to `out0` and at `in0`; a transfer in transit. -/
theorem witness_ArrayMoves_arrivals :
    let d := array fadd .outside 1 [] []
    let put (k : Nat) (d : Dfa) : Dfa := { d with links := nmod { src := 0, dst := 0, side := 0, slots := 0, routed := false, hops := 0 } d.links k fun l => { l with transit := [lane 1] } }
    let s (k : Nat) : State := withArray (put k d) (base [])
    let at0 := (withArray d (base [])).setPoint 0 0 { buf := [lane 1] }
    (nget? (s 0).dfa.links 0).any (fun l => l.transit = [lane 1] && l.dst < 0x20) = true ∧
    (nget? (s 2).dfa.links 2).any (fun l => l.dst ≥ 0x20 && (((s 2).point 0 l.pointOfDst).place l.pointOfDst (lane 1)).isSome) = true ∧
    (nget? at0.dfa.links 0).any (fun l => l.transit = [] && l.src ≥ 0x20 && at0.dfa.linkOfPort l.pointOfSrc = some (0, l)
      && !l.through && l.load < l.capacity && (at0.point 0 l.pointOfSrc).buf = [lane 1]) = true := by decide
theorem witness_ArrayMoves_control :
    nget? ({ ctrls := [(0, { src := 0, chan := 0, dst := 1, dchan := 0, slots := 1, transit := [3] })] } : Dfa).ctrls 0 =
      some { src := 0, chan := 0, dst := 1, dchan := 0, slots := 1, transit := [3] } := by decide
/-- 1.0 + 1.0 in binary16: the sum leaves on the link to `out0`. -/
theorem test_firing_adds :
    (nget? (after (.groupFiring 0) (withArray (array fadd .outside 1 [lane 0x3C00] [lane 0x3C00]) (base []))).dfa.links 2).any
      (fun l => l.transit.map Packet.lanes = [[0x4000]]) = true := by decide +kernel

/-! ### The matrix engine (O50-O52) -/

/-- The matrix array of tile 0. -/
def withMe (m : Matrix) (s : State) : State := s.setTile 0 { s.tileAt 0 with me := m }
/-- A command of the ME in progress, as it goes on. -/
def onMe (i : Instr) (w : Work) (m : Matrix) (p : Run → State → Bool) : Bool :=
  ((withMe m (running .me i w (base []))).resumeMe i).any fun q => p q.1 q.2
/-- The value, command and state of a row gathered whole. -/
def whole : Gathered → Option (Nat × Run × State)
  | .full v r s => some (v, r, s)
  | _ => none
/-- The loop of 09_matrix_engine.md, "A loop, word by word". -/
def wld (swap : Bool) : WldCmd :=
  { fmt := 4, swap := swap, pois := false, ip := false, hist := false, srcp := false, ext := { gran := 0, len := 0x3FFF, base := scr 0x4000 }
    cstride := none }
def spw : SpwCmd :=
  { fmt := 4, swap := false, pois := false, ip := false, hist := false, srcp := false
    ext := { gran := 0, len := 0x3FFF, base := scr 0x4000 }, mext := some (extOf 4096 (scr 0x8000)), cstride := none }

/-- The value, command and state of a column. -/
def column : Column → Option (Nat × Run × State)
  | .value v r s => some (v, r, s)
  | _ => none
/-- A column that is read; a mask of no bits; the last column in place; a scale from the command and from memory. -/
theorem witness_WeightPlanes :
    onMe (.meWld (wld false)) {} {} (fun r u =>
      let v := u.setMe { u.me with shadow := { u.me.shadow with latch := 0, resp := [] } }
      !r.work.checked && inExt (wld false).ext (scr 0x4000).toNat (columnBytes 4)
        && (bytesOf (v.runRead .me r (scr 0x4000).toNat (columnBytes 4) false false)).isSome) = true ∧
    onMe (.meSpw spw) {} {} (fun r u =>
      let v := u.setMe { u.me with shadow := { u.me.shadow with latch := 0, resp := [] } }
      (column (v.loadColumn (spwSpec spw) { r with upc := 0, work := { r.work with checked := true } } 0)).any fun p =>
        (column (p.2.2.loadMask (spwSpec spw) p.2.1 0 32)).any fun q => badMask 32 0 q.1 = some (0, 0)) = true ∧
    microPc 0 0 0 0 = 0 ∧
    inExt (extOf 4096 (scr 0x8000)) (scr 0x8000).toNat 32 = true ∧ reduction 4 true / 8 = 32 ∧
    onMe (.meWld (wld true)) { i := 128 } {} (fun r u => 128 ≤ r.work.i && (u.eng .me).runs.all fun x => isRowCmd x.instr = false) = true ∧
    onMe (.meSpw spw) { i := 128 } {} (fun r _ => 128 ≤ r.work.i) = true ∧
    onMe (.meScl { mode := 0, scale := 0x3E800000, ext := none }) {} {} (fun _ _ => true) = true ∧
    (withMe { pipe := [.token [] one32 []] } (base [])).me.pipe = .token [] one32 [] :: [] := by decide +kernel
theorem witness_WeightPlanes_scales :
    onMe (.meScl { mode := 2, scale := 0, ext := some (extOf 512 (scr 0x100)) }) {} {} (fun r u =>
      (bytesOf (u.runRead .me r (scr 0x100).toNat 512 true false)).isSome) = true := by decide +kernel

/-- A bank 0 open with one row, E4M3 weights in the active plane. -/
def opened : Matrix := { active := { latch := 4 }, banks := [(0, { state := .opened, nrows := 1 })] }
def acc : AccCmd := { bank := false, init := 0, int := false, sat := false, nrows := 0, initv := none }
def rowCmd : RowCmd := { bank := false, afmt := 4, count := 0, base := 0, rstep := none }
/-- The lane words of a row already taken from `ma`. -/
def held : Work := { held := List.replicate 16 0 }
theorem witness_MatrixRows_banks :
    onMe (.meAcc acc) {} {} (fun _ u => (u.me.bank false).state = .free) = true ∧
    onMe (.meAcc acc) {} opened (fun _ u => (u.me.bank false).state = .opened) = true ∧
    onMe (.meRow rowCmd) {} {} (fun _ u => (u.me.bank false).state ≠ .opened && !u.me.tokenInPipe) = true ∧
    onMe (.meRow rowCmd) { i := 1 } opened (fun r u => rowCmd.count.toNat < r.work.i && !u.me.inPipe r.id && !r.work.finishing) = true ∧
    onMe (.meEnd { bank := false, ofmt := 1, rnd := 0, sat := false, noscl := false, drop := false }) {} opened
      (fun r u => !r.work.startSent && (u.me.bank false).state = .opened) = true ∧
    onMe (.meEnd { bank := false, ofmt := 1, rnd := 0, sat := false, noscl := false, drop := false })
      { startSent := true, checked := true, i := 1 } { banks := [(0, { state := .retiring, nrows := 1 })] }
      (fun r u => (u.me.bank false).nrows ≤ r.work.i && (u.point u.tile portMc).buf = []) = true ∧
    onMe (.meRecRec { cin := 1, chain := false, afmt := 8, t := 0, initv := none }) {} {} (fun r _ => r.work.k = 0) = true ∧
    onMe (.meRecScan { cin := 0, chain := false, afmt := 8, t := 0, initv := none }) { k := 3 } {} (fun r _ => r.work.k = 3) = true := by
  decide
/-- A row gathered whole, at its accumulator row; the row in the pipeline. -/
theorem witness_MatrixRows :
    onMe (.meRow rowCmd) held opened (fun r u =>
      !r.work.finishing && r.work.i ≤ rowCmd.count.toNat && !u.me.tokenInPipe && pairs u.me.active.latch 4
        && 0 < (u.me.bank false).nrows
        && (whole (u.gatherWords portMa (runBits 4 (reduction u.me.active.latch u.me.active.sparse) / 64)
          { r with upc := microCount r.work.i } 200)).any fun q => (q.2.2.me.bank false).depth < 256 * q.2.2.dcap) = true ∧
    (withMe { pipe := [.row false 0 4 [] .plane 7 []] } (base [])).me.pipe = .row false 0 4 [] .plane 7 [] :: [] := by decide
def gath : GathCmd := { bank := false, afmt := 4, iw := true, count := 0, base := 0, ibias := none }
/-- The index of a row at `mi`: 0, and the null index. -/
theorem witness_MatrixRows_gathered :
    let ok (x : Word) (n : Nat) : Bool :=
      (((withMe opened (running .me (.meGath gath) held (base []))).setPoint 0 portMi { buf := [lane x] }).resumeMe (.meGath gath)).any fun q =>
        (whole (q.2.gatherWords portMa 16 { q.1 with upc := microCount q.1.work.i } 200)).any fun g =>
          g.2.1.heldIndex = 0 && match g.2.2.nextIndex g.2.2.tile portMi 32 200 with
            | .value m z => m = n && (z.me.bank false).depth < 256 * z.dcap
            | _ => false
    ok 0 0 = true ∧ ok 0xFFFFFFFF (2 ^ 32 - 1) = true ∧ runBits 4 (reduction 4 false) / 64 = 16 := by decide
theorem test_row_accumulates :
    let m : Matrix := { opened with
      active := { latch := 4, cells := [(0, cellsOf 4 0x3040 128)] }, pipe := [.row false 0 4 (cellsOf 4 0xC83C 128) .plane 7 []] }
    lget 0 (((after .accumulatorWrite (withMe m (base []))).me.bank false).row 0) 0 = 0x3F800000 := by decide +kernel

/-- Clean memory holds no poison and no race. -/
theorem lfind_never {α : Type} {p : α → Bool} (h : ∀ a, p a = false) (l : List α) : lfind p l = none := by
  induction l with
  | nil => rfl
  | cons a t ih => simp [lfind, h, ih]
theorem no_poison {s : State} (h : s.sectors = []) (ks : List Nat) : firstPoison s ks = none := by
  simp [firstPoison, h, nget, lfind_never]
theorem no_race {s : State} (h : s.sectors = []) (c : Clock) (a : Nat) (ks : List Nat) (w m : Bool) :
    firstRace s c a ks w m = none := by simp [firstRace, h, nget, Sector.races, lfind_never]
/-- What an agent alone has accessed does not race with it. -/
theorem no_race_alone {s : State} {a : Nat} (h : ∀ j, ∀ x ∈ (nget {} s.sectors j).accs, x.agent = a) (c : Clock) (ks : List Nat)
    (w m : Bool) : firstRace s c a ks w m = none := by
  apply lfind_never
  intro k
  have hr : (nget {} s.sectors (k / 32)).races (isHbm k) c a w m = false := by
    simp only [Sector.races, List.any_eq_false, Stamp.before]
    intro x hx
    simp [h _ x hx]
  rw [hr]
  rfl
theorem stamped_alone {secs : NMap Sector} {a : Nat} (h : ∀ j, ∀ x ∈ (nget {} secs j).accs, x.agent = a) (c : Clock) (ks : List Nat)
    (w m : Bool) : ∀ j, ∀ x ∈ (nget {} (stampKeys secs c a ks w m) j).accs, x.agent = a := by
  unfold stampKeys
  induction sectorsOf ks generalizing secs with
  | nil => exact h
  | cons k t ih =>
    refine ih fun j x hx => ?_
    rw [nget_nset] at hx
    split at hx
    · simp only [Sector.stamp] at hx
      split at hx
      · simp at hx; subst hx; rfl
      · simp only [List.mem_append, List.mem_filter, List.mem_singleton] at hx
        rcases hx with hx | rfl
        · exact h _ x hx.1
        · rfl
    · exact h j x hx
theorem runKey_scratch {s : State} {e : Engine} {r : Run} (h : s.places s.tile = [(0, 0)]) {off : Nat} (hn : off < 2 ^ 20) :
    s.runKey e r (2 ^ 63 + off) = some (2 ^ 48 + off) := by
  have h1 : isScratchAddr (2 ^ 63 + off) = true := by simp only [isScratchAddr, decide_eq_true_eq]; omega
  rw [State.runKey, if_pos h1, h]
  simp only [logicalKey]
  rw [if_neg (by simp; omega), if_neg (by omega), if_neg (by simp; omega)]
  rw [show ((2 ^ 63 + off) / 2 ^ 46 % 1024 * 48 + (2 ^ 63 + off) / 2 ^ 40 % 64) * 24 + (2 ^ 63 + off) / 2 ^ 35 % 32 = 0 by omega,
    show (2 ^ 63 + off) % 2 ^ 24 = off by omega]
  simp [nget?, scratchKey]
theorem runKeys_scratch {s : State} {e : Engine} {r : Run} (h : s.places s.tile = [(0, 0)]) (n off : Nat) (hn : off + n ≤ 2 ^ 20) :
    ∃ ks, s.runKeys e r (2 ^ 63 + off) n = some ks := by
  induction n generalizing off with
  | zero => exact ⟨[], rfl⟩
  | succ n ih =>
    obtain ⟨ks, hk⟩ := ih (off + 1) (by omega)
    refine ⟨(2 ^ 48 + off) :: ks, ?_⟩
    simp only [State.runKeys, runKey_scratch h (show off < 2 ^ 20 by omega)]
    rw [show 2 ^ 63 + off + 1 = 2 ^ 63 + (off + 1) by omega, hk]

/-- `me.dg` on a tile of INT8 weights, the gradients held, whatever the number of bytes. -/
def dg : DgCmd := { fmt := 6, pois := true, kcnt := 0, ext := { gran := 1, len := 9215, base := scr 0 }, gmin := none }
def dgState (w : Work) : State := running .me (.meDg dg) w (base [])
/-- A command that has read its tile and holds gradients, all of them before END or some after it. -/
def dgHeld (h : List Word) (fin : Bool) : Work := { held := h, counts := [(0, 5)], complete := fin }
/-- A list of the 8192 lane words. -/
theorem witness_MatrixRows_dg_held : (List.replicate 8192 (0 : Word)).length = 8192 := List.length_replicate
theorem gathers_held {s : State} {r : Run} {code n : Nat} (fuel : Nat) (h : r.work.held.length ≥ n) :
    s.gatherWords code n r (fuel + 1) = .full (r.work.held.reverse.foldr (fun w x => w.toNat + 2 ^ 64 * x) 0)
      { r with work := { r.work with held := [] } } s := by
  rw [State.gatherWords, if_pos h]
theorem held_never {s : State} (hc : s.clusters = []) (hh : s.hbmPart = []) (ht : ∀ t, (s.tileAt t).part = .runs) (t k : Nat) :
    s.held t k = false := by
  simp [State.held, hc, hh, ht, nget]
/-- The gradients gathered, with nothing that holds the write back or races with it. -/
theorem witness_MatrixRows_dg (h : List Word) (hl : h.length = 8192) (fin : Bool) :
    let s := dgState (dgHeld h fin)
    let r := run1 (.meDg dg) (dgHeld h fin)
    let x := run1 (.meDg dg) (dgHeld [] fin)
    s.resumeMe (.meDg dg) = some (r, s) ∧ nget? r.work.counts 0 = some 5 ∧ x.work.complete = fin ∧ dg.kcnt = 0 ∧
    (∃ v, s.gatherWords portMa 8192 r 9000 = .full v x s) ∧ (∀ k, s.held s.tile k = false) ∧
    ∀ ks, firstRace s x.clock (cmdAgent x.id) ks true false = none :=
  ⟨rfl, rfl, rfl, rfl, ⟨_, gathers_held 8999 (Nat.le_of_eq hl.symm)⟩,
    held_never rfl rfl (fun t => by unfold State.tileAt; rcases t with _ | t <;> rfl) _, fun ks => no_race rfl _ _ ks _ _⟩
/-- END at `ma` before any gradient. -/
theorem witness_MatrixRows_dg_end :
    let s := (dgState (dgHeld [] false)).setPoint 0 portMa { buf := [mark .fin] }
    (s.resumeMe (.meDg dg)).any (fun q =>
      match q.2.gatherWords portMa 8192 q.1 9000 with | .ended _ _ => true | _ => false) = true := by decide +kernel
theorem reads_clean {s : State} {r : Run} {x : Ext} {n off : Nat} {ks : List Nat} {trap : Bool} (h : s.sectors = [])
    (hh : ∀ k, s.held s.tile k = false) (hx : inExt x (x.base.toNat + off : Nat) n = true) (hk : s.runKeys .me r (x.base.toNat + off) n = some ks) :
    ∃ v r1 w, s.readColumn r x off n trap = .value v r1 w := by
  have hr : ∃ bs p, s.runRead .me r (x.base.toNat + off) n trap false = .bytes bs p := by
    simp [State.runRead, hk, no_poison h, no_race h, hh]
  obtain ⟨bs, p, hr⟩ := hr
  rw [State.readColumn, if_neg (by rw [hx]; decide), hr]
  exact ⟨_, _, _, rfl⟩
theorem witness_MatrixRows_dg_read :
    nget? (run1 (.meDg dg) {}).work.counts 0 = none ∧ (dgState {}).resumeMe (.meDg dg) = some (run1 (.meDg dg) {}, dgState {}) ∧
    ∃ v x w, (dgState {}).readColumn (run1 (.meDg dg) {}) dg.ext 0 (16384 * elemBytes dg.fmt + 2048) dg.pois = .value v x w :=
  have ⟨_, hk⟩ := runKeys_scratch (s := dgState {}) (e := .me) (r := run1 (.meDg dg) {}) rfl (16384 * elemBytes dg.fmt + 2048) 0
    (by decide)
  ⟨rfl, rfl, reads_clean rfl (held_never rfl rfl (fun t => by unfold State.tileAt; rcases t with _ | t <;> rfl) _) (by decide) hk⟩

/-- A pattern that a cluster holds for command 7, and a command's key for it. -/
def patExt : Ext := extOf 32 (scr 0x4000)
def patCmd : PatCmd := { bank := false, afmt := 4, ip := false, tid := 1, trow := 0, tcol := 0, count := 0, base := 0, ext := patExt }
def pcomp : PcompCmd := { fmt := 4, wait := true, tid := 1, trow := 0, tcol := 0, ext := patExt }
def patEntry : PatEntry :=
  { key := (base []).patKey (patIdOf 1 0 0) patExt 4 (rangeFrom (2 ^ 48 + 0x4000) 32), dense := false, words := 8, users := [7] }
/-- The cluster with this in its cache and its compile queue. -/
def withCluster (cache : List PatEntry) (qs : List Compile) (s : State) : State :=
  { s with clusters := [(0, { cache := cache, compiles := qs })] }
def request (built : Option PatEntry) (g0 : Option (BitVec 32)) : Compile :=
  { key := patEntry.key, tile := 0, cmd := 7, waits := true, thresh := 40, clock := [], g0 := g0, built := built }
/-- Every tile of clean memory can be read. -/
theorem witness_PatternCache_read (s : State) (h : s.sectors = []) (c : Clock) (cmd : Nat) (b : Word) (fmt : BitVec 4) (ks : List Nat) :
    ∃ cols masks resp u, s.readTile c cmd b fmt ks = .done cols masks resp u := by
  simp only [State.readTile, no_poison h, no_race h]
  exact ⟨_, _, _, _, rfl⟩
/-- A compile not built, one built for the generation that stands and one for another. -/
theorem witness_PatternCache :
    (withCluster [] [request none none] (base [])).cluster.compiles = request none none :: [] ∧
    ((withCluster [] [request none none] (base [])).register (request none none)).any (fun u => u.sectors = []) = true ∧
    (rangeKeys patEntry.key.range).any ((withCluster [] [] (base [])).held 0) = false ∧
    (withCluster (List.replicate 16 patEntry) [request none none] (running .me (.mePcomp pcomp) {} (base []))).register
      (request none none) = none ∧
    (withCluster [] [request (some patEntry) (some 0)] (base [])).cluster.genOf patEntry.key.id = 0 ∧
    (request (some patEntry) (some 1)).g0 ≠ some ((base []).cluster.genOf patEntry.key.id) := by decide
/-- A key found, and not found; a row that the bound pattern takes; the last row in place. -/
theorem witness_PatternCache_pat :
    let on (i : Instr) (w : Work) (cache : List PatEntry) (m : Matrix) (p : Run → State → Bool) : Bool :=
      ((withMe m (running .me i w (withCluster cache [] (base [])))).resumeMe i).any fun q => p q.1 q.2
    let k (u : State) : PatKey := u.patKey (patIdOf 1 0 0) patExt 4 (rangeFrom (2 ^ 48 + 0x4000) 32)
    let outside : PatCmd := { patCmd with ext := extOf 32 (scr (2 ^ 35)) }
    on (.mePat outside) {} [] {} (fun r u => !r.work.checked && (u.runKeys .me r (scr (2 ^ 35)).toNat 32).isNone) = true ∧
    on (.mePcomp { pcomp with wait := false, ext := outside.ext }) {} [] {} (fun r u =>
      (u.runKeys .me r (scr (2 ^ 35)).toNat 32).isNone) = true ∧
    on (.mePat patCmd) {} [patEntry] {} (fun r u => !r.work.checked && (u.patHit (k u) r.id).any fun q => !q.1.dense) = true ∧
    on (.mePat patCmd) {} [] {} (fun r u => u.patHit (k u) r.id = none
      && u.runKeys .me r (scr 0x4000).toNat 32 = some (rangeFrom (2 ^ 48 + 0x4000) 32) && u.cluster.compiles.length < 32) = true ∧
    on (.mePat patCmd) { held with checked := true } [patEntry] opened (fun r u => u.patOf r.id = some patEntry
      && !r.work.finishing && (u.me.bank false).state = .opened
      && (whole (u.gatherWords portMa (runBits 4 128 / 64) { r with upc := microCount r.work.i } 200)).any fun q =>
          (q.2.2.me.bank false).depth < 256 * q.2.2.dcap) = true ∧
    on (.mePat patCmd) { checked := true, i := 1 } [patEntry] opened (fun r u => u.patOf r.id = some patEntry
      && patCmd.count.toNat < r.work.i && !u.me.inPipe r.id) = true ∧
    on (.mePcomp pcomp) {} [patEntry] {} (fun _ u => u.cluster.cache.any fun e => e.key = k u) = true ∧
    on (.mePcomp pcomp) {} [] {} (fun r u => (u.cluster.cache.all fun e => e.key ≠ k u)
      && (u.runKeys .me r (scr 0x4000).toNat 32).isSome) = true := by decide

/-! ### The scatter-accumulate engine (O53) -/

/-- An update of FP32 or INT32 elements at offset 0x100, indices at `out0`, values at `out1`, compare values at `out2`. -/
def saOp (type : BitVec 4) (nomrg : Bool) (resp : Option SaResp) : SaOpCmd :=
  { type := type, iw := 1, sat := false, nomrg := nomrg, isrc := 0x200, vsrc := 0x201, n := 0, ext := extOf 64 (scr 0x100), resp := resp }
def gatesOpen : Dfa := { ports := [(8, { gate := true }), (9, { gate := true }), (10, { gate := true })] }
/-- An engine command in progress with packets at `out0`, `out1` and `out2`, their gates open. -/
def fed (e : Engine) (i : Instr) (w : Work) (a b c : List Packet) : State :=
  ((((withArray gatesOpen (running e i w (base [])))).setPoint 0 8 { buf := a }).setPoint 0 9 { buf := b }).setPoint 0 10 { buf := c }
/-- A command of the SA as it goes on, its feeds held; where its work is checked, an empty hash table at offset 0x100. -/
def onSa (i : Instr) (w : Work) (a b c : List Packet) (feeds : List Nat) (p : Run → State → State → Bool) : Bool :=
  let s := withWords 0x100 (if w.checked then List.replicate 8 0xFFFFFFFF else []) (fed .sa i w a b c)
  (s.resume .sa i (s.eng .sa).runs.isEmpty).any fun q => q.2.feedsFree q.1.id feeds && p q.1 q.2 (q.2.holdFeeds q.1.id feeds)
/-- What was taken of the feeds, and what an update, a probe, an insertion and the key feed come to. -/
def taken : Taken → Option (Nat × Nat × Nat × Run × State)
  | .got v x c r s => some (v, x, c, r, s)
  | _ => none
def updated : Update → Option (Nat × Run × State)
  | .done o r s => some (o, r, s)
  | .fault _ _ => none
def inserted : Insert → Option (Run × State)
  | .done r s => some (r, s)
  | _ => none
def probed : Probe → Option (Nat × Run × State)
  | .slot t _ r s => some (t, r, s)
  | _ => none
def keyOf : KeyHead → Option (Nat × State × State)
  | .key k b a => some (k, b, a)
  | _ => none
/-- An index inside the table for each operation, one outside it, the null index; a command that has done its last. -/
theorem witness_AtomicUpdates :
    let ok (i : Instr) (aop : Nat) (c : SaOpCmd) (idx : Word) (q : Nat → Run → State → Bool) : Bool :=
      let p : SaSpec := { instr := i, aop := aop, c := c }
      onSa i {} [lane idx] [lane 5] [lane 0] p.feeds fun r _ w =>
        let v := if p.merges then w.choose.2 else w
        !r.work.complete && r.work.held.length < p.perPacket && (!p.merges || w.choose.1 % 64 = 0)
          && (taken (v.takeUpdate p { r with upc := microCount r.work.i })).any fun g => q g.1 g.2.2.2.1 g.2.2.2.2
    let upd (aop : Nat) (exch : Bool) (n : Nat) (r : Run) (s : State) : Bool :=
      n = 3 && inExt (saOp 8 false none).ext (scr 0x10C).toNat 4
        && (updated (s.update .sa r (scr 0x10C).toNat 4 exch fun old =>
            if aop = 7 then (old, 0) else saCombine aop 8 false old 5)).isSome
    let cas : SaOpCmd := saOp 8 false (some { csrc := 0x202, rsid := 0, rport := 1 })
    ok (.saOpAdd (saOp 1 true none)) 0 (saOp 1 true none) 3 (fun n _ _ => n = 3) = true ∧
    ok (.saOpAdd (saOp 8 false none)) 0 (saOp 8 false none) 3 (upd 0 false) = true ∧
    ok (.saOpMin (saOp 8 false none)) 1 (saOp 8 false none) 3 (upd 1 false) = true ∧
    ok (.saOpMax (saOp 8 false none)) 2 (saOp 8 false none) 3 (upd 2 false) = true ∧
    ok (.saOpOr (saOp 8 false none)) 3 (saOp 8 false none) 3 (upd 3 false) = true ∧
    ok (.saOpAnd (saOp 8 false none)) 4 (saOp 8 false none) 3 (upd 4 false) = true ∧
    ok (.saOpXor (saOp 8 false none)) 5 (saOp 8 false none) 3 (upd 5 false) = true ∧
    ok (.saOpXchg (saOp 8 false none)) 6 (saOp 8 false none) 3 (upd 6 true) = true ∧
    ok (.saOpCas cas) 7 cas 3 (upd 7 true) = true ∧
    ok (.saOpAdd (saOp 8 false none)) 0 (saOp 8 false none) 16 (fun n _ _ => n = 16 && !inExt (extOf 64 (scr 0x100)) (scr 0x140).toNat 4) = true ∧
    ok (.saOpAdd (saOp 8 false none)) 0 (saOp 8 false none) 0xFFFFFFFF (fun n _ _ => n = nullIndex 32) = true ∧
    onSa (.saOpAdd (saOp 8 false none)) { complete := true } [] [] [] [8, 9] (fun r _ _ => r.work.complete && r.work.held = []) = true := by
  decide +kernel
theorem test_sa_add :
    memNat (after (.saOpAdd (saOp 8 true none)) (fed .sa (.saOpAdd (saOp 8 true none)) {} [lane 3] [lane 5] [])).mem (2 ^ 48 + 0x10C) 4 =
      5 := by decide +kernel
def hashCmd (rcd : Option Ext) : HashCmd :=
  { ksrc := 0x200, vsrc := 0x201, rbase := 0, estart := 0, ext := extOf 64 (scr 0x100), rcd := rcd, hmul := none }
/-- A pair that goes into the table; END, without a record and with one. -/
theorem witness_AtomicUpdates_hash :
    let on (x : Option Ext) (a b : List Packet) (p : Run → State → Bool) : Bool :=
      onSa (.saHash (hashCmd x)) { checked := true } a b [] [8, 9] fun r _ w => p { r with upc := microCount r.work.i } w
    on none [lane 3] [lane 5] (fun j w => (keyOf (w.keyHead 8 64)).any fun k =>
      k.1 ≠ emptyKey && (k.2.2.feedNext { j with clock := j.clock.join (w.headResp w.tile 8) } 9 32).any fun f =>
        f.1 = some 5 && (inserted (f.2.2.insert f.2.1 (extOf 64 (scr 0x100)) 0 k.1 5)).isSome) = true ∧
    on (some (extOf 16 (scr 0x80))) [mark .fin] [] (fun j w => match w.keyHead 8 64 with
      | .mark .fin e => (written (e.runWrite .sa (j.stopHash 0 0) (scr 0x80).toNat (hashRecord 0 0 0 0) false false)).isSome
      | _ => false) = true := by decide +kernel
def rehash : RehashCmd := { hmul := 1, old := extOf 8 (scr 0x100), new := extOf 8 (scr 0x140) }
/-- Emptying the new table; a slot of the old one that holds a pair, and one that is empty; the end. -/
theorem witness_AtomicUpdates_rehash :
    let s (w : Work) (v : Word) : State := withWords 0x140 [0xFFFFFFFF] (withWords 0x100 [v] (running .sa (.saRehash rehash) w (base [])))
    let on (w : Work) (v : Word) (p : Run → State → Bool) : Bool :=
      ((s w v).resume .sa (.saRehash rehash) ((s w v).eng .sa).runs.isEmpty).any fun q => p { q.1 with upc := microCount q.1.work.j } q.2
    on { i := 0 } 0 (fun j u => (updated (u.update .sa j (scr 0x140).toNat 8 false fun _ => (emptyKey, 0))).isSome) = true ∧
    on { i := 1 } 0xFFFFFFFF (fun j u => (updated (u.bankRead j (scr 0x100).toNat 8)).any fun o => o.1 % 2 ^ 32 = emptyKey) = true ∧
    on { i := 1 } 0x500000003 (fun j u => (updated (u.bankRead j (scr 0x100).toNat 8)).any fun o =>
      o.1 % 2 ^ 32 = 3 && (probed (o.2.2.probe o.2.1 rehash.new 3 (hashSlot 1 3 1) 16)).any fun z =>
        (updated (z.2.2.update .sa z.2.1 (scr 0x140).toNat 8 false fun _ => (o.1, 0))).isSome) = true ∧
    on { i := 1, j := 1 } 0 (fun j _ => rehash.new.bytes / 8 ≤ j.work.i && rehash.old.bytes / 8 ≤ j.work.j) = true := by
  decide +kernel

/-! ### The network engine (O54, O55) -/

/-- A gather or scatter of rows of one lane word at offset 0x100, packed at 0x200, indices of 64 bits at `out0`. -/
def rowsOf : NeMoveCmd := { move true (extOf 64 (scr 0x100)) (some (extOf 64 (scr 0x200))) with isrc := 0x200 }
def scatOf : NeMoveCmd := { move false (extOf 64 (scr 0x100)) none with isrc := 0x200, mid := 0x201 }
/-- A command of the NE as it goes on. -/
def onNe (i : Instr) (w : Work) (a b : List Packet) (f : State → State) (p : Run → State → Bool) : Bool :=
  let s := f (fed .ne i w a b [])
  (s.resume .ne i s.neMayStart).any fun q => p q.1 q.2
def rowKey : RowAt → Option Nat
  | .at_ a => some a
  | .fault _ _ => none
/-- A gather that awaits a reply. -/
def replied : State := running .ne (.neGath rowsOf) { i := 1, counts := [(0, (scr 0x118).toNat)] } (base [])
/-- The next index; a reply; a row that stands in the reorder buffer; the end. -/
theorem witness_RowsTokensAndReads_gather :
    onNe (.neGath rowsOf) {} [lane 3] [] id (fun r u =>
      !r.gathDone rowsOf && u.gathSend r rowsOf = none && !r.indicesOver rowsOf && u.robRoom rowsOf && u.feedsFree r.id [8]
        && ((u.holdFeeds r.id [8]).feedNext r 8 (rowIndexWidth rowsOf)).any fun f =>
          f.1 = some 3 && (rowKey ((u.holdFeeds r.id [8]).rowAt rowsOf 3)).isSome) = true ∧
    (((replied.eng .ne).run? 7).any fun r => nget? r.work.counts 0 = some (scr 0x118).toNat
      && (bytesOf (replied.runRead .ne r (scr 0x118).toNat (rowBytes rowsOf) rowsOf.pois false)).isSome) = true ∧
    onNe (.neGath rowsOf) { i := 1, complete := true } [] [] (fun s => s.setRob 7 0 [9]) (fun r u =>
      !r.gathDone rowsOf && u.robRow r.id r.work.k = some [9]
        && (written (u.runWrite .ne (({ r with upc := microCount r.work.k } : Run).part r.work.k) (scr 0x200).toNat (leBytes 8 9) false
          false)).isSome) = true ∧
    onNe (.neGath rowsOf) { i := 1, k := 1, complete := true } [] [] id (fun r _ => r.gathDone rowsOf) = true := by decide +kernel
/-- A row held for an index, and for the null index; the indices over. -/
theorem witness_RowsTokensAndReads_scatter :
    let ok (n : Nat) (null : Bool) : Bool :=
      onNe (.neScat scatOf) { counts := [(0, n)], k := 1, got := [(0, 5)] } [] [] id fun r u =>
        let w := u.holdFeeds r.id [8, 9]
        let j := { r with upc := microCount r.work.i, work := { r.work with counts := [(0, n)] } }
        !r.indicesOver scatOf && u.feedsFree r.id [8, 9] && nget? r.work.counts 0 = some n && rowLanes scatOf ≤ r.work.k
          && (if null then n = nullIndex (rowIndexWidth scatOf)
            else n ≠ nullIndex (rowIndexWidth scatOf) && (rowKey (w.rowAt scatOf n)).any fun a =>
              match w.putRow j scatOf a (rowLanes scatOf + 1) with | .done _ _ => true | .fault _ _ _ _ => false)
    ok 3 false = true ∧ ok (nullIndex (rowIndexWidth scatOf)) true = true ∧
    onNe (.neScat scatOf) { complete := true } [] [] id (fun r _ => r.indicesOver scatOf) = true := by decide +kernel
/-- A `ne.flag` of a descriptor at offset 0x100, its cell at 0x200 in this state. -/
def onFlag (w : Work) (c : Cell) (p : Run → State → Bool) : Bool :=
  let i : Instr := .neFlag 5 (extOf 32 (scr 0x100))
  let s := withWords 0x200 ((List.range 4).map fun k => BitVec.ofNat 64 (c.toNat / 2 ^ (64 * k)))
    (withWords 0x100 [0x200000000, scr 0x200] (running .ne i w (base [])))
  (s.resumeFlag i).any fun q => p q.1 q.2
/-- The first arrival of two, one that does not match the first, and the round passed. -/
theorem witness_RowsTokensAndReads_flag :
    let arrives (c : Cell) (ok : Bool) : Bool := onFlag {} c fun r u =>
      (bytesOf (u.runRead .ne r (scr 0x100).toNat 32 true false)).any fun q =>
        let d := FlagDesc.ofBytes q.1
        let j := u.took .ne r (scr 0x100).toNat 32
        let v := u.runNote .ne j (scr 0x100).toNat 32 false
        (v.cellKey d).any fun k => (rangeFrom k 32).all (fun y => !v.held v.tile y) && firstPoison v (rangeFrom k 32) = none
          && firstRace v j.clock (cmdAgent r.id) (rangeFrom k 32) true true = none
          && ((Cell.ofNat (memNat v.mem k 32)).arrive d.part d.scope d.gid 5).isSome = ok
    let clear : Cell := { acc0 := 0, acc1 := 0, round := 0, arr := 0, part := 0, scope := 0, gid := 0 }
    arrives clear true = true ∧ arrives { clear with arr := 1, part := 3 } false = true ∧
    onFlag { startSent := true, k := 1, counts := [(2, (scr 0x200).toNat)] } clear (fun r u =>
      (logicalKey (u.places u.tile) (nget 0 r.work.counts 2)).any fun k =>
      let met := (nget [] u.rels k).filter fun y => y.kind = .arrival (BitVec.ofNat 32 r.work.k)
      (Cell.ofNat (memNat u.mem k 32)).round ≠ r.work.k && (rangeFrom k 32).all (fun y => !u.held u.tile y)
        && firstPoison u (rangeFrom k 32) = none
        && firstRace u (u.acquire r.clock met u.tile (nget 0 r.work.counts 1)) (cmdAgent r.id) (rangeFrom k 32) false true = none) =
      true := by decide +kernel
/-- A token to the own tile, and to a tile that the region does not hold. -/
theorem witness_RowsTokensAndReads_tokens :
    onNe (.neTok 1 1 (scr 0x40)) {} [] [] id (fun r u =>
      (u.eng .ne).runs.map Run.id = [r.id] && logicalKey (u.places u.tile) (scr 0x40).toNat = some (2 ^ 48 + 0x40)
        && u.keyInScope u.tile (2 ^ 48 + 0x40) 1
        && (written (u.runArrive { r with clock := r.clock.join (u.eng .ne).last } (scr 0x40).toNat (2 ^ 48 + 0x40) 1 1)).isSome) = true ∧
    onNe (.neTok 1 1 (scr (2 ^ 35))) {} [] [] id (fun _ u => logicalKey (u.places u.tile) (scr (2 ^ 35)).toNat = none) = true := by
  decide +kernel
def xrd : XrdCmd := { grant := 3, scope := 1, sywen := false, addr := 0, dst := extOf 512 (scr 0x400), rcd := extOf 16 (scr 0x80), tail := none }
/-- A grant of a queue pair of four entries, of NVMe and of RDMA. -/
def grantOf (kind : Byte) : List Byte := (List.range 128).map fun i => if i = 2 then kind else if i = 48 then 4 else 0
def pairOf (kind : Byte) : QueuePair := { payload := grantOf kind }
/-- A post of grant 3 all of whose bytes have been written. -/
def posted3 (req : XrdRequest) : XrdPost :=
  { id := 0, tile := 0, cmd := 7, request := req, aperture := 0x1000, len := 512, pair := 3, ranges := [(0, 512)] }
/-- An external read with its grant and without it, of each kind; a pair that is full. -/
theorem witness_RowsTokensAndReads_posts :
    ([(Instr.neXrdNvme xrd, 0, 0), (Instr.neXrdRdma xrd, 1, 1)].all fun (i, kind, b) =>
      let q := queued .ne (wordsOfCmd i) (base [])
      let g (v : QueuePair) : State := { q with fmc := { q.fmc with grants := [(3, grantOf b)], pairs := [(3, v)] } }
      (q.eng .ne).fault = none && lfind (fun r => r.instr = i && !r.work.startSent) (q.eng .ne).runs = none && q.neMayStart
        && (q.startRun .ne i).any (fun z => !z.2.granted 3 kind)
        && ((g (pairOf b)).startRun .ne i).any (fun z =>
          let v := nget {} z.2.fmc.pairs 3
          z.2.granted 3 kind && z.2.addrInScope xrd.dst.base.toNat 1 && z.2.aperture xrd.dst.bytes = some 0
            && z.2.outstanding 3 v + 1 < v.depth)
        && ((g { pairOf b with late := [1, 2, 3] }).startRun .ne i).any (fun z =>
          let v := nget {} z.2.fmc.pairs 3
          v.depth ≤ z.2.outstanding 3 v + 1)) = true := by decide +kernel
/-- Its data; a completion entry that is not fresh, and a fresh one that names it; its timeout; with and without a SYW. -/
theorem witness_RowsTokensAndReads_reads :
    ([false, true].all fun sywen =>
      let c : XrdCmd := { xrd with sywen := sywen, tail := some (0x10, 1) }
      let s0 := running .ne (.neXrdNvme c) { startSent := true } (base [])
      let p := posted3 (s0.xrdRequest c 0)
      let q := pairOf 0
      let s : State := { s0 with xrds := [p], fmc := { s0.fmc with pairs := [(3, q)] } }
      let cqe : List Byte := List.replicate 14 0 ++ [1, 0]
      let syw := tileAddr s.ownRank 0x100
      s.xrds = [p] && p.tile = s.tile && p.done = none && nget? s.fmc.pairs p.pair = some q
        && !q.fresh (List.replicate 16 0) && q.fresh cqe && q.names cqe p.id && q.status cqe = 0
        && xrdStatus 0 (q.status cqe) false = 0 && decide (p.len ≤ p.written)
        && ((s.eng .ne).run? p.cmd).any (fun r => r.instr = .neXrdNvme c && !r.work.finishing
          && ([{ s with
                  xrds := [{ p with done := some (q.status cqe) }]
                  fmc := { s.fmc with pairs := nset s.fmc.pairs p.pair q.consumed } },
               { s with
                  xrds := [{ p with done := some 0xFFFF }]
                  fmc := { s.fmc with pairs := nmod {} s.fmc.pairs p.pair fun q => { q with late := q.late ++ [p.id] } } }].all fun (u : State) =>
            (written (u.runWrite .ne r c.rcd.base.toNat (xrdRecord 0 p.written c.addr) true false)).any fun v =>
              (logicalKey (v.places v.tile) syw).any fun k => !v.held v.tile k && firstPoison v (sywKeys k) = none
                && firstRace v (r.clock.release (cmdAgent r.id)) (cmdAgent r.id) (sywKeys k) true true = none)
          && (written (s.runWrite .ne r (c.dst.base.toNat + 0x1F8) ([1, 2, 3].take (p.len - 0x1F8)) false false)).isSome)
        && decide ((0xFFF : BitVec 32).toNat < p.aperture) && decide (p.aperture ≤ (0x11F8 : BitVec 32).toNat)) = true := by
  decide +kernel
theorem witness_RowsTokensAndReads_rdma :
    ((running .ne (.neXrdRdma xrd) { startSent := true } (base [])).eng .ne).run? 7 =
      some (run1 (.neXrdRdma xrd) { startSent := true }) ∧
    ∀ q : QueuePair, q.payload = grantOf 1 → q.phase = Config.firstOwnership →
      q.fresh (1 :: List.replicate 63 0) = true ∧ q.names (1 :: List.replicate 63 0) 1 = true := by
  refine ⟨by decide, fun q h hp => ?_⟩
  have h1 : q.rdma = true := by simp only [QueuePair.rdma, h]; decide
  rw [QueuePair.fresh, QueuePair.names, if_pos h1, if_pos h1, h, hp]
  have h2 : (numAt (1 :: List.replicate 63 0) (numAt (grantOf 1) 63 1) 1).testBit (numAt (grantOf 1) 3 1) = true := by decide
  exact ⟨by rw [h2]; simp, by decide⟩
/-- A packet of rows to a port (DMEM = 0): one row of one lane word ready, as the last of the command. -/
theorem witness_RowsTokensAndReads_port :
    onNe (.neGath { rowsOf with dmem := false, port := 0x10, ext1 := none }) { i := 1, complete := true } [] [] (fun s => s.setRob 7 0 [9])
      (fun r u =>
        let c : NeMoveCmd := { rowsOf with dmem := false, port := 0x10, ext1 := none }
        !r.gathDone c && (u.gathPacket r c).any fun k => r.work.j < rowLanes c
          && (delivered (u.deliver u.tile (pointKey c.port k.sid) r.id true { k with
              resp := (r.part (r.work.k + (r.work.j + k.count - 1) / rowLanes c)).clock.release (cmdAgent r.id) })).isSome) = true := by
  decide +kernel

/-- A sum of two INT32 elements among one participant. -/
def red : RedCmd := { type := 8, sat := false, rooted := false, scope := 1, gid := 7, part := 0, ext := extOf 8 (scr 0x100), root := none }
def round (parts : List Contribution) (done : Bool) (members : List (Nat × Nat)) : Round :=
  { id := 0, region := 1, gid := 7, number := 0, instr := .neRedSum red, members := members, parts := parts, done := done }
theorem witness_Collectives :
    let i : Instr := .neRedSum red
    let s := running .ne i {} (base [])
    let o : Collective := .red 0 red
    Collective.of i = some o ∧ (s.eng .ne).fault = none ∧ s.addrInScope o.ext.base.toNat o.scope = true ∧ o.root = none ∧
    s.rounds = [] ∧ s.hereRegion = 1 ∧
    (lfind (fun r => r.instr = i && !r.work.startSent) (s.eng .ne).runs).any (fun r => !s.unitStops .ne (some r) && match s.bring r o with | .data _ _ _ => true | .fault _ _ => false) = true := by decide +kernel
/-- The root router with all that is below it, and one on the way to it; the result delivered and to be delivered. -/
theorem witness_Collectives_rounds :
    let c (router : Nat) : Contribution := { router := router, values := [0, 0] }
    let o : Collective := .red 0 red
    let s (q : Round) : State := { running .ne (.neRedSum red) { startSent := true } (base []) with rounds := [q] }
    let mine := round [c 0] false [(0, 7)]
    let two := round [c 1] false [(0, 7)]
    let past := round [c 0] true []
    let due := round [c 0] true [(0, 7)]
    (s mine).roundStops mine = false ∧ (s two).roundStops two = false ∧ (s past).roundStops past = false ∧ (s due).roundStops due = false ∧
    o.part ≤ mine.members.length ∧ (s mine).rootOf mine o = 0 ∧ mine.done = false ∧
    (∀ p ∈ two.parts, p.router ≠ 1 → onWay ((s two).rootOf two o) 1 16 p.router = false) ∧ (s two).rootOf two o ≠ 1 ∧
    past.done = true ∧ past.parts = [c 0] ∧ (s due).isDest due o 0 = true ∧ due.written = [] ∧ due.members = [(0, 7)] ∧
    (((s due).eng .ne).run? 7).any (fun r => (written ((s due).writePieces r (resultBytes o o (c 0)).1)).isSome) = true := by
  decide +kernel

/-! ### The tacking unit (O56) -/

/-- A LIVE map of two input tokens and one output token. -/
def pair : TackMap := { state := .live, sz := [1, 1], nin := 2, r := 1, d := [0, 0], size := [2] }
/-- A command of the TK in progress, with map 0 as given. -/
def onTk (m : TackMap) (i : Instr) (w : Work) (p : Run → State → Bool) : Bool :=
  let s := running .tk i w (base [])
  ((s.setTile 0 { s.tileAt 0 with maps := [(0, m)] }).resumeTk i).any fun q => p q.1 q.2
def matchOf (parent : BitVec 5) : MatchCmd :=
  { kfmt := 2, map := if parent = 0x1F then 0 else 1, parent := parent, n := 1, rcnt := 1, d := 0, ext := extOf 4 (scr 0x100), rstride := none }
def rowsHalf (chain : Bool) : TkRowsCmd := { rows chain (extOf 8 (scr 0x100)) with fmt := 2 }
def merging : TkRowsCmd := rowsHalf false
def biasing : BiasCmd := { fmt := 2, map := 0, port := 0, sid := 0, ext := some (extOf 2 (scr 0x80)) }
/-- A match that its map stops; an even token to score, and the map to build. -/
theorem witness_Tacking_match :
    onTk pair (.tkMatch (matchOf 0x1F)) {} (fun _ u => u.matchFault (matchOf 0x1F) = some (0x160, 0)) = true ∧
    onTk {} (.tkMatch (matchOf 0x1F)) {} (fun r u =>
      u.matchFault (matchOf 0x1F) = none && (match u.readKeys (matchOf 0x1F) { r with upc := microPc 0 0 0 0 } [0, 1] [] with
        | .inl _ => true
        | .inr _ => false)) = true ∧
    onTk {} (.tkMatch (matchOf 0x1F)) { i := 1, counts := [(0, 1)], got := [(0, 0)] } (fun r u =>
      u.matchFault (matchOf 0x1F) = none && 2 ≤ 2 * r.work.i) = true := by decide +kernel
/-- A row to average, a row to write back, the end; the values of a bias to compute and to write. -/
theorem witness_Tacking_merge :
    let ok (w : Work) (p : Run → State → Bool) : Bool := onTk pair (.tkMerge merging) w fun r u =>
      u.mapFault 0 = none && shortAt merging.ext 2 (tkElems merging) (tkEs merging) (tkStride merging) = none && p r u
    ok {} (fun r u => r.work.i < pair.nout && (match u.readRows merging { r with upc := microPc 0 0 0 0 } [0, 1] [] with
      | .inl _ => true
      | .inr _ => false)) = true ∧
    ok { i := 1, held := [0x3C00] } (fun r u => pair.nout ≤ r.work.i && (written (u.writeElems { r with upc := microPc 0 0 0 0 }
      (merging.ext.base.toNat) (tkEs merging) [0x3C00])).isSome) = true ∧
    ok { i := 1, j := 1 } (fun r _ => pair.nout ≤ r.work.j) = true ∧
    onTk pair (.tkBias biasing) {} (fun r u =>
      u.mapFault 0 = none && shortAt (extOf 2 (scr 0x80)) 1 1 2 2 = none && !r.work.complete) = true ∧
    onTk pair (.tkBias biasing) { complete := true, held := [5] } (fun r u => u.mapFault 0 = none && r.work.complete
      && (written (u.writeElems r (scr 0x80).toNat 2 [5])).isSome) = true := by decide +kernel
/-- Delivered at a port (PMODE = 1): a full packet of a merge, the last of it, a bias's values, and those of an untack. -/
theorem witness_Tacking_delivered :
    let ported (c : TkRowsCmd) : TkRowsCmd := { c with pmode := true, port := 0x10 }
    let m := ported merging
    let goes (u : State) (r : Run) (last : Bool) : Bool :=
      let lanes := packElems 16 4 ((r.work.held.take (fullPacket 2)).map (·.toNat)) 8
      (delivered (u.deliver u.tile (pointKey 0x10 0) r.id false
        { lanes := lanes, pred := BitVec.allOnes 8 >>> (8 - lanes.length), sid := 0, marker := if last then some .fin else none })).isSome
    fullPacket (tkEs m) = 32 ∧ tkEs m = 2 ∧ tkElems m = 1 ∧
    onTk pair (.tkMerge m) { i := 1, held := [0x3C00] } (fun r u =>
      u.mapFault 0 = none && shortAt m.ext 2 1 2 (tkStride m) = none && pair.nout ≤ r.work.i && goes u r true) = true ∧
    onTk pair (.tkMerge m) { i := 0, held := List.replicate 33 7 } (fun r u => fullPacket 2 ≤ r.work.held.length && goes u r false) = true ∧
    onTk pair (.tkMerge m) {} (fun r u => r.work.i < pair.nout && r.work.held.length < 32
      && (match u.readRows m { r with upc := microPc 0 0 0 0 } [0, 1] [] with | .inl _ => true | .inr _ => false)) = true ∧
    onTk pair (.tkBias { biasing with port := 0x10, ext := none }) { complete := true, held := [5] } (fun r u =>
      u.mapFault 0 = none && r.work.complete && goes u r true) = true ∧
    onTk pair (.tkUntack m) { i := 1, got := [(0, 5)] } (fun r u => u.mapFault 0 = none && shortAt m.ext pair.nout 1 2 (tkStride m) = none
      && pair.nout ≤ r.work.i && r.work.k < [0, 0].length && r.work.held.length < 32) = true ∧
    onTk pair (.tkUntack m) { i := 1, k := 2, held := [5, 5] } (fun r u => pair.d.length ≤ r.work.k && goes u r true) = true ∧
    onTk pair (.tkUntack (rowsHalf true)) { checked := true, owns := [0, 0] } (fun r u => r.work.checked && r.work.owns.length = 2
      && u.mapFault 0 = none) = true := by decide +kernel
/-- Without a chain and along one: a row to read, a row to place, the end. -/
theorem witness_Tacking_untack :
    let ok (c : TkRowsCmd) (w : Work) (p : Run → State → Bool) : Bool := onTk pair (.tkUntack c) w fun r u =>
      u.mapFault 0 = none && (match if c.chain then u.untackRows 16 pair pair.d else .inl pair.d with
        | .inl l => l = [0, 0]
        | .inr _ => false)
        && shortAt c.ext 2 (tkElems c) (tkEs c) (tkStride c) = none && p r u
    ([merging, rowsHalf true].all fun c =>
      ok c {} (fun r u => r.work.i < pair.nout
        && (match u.readElems { r with upc := microPc 0 0 0 0 } c.ext.base.toNat (tkEs c) (tkElems c) with
          | .row _ _ _ => true
          | .fault _ _ => false))
      && ok c { i := 1, got := [(0, 5)] } (fun r u => (written (u.writeElems { r with upc := microPc 0 0 0 0 } c.ext.base.toNat
        (tkEs c) [5])).isSome)
      && ok c { i := 1, j := 2 } (fun r _ => pair.nout ≤ r.work.i && 2 ≤ r.work.j)) = true := by decide +kernel
/-- Maps that live, are free and are lost; a map that is a parent and one that is not. -/
theorem witness_Tacking_keep :
    onTk pair (.tkKeep 0) {} (fun _ u => u.mapFault 0 = none) = true ∧
    onTk {} (.tkKeep 0) {} (fun _ u => (u.tackMap 0).state = .free) = true ∧
    onTk { pair with state := .lost } (.tkKeep 0) {} (fun _ u => (u.tackMap 0).state = .lost) = true ∧
    onTk pair (.tkFree 0) {} (fun _ u => !(u.tileAt u.tile).isParent 0) = true ∧
    onTk { pair with parent := some 3 } (.tkFree 3) {} (fun _ u => (u.tileAt u.tile).isParent 3) = true := by decide +kernel
/-- The average of 1.0 and 2.0 in FP16 (R279). -/
theorem test_merge_average : averageOf Fmt.fp16 2 [(1, 0x3C00), (1, 0x4000)] = (0x3E00, 0) := by decide +kernel

/-! ### The host's side (O57, O58) -/

/-- Port 0 is captain of the module, with token 7; a key is enrolled. -/
def hosted (booted : Bool) : State :=
  { State.reset with own := {
      state := .owned, capt := false, token := 7, leasems := 100, booted := booted, bootWindow := !booted
      key := some ([1], 0, 0), offer1 := some (100, 9) } }
/-- The same before any enrolment. -/
def unenrolled : State := { hosted false with own := { (hosted false).own with key := none } }
/-- Port 1 has just offered; the module is UNOWNED. -/
def offered : State := { State.reset with own := { offer1 := some (100, 9) } }
def claim (step ms token : Nat) : Word := BitVec.ofNat 64 (step * 2 ^ 62 + ms * 2 ^ 32 + token)
/-- Offers at both ends of the range of LEASEMS and outside it, and while another is captain; a CONFIRM that matches, one that
does not; the captain's writes and another's. -/
theorem witness_OwnershipAndUsmond_claims :
    claimFields (claim 1 100 9) = (1, 100, 9) ∧ claimFields (claim 1 600000 9) = (1, 600000, 9) ∧
    claimFields (claim 1 99 9) = (1, 99, 9) ∧ claimFields (claim 1 100 0) = (1, 100, 0) ∧ claimFields (claim 2 100 9) = (2, 100, 9) ∧
    State.reset.own.acceptable true = true ∧ (hosted false).own.acceptable true = false ∧
    offered.own.offer true = some (100, 9) ∧ offered.own.acceptable true = true ∧ offered.own.offer false ≠ some (100, 9) ∧
    (hosted true).own.isCaptain false = true ∧ (7 : Word) = (hosted true).own.token.setWidth 64 ∧ (7 : Word).getLsbD 32 = false ∧
    (claim 0 1 7).toNat / 2 ^ 33 = 0 ∧ (claim 0 1 7).extractLsb' 0 32 = (hosted true).own.token ∧
    (claim 0 1 7).getLsbD 32 ≠ false ∧ (hosted true).own.isCaptain true = false ∧ (hosted true).own.state ≠ .unowned := by decide
theorem witness_OwnershipAndUsmond_windows :
    let s := hosted false
    s.own.isCaptain false = true ∧ (0x20000 ≤ 0x2FFF8 ∧ 0x2FFF8 < 0x30000 ∧ 0x2FFF8 % 8 = 0) ∧ s.own.isCaptain true = false ∧
    s.own.booted = false ∧ s.own.bootWindow = true ∧ 0x7FFFFFFF + ([5] : List Byte).length ≤ 2 ^ 31 ∧ s.regions = [] ∧
    s.fmc.queues = [] ∧ isCaptainCommand true (.boot true 0 0) = true ∧ isCaptainCommand true (.enrol true [] 0 0) = true := by decide
theorem witness_OwnershipAndUsmond_usmond :
    (hosted false).own.key = some ([1], 0, 0) ∧ (hosted false).own.booted = false ∧ (0 : Nat) + 2 ^ 31 ≤ 2 ^ 31 ∧
    (hosted true).own.key = some ([1], 0, 0) ∧ (hosted true).own.booted = true ∧
    unenrolled.own.isCaptain false = true ∧ unenrolled.own.booted = false ∧ unenrolled.own.key = none ∧ (2 : BitVec 8) ≤ 2 := by decide
/-- A window of the captain's port onto two bytes of a page that is mapped. -/
theorem witness_OwnershipAndUsmond_bar2 :
    let s : State := { hosted true with fmc := { (hosted true).fmc with
      wins := [{ port := false, offset := 0x100, len := 0x1000, space := 0, va := 0x10000 }] } }
    s.own.booted = true ∧
    (s.mapPages 0 16 true 1 0x10000 none).any (fun u => u.own.isCaptain false && u.own.booted && u.regions.isEmpty && u.fmc.queues.isEmpty
      && (lfind (fun w => w.port = false && w.offset ≤ 0x110 && 0x110 + ([5, 6] : List Byte).length ≤ w.offset + w.len) u.fmc.wins).any fun w =>
        (u.vaKeys w.space (w.va.toNat + (0x110 - w.offset)) 2).any fun ks =>
          ks.length = 2 && lget 0 ks 0 ≠ lget 0 ks 1 && ks.all fun k => nget .runs u.hbmPart (stackOf k) ≠ .gated) = true := by decide +kernel
theorem witness_OwnershipAndUsmond_buffers :
    (0x10000 ≤ 0x1FFF8 ∧ 0x1FFF8 + 8 ≤ 0x20000) ∧ (0x20000 ≤ 0x2FFF8 ∧ 0x2FFF8 + 8 ≤ 0x30000) ∧ (0 : BitVec 256) = 0 ∧ (1 : BitVec 256) ≠ 0 ∧
    (hosted false).fuses = [] ∧ 0 % 24 ∉ (nget {} (hosted false).clusters 0).missing ∧
    bundleImages 0 1 [] = [] ∧ ({ hosted false with fuses := [25] } : State).fuses = [25] := by decide
/-- A lease that expires leaves the module UNOWNED (R382). -/
theorem test_lease_expires : (after .leaseExpired (hosted true)).own.state = .unowned := by decide

def served : State := hosted true
def busy : State := { served with own := { served.own with fmcstat0 := { busy := true } } }
theorem serves_served : Serves false served := by unfold Serves; decide
theorem witness_FmcRequests_refused :
    isFmcRequest true (.policy true 1) = true ∧ served.fmc.ckptRegions = none ∧ served.own.isCaptain true = false ∧
    isFmcRequest false (.policy false 1) = true ∧ busy.own.isCaptain false = true ∧ (busy.own.fmcStat false).busy = true ∧
    (hosted false).own.isCaptain false = true ∧ ((hosted false).own.fmcStat false).busy = false ∧
    (hosted false).own.booted = false := by decide
/-- A queue made, one that can go; a page at 0x10000 of address space 0 made, and one that is there; a window. -/
theorem witness_FmcRequests_memory :
    let q : LaunchQueue := { space := 0, ring := 0, log2 := 4, doorbell := 8 }
    let s : State := { served with fmc := { served.fmc with queues := [(3, q)] } }
    let m : Mapping := { space := 0, va := 0x10000, log2 := 16, source := none }
    lfind (fun i => (nget? served.fmc.queues i).isNone) (List.range 64) = some 0 ∧
    nget? s.fmc.queues 3 = some q ∧ q.produced = q.taken ∧ Serves false s ∧ pageShift 0 = some 16 ∧
    served.hbmRoom 0 65536 = true ∧
    ({ served with regions := [(5, { id := 5, addr := 0, space := 0, state := .running, words := { ({} : RcbWords) with hbmb := 1 } })] } : State).hbmRoom
      0 65536 = false ∧ (0x10001 : Word).toNat % 2 ^ 16 ≠ 0 ∧
    (served.mapPages 0 16 true 1 0x10000 none).any (fun u =>
      (u.fmc.mappings.filter fun x => x.space = 0 && x.va < 0x10000 + 0x10000 && 0x10000 < x.va + 2 ^ x.log2) = [m]
        && (u.leafOf 0 0x10000).any (fun l => l.2 = 16) && (u.tilesOf 0).isEmpty && !u.tilePinned 0 0x10000 && !u.fmcPinned 0 0x10000 && u.fmc.unmaps.isEmpty
        && u.own = served.own && u.fmc.ckptRegions = none) = true ∧
    served.fmc.wins = [] ∧ 0 + 2 ^ 34 ≤ 2 ^ 34 := by
  unfold Serves
  decide +kernel
/-- A GRANT of an NVMe queue pair of two entries, its doorbells in one page. -/
def nvmeGrant : List Byte :=
  [1, 31, 0, 0] ++ leBytes 4 1 ++ leBytes 8 4096 ++ leBytes 8 4096 ++ leBytes 8 8192 ++ List.replicate 16 0 ++ leBytes 4 2
    ++ [9] ++ List.replicate 75 0
theorem witness_FmcRequests_grants :
    numAt nvmeGrant 0 1 = 1 ∧ numAt nvmeGrant 1 1 = 31 ∧ grantOk nvmeGrant = true ∧ nget? served.fmc.grants 31 = none ∧
    (let b : List Byte := [2, 31] ++ List.replicate 126 0
     numAt b 0 1 = 2 ∧ b.length = 128 ∧ numAt b 1 1 = 31 ∧ numAt b 2 126 = 0) := by decide +kernel
/-- The ends of the ranges of POD, POLICY and POWER, and values outside them. -/
theorem witness_FmcRequests_policies :
    let d (w : Nat) : PodDesc := { modules := [(0, 1023)], links := [{ modA := 0, portA := 23, modB := 1, portB := 0 }], hopw := w }
    (1 ≤ (d 1).hopw ∧ (d 13).hopw ≤ 13 ∧ (∀ m ∈ (d 13).modules, m.2 ≤ 1023) ∧ ∀ l ∈ (d 13).links, l.portA ≤ 23 ∧ l.portB ≤ 23) ∧
    (let b (cap : Nat) : List Byte := leBytes 4 20 ++ leBytes 2 cap ++ leBytes 2 0
     (b 1500).length = 8 ∧ numAt (b 1500) 6 2 = 0 ∧ numAt (b 1500) 4 2 = 1500 ∧ numAt (b 4500) 4 2 = 4500 ∧ numAt (b 0) 4 2 = 0 ∧
       numAt (b 1499) 4 2 = 1499 ∧ numAt (b 4501) 4 2 = 4501) ∧
    (let s : State := { served with fmc := { served.fmc with ckptRegions := some [] } }
     s.fmc.ckptRegions = some [] ∧ s.regions = []) ∧ (busy.own.fmcStat false).busy = true := by decide +kernel
/-- The payload of a service request. -/
def service (op target : Nat) : List Byte := [BitVec.ofNat 8 op] ++ leBytes 4 target ++ List.replicate 3 0
theorem witness_FmcRequests_services :
    let fenced : State := { served with clusters := [(47, { fenced := true })] }
    ServicePayload (service 1 47) 1 47 ∧ ServicePayload (service 2 0) 2 0 ∧ ServicePayload (service 3 (47 * 32 + 25)) 3 (47 * 32 + 25) ∧
    (47 * 32 + 25) / 32 < 48 ∧ (47 * 32 + 25) % 32 < 26 ∧ served.regionsOn 47 = [] ∧ (nget {} served.clusters 47).fenced = false ∧
    Serves false fenced ∧ (nget {} fenced.clusters 47).fenced = true ∧ fenced.regionsOn 47 = [] ∧
    ServicePayload (service 4 23) 4 23 ∧ served.Inv ∧ ServicePayload (service 5 23) 5 23 ∧ ServicePayload (service 6 0xBFFFFF) 6 0xBFFFFF ∧
    served.pagesIn (0xBFFFFF * 65536, 65536) = [] ∧ ServicePayload (service 7 0) 7 0 := by
  have h : served.Inv := inv_of_invOk (by decide)
  unfold Serves ServicePayload
  refine ⟨by decide, by decide, by decide, by decide, by decide, by decide, by decide, by decide, by decide, by decide, by decide,
    h, by decide, by decide, by decide, by decide⟩
/-- A cluster drained with a spare left, with none, and a tile of it that failed before; a payload out of range; the peers of a port. -/
theorem witness_FmcRequests_sparing :
    let f (bad : List Nat) : State := { served with clusters := [(47, { fenced := true, bad := bad })] }
    let c (bad : List Nat) : Cluster := nget {} (f bad).clusters 47
    let x (bad : List Nat) : Option Nat :=
      lfind (fun y => nget y (c bad).phys y = 23 && !(c bad).missing.contains y) (List.range 24)
    (x [] = some 23 ∧ ({ c [] with bad := [23] } : Cluster).spares = 24 :: [25] ∧ 23 ∉ (c []).bad ∧ x [24, 25] = some 23 ∧
      ({ c [24, 25] with bad := [24, 25, 23] } : Cluster).spares = []) ∧
    servicePayload 1 (service 1 48) = false ∧ servicePayload 7 (service 7 1) = false ∧
    (let d : PodDesc := { modules := [(0, 0), (1, 1)], links := [{ modA := 0, portA := 3, modB := 1, portB := 5 }], hopw := 2 }
     let s : State := { served with fmc := { served.fmc with podDesc := some d } }
     s.choose.1 = 0 ∧ s.peersIn s.podLinks 3 ≠ [] ∧ s.peersIn s.podLinks 4 = []) := by decide
/-- While a checkpoint runs; a region whose pages a request of RETIRE moves. -/
theorem witness_FmcRequests_checkpoint :
    let s : State := { served with fmc := { served.fmc with ckptRegions := some [5] } }
    s.own.isCaptain false = true ∧ (s.own.fmcStat false).busy = false ∧ s.own.booted = true ∧ s.fmc.ckptRegions = some [5] := by decide
/-- MAP off its page size, of no bytes, and from outside the backing store; an UNMAP of half a page; queues with entries not taken; a
window over another; a grant that is filled. -/
theorem witness_FmcRequests_corners :
    pageShift 0 = some 16 ∧ ¬((0x8000 : Nat) % 2 ^ 16 = 0) ∧ 0xC000000000 < 0xBFFFFFFFFF + 0x10000 ∧
    (served.mapPages 0 16 true 1 0x10000 none).any (fun u =>
      (u.fmc.mappings.any fun m => m.space = 0 && m.va < 0x10000 + 0x8000 && 0x10000 < m.va + 2 ^ m.log2 && 0x10000 + 0x8000 < m.va + 2 ^ m.log2)
        && (u.leafOf 0 0x10000).any fun l => l.2 = 16 && 0x10000 % 2 ^ l.2 = 0
          && (u.setPte l.1 (withBit (u.pteAt l.1) 5 true)).leafOf 0 0x10000 = some l) = true ∧
    (let q : LaunchQueue := { space := 0, ring := 0x10000, log2 := 4, doorbell := 8, produced := 3, taken := 1 }
     (q.produced - q.taken).toNat = 2) ∧
    (let w : HostWin := { port := false, offset := 0, len := 0x2000, space := 0, va := 0 }
     w.offset < 0x1000 + 0x1000 ∧ 0x1000 < w.offset + w.len) ∧
    (nget? ({ served with fmc := { served.fmc with grants := [(31, nvmeGrant)] } } : State).fmc.grants 31).isSome = true := by decide +kernel
theorem test_policy : (after (.policy false 25) served).fmc.quantum = 25 := by decide

/-! ### The FMC and the module (O59, O60) -/

/-- Region 5 on tiles 0 and 1 of cluster 0, in this state. -/
def region5 (f : Region → Region) (tiles : List (Nat × Tile)) : State :=
  let slot (t : Nat) : Slot := { region := 5, lcoord := BitVec.ofNat 21 t, state := .running }
  { State.reset with
    regions := [(5, f { id := 5, addr := 0, space := 0, place := [(0, 0), (1, 1)] })]
    roster := [(0, slot 0), (1, slot 0), (2, slot 1), (3, slot 1)], tiles := tiles, fmc := { State.reset.fmc with running := true }
    images := [(imageKey 0 0, { nclus := 1, ntile := 2, entry := 0x40, tiles := [{ rank := 0 }, { rank := 1 }] })] }
theorem witness_SchedulingAndMemory_pass :
    let s : State := { State.reset with fmc := { State.reset.fmc with running := true } }
    s.fmc.running = true ∧ s.fmc.unmaps = [] ∧ s.fmc.rings = [] ∧ s.fmc.drains = [] ∧ s.fmc.device = [] ∧ s.fmc.queues = [] ∧
    s.fmc.wakes = [] ∧ s.fmc.firmware = [] ∧ s.fmc.ends = [] ∧ s.regions = [] := by decide
/-- A pass with an image that waits, with the standby in order and failed; the end of a checkpoint; a failover. -/
theorem witness_SchedulingAndMemory_passes :
    let s (f : List Bool) : State := { served with fmc := { served.fmc with running := true, swap := some [1], failed := f } }
    let c : State := { served with fmc := { served.fmc with running := true, ckptRegions := some [], ckptPort := some false, ckptComplete := true } }
    (s []).fmc.held = [] ∧ (s []).fmc.failed.contains (!(s []).fmc.active) = false ∧
    (s [true]).fmc.failed.contains (!(s [true]).fmc.active) = true ∧ (s []).fmc.swap = some [1] ∧
    c.fmc.ckptRegions = some [] ∧ c.fmc.device = [] ∧ c.fmc.queues = [] ∧ c.regions = [] ∧ c.fmc.held = [] ∧ c.fmc.drains = [] ∧
    c.fmc.rings = [] ∧ c.fmc.unmaps = [] ∧ c.fmc.ckptPort = some false ∧ (∀ q ∈ c.tiles, q.2.clockGated = false) := by decide
/-- A retired frame that one page uses. -/
theorem witness_SchedulingAndMemory_retired :
    (served.mapPages 0 16 true 1 0x10000 none).any (fun u =>
      (u.fmc.mappings.length = 1) && (u.leafOf 0 0x10000).any fun l => 0x10000 % 2 ^ l.2 = 0
        && (List.range 64).any fun n =>
            let v : State := { u with fmc := { u.fmc with retiredFrames := [n] } }
            v.fmc.unmaps.isEmpty && (v.pagesIn (n * 65536, 65536)).length = 1) = true := by decide +kernel
theorem witness_SchedulingAndMemory_rings :
    (0, 8) ∉ State.reset.doorbells ∧
    (0, 8) ∈ ({ State.reset with fmc := { State.reset.fmc with
      queues := [(3, { space := 0, ring := 0, log2 := 4, doorbell := 8 })] } } : State).doorbells := by decide
/-- The first and the last acknowledgement of a launch; the first and the last tile of a cut; a whistle that times out. -/
theorem witness_SchedulingAndMemory_launch :
    let s (acks : List Nat) := region5 (fun r => { r with state := .loading, acks := acks }) []
    let ok (acks : List Nat) (p : State → Region → Image → Bool) : Bool :=
      ((s acks).regionAt 0).any fun r => r.state = .loading && r.abort = none && (s acks).rankAt 0 = 0
        && !r.acks.contains 0 && !r.started && (nget? (s acks).images (imageKey r.space r.words.image)).any fun im => p (s acks) r im
    ok [] (fun _ r _ => r.acks.length + 1 ≠ r.place.length) = true ∧
    ok [1] (fun s r im => r.acks.length + 1 = r.place.length && !r.whistleHeld && ({ r with
        acks := r.acks ++ [0], loadCodes := nset r.loadCodes 0 (s.loadTile r (lfind (fun t => t.rank = 0) im.tiles) 0).2 } : Region).loadCode = none
      && im.tiles.any fun y => y.startA && nget? r.place y.rank = some 0) = true := by decide +kernel
theorem witness_SchedulingAndMemory_cut :
    let s (saved : List Nat) : State :=
      region5 (fun r => { r with state := .draining, started := true, saved := saved, savea := 0x40000000 }) [(0, { cut := .blown })]
    let ok (s : State) (p : Region → Option Nat → Bool) : Bool :=
      (s.regionAt 0).any fun r => r.state = .draining && r.abort = none && r.started && !r.saved.contains 0
        && (s.tileAt 0).cut ≠ .none && ((s.placeWhistles 0).tileAt 0).part ≠ .gated && (s.placeWhistles 0).tileCut 0 && (s.placeWhistles 0).choose.1 = 0
        && !(s.placeWhistles 0).areaMoves r && (s.placeWhistles 0).rankAt 0 = 0
        && p r ((s.placeWhistles 0).choose.2.saveTile r 0 0).2
    let mapped (s : State) (p : State → Bool) : Bool := (s.mapPages 0 21 true 3 0x40000000 none).any p
    mapped (s []) (ok · fun r e => e = none && r.saved.length + 1 ≠ r.place.length) = true ∧
    mapped (s [1]) (ok · fun r e => e = none && r.saved.length + 1 = r.place.length) = true ∧
    ok (s []) (fun _ e => e.isSome) = true ∧
    invOk (s []) = true ∧ (nget? (s []).regions 5).any (fun r => r.state = .draining && r.abort = none && r.started) = true ∧
    (nget? (region5 id []).regions 5).any (fun r => r.state ≠ .draining) = true := by decide +kernel
/-- A page that a tile is still to drop; a retired frame's page that every tile has dropped. -/
theorem witness_SchedulingAndMemory_pages :
    let u (w : List Nat) (m : Option Nat) : Unmapping := { space := 0, va := 0x10000, port := none, waitFor := w, move := m }
    let s : State := { served with fmc := { served.fmc with unmaps := [u [4] none] } }
    u [4] none ∈ s.fmc.unmaps ∧ (u [4] none).space = 0 ∧ (u [4] none).va = (0x10000 : Word).toNat ∧ 4 ∈ (u [4] none).waitFor ∧
    (served.mapPages 0 16 true 1 0x10000 none).any (fun v =>
      let w : State := { v with fmc := { v.fmc with unmaps := [u [] (some 3)] } }
      lfind (fun u => u.move = some 3 && w.unmapReady u) w.fmc.unmaps = some (u [] (some 3))
        && (w.leafOf 0 0x10000).any fun l => (w.takeFrames (2 ^ l.2)).isSome
          && (({ w with fmc := { w.fmc with frames := [(0, 0xC000000000)] } } : State).takeFrames (2 ^ l.2)).isNone) = true := by
  decide +kernel

theorem witness_ErrorsLinksAndPower_partitions :
    let p : Partition := .cluster 47
    let s (x : PartSt) : State := State.reset.setPart p x
    isHbm 0 = true ∧ isHbm (2 ^ 48) = false ∧ (s .runs).partOf p = .runs ∧ (s .freezing).partOf p = .freezing ∧
    (s .gated).partOf p = .gated ∧ (s .runs).partOf p ≠ .gated ∧
    State.reset.regionAt (47 * 24 + 23) = none := by decide
/-- A cluster whose tile 23 fails with a spare left, and with none; the region on a tile that fails. -/
theorem witness_ErrorsLinksAndPower_sparing :
    let gone (s : State) : Cluster := { nget {} s.clusters 47 with bad := (nget {} s.clusters 47).bad ++ [s.physTile (47 * 24 + 23)] }
    let less : State := { State.reset with clusters := [(47, { bad := [24, 25] })] }
    (23 < 24 ∧ (gone State.reset).spares = 24 :: [25] ∧ (gone less).spares = [] ∧ less.regionAt (47 * 24 + 23) = none) ∧
    (let s := region5 (fun r => { r with state := .running }) []
     (s.regionAt 0).any (fun r => nget? s.regions r.id = some r && r.state = .running && r.abort = none && !r.place.isEmpty) = true) := by
  decide
/-- A landing record for cluster `c` of module 0, of one word, padded to a write of 64 bytes. -/
def record (c : Nat) : List Word := [BitVec.ofNat 64 (2 ^ 63 + c * 2 ^ 47), 5] ++ List.replicate 6 0
theorem witness_ErrorsLinksAndPower_links :
    let s (lanes : Nat) (up : Bool) : State := { State.reset with uaports := [(3, { lanes := lanes, up := up })] }
    meshLink 5 1 = true ∧ meshLink 0 0 = false ∧
    nget 0 (nget {} State.reset.clusters 5).spareLanes 1 < 2 ∧
    2 ≤ nget 0 (nget {} ({ State.reset with clusters := [(5, { spareLanes := [(1, 2)] })] } : State).clusters 5).spareLanes 1 ∧
    ((s 4 false).uaport 3).up = false ∧ ((s 2 true).uaport 3).up = true ∧ 1 < ((s 2 true).uaport 3).lanes ∧
    ((s 1 true).uaport 3).up = true ∧ ((s 1 true).uaport 3).lanes ≤ 1 ∧ invOk (s 1 true) = true ∧
    uaSize (8 * (record 47).length) 0 = true ∧ uaSize (8 * ([5] : List Word).length) 0 = false ∧
    ([47, 48].all fun c => match landings 0 16 (record c) with
      | [l] => l.seq = nget 0 ((s 4 true).uaport 3).nextSeq l.key && l.dmod = (s 4 true).module && l.dclus = c
      | _ => false) = true ∧ ((s 4 true).uaport 3).early = [] ∧ ((s 4 true).uaport 3).outbox = [] := by decide +kernel
/-- A write that waits for the credit; a packet of the stream class for tile 0, whose `in0` takes it. -/
theorem witness_ErrorsLinksAndPower_credit :
    let u : UaPort := { up := true, credits := 0, sent := [record 0], outbox := [record 0] }
    let s := withArray { status := .loaded, ports := [(0, { bound := true, gate := true })] } (base [])
    ({ u with sent := u.sent.drop 1, credits := min 4096 (u.credits + 1) } : UaPort).maySend (record 0) = true ∧
    (s.landPacket (bitsOf 0x200 52 47 * 24 + bitsOf 0x200 46 42) [0x200, 5]).isSome = true ∧ bitsOf 0x200 46 42 < 24 ∧ 3 % 4 = 3 := by
  decide +kernel
theorem witness_ErrorsLinksAndPower_safeTier :
    let s : State := { State.reset with fmc := { State.reset.fmc with safeTier := some (1, 0x100000, 64) } }
    let data : List Byte := List.replicate 64 5
    State.reset.fmc.safeTier = none ∧ s.fmc.safeTier = some (1, 0x100000, 64) ∧ 2 ^ 32 ≤ (0x100000000 : Word).toNat ∧
    (0x100000000 : Word).toNat - 2 ^ 32 + data.length ≤ min 64 hbmEnd ∧ uaSize data.length (0x100000000 : Word).toNat = true ∧
    uaSize data.length (0x100000008 : Word).toNat = false ∧ 64 < (0x100000040 : Word).toNat - 2 ^ 32 + data.length ∧
    s.regions = [] ∧ s.fmc.queues = [] := by decide +kernel
/-- LTOL at each state's exit latency, and below the least; a tile whose island, and whose cluster, can go. -/
theorem witness_ErrorsLinksAndPower_power :
    let s (ltol : BitVec 32) : State := { State.reset with fmc := { State.reset.fmc with ltol := ltol } }
    1 ≤ (s 1).fmc.ltol.toNat ∧ (s 1).tileQuiet 1151 = true ∧ ¬(20 ≤ (s 1).fmc.ltol.toNat) ∧ 100 ≤ (s 100).fmc.ltol.toNat ∧
    (s 100).clusterQuiet 47 = true ∧ (nget {} (s 100).clusters 47).retention = false ∧
    2000 ≤ (s 2000).fmc.ltol.toNat ∧ (s 2000).regions = [] ∧ 20 ≤ (s 20).fmc.ltol.toNat ∧ (s 20).islandQuiet 477 = true ∧
    477 ∉ (s 20).gatedIslands ∧ ¬(100 ≤ (s 20).fmc.ltol.toNat) ∧
    50000 ≤ ({ s 50000 with selfRefresh := true } : State).fmc.ltol.toNat ∧ ({ s 50000 with selfRefresh := true } : State).selfRefresh = true ∧
    ({ s 50000 with selfRefresh := true } : State).untaken = false ∧ (s 50000).deepIdle = false ∧ (s 0).fmc.ltol.toNat < 1 ∧
    (s 20).islandQuiet ((s 20).islandOf 1151) = true := by decide +kernel
theorem test_power_loss_keeps_key : (after .powerLoss (hosted true)).own.key = some ([1], 0, 0) := by decide

end Sys2Proof.Tests
end

/-! PROOFS. The reset state and the scalar load and store: the statements O6, O7, O12 and O13, with what they need of the engine's
status, of plain accesses and of the frames. -/

namespace Sys2Proof.Machine

open Sys2Proof

variable {s t u : State}

/-! ### The reset state (R8, R12) -/

/-- An integer register that nothing has written reads zero. -/
@[simp] theorem Context.reg_default (r : Reg) : ({} : Context).reg r = 0 := by
  unfold Context.reg
  split <;> rfl

/-- An engine with an empty queue waits for no dependency. -/
theorem State.depWaits_of_queue_nil {tile : Nat} {e : Engine} (h : ((s.tileAt tile).engine e).queue = []) :
    s.depWaits tile e = false := by simp [State.depWaits, h]

/-- An engine with no fault, command, program, queued word or section is IDLE (R23). -/
theorem State.engineStatus_idle {tile : Nat} {e : Engine} {g : EngineSt} (hg : (s.tileAt tile).engine e = g)
    (hfault : g.fault = none) (hruns : g.runs = []) (hprogram : g.program = none) (hqueue : g.queue = [])
    (hsects : g.sects = []) : s.engineStatus tile e = 0 := by
  have hwait : s.depWaits tile e = false := State.depWaits_of_queue_nil (by rw [hg, hqueue])
  simp [State.engineStatus, hg, hfault, hruns, hprogram, hsects, hwait]

/-- Every engine of every tile is IDLE after reset. -/
theorem State.engineStatus_reset (tile : Nat) (e : Engine) : State.reset.engineStatus tile e = 0 :=
  State.engineStatus_idle (g := {}) rfl rfl rfl rfl rfl rfl

/-- Settles O6: the reset maps list nothing, so every context, slot, tile and part of one reads as its default record; only a
register's value and an engine's status are computed from the record. -/
theorem resetLeaves : Obligations.ResetLeaves := by
  unfold Obligations.ResetLeaves
  refine ⟨fun k r => ⟨?reg, rfl, rfl, rfl, rfl, rfl, rfl, rfl, rfl, rfl⟩, fun _ => rfl,
    fun tile e => ⟨rfl, ?status, rfl, rfl, rfl, rfl⟩, fun _ => ⟨rfl, rfl⟩, fun _ _ => ⟨rfl, rfl⟩, fun _ _ => ⟨rfl, rfl⟩,
    fun _ _ => ⟨rfl, rfl, rfl⟩, fun _ _ => rfl, rfl, rfl, rfl⟩
  case reg => exact Context.reg_default r
  case status => exact State.engineStatus_reset tile e

/-- Settles O7: memory is empty, and no context, region or UALink port is listed. -/
theorem resetMeetsInvariant : Obligations.ResetMeetsInvariant := by
  unfold Obligations.ResetMeetsInvariant
  exact ⟨Memory.wf_nil, List.forall_mem_nil _, List.forall_mem_nil _, rfl⟩

/-! ### Frames in sequence -/

/-- A register written after a step that writes none. -/
theorem WritesReg.after {rd : Reg} {v : Word} (h : SameRegs s t) (k : WritesReg t u rd v) : WritesReg s u rd v :=
  ⟨fun r hr => (k.1 r hr).trans (h r), k.2⟩

/-- A write outside HBM and a step that touches no byte and no region's record. -/
theorem StoresOnly.trans_sameMemory {k n : Nat} (h : StoresOnly k n s t) (hm : SameMemory t u)
    (hr : u.regions = t.regions) : StoresOnly k n s u := by
  obtain ⟨hlocal, hall⟩ := h
  refine ⟨fun a ha hk => (hm a).trans (hlocal a ha hk), fun hd => ?_⟩
  obtain ⟨hbut, hregions⟩ := hall hd
  exact ⟨fun a ha => (hm a).trans (hbut a ha), hr.trans hregions⟩

/-! ### The plain accesses (R86) -/

/-- The note of a read touches the stamps of its sectors alone (R303). -/
theorem noteRead_onlyContext (s : State) (c : Clock) (a : Nat) (keys : List Nat) (marked : Bool) :
    OnlyContext s (noteRead s c a keys marked) := ⟨⟨rfl, rfl, rfl, rfl, rfl⟩, .of_eq rfl, fun _ _ => rfl, rfl⟩

/-- A number written from a key of a scratchpad or an L2 upward is a write there and nothing else (R345, R354, R359). -/
theorem State.write_storesOnly {k : Nat} (hk : 2 ^ 48 ≤ k) (s : State) (c : Clock) (a n v : Nat) (marked atomic : Bool) :
    StoresOnly k n s (s.write c a (cellsFrom k (leBytes n v)) marked atomic) := by
  have hcells := cellsFrom_local hk (leBytes n v)
  have hother := s.write_other c a k (leBytes n v) marked atomic hcells
  rw [leBytes_length] at hother
  exact ⟨fun j hj hout => hother j hout (.inl hj),
    fun hd => ⟨fun j hout => hother j hout (.inr hd), ((s.write_local c a _ marked atomic hcells).2 hd).2⟩⟩

/-- What a load does at the key that its checks answer. -/
theorem exec_load_at {op : LoadOp} {rd rs1 : Reg} {imm : BitVec 12} {k : Nat}
    (h : s.checkLoad (s.reg rs1 + imm12 imm) (loadBytes op) false = .at_ k) :
    exec (.load op rd rs1 imm) s =
      .next ((noteRead s s.ctx.clock (ctxAgent s.key) (rangeFrom k (loadBytes op)) false).finish rd
        (loadValue op (s.loadNat k (loadBytes op)))) := by
  show execLoad op rd rs1 imm s = _
  simp only [execLoad, h]

/-- What a store does at the key that its checks answer. -/
theorem exec_store_at {op : StoreOp} {rs1 rs2 : Reg} {imm : BitVec 12} {k : Nat}
    (h : s.checkStore (s.reg rs1 + imm12 imm) (storeBytes op) false = .at_ k) :
    exec (.store op rs1 rs2 imm) s =
      .next (s.write s.ctx.clock (ctxAgent s.key) (cellsFrom k (leBytes (storeBytes op) (s.reg rs2).toNat)) false
        false).done := by
  show execStore op rs1 rs2 imm s = _
  simp only [execStore, h]

/-- Settles O12: the load notes its read, which touches stamps alone, and ends as an instruction with a value for rd. -/
theorem loadResultAndFrame : Obligations.LoadResultAndFrame := by
  unfold Obligations.LoadResultAndFrame
  intro op rd rs1 imm s k hcheck
  let n := loadBytes op
  let u := noteRead s s.ctx.clock (ctxAgent s.key) (rangeFrom k n) false
  have hnote : MemWrite s u := noteRead_memWrite ..
  obtain ⟨hwrites, hcompleted, hspecial, honly⟩ := u.finish_spec rd (loadValue op (s.loadNat k n))
  rw [hnote.ctx] at hcompleted hspecial
  have hwrites := hwrites.after hnote.reg
  exact ⟨_, exec_load_at hcheck, hwrites, fun hnil => State.loadNat_nil hnil k n ▸ hwrites, hcompleted, hspecial,
    (noteRead_onlyContext ..).trans honly⟩

/-- Settles O13: the key that the checks answer lies outside HBM, so the write is one of a scratchpad or an L2 alone; what it
leaves of the machine, the instruction's end leaves too. -/
theorem storeResultAndFrame : Obligations.StoreResultAndFrame := by
  unfold Obligations.StoreResultAndFrame
  intro op rs1 rs2 imm s k hcheck
  obtain ⟨-, hkey, -⟩ := State.checkStore_at.1 hcheck
  have hk : 2 ^ 48 ≤ k := State.scalarKey_ge hkey
  let bytes := leBytes (storeBytes op) (s.reg rs2).toNat
  let u := s.write s.ctx.clock (ctxAgent s.key) (cellsFrom k bytes) false false
  have hwrite : MemWrite s u := State.write_memWrite ..
  obtain ⟨hregs, hcompleted, hspecial, ⟨-, -, hregions, -, -⟩, hmem, hothers, -⟩ := u.done_spec
  rw [hwrite.ctx] at hcompleted hspecial
  exact ⟨_, exec_store_at hcheck, s.write_reads _ _ _ _ _ _ _ (cellsFrom_local hk bytes),
    (State.write_storesOnly hk ..).trans_sameMemory hmem hregions, hwrite.reg.trans hregs, hcompleted, hspecial,
    hwrite.others.trans hwrite.key hothers, hwrite.tiles, hwrite.roster⟩

end Sys2Proof.Machine

/-! PROOFS. The stream engine (06_stream_engine.md): the statement O42, with the start of the command at an engine's head that it
rests on, and the refutation of O43. -/

namespace Sys2Proof.Machine

open Sys2Proof

variable {s : State}

/-! ### The start of the command at the head (R56, R62) -/

/-- A list that ends in the one element that a test accepts, less that element. -/
theorem ldrop_concat {α : Type} {p : α → Bool} {l : List α} {a : α} (hl : ∀ x ∈ l, p x = false) (ha : p a = true) :
    ldrop p (l ++ [a]) = l := by
  induction l with
  | nil => simp [ldrop, ha]
  | cons b l ih =>
    obtain ⟨hb, hl⟩ := List.forall_mem_cons.1 hl
    simp [ldrop, hb, ih hl]

/-- The words of the command at the head begin with the head of the queue (R56). -/
theorem EngineSt.head?_of_headCmd {g : EngineSt} {ws : List QWord} (h : g.headCmd = some ws) :
    ∃ w, g.queue.head? = some w ∧ ws.head? = some w := by
  unfold EngineSt.headCmd at h
  split at h
  · simp at h
  · rename_i w rest hq
    dsimp only at h
    split at h
    · rename_i hlast
      cases h
      refine ⟨w, by simp [hq], ?_⟩
      by_cases hop : w.word.op = 0xFF <;> simp_all
    · simp at h

/-- The section of a command that is ready to start has started and is not cancelled (R62). -/
theorem EngineSt.sect?_of_headReady {g : EngineSt} {w : QWord} (h : g.headReady = true) (hw : g.queue.head? = some w) :
    ∃ q, g.sect? w.sect = some q := by
  unfold EngineSt.headReady at h
  split at h
  · simp at h
  · rename_i v rest hq
    obtain rfl : v = w := by simpa [hq] using hw
    cases hs : g.sect? v.sect with
    | none => simp [hs] at h
    | some q => exact ⟨q, rfl⟩

/-- A command at the head that nothing holds back starts, with the number of one of its words, which no command in progress has. -/
theorem CommandAtHead.startRun_eq {e : Engine} {ws : List QWord} (h : CommandAtHead s e ws) (i : Instr) :
    ∃ r, r.instr = i ∧ (∀ x ∈ (s.eng e).runs, x.id ≠ r.id) ∧ s.startRun e i = some (r, s.setEng e { s.eng e with
      queue := (s.eng e).queue.drop ws.length, runs := (s.eng e).runs ++ [r] }) := by
  obtain ⟨hready, hstops, hcmd, hfresh⟩ := h
  obtain ⟨w, hw, hhead⟩ := EngineSt.head?_of_headCmd hcmd
  obtain ⟨q, hq⟩ := EngineSt.sect?_of_headReady hready hw
  have hne : ws ≠ [] := by rintro rfl; simp at hhead
  have hlast := List.getLast?_eq_some_getLast hne
  refine ⟨_, ?_, ?_, by simp only [State.startRun, hready, hstops, hcmd, hhead, hlast, Option.map_some, Option.getD_some, hq]; rfl⟩
  · rfl
  · exact fun x hx => hfresh x hx _ (List.getLast_mem hne)

/-- The command at the head, started, is in progress and has left the queue. -/
theorem CommandAtHead.started {e : Engine} {ws : List QWord} (h : CommandAtHead s e ws) (i : Instr) :
    ∃ r t, s.startRun e i = some (r, t) ∧ Started s e i ws t := by
  obtain ⟨r, hi, -, ht⟩ := h.startRun_eq i
  exact ⟨r, _, ht, ⟨r, hi, by simp⟩, by simp, .of_eq rfl, fun _ _ => rfl⟩

/-! ### Starts of the stream engine (R132, R138) -/

/-- A stream starts where a slot is free and no `se.bar` is in progress. -/
theorem CommandAtHead.startStream {ws : List QWord} (h : CommandAtHead s .se ws) (hmay : s.seMayStart true = true) (i : Instr) :
    Started s .se i ws (s.startStream i) := by
  obtain ⟨r, t, ht, hstarted⟩ := h.started i
  simpa [State.startStream, hmay, ht] using hstarted

/-- A `se.bar` starts where none is in progress. -/
theorem CommandAtHead.seBar {ws : List QWord} (h : CommandAtHead s .se ws) (hmay : s.seMayStart false = true) (c : BarCmd) :
    ∃ t, execSeBar c s = .next t ∧ Started s .se (.seBar c) ws t := by
  obtain ⟨r, t, ht, hstarted⟩ := h.started (.seBar c)
  exact ⟨t, by simp [execSeBar, hmay, ht], hstarted⟩

/-! ### Gates (R136, R137) -/

/-- A command in progress after a gate command of a SID: a stream of the SID changed, any other as it was. -/
def Run.gated (sid : BitVec 9) (f : Work → Work) (x : Run) : Run :=
  if sidOf x.instr = some sid then { x with work := f x.work } else x

/-- All that a gate command does: it acts on every stream of its SID, leaves the queue, and is in progress no longer. -/
theorem CommandAtHead.seGate {ws : List QWord} (h : CommandAtHead s .se ws) (hmay : s.seMayStart false = true) (i : Instr)
    (sid : BitVec 9) (f : Work → Work) :
    let t := s.seGate i sid f
    (t.eng .se).runs = (s.eng .se).runs.map (Run.gated sid f) ∧ (t.eng .se).queue = (s.eng .se).queue.drop ws.length ∧
      SameMemory s t := by
  obtain ⟨r, -, hfresh, hstart⟩ := h.startRun_eq i
  let others (x : Run) : Run := if x.id ≠ r.id && sidOf x.instr = some sid then { x with work := f x.work } else x
  let g : EngineSt := { s.eng .se with
    queue := (s.eng .se).queue.drop ws.length, runs := ((s.eng .se).runs ++ [r]).map others }
  let u : State := (s.setEng .se { s.eng .se with
    queue := (s.eng .se).queue.drop ws.length, runs := (s.eng .se).runs ++ [r] }).setEng .se g
  have hgate : s.seGate i sid f = u.complete .se r := by
    simp only [State.seGate, hmay, hstart, State.eng_setEng_self]; rfl
  have hu : u.eng .se = g := State.eng_setEng_self ..
  have hothers : (s.eng .se).runs.map others = (s.eng .se).runs.map (Run.gated sid f) :=
    List.map_congr_left fun x hx => by simp [others, Run.gated, hfresh x hx]
  have hself : others r = r := by simp [others]
  have hid (x : Run) : (x.gated sid f).id = x.id := by unfold Run.gated; split <;> rfl
  obtain ⟨hended, hmem, -, -, -, hqueue, -⟩ := u.complete_spec .se r
  rw [hgate]
  refine ⟨?_, by rw [hqueue, hu], .of_eq hmem⟩
  calc ((u.complete .se r).eng .se).runs
      = ldrop (fun x => x.id = r.id) ((s.eng .se).runs.map (Run.gated sid f) ++ [r]) := by
        rw [hended, hu, ← hothers]; simp [g, hself]
    _ = (s.eng .se).runs.map (Run.gated sid f) := ldrop_concat (by simpa [hid] using hfresh) (by simp)

/-- Settles O42: the command at the head starts by `CommandAtHead.startRun_eq`; a gate command then acts on the streams of its SID
and completes, which takes from the commands in progress the one that its start had put there. -/
theorem streamCommandsStart : Obligations.StreamCommandsStart := by
  unfold Obligations.StreamCommandsStart
  intro s ws h
  refine ⟨fun hmay i hi => ?streams, fun hmay => ⟨h.seBar hmay, fun sid => ?gates⟩⟩
  case streams =>
    obtain ⟨c, rfl⟩ | ⟨c, rfl⟩ | ⟨c, rfl⟩ | ⟨c, rfl⟩ := hi <;> exact ⟨_, rfl, h.startStream hmay _⟩
  case gates =>
    exact ⟨⟨_, rfl, h.seGate hmay _ sid _⟩, ⟨_, rfl, h.seGate hmay _ sid _⟩, ⟨_, rfl, h.seGate hmay _ sid _⟩⟩

/-! ### A request returned (R135) -/

/-- A stream's record once a request's data have all returned: of its requests of that number, the first is marked. -/
def Run.requestReturned (r : Run) (id : Nat) : Run :=
  { r with work := { r.work with
    reqs := lmod (fun q => q.id = id) (fun q => { q with returned := true }) r.work.reqs } }

/-- With no element left to read, the record of the stream is written with its request marked. -/
theorem State.run?_returnElements_zero {x y : Run} (h : (s.eng .se).run? x.id = some y) (p : Pattern) (id n : Nat) :
    ((s.returnElements x p id 0 n).eng .se).run? x.id = some (x.requestReturned id) :=
  State.run?_setRun (r := x.requestReturned id) h

/-- A read stream of one doubleword between offset 0 of a scratchpad and the port `ma`. -/
def oneElement : AffCmd :=
  { dir := false, port := 0x10, esize := 3, pkt := 0, start := false, fin := false, pois := false, sid := 0, n0 := 0, s0 := 8
    off := 0, ext := { gran := 0, len := 7, base := BitVec.ofNat 64 (2 ^ 63) }, dims := [] }

/-- What it shares with the other pattern streams (R124). -/
def oneElementPattern : Pattern :=
  { write := false, port := 0x10, es := 8, pkt := 1, start := false, fin := false, trap := false, sid := 0
    ext := oneElement.ext }

/-- The stream in progress with two requests outstanding that have one number. -/
def askedTwice : Run :=
  { id := 7, instr := .seAff oneElement, sect := 1, owner := 0
    work := { i := 1, reqs := [{ id := 0, first := 0, count := 1 }, { id := 0, first := 0, count := 1 }] } }

/-- The reset state with that stream in progress. -/
def askedTwiceState : State := State.reset.setEng .se { runs := [askedTwice] }

/-- Refutes O43: its clause on the last element of a request speaks of every record of a stream, and says that all requests of the
number are then marked as returned. The model marks the first; `askedTwice` has a second. `State.issueRequest` numbers a request by
its first element and goes on behind its last; the clause has no premise that the numbers of a record's requests differ. -/
theorem not_readStreamSteps : ¬ Obligations.ReadStreamSteps := by
  unfold Obligations.ReadStreamSteps
  intro h
  have hrun : askedTwiceState.runOf .se 7 = some askedTwice := by decide
  have hlisted : (askedTwiceState.eng .se).run? askedTwice.id = some askedTwice := by decide
  obtain ⟨-, -, -, -, -, hlast, -⟩ := h askedTwiceState 7 askedTwice oneElementPattern hrun rfl rfl
  obtain ⟨y, hy, -, hreturned⟩ := hlast askedTwiceState askedTwice 0 0 (by simp [hlisted])
  obtain rfl : askedTwice.requestReturned 0 = y :=
    Option.some.inj ((State.run?_returnElements_zero hlisted oneElementPattern 0 0).symm.trans hy)
  have hsecond : { id := 0, first := 0, count := 1 } ∈ (askedTwice.requestReturned 0).work.reqs := by decide
  exact absurd (hreturned _ hsecond rfl) (by decide)

end Sys2Proof.Machine

/-! PROOFS. The matrix engine (09_matrix_engine.md): what its commands leave of the machine while they take at ports, note reads and
write the array or their cluster, and how a step of one ends: its record written, its end, its fault. -/

namespace Sys2Proof.Machine

open Sys2Proof

variable {s t u v w : State} {r x y : Run} {i : Instr}

/-! ### What a command of the ME keeps -/

/-- Memory, contexts, regions, the acting tile and its engines are the same: points, arrays, clusters and the stamps of sectors may
differ. -/
structure MeKeeps (s t : State) : Prop where
  mem : t.mem = s.mem
  ctxs : t.ctxs = s.ctxs
  regions : t.regions = s.regions
  tile : t.tile = s.tile
  eng : ∀ e, t.eng e = s.eng e

theorem MeKeeps.refl (s : State) : MeKeeps s s := ⟨rfl, rfl, rfl, rfl, fun _ => rfl⟩

theorem MeKeeps.trans (h : MeKeeps s t) (k : MeKeeps t u) : MeKeeps s u :=
  ⟨k.mem.trans h.mem, k.ctxs.trans h.ctxs, k.regions.trans h.regions, k.tile.trans h.tile, fun e => (k.eng e).trans (h.eng e)⟩

theorem State.setMe_keeps (s : State) (m : Matrix) : MeKeeps s (s.setMe m) := ⟨rfl, rfl, rfl, rfl, s.eng_setMe m⟩

theorem State.setCluster_keeps (s : State) (c : Cluster) : MeKeeps s (s.setCluster c) := ⟨rfl, rfl, rfl, rfl, fun _ => rfl⟩

theorem noteRead_keeps (s : State) (c : Clock) (a : Nat) (keys : List Nat) (marked : Bool) :
    MeKeeps s (noteRead s c a keys marked) := ⟨rfl, rfl, rfl, rfl, fun _ => rfl⟩

theorem State.runNote_keeps (s : State) (e : Engine) (r : Run) (a n : Nat) (marked : Bool) :
    MeKeeps s (s.runNote e r a n marked) := by
  unfold State.runNote
  split
  · exact .refl s
  · exact noteRead_keeps ..

/-- The note of a read leaves the matrix array alone (R303). -/
@[simp] theorem State.me_runNote (s : State) (e : Engine) (r : Run) (a n : Nat) (marked : Bool) :
    (s.runNote e r a n marked).me = s.me := by
  unfold State.runNote
  split <;> rfl

/-- A tile written with its engines as they were. -/
theorem State.setTile_keeps {n : Nat} {v : Tile} (h : v.engines = (s.tileAt n).engines) : MeKeeps s (s.setTile n v) := by
  refine ⟨rfl, rfl, rfl, rfl, fun e => ?_⟩
  by_cases hn : n = s.tile
  · subst hn
    simp [State.eng, Tile.engine, h]
  · simp [State.eng, State.tileAt_setTile_ne s hn]

/-! ### Taking at a port -/

theorem State.setPoint_keeps (s : State) (tile code : Nat) (p : Point) : MeKeeps s (s.setPoint tile code p) :=
  State.setTile_keeps rfl

theorem State.gateLanes_keeps {tile code : Nat} {k k' : Packet} (h : s.gateLanes tile code k = some (k', t)) : MeKeeps s t := by
  unfold State.gateLanes at h
  dsimp only at h
  split at h
  · cases h; exact .refl s
  · split at h
    · simp at h
    · cases h; exact State.setTile_keeps rfl

theorem State.openHead_keeps {tile code : Nat} (h : s.openHead tile code = some t) : MeKeeps s t := by
  unfold State.openHead at h
  dsimp only at h
  split at h
  · simp at h
  · split at h
    · cases h; exact .refl s
    · split at h
      · split at h
        · simp at h
        · split at h
          · simp at h
          · rename_i hgate
            cases h
            exact (State.gateLanes_keeps hgate).trans (State.setPoint_keeps ..)
      · cases h; exact State.setPoint_keeps ..

theorem State.peek_keeps {tile code : Nat} {i : Item} (h : s.peek tile code = some (i, t)) : MeKeeps s t := by
  unfold State.peek at h
  split at h
  · simp at h
  · rename_i hopen
    split at h
    · simp at h
    · simp at h
    · cases h; exact State.openHead_keeps hopen

theorem State.pop_keeps (s : State) (tile code : Nat) : MeKeeps s (s.pop tile code) := by
  unfold State.pop
  dsimp only
  split
  · exact (State.setPoint_keeps ..).trans (State.setTile_keeps rfl)
  · exact State.setPoint_keeps ..

theorem State.dropEnd_keeps (s : State) (code : Nat) : MeKeeps s (s.dropEnd code) := by
  unfold State.dropEnd
  split
  · rename_i hpeek
    exact (State.peek_keeps hpeek).trans (State.pop_keeps ..)
  · exact .refl s

theorem State.dropEnds_keeps (codes : List Nat) (s : State) : MeKeeps s (codes.foldl (fun s c => s.dropEnd c) s) := by
  induction codes generalizing s with
  | nil => exact .refl s
  | cons c codes ih => exact (s.dropEnd_keeps c).trans (ih _)

theorem State.fitHead_keeps (s : State) (tile code n : Nat) : MeKeeps s (s.fitHead tile code n) := by
  unfold State.fitHead
  dsimp only
  split
  · exact State.pop_keeps ..
  · exact .refl s

theorem State.takeElem_keeps {tile code n : Nat} {e : Elem} (h : s.takeElem tile code n = some (e, t)) : MeKeeps s t := by
  unfold State.takeElem at h
  split at h
  · simp at h
  · rename_i hpeek
    cases h
    exact ((State.fitHead_keeps ..).trans (State.peek_keeps hpeek)).trans (State.pop_keeps ..)
  · rename_i hpeek
    cases h
    refine ((State.fitHead_keeps ..).trans (State.peek_keeps hpeek)).trans ?_
    split
    · exact State.pop_keeps ..
    · exact State.setPoint_keeps ..

theorem State.nextIndex_keeps {tile code n fuel idx : Nat} (h : s.nextIndex tile code n fuel = .value idx t) : MeKeeps s t := by
  induction fuel generalizing s with
  | zero => simp [State.nextIndex] at h
  | succ fuel ih =>
    have hfit := s.fitHead_keeps tile code n
    unfold State.nextIndex at h
    split at h
    · simp at h
    · rename_i hpeek
      exact ((hfit.trans (State.peek_keeps hpeek)).trans (State.pop_keeps ..)).trans (ih h)
    · simp at h
    · rename_i hpeek
      exact ((hfit.trans (State.peek_keeps hpeek)).trans (State.pop_keeps ..)).trans (ih h)
    · rename_i hpeek
      split at h
      · rename_i htake
        cases h
        exact (hfit.trans (State.peek_keeps hpeek)).trans (State.takeElem_keeps htake)
      · simp at h

/-! ### The record of a command -/

/-- The record is of the same command: its number, instruction, section and context. -/
structure Run.SameCommand (r x : Run) : Prop where
  id : x.id = r.id
  instr : x.instr = r.instr
  sect : x.sect = r.sect
  owner : x.owner = r.owner

theorem Run.SameCommand.refl (r : Run) : r.SameCommand r := ⟨rfl, rfl, rfl, rfl⟩

theorem Run.SameCommand.trans (h : r.SameCommand x) (k : x.SameCommand y) : r.SameCommand y :=
  ⟨k.id.trans h.id, k.instr.trans h.instr, k.sect.trans h.sect, k.owner.trans h.owner⟩

theorem Run.SameCommand.raise (h : r.SameCommand x) (f : Flags) : r.SameCommand (x.raise f) := ⟨h.id, h.instr, h.sect, h.owner⟩

/-- A flag raised under a condition changes no number. -/
@[simp] theorem Run.id_ite_raise (b : Bool) (r : Run) (f : Flags) : (if b then r.raise f else r).id = r.id := by
  split <;> rfl

/-- A flag raised under a condition changes no progress. -/
@[simp] theorem Run.work_ite_raise (b : Bool) (r : Run) (f : Flags) : (if b then r.raise f else r).work = r.work := by
  split <;> rfl

theorem State.tookValue_sameCommand (s : State) (e : Engine) (r : Run) (a n : Nat) : r.SameCommand (s.tookValue e r a n) := by
  unfold State.tookValue
  split
  · exact .refl r
  · exact ⟨rfl, rfl, rfl, rfl⟩

/-- What gathering has come to is of the same command, and has kept what taking at a port keeps. -/
def Gathered.Keeps (s : State) (r : Run) : Gathered → Prop
  | .full _ x t => r.SameCommand x ∧ MeKeeps s t
  | .waits x t => r.SameCommand x ∧ MeKeeps s t
  | .ended x t => r.SameCommand x ∧ MeKeeps s t

theorem Gathered.Keeps.of_step {g : Gathered} (hr : r.SameCommand x) (hs : MeKeeps s t) (h : g.Keeps t x) : g.Keeps s r := by
  cases g <;> exact ⟨hr.trans h.1, hs.trans h.2⟩

theorem State.gatherWords_keeps (s : State) (code n : Nat) (r : Run) (fuel : Nat) :
    (s.gatherWords code n r fuel).Keeps s r := by
  induction fuel generalizing s r with
  | zero => exact ⟨.refl r, .refl s⟩
  | succ fuel ih =>
    unfold State.gatherWords
    dsimp only
    split
    · exact ⟨⟨rfl, rfl, rfl, rfl⟩, .refl s⟩
    · split
      · exact ⟨.refl r, .refl s⟩
      · rename_i hpeek
        refine .of_step ?_ ((State.peek_keeps hpeek).trans (State.pop_keeps ..)) (ih _ _)
        exact ⟨rfl, rfl, rfl, rfl⟩
      · rename_i v hpeek
        have hpop := (State.peek_keeps hpeek).trans (v.pop_keeps v.tile code)
        split
        · exact .of_step (.refl r) hpop (ih _ _)
        · split
          · exact ⟨.refl r, hpop⟩
          · exact ⟨⟨rfl, rfl, rfl, rfl⟩, hpop⟩
      · rename_i hpeek
        exact .of_step (.refl r) ((State.peek_keeps hpeek).trans (State.pop_keeps ..)) (ih _ _)

theorem State.gatherWords_full {code n fuel bits : Nat} (h : s.gatherWords code n r fuel = .full bits x t) :
    r.SameCommand x ∧ MeKeeps s t := by
  have := s.gatherWords_keeps code n r fuel
  rwa [h] at this

theorem State.gatherWords_ended {code n fuel : Nat} (h : s.gatherWords code n r fuel = .ended x t) :
    r.SameCommand x ∧ MeKeeps s t := by
  have := s.gatherWords_keeps code n r fuel
  rwa [h] at this

theorem State.readColumn_value {e : Ext} {off n c : Nat} {trap : Bool} (h : s.readColumn r e off n trap = .value c x t) :
    r.SameCommand x ∧ MeKeeps s t := by
  unfold State.readColumn at h
  dsimp only at h
  split at h
  · simp at h
  · split at h
    · simp at h
    · cases h
      exact ⟨(s.tookValue_sameCommand .me r (e.base.toNat + off) n).raise _, State.runNote_keeps ..⟩

/-! ### How a step ends -/

/-- A test that an element of a list passes finds one. -/
theorem exists_lfind_of_mem {α : Type} {p : α → Bool} {l : List α} {a : α} (ha : a ∈ l) (hp : p a = true) :
    ∃ b, lfind p l = some b := by
  induction l with
  | nil => simp at ha
  | cons b l ih =>
    by_cases hb : p b = true
    · exact ⟨b, by simp [lfind, hb]⟩
    · obtain rfl | ha := List.mem_cons.1 ha
      · exact absurd hp hb
      · simpa [lfind, hb] using ih ha

/-- A command of the ME taken up: it is in progress, and memory, contexts and regions are as they were. -/
structure MeTaken (s u : State) (r : Run) (i : Instr) : Prop where
  instr : r.instr = i
  mem : u.mem = s.mem
  ctxs : u.ctxs = s.ctxs
  regions : u.regions = s.regions
  listed : ∃ q, (u.eng .me).run? r.id = some q

theorem State.resumeMe_taken (h : s.resumeMe i = some (r, u)) : MeTaken s u r i := by
  obtain ⟨hinstr, -, hmem, hctxs, hregions, -, -, -, -, hfrom⟩ := State.resume_spec h
  refine ⟨hinstr, hmem, hctxs, hregions, ?_⟩
  have hin : r ∈ (u.eng .me).runs := by
    obtain ⟨rfl, hin⟩ | ⟨-, hstart⟩ := hfrom
    · exact hin
    · obtain ⟨-, -, -, -, ws, -, rfl⟩ := State.startRun_spec hstart
      simp
  exact exists_lfind_of_mem hin (by simp)

theorem SameOthers.of_eq (h : t.ctxs = s.ctxs) : SameOthers s t := fun k _ => by simp [State.ctxOf, h]

@[simp] theorem State.me_setRun (s : State) (e : Engine) (r : Run) : (s.setRun e r).me = s.me := s.me_setEng ..

/-- The command goes on: its record is written, and nothing else but what it keeps has changed. -/
theorem MeTaken.runHas (h : MeTaken s u r i) (k : MeKeeps u w) (hx : x.id = r.id) {p : Run → Prop} (hp : p x) :
    RunHas .me r.id (w.setRun .me x) p ∧ SameMemory s (w.setRun .me x) ∧ SameOthers s (w.setRun .me x) := by
  obtain ⟨q, hq⟩ := h.listed
  rw [← k.eng, ← hx] at hq
  exact ⟨⟨x, hx ▸ State.run?_setRun hq, hp⟩, .of_eq (k.mem.trans h.mem), .of_eq (k.ctxs.trans h.ctxs)⟩

/-- A completed command is in progress no longer, whatever its last step has done outside the engine. -/
theorem EndedRun.of_complete (h : w.eng .me = u.eng .me) (hx : x.id = r.id) : EndedRun u .me r.id (w.complete .me x) := by
  obtain ⟨hended, -⟩ := w.complete_spec .me x
  rwa [EndedRun, h, hx] at hended

/-- The command completes. -/
theorem MeTaken.ended (h : MeTaken s u r i) (k : MeKeeps u w) (hx : x.id = r.id) :
    EndedRun u .me r.id (w.complete .me x) ∧ SameMemory s (w.complete .me x) ∧ SameOthers s (w.complete .me x) := by
  obtain ⟨-, hmem, hctxs, -⟩ := w.complete_spec .me x
  exact ⟨.of_complete (k.eng .me) hx, .of_eq (hmem.trans (k.mem.trans h.mem)), .of_eq (hctxs.trans (k.ctxs.trans h.ctxs))⟩

/-- The command faults. -/
theorem MeTaken.faulted (h : MeTaken s u r i) (k : MeKeeps u w) (hx : r.SameCommand x) {code : BitVec 12} (hcode : code ≠ heldCode)
    (tval : Word) : FaultedRun .me r code tval (w.faultAt .me x code tval) ∧ SameMemory s (w.faultAt .me x code tval) := by
  obtain ⟨⟨f, hf, hc, hv, hs, hrun, hpost⟩, hmem, -⟩ := State.faultNow_spec (s := w) (e := .me) (r := x) code tval
  rw [State.faultAt_eq hcode]
  exact ⟨⟨f, hf, hc, hv, hs.trans hx.sect, hx.id ▸ hrun, hx.owner ▸ hpost⟩, .of_eq (hmem.trans (k.mem.trans h.mem))⟩

/-! ### The array and the cluster as a step ends -/

/-- What the points of a command let go of reaches no array (R121). -/
@[simp] theorem State.me_freePoints (s : State) (run : Nat) : (s.freePoints run).me = s.me := by
  let f : Tile → Tile := fun t => { t with points := t.points.map fun q => (q.1, q.2.letGo run) }
  show (nget {} (s.tiles.map fun p => (p.1, f p.2)) s.tile).me = (nget {} s.tiles s.tile).me
  rw [show ({} : Tile) = f {} from rfl, nget_map {} f]
  rfl

/-- The acting tile written, its matrix array reads back. -/
theorem State.me_setTile_self (s : State) (v : Tile) : (s.setTile s.tile v).me = v.me :=
  congrArg Tile.me (s.tileAt_setTile_self s.tile v)

/-- A command's end leaves the matrix array as the command leaves it (R27, R218). -/
theorem State.me_complete (h : ∃ q, (s.eng .me).run? r.id = some q) : (s.complete .me r).me = s.me.unbind r.instr := by
  obtain ⟨q, hq⟩ := h
  have hrun : (((s.setRun .me r).tileAt s.tile).engine .me).run? r.id = some r := State.run?_setRun hq
  simp only [State.complete, State.endRun, hrun, State.me_freePoints]
  calc State.me _ = (s.setRun .me r).me.unbind r.instr := (s.setRun .me r).me_setTile_self _
    _ = s.me.unbind r.instr := by rw [State.me_setRun]

theorem MeTaken.me_complete (h : MeTaken s u r i) (k : MeKeeps u w) (hx : r.SameCommand x) :
    (w.complete .me x).me = w.me.unbind i := by
  obtain ⟨q, hq⟩ := h.listed
  rw [State.me_complete ⟨q, by rwa [k.eng, hx.id]⟩, hx.instr, h.instr]

/-- Only `me.pat` unbinds a pattern. -/
theorem Matrix.unbind_of_ne (hi : ∀ c, i ≠ .mePat c) (m : Matrix) : m.unbind i = m := by
  unfold Matrix.unbind
  split
  · exact absurd rfl (hi _)
  · rfl

/-- A command other than `me.pat` that has written the array and completed. -/
theorem MeTaken.me_setMe_complete (h : MeTaken s u r i) (k : MeKeeps u w) (hx : r.SameCommand x) (hi : ∀ c, i ≠ .mePat c)
    (m : Matrix) : ((w.setMe m).complete .me x).me = m := by
  rw [h.me_complete (k.trans (w.setMe_keeps m)) hx, State.me_setMe, Matrix.unbind_of_ne hi]

@[simp] theorem State.cluster_setCluster (s : State) (c : Cluster) : (s.setCluster c).cluster = c := by
  simp [State.cluster, State.setCluster]

/-- A command's end leaves its cluster alone. -/
@[simp] theorem State.cluster_complete (s : State) (e : Engine) (r : Run) : (s.complete e r).cluster = s.cluster := by
  unfold State.complete State.endRun
  split <;> rfl

/-- A command's end leaves the regions alone. -/
@[simp] theorem State.regions_complete (s : State) (e : Engine) (r : Run) : (s.complete e r).regions = s.regions := by
  unfold State.complete State.endRun
  split <;> rfl

/-- A command's fault leaves the matrix array alone. -/
theorem State.me_faultAt (s : State) (e : Engine) (r : Run) (code : BitVec 12) (tval : Word) :
    (s.faultAt e r code tval).me = s.me := by
  by_cases h : code = heldCode
  · rw [h, State.faultAt_held, State.me_setRun]
  · rw [State.faultAt_eq h]
    show (((s.setRun e r).setEng e _).setCtxOf r.owner _).me = _
    show ((s.setRun e r).setEng e _).me = _
    simp

end Sys2Proof.Machine

/-! PROOFS. Weight loads, scales and swap tokens (R203-R207): the statement O50. -/

namespace Sys2Proof.Machine

open Sys2Proof

variable {s t u : State} {r x : Run} {i : Instr} {l : LoadSpec}

/-! ### Reads of a command -/

/-- The keys that a command reaches hang on its number and its program alone (R24, R64). -/
theorem State.runKeys_congr (hid : x.id = r.id) (hprog : x.prog = r.prog) (e : Engine) (a n : Nat) :
    s.runKeys e x a n = s.runKeys e r a n := by
  induction n generalizing a with
  | zero => rfl
  | succ n ih => simp [State.runKeys, State.runKey, hid, hprog, ih]

/-- What a command reads hangs on its number, its program and what it has seen alone (R299, R304). -/
theorem State.runRead_congr (hid : x.id = r.id) (hprog : x.prog = r.prog) (hclock : x.clock = r.clock) (e : Engine) (a n : Nat)
    (trap marked : Bool) : s.runRead e x a n trap marked = s.runRead e r a n trap marked := by
  simp [State.runRead, State.readClock, State.runKeys_congr hid hprog, hid, hclock]

/-- A column whose bytes memory answers. -/
theorem State.readColumn_of_bytes {e : Ext} {off n : Nat} {trap p : Bool} {bs : List Byte}
    (hin : inExt e (e.base.toNat + off : Nat) n = true)
    (hread : s.runRead .me r (e.base.toNat + off) n trap false = .bytes bs p) :
    ∃ x t, s.readColumn r e off n trap = .value (leNat bs) x t ∧ r.SameCommand x ∧ MeKeeps s t ∧ t.me = s.me :=
  ⟨_, _, by simp only [State.readColumn, hin, hread]; rfl, (s.tookValue_sameCommand ..).raise (raiseIf p Flag.poi),
    s.runNote_keeps .., s.me_runNote ..⟩

/-- A column of a load that has not been read before, and whose bytes memory answers. -/
theorem State.loadColumn_of_bytes {n : Nat} {p : Bool} {bs : List Byte} (hmw : l.fromMw = false)
    (hnone : nget? r.work.counts (128 + n) = none) (hin : inExt l.ext (l.ext.base.toNat + n * l.cstride : Nat) l.colBytes = true)
    (hread : s.runRead .me r (l.ext.base.toNat + n * l.cstride) l.colBytes l.trap false = .bytes bs p) :
    ∃ x t, s.loadColumn l r n = .value (leNat bs) x t ∧ r.SameCommand x ∧ MeKeeps s t ∧ t.me = s.me := by
  obtain ⟨x, t, hcol, hx⟩ := State.readColumn_of_bytes hin hread
  exact ⟨x, t, by simp [State.loadColumn, hnone, hmw, hcol], hx⟩

/-! ### Loads (R203-R205) -/

/-- The state in which a step of a load runs: one that has just started has set the shadow latch to NONE (R204). -/
def State.loadBegins (s : State) (r : Run) : State :=
  if r.work.checked then s else s.setMe { s.me with shadow := { s.me.shadow with latch := 0, resp := [] } }

theorem State.loadBegins_keeps (s : State) (r : Run) : MeKeeps s (s.loadBegins r) := by
  unfold State.loadBegins
  split
  · exact .refl s
  · exact State.setMe_keeps ..

@[simp] theorem State.loadBegins_active (s : State) (r : Run) : (s.loadBegins r).me.active = s.me.active := by
  unfold State.loadBegins
  split <;> simp

@[simp] theorem State.loadBegins_pipe (s : State) (r : Run) : (s.loadBegins r).me.pipe = s.me.pipe := by
  unfold State.loadBegins
  split <;> simp

/-- The record with which a step of a load runs. -/
def Run.loading (r : Run) : Run := { r with work := { r.work with checked := true } }

/-- The instruction is a load with these parameters, dense or four-of-eight. -/
def IsLoad (i : Instr) (l : LoadSpec) : Prop := (∃ c, i = .meWld c ∧ l = wldSpec c) ∨ ∃ c, i = .meSpw c ∧ l = spwSpec c

/-- A load that is taken up makes one step. -/
theorem IsLoad.exec_eq (hl : IsLoad i l) (h : s.resumeMe i = some (r, u)) :
    exec i s = .next ((u.loadBegins r).loadStep l r.loading) := by
  have hcmd : s.loadCmd i l = .next ((u.loadBegins r).loadStep l r.loading) := by
    simp only [State.loadCmd, h]
    rfl
  obtain ⟨c, rfl, rfl⟩ | ⟨c, rfl, rfl⟩ := hl <;> exact hcmd

theorem IsLoad.ne_pat (hl : IsLoad i l) (c : PatCmd) : i ≠ .mePat c := by
  obtain ⟨d, rfl, -⟩ | ⟨d, rfl, -⟩ := hl <;> simp

/-- The shadow plane with a dense column written (R203). -/
def Plane.putColumn (p : Plane) (fmt : BitVec 4) (n v : Nat) (resp : Clock) : Plane :=
  { p with
    cells := nset p.cells n (cellsOf fmt v (reduction fmt false)), masks := nerase p.masks n, resp := p.resp.join resp }

/-- A dense column that has been read is written to the shadow plane, and the load goes on at the next (R204). -/
theorem State.loadStep_dense {v : Nat} (hdense : l.sparse = false) (hi : r.work.i < 128)
    (hcol : s.loadColumn l { r with upc := microPc 0 0 r.work.i 0 } r.work.i = .value v x t) :
    s.loadStep l r = (t.setMe { t.me with shadow := t.me.shadow.putColumn l.fmt r.work.i v x.work.resp }).setRun .me
      { x with work := { x.work with i := r.work.i + 1, counts := [] } } := by
  have hlast : ¬ r.work.i ≥ 128 := Nat.not_le.2 hi
  simp [State.loadStep, hlast, hcol, State.loadMask, hdense, Plane.putColumn]

/-- A mask byte with other than four bits stops a four-of-eight load (R205). -/
theorem State.loadStep_badMask {y : Run} {w : State} {v m g n : Nat} (hsparse : l.sparse = true) (hi : r.work.i < 128)
    (hcol : s.loadColumn l { r with upc := microPc 0 0 r.work.i 0 } r.work.i = .value v x t)
    (hmask : t.loadMask l x r.work.i (reduction l.fmt true / 8) = .value m y w)
    (hbad : badMask (reduction l.fmt true / 8) 0 m = some (g, n)) :
    ∃ q, y.SameCommand q ∧
      s.loadStep l r = w.faultAt .me q 0x123 (BitVec.ofNat 64 (r.work.i * 2 ^ 14 + g * 2 ^ 8 + n)) := by
  have hlast : ¬ r.work.i ≥ 128 := Nat.not_le.2 hi
  refine ⟨({ y with upc := microPc 0 0 r.work.i g } : Run).keepMask l.fromMm r.work.i m, ⟨rfl, rfl, rfl, rfl⟩, ?_⟩
  simp [State.loadStep, hlast, hcol, hsparse, hmask, hbad]

/-- The array once a load's last column is in place: the shadow plane has its latch, and a swap token stands behind the rows
where the load asks for one (R204, R207). -/
theorem State.loadStep_last (hi : 128 ≤ r.work.i) (hrows : l.swap = true → ∀ x ∈ (s.eng .me).runs, isRowCmd x.instr = false) :
    ∃ m, s.loadStep l r = (s.setMe m).complete .me r ∧ m.shadow.latch = l.fmt ∧ m.shadow.sparse = l.sparse ∧
      m.active = s.me.active ∧ m.pipe = if l.swap then s.me.pipe ++ [.token [] one32 []] else s.me.pipe := by
  have hbehind : (l.swap && (s.eng .me).runs.any fun x => isRowCmd x.instr) = false := by
    cases hswap : l.swap
    · rfl
    · simpa using hrows hswap
  simp only [State.loadStep, hi, decide_true, Bool.true_and, hbehind, if_true, Bool.false_eq_true, if_false]
  refine ⟨_, rfl, ?_⟩
  cases l.ip <;> cases l.swap <;> exact ⟨rfl, rfl, rfl, rfl⟩

/-- A column of a load from memory is one that was read before, or is read now. -/
theorem State.loadColumn_value {n v : Nat} (hmw : l.fromMw = false) (h : s.loadColumn l r n = .value v x t) :
    r.SameCommand x ∧ MeKeeps s t := by
  unfold State.loadColumn at h
  split at h
  · cases h; exact ⟨.refl r, .refl s⟩
  · simp only [hmw, Bool.false_eq_true, if_false] at h
    exact State.readColumn_value h

theorem State.portColumn_value {code n v : Nat} (h : s.portColumn r code n = .value v x t) : r.SameCommand x ∧ MeKeeps s t := by
  unfold State.portColumn at h
  split at h
  · rename_i hfull
    cases h
    exact State.gatherWords_full hfull
  · simp at h
  · simp at h

/-- The masks of a column were read before, come at `mm`, or are read from memory. -/
theorem State.loadMask_value {n bytes v : Nat} (h : s.loadMask l r n bytes = .value v x t) : r.SameCommand x ∧ MeKeeps s t := by
  unfold State.loadMask at h
  split at h
  · cases h; exact ⟨.refl r, .refl s⟩
  · split at h
    · cases h; exact ⟨.refl r, .refl s⟩
    · split at h
      · exact State.portColumn_value h
      · split at h
        · exact State.readColumn_value h
        · cases h; exact ⟨.refl r, .refl s⟩

/-! ### Scales and tokens (R206, R207) -/

/-- `me.scl` puts a token behind the rows and completes. -/
theorem MeTaken.putsToken {c : SclCmd} (h : MeTaken s u r (.meScl c)) (k : MeKeeps u t) (hme : t.me = u.me)
    (hx : r.SameCommand x) (p : PipeItem) :
    let v := (t.setMe { t.me with pipe := t.me.pipe ++ [p] }).complete .me x
    v.me.pipe = u.me.pipe ++ [p] ∧ v.me.active = u.me.active ∧ EndedRun u .me r.id v ∧ SameMemory s v := by
  have hk := k.trans (t.setMe_keeps { t.me with pipe := t.me.pipe ++ [p] })
  obtain ⟨hended, hmem, -⟩ := h.ended hk hx.id
  have hv := h.me_setMe_complete k hx (by simp) { t.me with pipe := t.me.pipe ++ [p] }
  exact ⟨by rw [hv, ← hme], by rw [hv, ← hme], hended, hmem⟩

/-- The planes as a token passes: they swap if a load has completed, and the active plane takes the token's scales (R207). -/
theorem exec_swapTokenPass {scales : NMap (BitVec 32)} {scale : BitVec 32} {resp : Clock} {rest : List PipeItem}
    (h : s.me.pipe = .token scales scale resp :: rest) :
    ∃ m, exec .swapTokenPass s = .next (s.setMe m) ∧ m.pipe = rest ∧ m.active.scales = scales ∧ m.active.scale = scale ∧
      m.active.cells = (if s.me.shadow.latch = 0 then s.me.active.cells else s.me.shadow.cells) ∧
      m.active.latch = (if s.me.shadow.latch = 0 then s.me.active.latch else s.me.shadow.latch) ∧ m.shadow.latch = 0 := by
  show ∃ m, execSwapTokenPass s = _ ∧ _
  simp only [execSwapTokenPass, h]
  refine ⟨_, rfl, ?_⟩
  by_cases hlatch : s.me.shadow.latch = 0#4 <;> simp [hlatch]

/-- Settles O50: a load's step by what its next column comes to, a token by whether the shadow plane has its latch. -/
theorem weightPlanes : Obligations.WeightPlanes := by
  unfold Obligations.WeightPlanes
  refine ⟨?column, ?mask, ?last, ?scales, ?token⟩
  case column =>
    intro s u r c bs b hres v a hmem hi hnone hin hread
    have h := State.resumeMe_taken hres
    let q : Run := { r.loading with upc := microPc 0 0 r.work.i 0 }
    obtain ⟨x, t, hcol, hx, hread, hme⟩ := State.loadColumn_of_bytes (s := u.loadBegins r) (l := wldSpec c)
      (r := q) hmem hnone hin ((State.runRead_congr (x := q) (r := r) rfl rfl rfl ..).trans hread)
    have hstep := State.loadStep_dense (r := r.loading) rfl hi hcol
    have hkeeps := ((u.loadBegins_keeps r).trans hread).trans (t.setMe_keeps { t.me with
      shadow := t.me.shadow.putColumn c.fmt r.work.i (leNat bs) x.work.resp })
    obtain ⟨hrun, hsame, hothers⟩ := h.runHas hkeeps
      (x := { x with work := { x.work with i := r.work.i + 1, counts := [] } }) hx.id (p := fun y => y.work.i = r.work.i + 1) rfl
    refine ⟨_, (IsLoad.exec_eq (.inl ⟨c, rfl, rfl⟩) hres).trans (congrArg _ hstep), ?_, ?_, ?_, ?_, hrun, hsame, hothers⟩ <;>
      rw [State.me_setRun, State.me_setMe, hme]
    · exact nget?_nset_self ..
    · rfl
    · exact u.loadBegins_active r
    · exact u.loadBegins_pipe r
  case mask =>
    intro s u v2 v3 r r2 r3 c x y g n hres v m r1 hi hcol hmask hbad
    have h := State.resumeMe_taken hres
    obtain ⟨hcmd2, hkeeps2⟩ := State.loadColumn_value rfl hcol
    obtain ⟨hcmd3, hkeeps3⟩ := State.loadMask_value hmask
    obtain ⟨q, hq, hstep⟩ := State.loadStep_badMask (r := r.loading) (l := spwSpec c) rfl hi hcol hmask hbad
    have hcmd : r.SameCommand r1 := ⟨rfl, rfl, rfl, rfl⟩
    refine ⟨_, IsLoad.exec_eq (.inr ⟨c, rfl, rfl⟩) hres, ?_⟩
    exact hstep ▸ h.faulted (((u.loadBegins_keeps r).trans hkeeps2).trans hkeeps3) (((hcmd.trans hcmd2).trans hcmd3).trans hq)
      (by decide) _
  case last =>
    intro s i l hl r u hres hi hrows
    have h := State.resumeMe_taken hres
    have hkeeps := u.loadBegins_keeps r
    obtain ⟨m, hstep, hlatch, hsparse, hactive, hpipe⟩ := State.loadStep_last (s := u.loadBegins r) (r := r.loading) (l := l) hi
      (by rwa [hkeeps.eng])
    have hme := h.me_setMe_complete (x := r.loading) hkeeps ⟨rfl, rfl, rfl, rfl⟩ (IsLoad.ne_pat hl) m
    obtain ⟨hended, hmem, hothers⟩ := h.ended (hkeeps.trans ((u.loadBegins r).setMe_keeps m)) (x := r.loading) rfl
    exact ⟨_, (IsLoad.exec_eq hl hres).trans (congrArg _ hstep), by rw [hme, hlatch], by rw [hme, hsparse],
      by rw [hme, hactive, State.loadBegins_active], by rw [hme, hpipe, State.loadBegins_pipe], hended, hmem, hothers⟩
  case scales =>
    intro s u r c hres
    have h := State.resumeMe_taken hres
    refine ⟨fun hext => ⟨_, ?_, h.putsToken (.refl u) rfl (.refl r) _⟩, fun e bs b hext hread => ?_⟩
    · show execMeScl c s = _
      simp only [execMeScl, hres, hext]
    · let x := u.tookValue .me r e.base.toNat 512
      let v := u.runNote .me x e.base.toNat 512 false
      have hputs := h.putsToken (t := v) (u.runNote_keeps ..) (u.me_runNote ..) (u.tookValue_sameCommand .me r e.base.toNat 512)
        (.token (scalesOf bs) 0 x.work.resp)
      refine ⟨_, _, ?_, hputs⟩
      show execMeScl c s = _
      simp only [execMeScl, hres, hext, hread]
      rfl
  case token =>
    intro s scales scale resp rest hpipe
    obtain ⟨m, hexec, hrest, hscales, hscale, hcells, hlatch, hshadow⟩ := exec_swapTokenPass hpipe
    refine ⟨_, hexec, ?_⟩
    rw [State.me_setMe]
    exact ⟨hrest, hscales, hscale, hcells, hlatch, hshadow, .of_eq rfl, .of_eq rfl⟩

end Sys2Proof.Machine

/-! PROOFS. Banks and rows of the matrix engine (R202, R208-R217, R222): the statement O51. -/

namespace Sys2Proof.Machine

open Sys2Proof

variable {s t u w : State} {r x : Run} {i : Instr}

/-! ### Banks (R208, R209) -/

@[simp] theorem Matrix.bank_setBank_self (m : Matrix) (b : Bool) (k : Bank) : (m.setBank b k).bank b = k := nget_nset_self ..

@[simp] theorem Matrix.bank_setBank_not (m : Matrix) (b : Bool) (k : Bank) : (m.setBank b k).bank (!b) = m.bank (!b) :=
  nget_nset_ne _ _ (by cases b <;> decide) _

/-- Rows of a bank once the first `n` hold one value; those that hold +0 are not listed. -/
def rowsFilled (v : BitVec 32) (n : Nat) (rows : NMap (List (BitVec 32))) : NMap (List (BitVec 32)) :=
  (List.range n).foldl (fun rs i => if v = 0 then nerase rs i else nset rs i (List.replicate 128 v)) rows

theorem nget_rowsFilled (v : BitVec 32) {n i : Nat} (rows : NMap (List (BitVec 32))) (h : i < n) :
    nget (List.replicate 128 0) (rowsFilled v n rows) i = List.replicate 128 v := by
  induction n with
  | zero => omega
  | succ n ih =>
    rw [rowsFilled, List.range_succ, List.foldl_append, List.foldl_cons, List.foldl_nil, ← rowsFilled]
    obtain rfl | hi : i = n ∨ i < n := by omega
    · by_cases hv : v = 0
      · rw [if_pos hv, nget_nerase_self, hv]
      · rw [if_neg hv, nget_nset_self]
    · have hne : n ≠ i := by omega
      by_cases hv : v = 0
      · rw [if_pos hv, nget_nerase_ne _ _ hne, ih hi]
      · rw [if_neg hv, nget_nset_ne _ _ hne, ih hi]

/-- The value that `me.acc` gives the rows of its bank (R208). -/
def accInitial (c : AccCmd) : BitVec 32 := match c.initv with | some x => x | none => 0

/-- What `me.acc` makes of a FREE bank (R208). -/
def accOpens (c : AccCmd) (sect : BitVec 9) (k : Bank) : Bank :=
  { k with
    resps := if c.init = 1 then k.resps else (List.range (c.nrows.toNat + 1)).foldl nerase k.resps
    state := .opened, tag := sect, nrows := c.nrows.toNat + 1, int := c.int, sat := c.sat, depth := 0
    rows := if c.init = 1 then k.rows else rowsFilled (accInitial c) (c.nrows.toNat + 1) k.rows }

theorem row_accOpens {c : AccCmd} (h : c.init ≠ 1) (sect : BitVec 9) (k : Bank) {i : Nat} (hi : i ≤ c.nrows.toNat) :
    (accOpens c sect k).row i = List.replicate 128 (accInitial c) := by
  rw [Bank.row, accOpens, if_neg h]
  exact nget_rowsFilled _ _ (Nat.lt_succ_of_le hi)

/-- INIT 1 keeps what the rows hold (R208). -/
theorem row_accOpens_kept {c : AccCmd} (h : c.init = 1) (sect : BitVec 9) (k : Bank) (i : Nat) :
    (accOpens c sect k).row i = k.row i := by
  rw [Bank.row, accOpens, if_pos h]
  rfl

theorem exec_meAcc_of_free {c : AccCmd} (h : s.resumeMe (.meAcc c) = some (r, u)) (hbank : (u.me.bank c.bank).state = .free) :
    exec (.meAcc c) s = .next ((u.setMe (u.me.setBank c.bank (accOpens c r.sect (u.me.bank c.bank)))).complete .me r) := by
  show execMeAcc c s = _
  simp only [execMeAcc, h, hbank]
  rfl

theorem exec_meAcc_of_opened {c : AccCmd} (h : s.resumeMe (.meAcc c) = some (r, u)) (hbank : (u.me.bank c.bank).state = .opened) :
    exec (.meAcc c) s = .next (u.faultAt .me r 0x132 (BitVec.ofNat 64 c.bank.toNat)) := by
  show execMeAcc c s = _
  simp only [execMeAcc, h, hbank]

/-! ### Rows fired (R211, R215) -/

/-- A bank below its depth bound takes a row: it enters the pipeline for the command (R215). -/
theorem State.fire_of_room {bank : Bool} (h : (s.me.bank bank).depth < 256 * s.dcap) (r : Run) (row : Nat) (afmt : BitVec 4)
    (a : List MCell) (src : PipeSrc) (resp : Clock) :
    ∃ t, s.fire r bank row afmt a src resp = some t ∧ MeKeeps s t ∧
      t.me.pipe = s.me.pipe ++ [.row bank row afmt a src r.id resp] := by
  refine ⟨_, by rw [State.fire, if_neg (Nat.not_le.2 h)], State.setMe_keeps .., ?_⟩
  rw [State.me_setMe]
  rfl

/-- The record of a row command that is done with its row `j`, and goes on at the next: END met in the row is the last of all (R212). -/
def Run.nextRow (x : Run) (j : Nat) : Run :=
  let y : Run := { x with work := { x.work with i := j + 1, complete := false, finishing := x.work.complete, resp := [] } }
  if x.work.complete then y.raise Flag.len else y

@[simp] theorem Run.nextRow_id (x : Run) (j : Nat) : (x.nextRow j).id = x.id := Run.id_ite_raise ..

@[simp] theorem Run.nextRow_i (x : Run) (j : Nat) : (x.nextRow j).work.i = j + 1 := by
  rw [Run.nextRow, Run.work_ite_raise]

/-- A step of a row command that has fired a row from `w`, which its gathering has left: the pipeline has it behind the others, and
the command goes on at its next row. -/
def RowFired (w : State) (r : Run) (item : PipeItem) (t : State) : Prop :=
  ∃ (v : State) (x : Run), t = v.setRun .me (x.nextRow r.work.i) ∧ MeKeeps w v ∧ v.me.pipe = w.me.pipe ++ [item] ∧ x.id = r.id

/-- What the machine sees of it. -/
theorem MeTaken.rowFired {item : PipeItem} (h : MeTaken s u r i) (k : MeKeeps u w) (hfired : RowFired w r item t) :
    t.me.pipe = w.me.pipe ++ [item] ∧ RunHas .me r.id t (fun y => y.work.i = r.work.i + 1) ∧ SameMemory s t := by
  obtain ⟨v, x, rfl, hv, hpipe, hid⟩ := hfired
  obtain ⟨hrun, hmem, -⟩ := h.runHas (k.trans hv) (x.nextRow_id _ |>.trans hid) (p := fun y => y.work.i = r.work.i + 1)
    (x.nextRow_i _)
  exact ⟨by rw [State.me_setRun, hpipe], hrun, hmem⟩

/-- With none of its rows in the pipeline a row command completes (R202). -/
theorem State.rowsDone_of_accumulated (h : s.me.inPipe r.id = false) (codes : List Nat) :
    ∃ t, s.rowsDone r codes = t.complete .me r ∧ MeKeeps s t :=
  ⟨_, by rw [State.rowsDone, if_neg (by simp [h])], s.dropEnds_keeps codes⟩

/-- What the machine sees of that. -/
theorem MeTaken.rowsDone (h : MeTaken s u r i) (hpipe : u.me.inPipe r.id = false) (codes : List Nat) :
    EndedRun u .me r.id (u.rowsDone r codes) ∧ SameMemory s (u.rowsDone r codes) := by
  obtain ⟨t, hdone, ht⟩ := State.rowsDone_of_accumulated hpipe codes
  obtain ⟨hended, hmem, -⟩ := h.ended ht (x := r) rfl
  exact hdone ▸ ⟨hended, hmem⟩

/-! ### `me.row` (R211) -/

theorem exec_meRow {c : RowCmd} (h : s.resumeMe (.meRow c) = some (r, u)) : exec (.meRow c) s = .next (u.rowStep c r) := by
  show execMeRow c s = _
  simp only [execMeRow, h]

theorem State.rowStep_last {c : RowCmd} (hgo : r.work.finishing = false) (hi : c.count.toNat < r.work.i) :
    s.rowStep c r = s.rowsDone r [portMa] := by
  simp [State.rowStep, hgo, hi]

theorem State.rowStep_not_opened {c : RowCmd} (hgo : r.work.finishing = false) (hi : r.work.i ≤ c.count.toNat)
    (htoken : s.me.tokenInPipe = false) (hbank : (s.me.bank c.bank).state ≠ .opened) :
    s.rowStep c r = s.faultAt .me r 0x132 (BitVec.ofNat 64 c.bank.toNat) := by
  simp [State.rowStep, hgo, Nat.not_lt.2 hi, htoken, hbank]

/-- The accumulator row of a row of `me.row` (R211). -/
def rowOf (c : RowCmd) (j : Nat) : Nat := (c.base.toNat + j * (match c.rstep with | some x => x.toNat | none => 1)) % 256

theorem State.rowStep_fires {c : RowCmd} {k v : Nat} (hgo : r.work.finishing = false) (hi : r.work.i ≤ c.count.toNat)
    (htoken : s.me.tokenInPipe = false) (hbank : (s.me.bank c.bank).state = .opened) (hpairs : pairs s.me.active.latch c.afmt = true)
    (hrow : rowOf c r.work.i < (s.me.bank c.bank).nrows) (hk : reduction s.me.active.latch s.me.active.sparse = k)
    (hfull : s.gatherWords portMa (runBits c.afmt k / 64) { r with upc := microCount r.work.i } 200 = .full v x w)
    (hroom : (w.me.bank c.bank).depth < 256 * w.dcap) :
    RowFired w r (.row c.bank (rowOf c r.work.i) c.afmt (cellsOf c.afmt v k) .plane r.id x.work.resp) (s.rowStep c r) := by
  obtain ⟨⟨hid, -⟩, -⟩ := State.gatherWords_full hfull
  have hid : x.id = r.id := hid
  obtain ⟨t, hfire, ht, hpipe⟩ := State.fire_of_room hroom x (rowOf c r.work.i) c.afmt (cellsOf c.afmt v k) .plane x.work.resp
  refine ⟨t, x, ?_, ht, hid ▸ hpipe, hid⟩
  have hmore : decide (r.work.i > c.count.toNat) = false := decide_eq_false (Nat.not_lt.2 hi)
  have hrow : ¬ rowOf c r.work.i ≥ (s.me.bank c.bank).nrows := Nat.not_le.2 hrow
  unfold rowOf at hrow hfire
  cases hstep : c.rstep <;> simp only [hstep] at hrow hfire <;>
    simp only [State.rowStep, hgo, hmore, htoken, hbank, hpairs, hk, hfull, hstep, hrow, hfire, Run.nextRow, Bool.or_false,
      Bool.not_true, Bool.false_eq_true, ne_eq, not_true_eq_false, if_false]

/-! ### `me.gath` (R211, R212) -/

theorem exec_meGath {c : GathCmd} (h : s.resumeMe (.meGath c) = some (r, u)) : exec (.meGath c) s = .next (u.gathStep c r) := by
  show execMeGath c s = _
  simp only [execMeGath, h]

theorem State.gathStep_last {c : GathCmd} (hgo : r.work.finishing = false) (hi : c.count.toNat < r.work.i) :
    s.gathStep c r = s.rowsDone r r.endCodes := by
  simp [State.gathStep, hgo, hi]

/-- The width of an index of `me.gath`. -/
def gathWidth (c : GathCmd) : Nat := if c.iw then 32 else 16

/-- The accumulator row that an index of `me.gath` names (R211). -/
def gathRow (c : GathCmd) (idx : Nat) : Int := c.base.toNat + idx + (match c.ibias with | some b => b.toInt | none => 0)

/-- What the command has taken with the row and its index, once both have come. -/
def Run.indexed (x : Run) (resp : Clock) : Run := { x.gained resp with work := { (x.gained resp).work with counts := [] } }

section
variable {c : GathCmd} {k v idx : Nat} {w2 : State}

/-- A row of `me.gath` can be taken: the command is not at its end, its bank is open, its formats pair; the row has come at `ma`, and
its index at `mi` (R211). -/
structure GathTakes (s : State) (c : GathCmd) (r : Run) (k v : Nat) (x : Run) (w : State) (idx : Nat) (w2 : State) : Prop where
  go : r.work.finishing = false
  more : r.work.i ≤ c.count.toNat
  noToken : s.me.tokenInPipe = false
  opened : (s.me.bank c.bank).state = .opened
  paired : pairs s.me.active.latch c.afmt = true
  reduces : reduction s.me.active.latch s.me.active.sparse = k
  row : s.gatherWords portMa (runBits c.afmt k / 64) { r with upc := microCount r.work.i } 200 = .full v x w
  noneHeld : x.heldIndex = 0
  index : w.nextIndex w.tile portMi (gathWidth c) 200 = .value idx w2

theorem GathTakes.keeps (h : GathTakes s c r k v x w idx w2) : x.id = r.id ∧ MeKeeps s w2 := by
  obtain ⟨hx, hw⟩ := State.gatherWords_full h.row
  exact ⟨hx.id, hw.trans (State.nextIndex_keeps h.index)⟩

/-- A null index accumulates its row nowhere (R211). -/
theorem GathTakes.gathStep_null (h : GathTakes s c r k v x w idx w2) (hnull : idx = 2 ^ gathWidth c - 1) :
    s.gathStep c r = w2.setRun .me ((x.indexed (w.indexResp w.tile portMi (gathWidth c) 200)).nextRow r.work.i) := by
  obtain ⟨hgo, hmore, htoken, hbank, hpairs, hk, hfull, hheld, hindex⟩ := h
  have hmore : decide (r.work.i > c.count.toNat) = false := decide_eq_false (Nat.not_lt.2 hmore)
  unfold gathWidth at hnull hindex ⊢
  simp only [State.gathStep, hgo, hmore, htoken, hbank, hpairs, hk, hfull, hheld, hindex, ← hnull,
    Bool.or_false, Bool.not_true, Bool.false_eq_true, ne_eq, not_true_eq_false, if_false, if_true]
  rfl

theorem GathTakes.gathStep_fires (h : GathTakes s c r k v x w idx w2) (hvalid : idx ≠ 2 ^ gathWidth c - 1)
    (hlow : 0 ≤ gathRow c idx) (hhigh : gathRow c idx < (s.me.bank c.bank).nrows)
    (hroom : (w2.me.bank c.bank).depth < 256 * w2.dcap) :
    RowFired w2 r (.row c.bank (gathRow c idx).toNat c.afmt (cellsOf c.afmt v k) .plane r.id
      (x.work.resp.join (w.indexResp w.tile portMi (gathWidth c) 200))) (s.gathStep c r) := by
  have hid := h.keeps.1
  obtain ⟨hgo, hmore, htoken, hbank, hpairs, hk, hfull, hheld, hindex⟩ := h
  obtain ⟨t, hfire, ht, hpipe⟩ := State.fire_of_room hroom (x.gained (w.indexResp w.tile portMi (gathWidth c) 200))
    (gathRow c idx).toNat c.afmt (cellsOf c.afmt v k) .plane (x.gained (w.indexResp w.tile portMi (gathWidth c) 200)).work.resp
  refine ⟨t, x.indexed (w.indexResp w.tile portMi (gathWidth c) 200), ?_, ht, hid ▸ hpipe, hid⟩
  have hmore : decide (r.work.i > c.count.toNat) = false := decide_eq_false (Nat.not_lt.2 hmore)
  have hinside : (decide (gathRow c idx < 0) || decide (gathRow c idx ≥ (s.me.bank c.bank).nrows)) = false := by
    simp [hlow, hhigh]
  unfold gathRow at hinside hfire
  unfold gathWidth at *
  cases hbias : c.ibias <;> simp only [hbias] at hinside hfire <;>
    simp only [State.gathStep, hgo, hmore, htoken, hbank, hpairs, hk, hfull, hheld, hindex, hvalid, hbias, hinside, hfire,
      Bool.or_false, Bool.not_true, Bool.false_eq_true, ne_eq, not_true_eq_false, if_false] <;> rfl

end

/-! ### The row at the head of the pipeline (R198, R211) -/

/-- What a row of the pipeline is multiplied with (R198, R218). -/
def PipeSrc.weights (p : Plane) : PipeSrc → Weights
  | .plane => p.weights
  | .tile fmt cols masks => { fmt := fmt, cells := cols, masks := masks, k := 128 }

/-- The response elements that its weights are (R299). -/
def PipeSrc.seen (p : Plane) : PipeSrc → Clock
  | .plane => p.resp
  | .tile _ _ _ => []

/-- A bank with a row of A added into an accumulator row, by the active plane or the row's own tile (R198, R211, R218). -/
def Bank.accumulate (k : Bank) (p : Plane) (row : Nat) (afmt : BitVec 4) (a : List MCell) (src : PipeSrc) (resp : Clock) : Bank :=
  { k with
    rows := nset k.rows row (fireRow (src.weights p) k.sat afmt a (k.row row)).1
    resps := nset k.resps row ((Clock.join (nget [] k.resps row) resp).join (src.seen p)) }

theorem Bank.row_accumulate_self (k : Bank) (p : Plane) (row : Nat) (afmt : BitVec 4) (a : List MCell) (src : PipeSrc)
    (resp : Clock) : (k.accumulate p row afmt a src resp).row row = (fireRow (src.weights p) k.sat afmt a (k.row row)).1 :=
  nget_nset_self ..

theorem Bank.row_accumulate_ne (k : Bank) (p : Plane) {row j : Nat} (h : j ≠ row) (afmt : BitVec 4) (a : List MCell)
    (src : PipeSrc) (resp : Clock) : (k.accumulate p row afmt a src resp).row j = k.row j := nget_nset_ne _ _ (Ne.symm h) _

/-- The row at the head of the pipeline is added into its bank; the command that fired it has its flags (R198). -/
theorem exec_accumulatorWrite {bank : Bool} {row cmd : Nat} {afmt : BitVec 4} {a : List MCell} {src : PipeSrc} {resp : Clock}
    {rest : List PipeItem} (h : s.me.pipe = .row bank row afmt a src cmd resp :: rest) :
    ∃ g, exec .accumulatorWrite s = .next ((s.setMe { s.me.setBank bank
      ((s.me.bank bank).accumulate s.me.active row afmt a src resp) with pipe := rest }).setEng .me g) := by
  refine ⟨(s.eng .me).modRun cmd fun q => q.raise
    (fireRow (src.weights s.me.active) (s.me.bank bank).sat afmt a ((s.me.bank bank).row row)).2, ?_⟩
  show execAccumulatorWrite s = _
  cases src <;> simp only [execAccumulatorWrite, h, State.eng_setMe] <;> rfl

/-! ### `me.end` (R209, R214) -/

theorem exec_meEnd {c : EndCmd} (h : s.resumeMe (.meEnd c) = some (r, u)) : exec (.meEnd c) s = .next (u.endStep c r) := by
  show execMeEnd c s = _
  simp only [execMeEnd, h]

theorem State.endStep_not_opened {c : EndCmd} (hbegin : r.work.startSent = false) (hbank : (s.me.bank c.bank).state ≠ .opened) :
    s.endStep c r = s.faultAt .me r 0x132 (BitVec.ofNat 64 c.bank.toNat) := by
  simp [State.endStep, hbegin, hbank]

theorem State.endStep_opened {c : EndCmd} (hbegin : r.work.startSent = false) (hbank : (s.me.bank c.bank).state = .opened) :
    s.endStep c r = (s.setMe (s.me.setBank c.bank { s.me.bank c.bank with state := .retiring })).setRun .me
      { r with work := { r.work with startSent := true } } := by
  simp [State.endStep, hbegin, hbank]

theorem State.endStep_taken {c : EndCmd} (hbegun : r.work.startSent = true) (hchecked : r.work.checked = true)
    (hrows : (s.me.bank c.bank).nrows ≤ r.work.i) (htaken : (s.point s.tile portMc).buf = []) :
    s.endStep c r = (s.setMe (s.me.setBank c.bank { s.me.bank c.bank with state := .free })).complete .me r := by
  simp [State.endStep, hbegun, hchecked, hrows, htaken]

/-! ### Recurrences and scans (R216, R217) -/

/-- The instruction is a recurrence, or a scan. -/
def isScan : Instr → Bool
  | .meRecScan _ => true
  | _ => false

theorem exec_meRec {c : MeRecCmd} (hi : i = .meRecRec c ∨ i = .meRecScan c) (h : s.resumeMe i = some (r, u)) :
    exec i s = .next (u.recStep (isScan i) c r) := by
  obtain rfl | rfl := hi
  · show execMeRecRec c s = _
    simp only [execMeRecRec, h, isScan]
  · show execMeRecScan c s = _
    simp only [execMeRecScan, h, isScan]

/-- The value of INITV, +0 where the command has none (R216). -/
def recInitial (c : MeRecCmd) : BitVec 32 := match c.initv with | some v => v | none => 0

/-- Reading a map of the values of a function at the keys of a list. -/
theorem nget_map_of_mem {α : Type} (d : α) (f : Nat → α) {l : List Nat} {n : Nat} (h : n ∈ l) :
    nget d (l.map fun k => (k, f k)) n = f n := by
  induction l with
  | nil => simp at h
  | cons k l ih =>
    by_cases hk : k = n
    · simp [nget, hk]
    · simp [nget, hk, ih ((List.mem_cons.1 h).resolve_left (Ne.symm hk))]

/-- A carry register whose 128 positions hold one value reads as that (R216). -/
theorem Matrix.carryRow_setCarry_replicate (m : Matrix) (v : BitVec 32) :
    (m.setCarry (List.replicate 128 v)).carryRow = List.replicate 128 v := by
  have hcarry : ∀ n ∈ List.range 128, nget 0 (m.setCarry (List.replicate 128 v)).carry n = v := by
    intro n hn
    have hzip : (List.range 128).zip (List.replicate 128 v) = (List.range 128).map fun n => (n, v) := by
      rw [List.map_prod_left_eq_zip, List.map_const', List.length_range]
    rw [Matrix.setCarry, hzip]
    by_cases hv : v = 0
    · rw [List.filter_eq_nil_iff.2 (by simp [hv]), hv]
      rfl
    · have hv : v ≠ 0#32 := hv
      rw [List.filter_eq_self.2 (by simp [hv]), nget_map_of_mem 0 (fun _ => v) hn]
  rw [Matrix.carryRow, List.map_congr_left hcarry, List.map_const', List.length_range]

theorem State.recStep_initial {c : MeRecCmd} (scan : Bool) (hk : r.work.k = 0) (hcin : c.cin = 1) :
    s.recStep scan c r = (s.setMe { s.me.setCarry (List.replicate 128 (recInitial c)) with carryResp := [] }).setRun .me
      { r with work := { r.work with k := 1, j := 0 } } := by
  simp only [State.recStep, hk, hcin, if_true]
  rfl

theorem State.recStep_last {c : MeRecCmd} (scan : Bool) (hk : r.work.k = 3) (hchain : c.chain = false ∨ s.nextInChain = none) :
    s.recStep scan c r = s.complete .me r := by
  obtain hchain | hchain := hchain <;> simp [State.recStep, hk, hchain]

/-! ### `me.dg` (R222) -/

theorem exec_meDg {c : DgCmd} (h : s.resumeMe (.meDg c) = some (r, u)) : exec (.meDg c) s = .next (u.dgStep c r) := by
  show execMeDg c s = _
  simp only [execMeDg, h]

theorem State.dgStep_reads {c : DgCmd} {v : Nat} (hnone : nget? r.work.counts 0 = none)
    (hread : s.readColumn r c.ext 0 (16384 * elemBytes c.fmt + 2048) c.pois = .value v x w) :
    s.dgStep c r = w.setRun .me { x with work := { x.work with counts := [(0, v)] } } := by
  simp only [State.dgStep, hnone, hread]

theorem State.dgStep_ended {c : DgCmd} {n : Nat} (hsome : nget? r.work.counts 0 = some n)
    (hends : s.gatherWords portMa 8192 r 9000 = .ended x w) : s.dgStep c r = w.complete .me (x.raise Flag.len) := by
  simp only [State.dgStep, hsome, hends]

/-- Where gradients have come, the step goes on if no partition that the tile stands in is frozen (R222, R323). -/
theorem State.dgStep_full {c : DgCmd} {n v : Nat} (hsome : nget? r.work.counts 0 = some n)
    (hfull : s.gatherWords portMa 8192 r 9000 = .full v x w)
    (hruns : ∀ ks, s.runKeys .me r c.ext.base.toNat c.ext.bytes = some ks → ks.any (s.held s.tile) = false) :
    s.dgStep c r = if x.work.complete then w.complete .me (x.raise Flag.len) else w.dgWrite c x n v := by
  have hheld : (s.runKeys .me r c.ext.base.toNat c.ext.bytes).any (fun ks => ks.any (s.held s.tile)) = false := by
    cases hks : s.runKeys .me r c.ext.base.toNat c.ext.bytes with
    | none => rfl
    | some ks => exact hruns ks hks
  simp only [State.dgStep, hsome, hfull, hheld, Bool.false_eq_true, if_false]

/-- A test that nothing passes finds nothing. -/
theorem lfind_eq_none {α : Type} {p : α → Bool} (h : ∀ a, p a = false) (l : List α) : lfind p l = none := by
  induction l with
  | nil => rfl
  | cons a l ih => simp [lfind, h, ih]

/-- The first none of an order are none. -/
theorem firstBy_zero (le : Nat × Nat → Nat × Nat → Bool) {k : Nat} (hk : k = 0) (l : List (Nat × Nat)) : firstBy le k l = [] := by
  rw [firstBy, hk, List.map_eq_nil_iff]
  suffices ∀ acc, acc = [] → l.foldl (fun acc x => (insertBy le x acc).take 0) acc = [] from this [] rfl
  induction l with
  | nil => exact fun _ h => h
  | cons a l ih => exact fun _ _ => ih _ List.take_zero

/-- What drop and grow writes where nothing races: some bytes of the tile, none of them with K = 0; then the command completes. -/
theorem State.dgWrite_ends {c : DgCmd} (t v : Nat) (hrace : ∀ ks, firstRace s r.clock (cmdAgent r.id) ks true false = none) :
    ∃ cells m, (c.kcnt = 0 → cells = []) ∧ s.dgWrite c r t v =
      (((s.write r.clock (cmdAgent r.id) cells false false).setMe m).dropEnd portMa).complete .me r := by
  have hnone : ∀ writes, s.raceAddr r writes = none := fun writes => by
    rw [State.raceAddr, lfind_eq_none]
    · rfl
    · intro q
      split <;> simp [hrace]
  unfold State.dgWrite
  extract_lets es tile wOf mOf gOf gmin ps act idle k drop grow changed maskByte base zeros writes
  refine ⟨writes.filterMap fun q => (s.runKey .me r q.1).map fun x => (x, q.2), _, fun hk => ?_, by rw [hnone]⟩
  have hk : k = 0 := congrArg BitVec.toNat hk
  have hchanged : changed = [] := List.append_eq_nil_iff.2 ⟨firstBy_zero _ hk act, firstBy_zero _ hk idle⟩
  have hwrites : writes = [] := by
    simp only [writes, hchanged]
    rfl
  rw [hwrites]
  rfl

/-- A write of nothing changes no byte outside HBM, and where no region is DRAINING no byte at all and no region's record. -/
theorem State.write_nil_storesOnly (s : State) (c : Clock) (a : Nat) (marked atomic : Bool) :
    StoresOnly 0 0 s (s.write c a [] marked atomic) := by
  obtain ⟨hlocal, hall⟩ := s.write_local c a [] marked atomic (by simp)
  refine ⟨fun j hj _ => hlocal j hj, fun hd => ⟨fun j _ => ?_, (hall hd).2⟩⟩
  rw [(hall hd).1]
  rfl

/-- A write seen from a state with its memory and regions before, to one with those after. -/
theorem StoresOnly.congr {v : State} {k n : Nat} (h : StoresOnly k n w v) (hm : w.mem = s.mem) (hr : w.regions = s.regions)
    (hm' : t.mem = v.mem) (hr' : t.regions = v.regions) : StoresOnly k n s t := by
  simpa only [StoresOnly, SameMemoryBut, hm, hr, hm', hr'] using h

/-- The last step of a drop and grow that nothing races with. -/
theorem MeTaken.dgEnds {c : DgCmd} (h : MeTaken s u r i) (k : MeKeeps u w) (hx : x.id = r.id) (n v : Nat)
    (hrace : ∀ ks, firstRace w x.clock (cmdAgent x.id) ks true false = none) :
    EndedRun u .me r.id (w.dgWrite c x n v) ∧ (c.kcnt = 0 → StoresOnly 0 0 s (w.dgWrite c x n v)) := by
  obtain ⟨cells, m, hnone, hends⟩ := State.dgWrite_ends (c := c) n v hrace
  let p := w.write x.clock (cmdAgent x.id) cells false false
  have hp : MemWrite w p := State.write_memWrite ..
  have hdrop : MeKeeps p ((p.setMe m).dropEnd portMa) := (p.setMe_keeps m).trans (State.dropEnd_keeps ..)
  rw [hends]
  refine ⟨.of_complete ((hdrop.eng .me).trans ((hp.eng .me).trans (k.eng .me))) hx, fun hk => ?_⟩
  obtain ⟨-, hmem, -⟩ := ((p.setMe m).dropEnd portMa).complete_spec .me x
  obtain rfl : cells = [] := hnone hk
  exact (w.write_nil_storesOnly ..).congr (k.mem.trans h.mem) (k.regions.trans h.regions) (hmem.trans hdrop.mem)
    ((State.regions_complete ..).trans hdrop.regions)

/-- Settles O51: each command by its step in the case that the statement names, the row of the pipeline by its bank. -/
theorem matrixRows : Obligations.MatrixRows := by
  unfold Obligations.MatrixRows
  refine ⟨?acc, ?row, ?gath, ?pipe, ?retire, ?recur, ?dg⟩
  case acc =>
    intro s u r c hres
    have h := State.resumeMe_taken hres
    refine ⟨fun hfree => ⟨_, exec_meAcc_of_free hres hfree, ?_⟩, fun hopen => ⟨_, exec_meAcc_of_opened hres hopen, ?_⟩⟩
    · obtain ⟨hended, hmem, -⟩ := h.ended (u.setMe_keeps (u.me.setBank c.bank (accOpens c r.sect (u.me.bank c.bank)))) (x := r) rfl
      rw [h.me_setMe_complete (.refl u) (.refl r) (by simp), Matrix.bank_setBank_self, Matrix.bank_setBank_not]
      exact ⟨rfl, rfl, rfl, rfl, fun hinit _ hi => row_accOpens hinit _ _ hi, fun hinit => row_accOpens_kept hinit _ _, rfl,
        hended, hmem⟩
    · exact ⟨(h.faulted (.refl u) (.refl r) (by decide) _).1, State.me_faultAt ..⟩
  case row =>
    intro s u w r x c v hres hgo k row
    have h := State.resumeMe_taken hres
    refine ⟨fun hi htoken hbank => ⟨_, exec_meRow hres, ?_⟩,
      fun hi htoken hbank hpairs hrow hfull hroom => ⟨_, exec_meRow hres, ?_⟩, fun hi hpipe => ⟨_, exec_meRow hres, ?_⟩⟩
    · rw [State.rowStep_not_opened hgo hi htoken hbank]
      exact (h.faulted (.refl u) (.refl r) (by decide) _).1
    · exact h.rowFired (State.gatherWords_full hfull).2
        (State.rowStep_fires hgo hi htoken hbank hpairs hrow rfl hfull hroom)
    · rw [State.rowStep_last hgo hi]
      exact h.rowsDone hpipe [portMa]
  case gath =>
    intro s u w w2 r x c v idx hres hgo k row
    have h := State.resumeMe_taken hres
    refine ⟨fun hi htoken hbank hpairs hfull hheld hindex => ?_, fun hi hpipe => ⟨_, exec_meGath hres, ?_⟩⟩
    · have htakes : GathTakes u c r k v x w idx w2 := ⟨hgo, hi, htoken, hbank, hpairs, rfl, hfull, hheld, hindex⟩
      obtain ⟨hid, hkeeps⟩ := htakes.keeps
      refine ⟨fun hnull => ⟨_, exec_meGath hres, ?_⟩, fun hvalid hlow hhigh hroom => ⟨_, exec_meGath hres, ?_⟩⟩
      · rw [htakes.gathStep_null hnull]
        obtain ⟨hrun, hmem, -⟩ := h.runHas hkeeps (x := (x.indexed (w.indexResp w.tile portMi (gathWidth c) 200)).nextRow r.work.i)
          ((Run.nextRow_id ..).trans hid) (p := fun y => y.work.i = r.work.i + 1) (Run.nextRow_i ..)
        exact ⟨State.me_setRun .., hrun, hmem⟩
      · exact h.rowFired hkeeps (htakes.gathStep_fires hvalid hlow hhigh hroom)
    · rw [State.gathStep_last hgo hi]
      exact h.rowsDone hpipe r.endCodes
  case pipe =>
    intro s bank row cmd afmt a src resp rest hpipe w
    obtain ⟨g, hexec⟩ := exec_accumulatorWrite hpipe
    have hw : w = src.weights s.me.active := by cases src <;> rfl
    refine ⟨_, hexec, ?_⟩
    rw [State.me_setEng, State.me_setMe, hw]
    let k := (s.me.bank bank).accumulate s.me.active row afmt a src resp
    have hself : (Matrix.bank { s.me.setBank bank k with pipe := rest } bank) = k := s.me.bank_setBank_self bank k
    rw [hself]
    exact ⟨rfl, Bank.row_accumulate_self .., fun j hj => Bank.row_accumulate_ne _ _ hj .., s.me.bank_setBank_not bank k,
      .of_eq rfl, .of_eq rfl⟩
  case retire =>
    intro s u r c hres
    have h := State.resumeMe_taken hres
    refine ⟨fun hbegin => ⟨fun hbank => ⟨_, exec_meEnd hres, ?_⟩, fun hbank => ⟨_, exec_meEnd hres, ?_⟩⟩,
      fun hbegun hchecked hrows htaken => ⟨_, exec_meEnd hres, ?_⟩⟩
    · rw [State.endStep_not_opened hbegin hbank]
      exact (h.faulted (.refl u) (.refl r) (by decide) _).1
    · rw [State.endStep_opened hbegin hbank]
      obtain ⟨hrun, hmem, -⟩ := h.runHas (u.setMe_keeps (u.me.setBank c.bank { u.me.bank c.bank with state := .retiring }))
        (x := { r with work := { r.work with startSent := true } }) rfl (p := fun y => y.work.startSent = true) rfl
      exact ⟨by simp, hrun, hmem⟩
    · rw [State.endStep_taken hbegun hchecked hrows htaken]
      obtain ⟨hended, hmem, -⟩ := h.ended (u.setMe_keeps (u.me.setBank c.bank { u.me.bank c.bank with state := .free })) (x := r) rfl
      rw [h.me_setMe_complete (.refl u) (.refl r) (by simp), Matrix.bank_setBank_self]
      exact ⟨rfl, hended, hmem⟩
  case recur =>
    intro s i c hi r u hres
    have h := State.resumeMe_taken hres
    refine ⟨fun hk hcin => ⟨_, exec_meRec hi hres, ?_⟩, fun hk hchain => ⟨_, exec_meRec hi hres, ?_⟩⟩
    · rw [State.recStep_initial _ hk hcin]
      obtain ⟨hrun, hmem, -⟩ := h.runHas
        (u.setMe_keeps { u.me.setCarry (List.replicate 128 (recInitial c)) with carryResp := [] })
        (x := { r with work := { r.work with k := 1, j := 0 } }) rfl (p := fun y => y.work.k = 1) rfl
      refine ⟨?_, hrun, hmem⟩
      rw [State.me_setRun, State.me_setMe]
      exact u.me.carryRow_setCarry_replicate (recInitial c)
    · rw [State.recStep_last _ hk hchain]
      obtain ⟨hended, hmem, -⟩ := h.ended (.refl u) (x := r) rfl
      exact ⟨hended, hmem⟩
  case dg =>
    intro s u w r x c v hres
    have h := State.resumeMe_taken hres
    refine ⟨fun hnone hread => ⟨_, exec_meDg hres, ?_⟩, fun n hsome => ⟨fun hends => ⟨_, exec_meDg hres, ?_⟩, fun hfull hruns => ?_⟩⟩
    · rw [State.dgStep_reads hnone hread]
      obtain ⟨hx, hkeeps⟩ := State.readColumn_value hread
      obtain ⟨hrun, hmem, -⟩ := h.runHas hkeeps (x := { x with work := { x.work with counts := [(0, v)] } }) hx.id
        (p := fun y => nget? y.work.counts 0 = some v) rfl
      exact ⟨hrun, hmem⟩
    · rw [State.dgStep_ended hsome hends]
      obtain ⟨hx, hkeeps⟩ := State.gatherWords_ended hends
      obtain ⟨hended, hmem, -⟩ := h.ended hkeeps (hx.raise Flag.len).id
      exact ⟨hended, hmem⟩
    · obtain ⟨hx, hkeeps⟩ := State.gatherWords_full hfull
      have hstep := State.dgStep_full hsome hfull hruns
      refine ⟨fun hcut => ⟨_, exec_meDg hres, ?_⟩, fun hwhole hrace => ⟨_, exec_meDg hres, ?_⟩⟩
      · rw [hstep, if_pos hcut]
        obtain ⟨hended, hmem, -⟩ := h.ended hkeeps (hx.raise Flag.len).id
        exact ⟨hended, hmem⟩
      · rw [hstep, if_neg (by simp [hwhole])]
        exact h.dgEnds hkeeps hx.id n v hrace

end Sys2Proof.Machine

/-! PROOFS. The pattern compiler and the pattern commands (R218, R219, R264-R271, R338): the statement O52. -/

namespace Sys2Proof.Machine

open Sys2Proof

variable {s t u v w : State} {r x : Run}

/-! ### Compiles (R269, R338) -/

/-- Room made in a watch table discards an entry at most, of some cluster (R338). -/
theorem State.watchRoom_keeps {table : Nat × Nat} (h : s.watchRoom table = some t) : MeKeeps s t := by
  unfold State.watchRoom at h
  dsimp only at h
  split at h
  · cases h; exact .refl s
  · split at h
    · simp at h
    · cases h; exact ⟨rfl, rfl, rfl, rfl, fun _ => rfl⟩

/-- A range registered has made room in watch tables at most (R338). -/
theorem State.register_keeps {q : Compile} (h : s.register q = some t) : MeKeeps s t := by
  have hfold : ∀ (tables : List (Nat × Nat)) (o : Option State), (∀ v, o = some v → MeKeeps s v) →
      ∀ v, (tables.foldl (fun s t => s.bind fun s => s.watchRoom t) o) = some v → MeKeeps s v := by
    intro tables
    induction tables with
    | nil => exact fun _ h => h
    | cons table tables ih =>
      refine fun o ho => ih _ fun v hv => ?_
      obtain ⟨p, hp, hroom⟩ := Option.bind_eq_some_iff.1 hv
      exact (ho p hp).trans (State.watchRoom_keeps hroom)
  unfold State.register at h
  split at h
  · cases h; exact .refl s
  · exact hfold _ _ (fun v hv => by cases hv; exact .refl s) t h

/-- A tile read has noted its read and done nothing else (R264, R303). -/
theorem State.readTile_done {clock : Clock} {cmd : Nat} {base : Word} {fmt : BitVec 4} {ks : List Nat}
    {cols : NMap (List MCell)} {masks : List (BitVec 512)} {resp : Clock}
    (h : s.readTile clock cmd base fmt ks = .done cols masks resp t) : MeKeeps s t ∧ t.clusters = s.clusters := by
  unfold State.readTile at h
  dsimp only at h
  split at h
  · simp at h
  · simp at h
  · cases h; exact ⟨noteRead_keeps .., rfl⟩

/-- The entry that a compile builds at generation `g0` from a tile that it has read (R267, R269). -/
def Compile.entry (q : Compile) (g0 : BitVec 32) (since : Nat) (cols : NMap (List MCell)) (masks : List (BitVec 512))
    (resp : Clock) : PatEntry :=
  let dense := densePath q.thresh masks
  { key := { q.key with gen := g0 }, dense := dense, words := if dense then 0 else patternWords masks, cols := cols
    masks := masks.zip (List.range 128) |>.map fun p => (p.2, p.1), since := since, resp := resp }

/-- When a compile's range was registered: before, or now (R338). -/
def Compile.registered (q : Compile) (now : Nat) : Nat := match q.since with | some t => t | none => now

/-- The compile once it has built that entry. -/
def Compile.compiled (q : Compile) (g0 : BitVec 32) (now : Nat) (cols : NMap (List MCell)) (masks : List (BitVec 512))
    (resp : Clock) : Compile :=
  { q with since := some (q.registered now), g0 := some g0, built := some (q.entry g0 (q.registered now) cols masks resp) }

/-- The compile at the head that waits for a watch table does nothing (R338). -/
theorem exec_patternCompile_waits {q : Compile} {rest : List Compile} (hq : s.cluster.compiles = q :: rest)
    (hroom : s.register q = none) : exec .patternCompile s = .next s := by
  show execPatternCompile s = _
  simp only [execPatternCompile, hq, hroom, ite_self]

/-- The compile at the head that has its range registered and its tile read holds its entry, in its place (R269). -/
theorem exec_patternCompile_built {q : Compile} {rest : List Compile} {cols : NMap (List MCell)} {masks : List (BitVec 512)}
    {resp : Clock} (hq : s.cluster.compiles = q :: rest) (hnew : q.built = none)
    (hruns : (rangeKeys q.key.range).any (s.held q.tile) = false) (hroom : s.register q = some v)
    (hread : v.readTile q.clock q.cmd q.key.base q.key.fmt (rangeKeys q.key.range) = .done cols masks resp u) :
    ∃ cache, exec .patternCompile s = .next (u.setCluster { u.cluster with
      cache := cache, compiles := q.compiled (s.cluster.genOf q.key.id) v.ticks cols masks resp :: rest }) := by
  let e := q.entry (s.cluster.genOf q.key.id) (q.registered v.ticks) cols masks resp
  refine ⟨u.makeRoom e.bytes u.cluster.cache.length u.cluster.cache, ?_⟩
  show execPatternCompile s = _
  simp only [execPatternCompile, hq, hnew, hruns, hroom, hread, Option.isSome_none, Bool.or_false, Bool.false_eq_true, if_false]
  rfl

/-- A compile whose generation stands ends with its entry in the cache; another starts again (R269). -/
theorem exec_patternCompileComplete {q : Compile} {rest : List Compile} {e : PatEntry} {g : BitVec 32}
    (hq : s.cluster.compiles = q :: rest) (hbuilt : q.built = some e) (hg : q.g0 = some g) :
    exec .patternCompileComplete s = .next (s.setCluster (
      if s.cluster.genOf q.key.id = g then { s.cluster with
        cache := (s.cluster.cache.filter fun x => !(x.key.id = q.key.id && !s.patInUse x)) ++ [e], compiles := rest }
      else { s.cluster with compiles := { q with g0 := none, built := none } :: rest })) := by
  show execPatternCompileComplete s = _
  by_cases h : s.cluster.genOf q.key.id = g <;> simp [execPatternCompileComplete, hq, hbuilt, hg, h]

/-! ### Requests and hits (R268, R269) -/

/-- A key looked up moves its entry to the end of the cache, and does nothing else (R268). -/
theorem State.patHit_keeps {k : PatKey} {cmd : Nat} {e : PatEntry} (h : s.patHit k cmd = some (e, t)) : MeKeeps s t := by
  unfold State.patHit at h
  dsimp only at h
  split at h
  · simp at h
  · cases h; exact State.setCluster_keeps ..

/-- Whether a key is found hangs on the cluster's cache alone. -/
theorem State.patHit_isSome {k : PatKey} {cmd : Nat} (hc : t.clusters = s.clusters) (ht : t.tile = s.tile)
    (h : (s.patHit k cmd).isSome) : (t.patHit k cmd).isSome := by
  have hcluster : t.cluster = s.cluster := by rw [State.cluster, hc, ht, State.cluster]
  unfold State.patHit at h ⊢
  rw [hcluster]
  dsimp only at h ⊢
  split at h <;> simp_all

/-- With room in the queue a compile of the identity is in it, the command's own where none was there (R269). -/
theorem State.requestCompile_of_room {k : PatKey} (hroom : s.cluster.compiles.length < 32) (r : Run) (waits : Bool) :
    ∃ t, s.requestCompile r k waits = some t ∧ MeKeeps s t ∧ (∃ q ∈ t.cluster.compiles, q.key.id = k.id) ∧
      ((∀ q ∈ s.cluster.compiles, q.key.id ≠ k.id) → ∃ q ∈ t.cluster.compiles, q.key = k) := by
  by_cases hjoin : s.cluster.compiles.any fun q => q.key.id = k.id
  · obtain ⟨q, hq, hid⟩ := List.any_eq_true.1 hjoin
    have hid : q.key.id = k.id := by simpa using hid
    exact ⟨s, by rw [State.requestCompile, if_pos hjoin], .refl s, ⟨q, hq, hid⟩, fun hnone => absurd hid (hnone q hq)⟩
  · refine ⟨_, by rw [State.requestCompile, if_neg hjoin, if_neg (Nat.not_le.2 hroom)], State.setCluster_keeps .., ?_⟩
    rw [State.cluster_setCluster]
    have hlast := List.mem_append_right s.cluster.compiles (List.mem_singleton_self (a := ({
      key := k, tile := s.tile, cmd := r.id, waits := waits, thresh := s.thresh, clock := r.clock } : Compile)))
    exact ⟨⟨_, hlast, rfl⟩, fun _ => ⟨_, hlast, rfl⟩⟩

/-! ### `me.pat` (R218, R219) -/

section
variable {c : PatCmd}

theorem exec_mePat_unreached (h : s.resumeMe (.mePat c) = some (r, u)) (hnew : r.work.checked = false)
    (hkeys : u.runKeys .me r c.ext.base.toNat c.ext.bytes = none) :
    exec (.mePat c) s = .next (u.faultAt .me r 0x105 (u.unreached r c.ext)) := by
  show execMePat c s = _
  simp only [execMePat, h, hnew, hkeys, Bool.false_eq_true, if_false]

/-- The key that the command asks for, where its extent's bytes stand at these memory keys. -/
def State.patKeyOf (s : State) (c : PatCmd) (ks : List Nat) : PatKey :=
  s.patKey (patIdOf c.tid c.trow c.tcol) c.ext (patWeights c.afmt) ks

theorem exec_mePat_bound {ks : List Nat} (h : s.resumeMe (.mePat c) = some (r, u)) (hnew : r.work.checked = false)
    (hkeys : u.runKeys .me r c.ext.base.toNat c.ext.bytes = some ks) (hbind : u.bindPat r (u.patKeyOf c ks) = some t) :
    exec (.mePat c) s = .next t := by
  show execMePat c s = _
  rw [State.patKeyOf] at hbind
  simp only [execMePat, h, hnew, hkeys, hbind, Bool.false_eq_true, if_false]

theorem exec_mePat_awaits {ks : List Nat} (h : s.resumeMe (.mePat c) = some (r, u)) (hnew : r.work.checked = false)
    (hkeys : u.runKeys .me r c.ext.base.toNat c.ext.bytes = some ks) (hmiss : u.patHit (u.patKeyOf c ks) r.id = none)
    (hrequest : u.requestCompile r (u.patKeyOf c ks) true = some t) : exec (.mePat c) s = .next (t.setRun .me r) := by
  show execMePat c s = _
  rw [State.patKeyOf] at hmiss hrequest
  simp only [execMePat, h, hnew, hkeys, State.bindPat, hmiss, hrequest, Bool.false_eq_true, if_false]

theorem exec_mePat_row {e : PatEntry} (h : s.resumeMe (.mePat c) = some (r, u)) (hbound : r.work.checked = true)
    (hentry : u.patOf r.id = some e) : exec (.mePat c) s = .next (u.patRow c r e) := by
  show execMePat c s = _
  simp only [execMePat, h, hbound, hentry, if_true]

/-- The record of a command that has bound its pattern, whose weights are these response elements (R299). -/
def Run.bound (r : Run) (seen : Clock) : Run := { r with clock := r.clock.join seen, work := { r.work with checked := true } }

/-- A pattern that is found is bound: at once where its entry holds words, on the dense path once its tile has been staged (R270). -/
theorem State.bindPat_hit {k : PatKey} {e : PatEntry} (hhit : s.patHit k r.id = some (e, w))
    (hready : e.dense = false ∨ (rangeKeys k.range).any (s.held s.tile) = false ∧
      ∃ cols masks resp v, s.readTile r.clock r.id k.base k.fmt (rangeKeys k.range) = .done cols masks resp v) :
    ∃ (v : State) (seen : Clock), MeKeeps s v ∧
      s.bindPat r k = some ((v.setMe { v.me with pat := some (e.key.id, e.key.gen) }).setRun .me (r.bound seen)) := by
  cases hdense : e.dense
  · refine ⟨w, e.resp, State.patHit_keeps hhit, ?_⟩
    simp only [State.bindPat, hhit, hdense, Bool.not_false, if_true]
    rfl
  · obtain hready | ⟨hruns, cols, masks, resp, v, hread⟩ := hready
    · rw [hdense] at hready; cases hready
    · obtain ⟨hkeeps, hclusters⟩ := State.readTile_done hread
      obtain ⟨⟨e', w'⟩, hagain⟩ := Option.isSome_iff_exists.1
        (State.patHit_isSome (k := k) (cmd := r.id) hclusters hkeeps.tile (by simp [hhit]))
      refine ⟨w', resp, hkeeps.trans (State.patHit_keeps hagain), ?_⟩
      simp only [State.bindPat, hhit, hdense, hruns, hread, hagain, Bool.not_true, Bool.false_eq_true, if_false]
      rfl

/-- A row command that is done with its rows, its reads noted for retirement where IP asks for it (R224). -/
theorem State.patRow_last {e : PatEntry} (hgo : r.work.finishing = false) (hi : c.count.toNat < r.work.i)
    (hpipe : s.me.inPipe r.id = false) : ∃ t, s.patRow c r e = t.complete .me r ∧ MeKeeps s t := by
  let p := if c.ip then s.setMe { s.me with ipReads := s.me.ipReads.join (r.clock.release (cmdAgent r.id)) } else s
  have hp : MeKeeps s p ∧ p.me.inPipe r.id = false := by
    by_cases hip : c.ip = true
    · rw [show p = s.setMe _ from if_pos hip, State.me_setMe]
      exact ⟨State.setMe_keeps .., hpipe⟩
    · rw [show p = s from if_neg hip]
      exact ⟨.refl s, hpipe⟩
  obtain ⟨t, hdone, ht⟩ := State.rowsDone_of_accumulated hp.2 [portMa]
  refine ⟨t, ?_, hp.1.trans ht⟩
  rw [← hdone]
  simp [State.patRow, hgo, hi, p]

theorem State.patRow_fires {e : PatEntry} {bits : Nat} (hgo : r.work.finishing = false) (hi : r.work.i ≤ c.count.toNat)
    (hbank : (s.me.bank c.bank).state = .opened) (hrow : (c.base.toNat + r.work.i) % 256 < (s.me.bank c.bank).nrows)
    (hfull : s.gatherWords portMa (runBits c.afmt 128 / 64) { r with upc := microCount r.work.i } 200 = .full bits x w)
    (hroom : (w.me.bank c.bank).depth < 256 * w.dcap) :
    RowFired w r (.row c.bank ((c.base.toNat + r.work.i) % 256) c.afmt (cellsOf c.afmt bits 128) (.tile e.key.fmt e.cols e.masks)
      r.id (x.work.resp.join e.resp)) (s.patRow c r e) := by
  obtain ⟨hx, -⟩ := State.gatherWords_full hfull
  have hid : x.id = r.id := hx.id
  obtain ⟨t, hfire, ht, hpipe⟩ := State.fire_of_room hroom x ((c.base.toNat + r.work.i) % 256) c.afmt (cellsOf c.afmt bits 128)
    (.tile e.key.fmt e.cols e.masks) (x.work.resp.join e.resp)
  refine ⟨t, x, ?_, ht, hid ▸ hpipe, hid⟩
  have hmore : decide (r.work.i > c.count.toNat) = false := decide_eq_false (Nat.not_lt.2 hi)
  have hrow : ¬ (c.base.toNat + r.work.i) % 256 ≥ (s.me.bank c.bank).nrows := Nat.not_le.2 hrow
  simp only [State.patRow, hgo, hmore, hbank, hfull, hrow, hfire, Bool.or_false, Bool.false_eq_true, ne_eq, not_true_eq_false,
    if_false]
  rfl

end

/-! ### `me.pcomp` (R271) -/

section
variable {c : PcompCmd}

theorem exec_mePcomp_unreached (h : s.resumeMe (.mePcomp c) = some (r, u))
    (hkeys : u.runKeys .me r c.ext.base.toNat c.ext.bytes = none) (hwait : c.wait = false) :
    exec (.mePcomp c) s = .next (u.complete .me r) := by
  show execMePcomp c s = _
  simp only [execMePcomp, h, hkeys, hwait, Bool.false_eq_true, if_false]

/-- The key that the command asks for, where its extent's bytes stand at these memory keys. -/
def State.pcompKeyOf (s : State) (c : PcompCmd) (ks : List Nat) : PatKey := s.patKey (patIdOf c.tid c.trow c.tcol) c.ext c.fmt ks

theorem exec_mePcomp_cached {ks : List Nat} (h : s.resumeMe (.mePcomp c) = some (r, u))
    (hkeys : u.runKeys .me r c.ext.base.toNat c.ext.bytes = some ks) (hhit : ∃ e ∈ u.cluster.cache, e.key = u.pcompKeyOf c ks) :
    exec (.mePcomp c) s = .next (u.complete .me r) := by
  have hany : (u.cluster.cache.any fun e => e.key = u.pcompKeyOf c ks) = true := by simpa using hhit
  show execMePcomp c s = _
  rw [State.pcompKeyOf] at hany
  simp only [execMePcomp, h, hkeys, hany, if_true]

theorem exec_mePcomp_requests {ks : List Nat} (h : s.resumeMe (.mePcomp c) = some (r, u))
    (hkeys : u.runKeys .me r c.ext.base.toNat c.ext.bytes = some ks) (hmiss : ∀ e ∈ u.cluster.cache, e.key ≠ u.pcompKeyOf c ks)
    (hrequest : u.requestCompile r (u.pcompKeyOf c ks) c.wait = some t) :
    exec (.mePcomp c) s = .next (if c.wait then t.setRun .me r else t.complete .me r) := by
  have hany : (u.cluster.cache.any fun e => e.key = u.pcompKeyOf c ks) = false := by simpa using hmiss
  show execMePcomp c s = _
  rw [State.pcompKeyOf] at hany hrequest
  simp only [execMePcomp, h, hkeys, hany, hrequest, Bool.false_eq_true, if_false]

end

/-- Settles O52: a compile by whether its range has room, its tile can be read and its generation stands; the commands by whether
their entry is there. -/
theorem patternCache : Obligations.PatternCache := by
  unfold Obligations.PatternCache
  refine ⟨?compile, ?pat, ?pcomp⟩
  case compile =>
    intro s q rest hq g0
    refine ⟨fun _ hroom => exec_patternCompile_waits hq hroom, fun v cols masks resp u hnew hruns hroom hread => ?_,
      fun e g hbuilt hg => ?_⟩
    · obtain ⟨cache, hexec⟩ := exec_patternCompile_built hq hnew hruns hroom hread
      have hkeeps := (State.register_keeps hroom).trans (State.readTile_done hread).1
      exact ⟨_, q.entry g0 (q.registered v.ticks) cols masks resp, q.compiled g0 v.ticks cols masks resp, hexec,
        by rw [State.cluster_setCluster], rfl, rfl, rfl, Option.some_ne_none _, rfl, rfl, rfl, .of_eq hkeeps.mem, .of_eq hkeeps.ctxs⟩
    · have hexec := exec_patternCompileComplete hq hbuilt hg
      refine ⟨fun hstands => ⟨_, hexec, ?_⟩, fun hstale => ⟨_, hexec, ?_⟩⟩
      · rw [if_pos hstands, State.cluster_setCluster]
        exact ⟨rfl, List.mem_append_right _ (List.mem_singleton_self e), .of_eq rfl⟩
      · rw [if_neg hstale, State.cluster_setCluster]
        exact ⟨rfl, rfl, .of_eq rfl⟩
  case pat =>
    intro s u w r c e hres keys
    have h := State.resumeMe_taken hres
    refine ⟨fun hnew hkeys => ⟨_, exec_mePat_unreached hres hnew hkeys, (h.faulted (.refl u) (.refl r) (by decide) _).1⟩,
      fun ks hnew hkeys => ⟨fun hhit hready => ?_, fun hmiss hroom => ?_⟩,
      fun hbound hentry hgo => ⟨fun hi hpipe => ⟨_, exec_mePat_row hres hbound hentry, ?_⟩,
        fun v x hi hbank hrow hfull hroom => ⟨_, exec_mePat_row hres hbound hentry, ?_⟩⟩⟩
    · obtain ⟨v, seen, hkeeps, hbind⟩ := State.bindPat_hit hhit hready
      obtain ⟨hrun, hmem, -⟩ := h.runHas (hkeeps.trans (v.setMe_keeps { v.me with pat := some (e.key.id, e.key.gen) }))
        (x := r.bound seen) rfl (p := fun y => y.work.checked = true) rfl
      exact ⟨_, exec_mePat_bound hres hnew hkeys hbind, by rw [State.me_setRun, State.me_setMe], hrun, hmem⟩
    · obtain ⟨t, hrequest, hkeeps, hqueued, hown⟩ := State.requestCompile_of_room
        (k := u.patKey (patIdOf c.tid c.trow c.tcol) c.ext (patWeights c.afmt) ks) hroom r true
      obtain ⟨hrun, hmem, -⟩ := h.runHas hkeeps (x := r) rfl (p := fun y => y.work.checked = false) hnew
      exact ⟨_, exec_mePat_awaits hres hnew hkeys hmiss hrequest, hqueued, hown, hrun, hmem⟩
    · obtain ⟨t, hlast, hkeeps⟩ := State.patRow_last (e := e) hgo hi hpipe
      obtain ⟨hended, hmem, -⟩ := h.ended hkeeps (x := r) rfl
      rw [hlast]
      exact ⟨hended, by rw [h.me_complete hkeeps (.refl r)]; rfl, hmem⟩
    · exact h.rowFired (State.gatherWords_full hfull).2 (State.patRow_fires hgo hi hbank hrow hfull hroom)
  case pcomp =>
    intro s u r c hres keys
    have h := State.resumeMe_taken hres
    obtain ⟨hended, hmem, -⟩ := h.ended (.refl u) (x := r) rfl
    refine ⟨fun hkeys hwait => ⟨_, exec_mePcomp_unreached hres hkeys hwait, hended, hmem⟩, fun ks hkeys => ⟨fun hhit =>
      ⟨_, exec_mePcomp_cached hres hkeys hhit, hended, State.cluster_complete .., hmem⟩, fun hmiss hroom => ?_⟩⟩
    obtain ⟨t, hrequest, hkeeps, hqueued, -⟩ := State.requestCompile_of_room (k := u.pcompKeyOf c ks) hroom r c.wait
    refine ⟨_, exec_mePcomp_requests hres hkeys hmiss hrequest, ?_⟩
    obtain ⟨hended, hmem, -⟩ := h.ended hkeeps (x := r) rfl
    obtain ⟨hrun, hmem', -⟩ := h.runHas hkeeps (x := r) rfl (p := fun y => y = r) rfl
    cases hwait : c.wait
    · rw [if_neg Bool.false_ne_true, State.cluster_complete]
      exact ⟨hqueued, hmem, fun _ => hended, nofun⟩
    · rw [if_pos rfl]
      exact ⟨hqueued, hmem', nofun, fun _ => hrun⟩

end Sys2Proof.Machine
